-- ==== Sys2Proof/Word.lean ====
section
/-! DEFINITION. The word types of the block: registers, slots, command and descriptor words (R9, R10). -/

namespace Sys2Proof

/-- A byte of BUF (R30). -/
abbrev Byte := BitVec 8

/-- A 16-bit field: GPC, a descriptor parameter, a payload type tag (R28, R100, R160). -/
abbrev Half := BitVec 16

/-- A 32-bit register or command operand (R22 to R29, R90). -/
abbrev Word := BitVec 32

/-- A slot of the Document store (R31). -/
abbrev Cell64 := BitVec 64

/-- A command word or a descriptor word (R90, R100). -/
abbrev Wide := BitVec 128

end Sys2Proof
end

