-- ==== Sys2Proof/Machine/Arith.lean ====
section
/-! DEFINITION. The arithmetic helper `cl2` of R12. -/

namespace Sys2Proof.Machine

/-- The least `k' ≥ k` with `n ≤ 2 ^ k'`, searched for at most `fuel` further exponents. -/
def cl2From (n : Nat) : Nat → Nat → Nat
  | 0, k => k
  | fuel + 1, k => if n ≤ 2 ^ k then k else cl2From n fuel (k + 1)

/-- `cl2(n)`, "the least k >= 0 with 2^k >= n" (R12). The fuel `n` suffices because `n ≤ 2 ^ n`. Every rule
that uses it first refuses `n = 0`. -/
def cl2 (n : Nat) : Nat := cl2From n n 0

end Sys2Proof.Machine
end

