-- ==== Sys2Proof/Syntax.lean ====
section
/-! DEFINITION. The instructions: nine host commands and fifteen rows of step descriptors
(spec/opcode_table.json; R91, R101), with their operands (R92, R102). -/

namespace Sys2Proof

/-- The six kinds of fault (R250), codes 1 to 6 in this order. -/
inductive FaultKind where
  | bufferOverflow
  | malformedHeader
  | boundsViolation
  | invalidVariant
  | illegalGrammar
  | illegalCommand
  deriving DecidableEq, Repr

/-- The two directions of a codec run (R182). -/
inductive Dir where
  | encode
  | decode
  deriving DecidableEq, Repr

/-- The form of a length or count prefix (R100 field LM, R225). -/
inductive LenMode where
  /-- LM = 0, the table's suffix `.N`: a bounded n-bit integer. -/
  | bounded
  /-- LM = 1, the table's suffix `.V`: a varuint. -/
  | varuint
  deriving DecidableEq, Repr

/-- One constructor per row of the opcode table. Operands are unsigned and used as they stand (R92, R104). -/
inductive Instr where
  /-- `BS_INIT cap, start, ext` (R130). -/
  | bsInit (cap start ext : Word)
  /-- `BS_WRITE_BITS value, width` (R133). -/
  | bsWriteBits (value width : Word)
  /-- `BS_READ_BITS width` (R135). -/
  | bsReadBits (width : Word)
  /-- `BS_GET_LENGTH` (R134). -/
  | bsGetLength
  /-- `BS_SET_LIMIT bytes` (R136). -/
  | bsSetLimit (bytes : Word)
  /-- `FR_WRITE_HEADER length, tag` (R162). -/
  | frWriteHeader (length : Word) (tag : Half)
  /-- `FR_READ_HEADER tag` (R163). -/
  | frReadHeader (tag : Half)
  /-- `CD_ENCODE entry` (R180). -/
  | cdEncode (entry : Half)
  /-- `CD_DECODE entry` (R181). -/
  | cdDecode (entry : Half)
  /-- `END` (R187). -/
  | gwEnd
  /-- `FAIL code` (R188). -/
  | gwFail (code : FaultKind)
  /-- `PRES off, skip` (R190). -/
  | gwPres (off skip : Half)
  /-- `CHOICE nalt` (R191). -/
  | gwChoice (nalt : Half)
  /-- `ALT off, target` (R192). -/
  | gwAlt (off target : Half)
  /-- `LIST.N off, max, body, elem, stride` (R193). -/
  | gwListN (off max body elem stride : Half)
  /-- `LIST.V off, max, body, elem, stride` (R193). -/
  | gwListV (off max body elem stride : Half)
  /-- `LEND` (R194). -/
  | gwLend
  /-- `ENUM off, n` (R221). -/
  | gwEnum (off n : Half)
  /-- `NBIT off, min, max` (R222). -/
  | gwNbit (off min max : Half)
  /-- `VARUINT off, vb` (R224). -/
  | gwVaruint (off vb : Half)
  /-- `STRING.N off, cap, chw` (R226). -/
  | gwStringN (off cap : Half) (chw : Byte)
  /-- `STRING.V off, cap, chw` (R226). -/
  | gwStringV (off cap : Half) (chw : Byte)
  /-- `BYTES.N off, cap` (R227). -/
  | gwBytesN (off cap : Half)
  /-- `BYTES.V off, cap` (R227). -/
  | gwBytesV (off cap : Half)
  deriving DecidableEq, Repr

/-- The instructions of level 1, presented on the command port (R7); the others are descriptors, fetched
from GT. -/
def Instr.isCommand : Instr → Bool
  | .bsInit _ _ _ => true
  | .bsWriteBits _ _ => true
  | .bsReadBits _ => true
  | .bsGetLength => true
  | .bsSetLimit _ => true
  | .frWriteHeader _ _ => true
  | .frReadHeader _ => true
  | .cdEncode _ => true
  | .cdDecode _ => true
  | .gwEnd => false
  | .gwFail _ => false
  | .gwPres _ _ => false
  | .gwChoice _ => false
  | .gwAlt _ _ => false
  | .gwListN _ _ _ _ _ => false
  | .gwListV _ _ _ _ _ => false
  | .gwLend => false
  | .gwEnum _ _ => false
  | .gwNbit _ _ _ => false
  | .gwVaruint _ _ => false
  | .gwStringN _ _ _ => false
  | .gwStringV _ _ _ => false
  | .gwBytesN _ _ => false
  | .gwBytesV _ _ => false

end Sys2Proof
end

