-- ==== Sys2Proof/WellFormed.lean ====
section
/-! DEFINITION. Which operands an instruction may have: the part of R93 and R103 that the operand types do
not already say. -/

namespace Sys2Proof

/-- R93 (d) for the commands, R103 (e) to (l) for the descriptors. -/
def Instr.wf : Instr → Bool
  | .bsInit _ _ _ => true
  | .bsWriteBits _ width => width.toNat ≤ 32
  | .bsReadBits width => width.toNat ≤ 32
  | .bsGetLength => true
  | .bsSetLimit _ => true
  | .frWriteHeader _ _ => true
  | .frReadHeader _ => true
  | .cdEncode _ => true
  | .cdDecode _ => true
  | .gwEnd => true
  | .gwFail _ => true
  | .gwPres _ _ => true
  | .gwChoice nalt => 1 ≤ nalt.toNat
  | .gwAlt _ _ => true
  | .gwListN _ max body _ _ => 1 ≤ body.toNat && max.toNat ≤ 255
  | .gwListV _ _ body _ _ => 1 ≤ body.toNat
  | .gwLend => true
  | .gwEnum _ n => 1 ≤ n.toNat
  | .gwNbit _ min max => min.toNat ≤ max.toNat && Machine.cl2 (max.toNat - min.toNat + 1) ≤ 8
  | .gwVaruint _ vb => 1 ≤ vb.toNat && vb.toNat ≤ 64
  | .gwStringN _ cap chw => 1 ≤ chw.toNat && chw.toNat ≤ 8 && cap.toNat ≤ 255
  | .gwStringV _ _ chw => 1 ≤ chw.toNat && chw.toNat ≤ 8
  | .gwBytesN _ cap => cap.toNat ≤ 255
  | .gwBytesV _ _ => true

end Sys2Proof
end

