-- ==== Sys2Proof/Decode.lean ====
section
/-! DEFINITION. The two decoders (command words R90 to R93, descriptor words R100 to R103), total and
rejecting by name, the encoder written from the same tables, and R93's `LegalCmd` and R103's `LegalGW` word
for word. -/

namespace Sys2Proof

/-- Why a word is no instruction; to the block every reason is one fault, IllegalCommand(1) on the port
(R93) and IllegalGrammar(1) in the table (R103). -/
inductive Reject where
  | reservedBits
  | unknownOpcode
  | unusedOperand
  | widthRange
  | tagRange
  | entryRange
  | unknownKind
  | lengthMode
  | unusedField
  | failCode
  | choiceCount
  | listBody
  | enumCount
  | nbitRange
  | varuintBits
  | charWidth
  | prefixCap
  deriving DecidableEq, Repr

namespace Decode

/-- `OPC` of a command word, `KIND` of a descriptor word: bits 127:120 (R90, R100). -/
def topByte (w : Wide) : Byte := w.extractLsb' 120 8

/-- Bits 119:96 of a command word, "must be 0" (R90). -/
def reserved (w : Wide) : BitVec 24 := w.extractLsb' 96 24

/-- `ARG2`, bits 95:64 (R90). -/
def arg2 (w : Wide) : Word := w.extractLsb' 64 32

/-- `ARG1`, bits 63:32 (R90). -/
def arg1 (w : Wide) : Word := w.extractLsb' 32 32

/-- `ARG0`, bits 31:0 (R90). -/
def arg0 (w : Wide) : Word := w.extractLsb' 0 32

/-- `LM`, bits 119:116 (R100). -/
def lm (w : Wide) : BitVec 4 := w.extractLsb' 116 4

/-- Bits 115:112 of a descriptor word, "must be 0" (R100). -/
def reservedHigh (w : Wide) : BitVec 4 := w.extractLsb' 112 4

/-- `CHW`, bits 111:104 (R100). -/
def chw (w : Wide) : Byte := w.extractLsb' 104 8

/-- Bits 103:96 of a descriptor word, "must be 0" (R100). -/
def reservedMid (w : Wide) : Byte := w.extractLsb' 96 8

/-- `OFF`, bits 95:80 (R100). -/
def off (w : Wide) : Half := w.extractLsb' 80 16

/-- `A`, bits 79:64 (R100). -/
def fieldA (w : Wide) : Half := w.extractLsb' 64 16

/-- `B`, bits 63:48 (R100). -/
def fieldB (w : Wide) : Half := w.extractLsb' 48 16

/-- `C`, bits 47:32 (R100). -/
def fieldC (w : Wide) : Half := w.extractLsb' 32 16

/-- `D`, bits 31:16 (R100). -/
def fieldD (w : Wide) : Half := w.extractLsb' 16 16

/-- Bits 15:0 of a descriptor word, "must be 0" (R100). -/
def reservedLow (w : Wide) : Half := w.extractLsb' 0 16

/-- The fault kind whose code is `n` (R250); FAIL's field A holds a code 1 to 6 (R102). -/
def faultKind (n : Nat) : Option FaultKind :=
  match n with
  | 1 => some .bufferOverflow
  | 2 => some .malformedHeader
  | 3 => some .boundsViolation
  | 4 => some .invalidVariant
  | 5 => some .illegalGrammar
  | 6 => some .illegalCommand
  | _ => none

/-- The check that a condition of R93 or R103 holds, else the rejection that names it. -/
def require (c : Bool) (why : Reject) (k : Except Reject Instr) : Except Reject Instr :=
  if c then k else .error why

end Decode

open Decode

/-- Reads a word presented on the command port (R90 to R93). -/
def decodeCommand (w : Wide) : Except Reject Instr :=
  require (reserved w = 0) .reservedBits <|
  match (topByte w).toNat with
  | 0x01 => .ok (.bsInit (arg0 w) (arg1 w) (arg2 w))
  | 0x02 =>
    require (arg2 w = 0) .unusedOperand <|
    require ((arg1 w).toNat ≤ 32) .widthRange <| .ok (.bsWriteBits (arg0 w) (arg1 w))
  | 0x03 =>
    require (arg2 w = 0 && arg0 w = 0) .unusedOperand <|
    require ((arg1 w).toNat ≤ 32) .widthRange <| .ok (.bsReadBits (arg1 w))
  | 0x04 => require (arg2 w = 0 && arg1 w = 0 && arg0 w = 0) .unusedOperand <| .ok .bsGetLength
  | 0x05 => require (arg2 w = 0 && arg1 w = 0) .unusedOperand <| .ok (.bsSetLimit (arg0 w))
  | 0x10 =>
    require (arg2 w = 0) .unusedOperand <|
    require ((arg1 w).toNat ≤ 0xFFFF) .tagRange <| .ok (.frWriteHeader (arg0 w) ((arg1 w).setWidth 16))
  | 0x11 =>
    require (arg2 w = 0 && arg0 w = 0) .unusedOperand <|
    require ((arg1 w).toNat ≤ 0xFFFF) .tagRange <| .ok (.frReadHeader ((arg1 w).setWidth 16))
  | 0x20 =>
    require (arg2 w = 0 && arg1 w = 0) .unusedOperand <|
    require ((arg0 w).toNat ≤ 0xFFFF) .entryRange <| .ok (.cdEncode ((arg0 w).setWidth 16))
  | 0x21 =>
    require (arg2 w = 0 && arg1 w = 0) .unusedOperand <|
    require ((arg0 w).toNat ≤ 0xFFFF) .entryRange <| .ok (.cdDecode ((arg0 w).setWidth 16))
  | _ => .error .unknownOpcode

namespace Decode

/-- The fields that R102 gives as 0 for a kind that uses LM, CHW, OFF, A, B, C or D only where named. -/
def unused (w : Wide) (useLm useChw useOff useA useB useCD : Bool) : Bool :=
  (useLm || lm w = 0) && (useChw || chw w = 0) && (useOff || off w = 0) && (useA || fieldA w = 0) &&
    (useB || fieldB w = 0) && (useCD || (fieldC w = 0 && fieldD w = 0))

/-- The length mode a word with LM 0 or 1 selects (R100). -/
def byMode (w : Wide) (n v : Except Reject Instr) : Except Reject Instr :=
  match (lm w).toNat with
  | 0 => n
  | 1 => v
  | _ => .error .lengthMode

end Decode

/-- Reads a descriptor word fetched from GT (R100 to R103). It depends on the word alone (R103). -/
def decodeDescriptor (w : Wide) : Except Reject Instr :=
  require (reservedHigh w = 0 && reservedMid w = 0 && reservedLow w = 0) .reservedBits <|
  match (topByte w).toNat with
  | 0x01 => require (unused w false false false false false false) .unusedField <| .ok .gwEnd
  | 0x02 =>
    require (unused w false false false true false false) .unusedField <|
    match faultKind (fieldA w).toNat with
    | some k => .ok (.gwFail k)
    | none => .error .failCode
  | 0x03 =>
    require (unused w false false true true false false) .unusedField <| .ok (.gwPres (off w) (fieldA w))
  | 0x04 =>
    require (unused w false false false true false false) .unusedField <|
    require (1 ≤ (fieldA w).toNat) .choiceCount <| .ok (.gwChoice (fieldA w))
  | 0x05 =>
    require (unused w false false true true false false) .unusedField <| .ok (.gwAlt (off w) (fieldA w))
  | 0x06 =>
    require (unused w true false true true true true) .unusedField <|
    require (1 ≤ (fieldB w).toNat) .listBody <|
    byMode w
      (require ((fieldA w).toNat ≤ 255) .prefixCap <|
        .ok (.gwListN (off w) (fieldA w) (fieldB w) (fieldC w) (fieldD w)))
      (.ok (.gwListV (off w) (fieldA w) (fieldB w) (fieldC w) (fieldD w)))
  | 0x07 => require (unused w false false false false false false) .unusedField <| .ok .gwLend
  | 0x10 =>
    require (unused w false false true true false false) .unusedField <|
    require (1 ≤ (fieldA w).toNat) .enumCount <| .ok (.gwEnum (off w) (fieldA w))
  | 0x11 =>
    require (unused w false false true true true false) .unusedField <|
    require ((fieldA w).toNat ≤ (fieldB w).toNat &&
      Machine.cl2 ((fieldB w).toNat - (fieldA w).toNat + 1) ≤ 8) .nbitRange <|
    .ok (.gwNbit (off w) (fieldA w) (fieldB w))
  | 0x12 =>
    require (unused w false false true true false false) .unusedField <|
    require (1 ≤ (fieldA w).toNat && (fieldA w).toNat ≤ 64) .varuintBits <|
    .ok (.gwVaruint (off w) (fieldA w))
  | 0x13 =>
    require (unused w true true true true false false) .unusedField <|
    require (1 ≤ (chw w).toNat && (chw w).toNat ≤ 8) .charWidth <|
    byMode w
      (require ((fieldA w).toNat ≤ 255) .prefixCap <| .ok (.gwStringN (off w) (fieldA w) (chw w)))
      (.ok (.gwStringV (off w) (fieldA w) (chw w)))
  | 0x14 =>
    require (unused w true false true true false false) .unusedField <|
    byMode w
      (require ((fieldA w).toNat ≤ 255) .prefixCap <| .ok (.gwBytesN (off w) (fieldA w)))
      (.ok (.gwBytesV (off w) (fieldA w)))
  | _ => .error .unknownKind

/-- The row's instruction as a 128-bit number of the opcode table (`nbits` is 128 for every row). The two
formats share opcode bytes, and four words are legal in both (bytes 01, 03, 05, 11 with all other bits 0):
those are read as descriptors, every other word by the one format it is legal in (log 5). -/
def decodeTableWord (nbits w : Nat) : Option Instr :=
  match decodeDescriptor (BitVec.ofNat 128 (w % 2 ^ nbits)) with
  | .ok i => some i
  | .error _ =>
    match decodeCommand (BitVec.ofNat 128 (w % 2 ^ nbits)) with
    | .ok i => some i
    | .error _ => none

namespace Decode

/-- A command word from its fields (R90). -/
def cmdWord (opc : Byte) (a0 a1 a2 : Word) : Wide := opc ++ (0#24 ++ (a2 ++ (a1 ++ a0)))

/-- A descriptor word from its fields (R100). -/
def gwWord (kind : Byte) (mode : BitVec 4) (chw : Byte) (off a b c d : Half) : Wide :=
  kind ++ (mode ++ (0#4 ++ (chw ++ (0#8 ++ (off ++ (a ++ (b ++ (c ++ (d ++ 0#16)))))))))

/-- The code of a fault kind as FAIL's field A holds it (R102, R250). -/
def codeField : FaultKind → Half
  | .bufferOverflow => 1
  | .malformedHeader => 2
  | .boundsViolation => 3
  | .invalidVariant => 4
  | .illegalGrammar => 5
  | .illegalCommand => 6

end Decode

/-- The word of an instruction (R90 to R92, R100 to R102). -/
def encode : Instr → Wide
  | .bsInit cap start ext => cmdWord 0x01 cap start ext
  | .bsWriteBits value width => cmdWord 0x02 value width 0
  | .bsReadBits width => cmdWord 0x03 0 width 0
  | .bsGetLength => cmdWord 0x04 0 0 0
  | .bsSetLimit bytes => cmdWord 0x05 bytes 0 0
  | .frWriteHeader length tag => cmdWord 0x10 length (tag.setWidth 32) 0
  | .frReadHeader tag => cmdWord 0x11 0 (tag.setWidth 32) 0
  | .cdEncode entry => cmdWord 0x20 (entry.setWidth 32) 0 0
  | .cdDecode entry => cmdWord 0x21 (entry.setWidth 32) 0 0
  | .gwEnd => gwWord 0x01 0 0 0 0 0 0 0
  | .gwFail code => gwWord 0x02 0 0 0 (codeField code) 0 0 0
  | .gwPres off skip => gwWord 0x03 0 0 off skip 0 0 0
  | .gwChoice nalt => gwWord 0x04 0 0 0 nalt 0 0 0
  | .gwAlt off target => gwWord 0x05 0 0 off target 0 0 0
  | .gwListN off max body elem stride => gwWord 0x06 0 0 off max body elem stride
  | .gwListV off max body elem stride => gwWord 0x06 1 0 off max body elem stride
  | .gwLend => gwWord 0x07 0 0 0 0 0 0 0
  | .gwEnum off n => gwWord 0x10 0 0 off n 0 0 0
  | .gwNbit off min max => gwWord 0x11 0 0 off min max 0 0
  | .gwVaruint off vb => gwWord 0x12 0 0 off vb 0 0 0
  | .gwStringN off cap chw => gwWord 0x13 0 chw off cap 0 0 0
  | .gwStringV off cap chw => gwWord 0x13 1 chw off cap 0 0 0
  | .gwBytesN off cap => gwWord 0x14 0 0 off cap 0 0 0
  | .gwBytesV off cap => gwWord 0x14 1 0 off cap 0 0 0

/-- `LegalCmd` (R93), clause by clause. -/
def legalCmd (w : Wide) : Bool :=
  let opc := (topByte w).toNat
  reserved w = 0 &&
  [0x01, 0x02, 0x03, 0x04, 0x05, 0x10, 0x11, 0x20, 0x21].contains opc &&
  (opc = 0x01 || arg2 w = 0) &&
  (opc = 0x01 || opc = 0x02 || opc = 0x03 || opc = 0x10 || opc = 0x11 || arg1 w = 0) &&
  (opc = 0x01 || opc = 0x02 || opc = 0x05 || opc = 0x10 || opc = 0x20 || opc = 0x21 || arg0 w = 0) &&
  (!(opc = 0x02 || opc = 0x03) || (arg1 w).toNat ≤ 32) &&
  (!(opc = 0x10 || opc = 0x11) || (arg1 w).toNat ≤ 0xFFFF) &&
  (!(opc = 0x20 || opc = 0x21) || (arg0 w).toNat ≤ 0xFFFF)

/-- `LegalGW` (R103), clause by clause, with the field use of R102. -/
def legalGW (w : Wide) : Bool :=
  let kind := (topByte w).toNat
  let a := (fieldA w).toNat
  let b := (fieldB w).toNat
  (reservedHigh w = 0 && reservedMid w = 0 && reservedLow w = 0) &&
  [0x01, 0x02, 0x03, 0x04, 0x05, 0x06, 0x07, 0x10, 0x11, 0x12, 0x13, 0x14].contains kind &&
  ([0x06, 0x13, 0x14].contains kind || lm w = 0) &&
  (kind = 0x13 || chw w = 0) &&
  (!([0x01, 0x02, 0x04, 0x07].contains kind) || off w = 0) &&
  (!([0x01, 0x07].contains kind) || fieldA w = 0) &&
  ([0x06, 0x11].contains kind || fieldB w = 0) &&
  (kind = 0x06 || (fieldC w = 0 && fieldD w = 0)) &&
  (lm w).toNat ≤ 1 &&
  (kind ≠ 0x02 || (1 ≤ a && a ≤ 6)) &&
  (kind ≠ 0x04 || 1 ≤ a) &&
  (kind ≠ 0x06 || 1 ≤ b) &&
  (kind ≠ 0x10 || 1 ≤ a) &&
  (kind ≠ 0x11 || (a ≤ b && Machine.cl2 (b - a + 1) ≤ 8)) &&
  (kind ≠ 0x12 || (1 ≤ a && a ≤ 64)) &&
  (kind ≠ 0x13 || (1 ≤ (chw w).toNat && (chw w).toNat ≤ 8)) &&
  (!([0x06, 0x13, 0x14].contains kind && lm w = 0) || a ≤ 255)

end Sys2Proof
end

