-- ==== Sys2Proof/Config.lean ====
section
/-! DEFINITION. What an instance fixes (R6, R41) and the values the spec leaves free (R43, U1, U15). -/

namespace Sys2Proof

/-- The parameters of one block instance (R6). They are constants of the instance (R41): the state carries
them and no step writes them (log 1). -/
structure Params where
  /-- `BUF_BYTES`, the size of BUF in bytes. -/
  bufBytes : Nat
  /-- `DOC_SLOTS`, the number of 64-bit slots of DOC. -/
  docSlots : Nat
  /-- `GT_STEPS`, the number of descriptor words of GT. -/
  gtSteps : Nat
  /-- `LOOP_DEPTH`, the number of frames of the loop stack. -/
  loopDepth : Nat
  deriving DecidableEq, Repr

namespace Config

/-- The ranges R6 gives the parameters. -/
abbrev legal (p : Params) : Prop :=
  (8 ≤ p.bufBytes ∧ p.bufBytes ≤ 2 ^ 28) ∧ (1 ≤ p.docSlots ∧ p.docSlots ≤ 65536) ∧
    (1 ≤ p.gtSteps ∧ p.gtSteps ≤ 65536) ∧ (1 ≤ p.loopDepth ∧ p.loopDepth ≤ 16)

/-- The instance `State.reset` is: the largest that R6 allows. DESIGN CHOICE (log 1), unsafe to lean on. -/
def largest : Params := { bufBytes := 2 ^ 28, docSlots := 65536, gtSteps := 65536, loopDepth := 16 }

/-- `W_MAX`, the largest width of one bit write or read (R6). -/
def wMax : Nat := 32

/-- The byte that BUF holds at address `a` after reset number `resets`, before anything writes it: a FREE
VALUE (R43, U1: "every byte may hold any value"; log 2). -/
opaque bufAtReset (resets a : Nat) : Byte

/-- The slot that DOC holds at index `i` after reset number `resets`: a FREE VALUE (R43, U1; log 2). -/
opaque docAtReset (resets i : Nat) : Cell64

/-- The word that GT holds at index `g` after reset number `resets`: a FREE VALUE (R43, U1; log 2). -/
opaque gtAtReset (resets g : Nat) : Wide

/-- `TAG_SAP` (R6), OPEN: a name for test benches, an input of no rule (U15, log 12). -/
opaque tagSap : Half

/-- `TAG_V2GTP20_MAINSTREAM` (R6), OPEN: a name for test benches, an input of no rule (U15, log 12). -/
opaque tagV2gtp20Mainstream : Half

end Config

end Sys2Proof
end

