-- ==== Sys2Proof/Machine/State.lean ====
section
/-! DEFINITION. The architectural state of one block instance (R20 to R32, R39) with its reset value (R43,
R290), the host's pending operations, and the reasons a step can stop. Plain data throughout. -/

namespace Sys2Proof.Machine

/-- A memory of `w`-bit cells: the cells that have been written since reset, addresses strictly rising. An
address that is not listed stores no value; what the block reads there is a free value of `Config` (log 2).
`Memory 8` is a list of `Host.Cell`. -/
abbrev Memory (w : Nat) := List (Nat × BitVec w)

/-- Register 0, `STATUS` (R22), by its fields; the reserved bits read as 0 and are never written, so they
need no storage (log 8). `Status.toWord` is the 32-bit register. -/
structure Status where
  /-- Bit 0, `INITED`. -/
  inited : Bool
  /-- Bit 1, `FAULT`. -/
  fault : Bool
  /-- Bit 2, `LIMIT_EN`. -/
  limitEn : Bool
  /-- Bits 15:8, `CODE`. -/
  code : Byte
  /-- Bits 19:16, `SUB`. -/
  sub : BitVec 4
  deriving DecidableEq, Repr

/-- One frame of the loop stack `LS` (R39). -/
structure Frame where
  /-- GT index of the first step of the list body. -/
  start : Half
  /-- The spec's `end`: GT index of the LEND that closes the body. -/
  stop : Half
  /-- Elements still to process, counting the current one. -/
  rem : Half
  /-- The value of BASE for the current element. -/
  cur : Word
  /-- The value of BASE before the LIST step. -/
  saved : Word
  /-- Slots per element record. -/
  stride : Half
  deriving DecidableEq, Repr

/-- One operation of the host on the block's ports (R306): a command word (R90), a register read (R42), a
memory port access (R77), or the reset event (R290). -/
inductive HostOp where
  | command (w : Wide)
  | regRead (n : Nat)
  | readBuf (a : Nat)
  | writeBuf (a : Nat) (v : Byte)
  | readDoc (i : Nat)
  | writeDoc (i : Nat) (v : Cell64)
  | readGt (g : Nat)
  | writeGt (g : Nat) (v : Wide)
  | reset
  deriving DecidableEq, Repr

/-- The reasons for which the MODEL stops. The block's own faults (R250) are next states, not these. -/
inductive Fault where
  /-- Raised by the meaning of a descriptor in a state with no codec run in progress: the spec gives a
  descriptor an effect only inside `Run(entry, dir)` (R182). No step raises it (log 10). Safe. -/
  | noRun
  deriving DecidableEq, Repr

/-- The reasons for which the model gives an instruction no meaning. -/
inductive Refusal where
  /-- Raised by an arm of `exec` whose instruction has no meaning yet; no arm does. Safe. -/
  | notModelled (mnemonic : String)
  deriving DecidableEq, Repr

/-- The state of one block instance and of its host's pending operations. -/
structure State where
  /-- The constants of the instance (R6, R41); no step writes them (log 1). -/
  params : Params
  /-- `CMD` (R21): the command word being executed; the block only reads it. -/
  cmd : Wide
  /-- `RC` (R21): the result code of the command just ended. -/
  rc : Byte
  /-- Register 0, `STATUS` (R22). -/
  status : Status
  /-- Register 1, `POS` (R23). -/
  pos : Word
  /-- Register 2, `CAP` (R24). -/
  cap : Word
  /-- Register 3, `LIMIT` (R25). -/
  limit : Word
  /-- Register 4, `EXT` (R26). -/
  ext : Word
  /-- Register 5, `RES` (R27). -/
  res : Word
  /-- Register 6, `GPC` (R28). -/
  gpc : Half
  /-- Register 7, `BASE` (R29). -/
  base : Word
  /-- The frames of `LS` in use, the top first (R39); register 8, `LSP`, is their number (log 7). -/
  ls : List Frame
  /-- `BUF` (R30). -/
  buf : Memory 8
  /-- `DOC` (R31). -/
  doc : Memory 64
  /-- `GT` (R32). -/
  gt : Memory 128
  /-- The codec run in progress and its direction (R182); `none` between commands (log 3). -/
  run : Option Dir
  /-- MODEL's own: the host's operations still to be served, oldest first (R78, R306; log 4). -/
  inbox : List HostOp
  /-- MODEL's own: what the host's last port read returned (R42, R77; log 6). -/
  hostData : Wide
  /-- MODEL's own: the number of reset events so far; it selects the free contents of the memories (log 2). -/
  resets : Nat
  deriving DecidableEq, Repr

/-- STATUS after reset (R43). -/
def Status.reset : Status := { inited := false, fault := false, limitEn := false, code := 0, sub := 0 }

/-- The instance `p` right after reset (R43, R290), with nothing on its ports. -/
def State.resetWith (p : Params) : State :=
  { params := p, cmd := 0, rc := 0, status := Status.reset, pos := 0, cap := 0, limit := 0, ext := 0, res := 0,
    gpc := 0, base := 0, ls := [], buf := [], doc := [], gt := [], run := none, inbox := [], hostData := 0,
    resets := 0 }

/-- The machine right after reset (R43); the instance is the largest R6 allows (log 1). -/
def State.reset : State := State.resetWith Config.largest

end Sys2Proof.Machine
end

