-- ==== Sys2Proof/Machine/Flags.lean ====
section
/-! DEFINITION. The status register as a word (R22), the fault codes (R250), the end of a command (R255) and
the raising of a fault (R256): every write of a STATUS field stands here or in BS_INIT and BS_SET_LIMIT. -/

namespace Sys2Proof.Machine

/-- STATUS as the 32-bit register 0 (R22): INITED bit 0, FAULT bit 1, LIMIT_EN bit 2, CODE 15:8, SUB 19:16,
the rest 0. -/
def Status.toWord (t : Status) : Word :=
  0#12 ++ (t.sub ++ (t.code ++ (0#5 ++ (BitVec.ofBool t.limitEn ++ (BitVec.ofBool t.fault ++ BitVec.ofBool t.inited)))))

/-- The code of a fault kind, the same in RC and STATUS.CODE (R250). -/
def faultCode : FaultKind → Byte
  | .bufferOverflow => 1
  | .malformedHeader => 2
  | .boundsViolation => 3
  | .invalidVariant => 4
  | .illegalGrammar => 5
  | .illegalCommand => 6

/-- STATUS with FAULT set and CODE and SUB latched (R256). -/
def Status.latch (t : Status) (k : FaultKind) (sub : BitVec 4) : Status :=
  { t with fault := true, code := faultCode k, sub := sub }

/-- STATUS with FAULT, CODE and SUB cleared (R130 first line, R258). -/
def Status.clear (t : Status) : Status := { t with fault := false, code := 0, sub := 0 }

/-- What a `raise X(sub)` names (R13): the kind and the sub-cause. -/
structure Raise where
  kind : FaultKind
  sub : BitVec 4
  deriving DecidableEq, Repr

end Sys2Proof.Machine
end

