-- ==== Sys2Proof/Machine/Memory.lean ====
section
/-! DEFINITION. Memories in their one canonical form, and the cell accesses of BUF, DOC and GT (R30 to R32,
R60, R77) with the bit view of BUF (R11). -/

namespace Sys2Proof.Machine

/-- The value stored at `a`, if something has been written there since reset. -/
def Memory.find? {w : Nat} : Memory w → Nat → Option (BitVec w)
  | [], _ => none
  | (b, v) :: m, a => if a = b then some v else Memory.find? m a

/-- `m` with `v` stored at `a`; the addresses stay strictly rising. -/
def Memory.write {w : Nat} : Memory w → Nat → BitVec w → Memory w
  | [], a, v => [(a, v)]
  | (b, u) :: m, a, v =>
    if a < b then (a, v) :: (b, u) :: m
    else if a = b then (a, v) :: m
    else (b, u) :: Memory.write m a v

/-- The canonical form: addresses strictly rising. An unlisted address stores no value, so no entry can
equal what an unlisted address holds (log 2). -/
abbrev Memory.wf {w : Nat} (m : Memory w) : Prop := m.Pairwise (fun x y => x.1 < y.1)

/-- Every listed address lies below `n`. -/
abbrev Memory.below {w : Nat} (m : Memory w) (n : Nat) : Prop := ∀ x ∈ m, x.1 < n

/-- `BUF[a]` (R30). Inside the memory: what was last written, else the free value of log 2. Outside it: 0, as
the host port reads (R77 last sentence but two; the block itself never goes there, R71; log 9). -/
def State.bufByte (s : State) (a : Nat) : Byte :=
  if a < s.params.bufBytes then (s.buf.find? a).getD (Config.bufAtReset s.resets a) else 0

/-- `BUF[a] <- v`; outside the memory it "does nothing on write" (R77, R71 e). -/
def State.setBufByte (s : State) (a : Nat) (v : Byte) : State :=
  { s with buf := if a < s.params.bufBytes then s.buf.write a v else s.buf }

/-- `DOC[i]` (R31); outside the memory 0 (R77, log 9). -/
def State.docSlot (s : State) (i : Nat) : Cell64 :=
  if i < s.params.docSlots then (s.doc.find? i).getD (Config.docAtReset s.resets i) else 0

/-- `DOC[i] <- v` (R31); outside the memory it does nothing (R77). -/
def State.setDocSlot (s : State) (i : Nat) (v : Cell64) : State :=
  { s with doc := if i < s.params.docSlots then s.doc.write i v else s.doc }

/-- `GT[g]` (R32); outside the memory 0 (R77). -/
def State.gtWord (s : State) (g : Nat) : Wide :=
  if g < s.params.gtSteps then (s.gt.find? g).getD (Config.gtAtReset s.resets g) else 0

/-- `GT[g] <- v`, a host port write (R77); outside the memory it does nothing. The block never does it (R76). -/
def State.setGtWord (s : State) (g : Nat) (v : Wide) : State :=
  { s with gt := if g < s.params.gtSteps then s.gt.write g v else s.gt }

/-- A byte with its bit `k` set to `b`. -/
def setByteBit (v : Byte) (k : Nat) (b : Bool) : Byte :=
  if b then v ||| (1#8 <<< k) else v &&& ~~~(1#8 <<< k)

/-- `BufBit(p)` = `BUF[p div 8][7 - (p mod 8)]` (R11). -/
def State.bufBit (s : State) (p : Nat) : Bool := (s.bufByte (p / 8)).getLsbD (7 - p % 8)

/-- `BufSetBit(p, b)` (R11): one bit of one byte, "all other bits of that byte and all other bytes unchanged". -/
def State.setBufBit (s : State) (p : Nat) (b : Bool) : State :=
  s.setBufByte (p / 8) (setByteBit (s.bufByte (p / 8)) (7 - p % 8) b)

/-- The loop of R131: bits `w-1` down to 0 of `v` at stream indices `p`, `p+1`, ..., `p+w-1`. -/
def State.putBits (s : State) (p v : Nat) : Nat → State
  | 0 => s
  | w + 1 => (s.setBufBit p (v.testBit w)).putBits (p + 1) v w

/-- The sum of R132: `BufBit(p + i) * 2^(w-1-i)` over `i` in `0 .. w-1`. -/
def State.bitsValue (s : State) (p : Nat) : Nat → Nat
  | 0 => 0
  | w + 1 => (s.bufBit p).toNat * 2 ^ w + s.bitsValue (p + 1) w

/-- `MemRead(a, n)` (R62): the `n` bytes at `a` as one number, `BUF[a]` most significant. -/
def State.memRead (s : State) (a : Nat) : Nat → Nat
  | 0 => 0
  | n + 1 => (s.bufByte a).toNat * 256 ^ n + s.memRead (a + 1) n

/-- `MemWrite(a, n, v)` (R62): `BUF[a+i] <- (v div 256^(n-1-i)) mod 256`. -/
def State.memWrite (s : State) (a v : Nat) : Nat → State
  | 0 => s
  | n + 1 => (s.setBufByte a (BitVec.ofNat 8 (v / 256 ^ n % 256))).memWrite (a + 1) v n

end Sys2Proof.Machine
end

