-- ==== Sys2Proof/Machine/Ops.lean ====
section
/-! DEFINITION. The shared operations: the pseudocode's sequencing (R13, R14), taking a fault (R256) and the
way out of it (R258), the end of a command (R255), acceptance (R252), and the two bit primitives (R131, R132). -/

namespace Sys2Proof.Machine

/-- `raise X(sub)` (R256), the block's one exception: FAULT, CODE, SUB and RC are written, the command ends
(a codec run with it), and everything else keeps the value it has at that moment. -/
def State.takeFault (s : State) (e : Raise) : State :=
  { s with status := s.status.latch e.kind e.sub, rc := faultCode e.kind, run := none }

/-- The first act of BS_INIT, the return from the fault state (R258): FAULT, CODE and SUB are cleared. There
is nothing saved to restore. -/
def State.leaveFault (s : State) : State := { s with status := s.status.clear }

/-- A refusal in the fault state (R257): RC <- STATUS.CODE and nothing else. -/
def State.refuse (s : State) : State := { s with rc := s.status.code }

/-- `done` (R255): RC <- 0; the command, and with it a codec run, has ended. -/
def State.done (s : State) : State := { s with rc := 0, run := none }

/-- `done(v)` (R255): RES <- v[31:0], RC <- 0. -/
def State.doneWith (s : State) (v : Nat) : State := { s with res := BitVec.ofNat 32 v, rc := 0, run := none }

/-- A piece of a rule's pseudocode: it goes on with a value and a state, or raises a fault in the state
reached so far, whose effects stay (R14, R189). -/
abbrev Act := EStateM Raise State

/-- The present state. -/
def current : Act State := fun s => .ok s s

/-- An effect on the state. -/
def effect (f : State → State) : Act Unit := fun s => .ok () (f s)

/-- `raise X(sub)` (R256). -/
def raise {α : Type} (k : FaultKind) (sub : Nat) : Act α := fun s => .error ⟨k, BitVec.ofNat 4 sub⟩ s

/-- `if c: raise X(sub)`. -/
def raiseIf (c : Bool) (k : FaultKind) (sub : Nat) : Act Unit :=
  fun s => if c then .error ⟨k, BitVec.ofNat 4 sub⟩ s else .ok () s

/-- The state a finished piece of pseudocode leaves: a raise ends the command with the fault (R256). -/
def settled : EStateM.Result Raise State Unit → State
  | .ok _ t => t
  | .error e t => t.takeFault e

/-- The state a rule's pseudocode leaves, from `s` on. -/
def settle (m : Act Unit) (s : State) : State := settled (m s)

/-- A command other than BS_INIT, from the acceptance tests on (R252 tests 1, 3 and 4; test 2 is the
decoder's): refused in the fault state, IllegalCommand(2) when it needs a BS_INIT that has not been, else its
rule. -/
def command (needsInit : Bool) (body : Act Unit) (s : State) : State :=
  if s.status.fault then s.refuse
  else if needsInit && !s.status.inited then s.takeFault ⟨.illegalCommand, 2⟩
  else settle body s

/-- A command word that is not legal (R252 tests 1 and 2, R253): refused in the fault state, else
IllegalCommand(1). -/
def illegalCommand (s : State) : State :=
  if s.status.fault then s.refuse else s.takeFault ⟨.illegalCommand, 1⟩

/-- A descriptor (R182): its rule in the direction of the run, at `g` = GPC. Outside a run the spec gives a
descriptor no effect (log 10). -/
def descriptor (body : Dir → Nat → Act Unit) (s : State) : Host.Outcome State Fault Refusal :=
  match s.run with
  | none => .fault .noRun
  | some d => .next (settle (body d s.gpc.toNat) s)

/-- `POS <- p`. -/
def State.withPos (s : State) (p : Nat) : State := { s with pos := BitVec.ofNat 32 p }

/-- `WriteBits(v, w)` (R131): the check on the whole width, then the `w` low bits of `v`, then POS. -/
def writeBits (v w : Nat) : Act Unit := do
  let s ← current
  raiseIf (s.cap.toNat * 8 < s.pos.toNat + w) .bufferOverflow 3
  effect fun s => (s.putBits s.pos.toNat v w).withPos (s.pos.toNat + w)

/-- The read bound of R132: LIMIT * 8 while the limit is in force, CAP * 8 otherwise. -/
def State.readBound (s : State) : Nat :=
  if s.status.limitEn then s.limit.toNat * 8 else s.cap.toNat * 8

/-- `ReadBits(w)` (R132): the check on the whole width, then the value, then POS. -/
def readBits (w : Nat) : Act Nat := do
  let s ← current
  raiseIf (s.readBound < s.pos.toNat + w) .bufferOverflow 4
  effect fun s => s.withPos (s.pos.toNat + w)
  pure (s.bitsValue s.pos.toNat w)

/-- A read of `DOC[a]` as a number. -/
def readDoc (a : Nat) : Act Nat := do
  let s ← current
  pure (s.docSlot a).toNat

/-- `DOC[a] <- v`. -/
def writeDoc (a v : Nat) : Act Unit := effect fun s => s.setDocSlot a (BitVec.ofNat 64 v)

end Sys2Proof.Machine
end

