-- ==== Sys2Proof/Machine/Operands.lean ====
section
/-! DEFINITION. The operand forms and sequencing of the codec: descriptor fetch (R182), slot addressing (R185),
Next, Jump and JumpOK (R183, R184), the varuint (R223), the length prefix (R225), character runs (R226). -/

namespace Sys2Proof.Machine

/-- The fetch of `Run` (R182): IllegalGrammar(2) off the table, IllegalGrammar(1) for an illegal word. -/
def State.fetch (s : State) : Except Raise Instr :=
  if s.params.gtSteps ≤ s.gpc.toNat then .error ⟨.illegalGrammar, 2⟩
  else
    match decodeDescriptor (s.gtWord s.gpc.toNat) with
    | .ok i => .ok i
    | .error _ => .error ⟨.illegalGrammar, 1⟩

/-- `Slot(off, extra)` (R185): BASE + off without wrap-around, its whole range inside DOC. -/
def slot (off : Half) (extra : Nat) : Act Nat := do
  let s ← current
  raiseIf (s.params.docSlots ≤ s.base.toNat + off.toNat + extra) .illegalGrammar 3
  pure (s.base.toNat + off.toNat)

/-- `GPC <- t`. -/
def State.withGpc (s : State) (t : Nat) : State := { s with gpc := BitVec.ofNat 16 t }

/-- `GPC <- t`. -/
def setGpc (t : Nat) : Act Unit := effect fun s => s.withGpc t

/-- `Next(g)` (R183). -/
def goNext (g : Nat) : Act Unit := do
  let s ← current
  raiseIf (s.params.gtSteps ≤ g + 1) .illegalGrammar 2
  setGpc (g + 1)

/-- `JumpOK(g, t)` (R184): forward, inside GT, and not past the LEND of the innermost open list. -/
def State.jumpOk (s : State) (g t : Nat) : Bool :=
  g < t && t < s.params.gtSteps &&
    match s.ls with
    | [] => true
    | f :: _ => t ≤ f.stop.toNat

/-- `Jump(g, t)` (R183). -/
def goJump (g t : Nat) : Act Unit := do
  let s ← current
  raiseIf (!s.jumpOk g t) .illegalGrammar 4
  setGpc t

/-- `WriteVar(v)` (R223), at most `left` groups: seven bits of the value a group, least significant group
first, bit 7 set in every group but the last. -/
def writeVarGroups : Nat → Nat → Act Unit
  | 0, _ => pure ()
  | left + 1, v =>
    if 0 < v / 128 then do
      writeBits (128 + v % 128) 8
      writeVarGroups left (v / 128)
    else writeBits (v % 128) 8

/-- `WriteVar(v)` (R223): ten groups hold every value below 2^70, hence every slot. -/
def writeVar (v : Nat) : Act Unit := writeVarGroups 10 v

/-- `ReadVar(vb)` (R223) from group `k` on with the sum `acc`, at most `left` further groups; a tenth group
with the continuation bit set raises BoundsViolation(4). -/
def readVarGroups (vb : Nat) : Nat → Nat → Nat → Act Nat
  | 0, _, _ => raise .boundsViolation 4
  | left + 1, k, acc => do
    let o ← readBits 8
    raiseIf (2 ^ vb ≤ acc + o % 128 * 128 ^ k) .boundsViolation 4
    if o < 128 then pure (acc + o % 128 * 128 ^ k)
    else readVarGroups vb left (k + 1) (acc + o % 128 * 128 ^ k)

/-- `ReadVar(vb)` (R223). -/
def readVar (vb : Nat) : Act Nat := readVarGroups vb 10 0 0

/-- `WriteLen(lm, cap, n)` (R225). -/
def writeLen (m : LenMode) (cap n : Nat) : Act Unit :=
  match m with
  | .bounded => writeBits n (cl2 (cap + 1))
  | .varuint => writeVar n

/-- `ReadLen(lm, cap)` (R225). -/
def readLen (m : LenMode) (cap : Nat) : Act Nat :=
  match m with
  | .bounded => readBits (cl2 (cap + 1))
  | .varuint => readVar 32

/-- The encode loop of R226: the characters in slots `a`, `a+1`, ..., each checked and then written in `chw`
bits. -/
def writeChars (chw : Nat) : Nat → Nat → Act Unit
  | _, 0 => pure ()
  | a, n + 1 => do
    let c ← readDoc a
    raiseIf (2 ^ chw ≤ c) .boundsViolation 6
    writeBits c chw
    writeChars chw (a + 1) n

/-- The decode loop of R226: `chw` bits into each of the slots `a`, `a+1`, .... -/
def readChars (chw : Nat) : Nat → Nat → Act Unit
  | _, 0 => pure ()
  | a, n + 1 => do
    let c ← readBits chw
    writeDoc a c
    readChars chw (a + 1) n

end Sys2Proof.Machine
end

