-- ==== Sys2Proof/Machine/Codec.lean ====
section
/-! DEFINITION. The two codec commands and the control descriptors: CD_ENCODE, CD_DECODE (R180 to R182), END,
FAIL (R187, R188), PRES (R190), CHOICE, ALT (R191, R192), LIST, LEND (R193, R194). -/

namespace Sys2Proof.Machine

/-- The first line of `Run(entry, dir)` (R182); the steps that follow fetch and execute (log 3). -/
def State.startRun (s : State) (entry : Half) (d : Dir) : State :=
  { s with gpc := entry, base := 0, ls := [], run := some d }

/-- `CD_ENCODE entry` (R180). -/
def execCdEncode (entry : Half) (s : State) : Host.Outcome State Fault Refusal :=
  .next <| command true (effect fun s => s.startRun entry .encode) s

/-- `CD_DECODE entry` (R181). -/
def execCdDecode (entry : Half) (s : State) : Host.Outcome State Fault Refusal :=
  .next <| command true (effect fun s => s.startRun entry .decode) s

/-- `END` (R187): IllegalGrammar(7) inside a list body, else the run and its command end with RC = 0. -/
def execGwEnd (s : State) : Host.Outcome State Fault Refusal :=
  descriptor (fun _ _ => do
    let s ← current
    raiseIf (!s.ls.isEmpty) .illegalGrammar 7
    effect State.done) s

/-- `FAIL code` (R188). -/
def execGwFail (code : FaultKind) (s : State) : Host.Outcome State Fault Refusal :=
  descriptor (fun _ _ => raise code 0) s

/-- The presence bit on the stream and in DOC (R190). -/
def presBit (a : Nat) : Dir → Act Nat
  | .encode => do
    let f ← readDoc a
    raiseIf (1 < f) .boundsViolation 1
    writeBits f 1
    pure f
  | .decode => do
    let f ← readBits 1
    writeDoc a f
    pure f

/-- `PRES off, skip` (R190). -/
def execGwPres (off skip : Half) (s : State) : Host.Outcome State Fault Refusal :=
  descriptor (fun d g => do
    let a ← slot off 0
    let f ← presBit a d
    if f = 1 then goNext g else goJump g (g + 1 + skip.toNat)) s

/-- One alternative of a CHOICE as its ALT word gives it (R191): `a_i` and `T_i`. -/
structure Alt where
  slot : Nat
  target : Half
  deriving DecidableEq, Repr

/-- The first structural loop of R191: the `n` words from GT index `g` on must be ALT words whose flag slots
exist. -/
def readAlts : Nat → Nat → Act (List Alt)
  | _, 0 => pure []
  | g, n + 1 => do
    let s ← current
    raiseIf (s.params.gtSteps ≤ g) .illegalGrammar 2
    match decodeDescriptor (s.gtWord g) with
    | .error _ => raise .illegalGrammar 1
    | .ok (.gwAlt off target) => do
      let a ← slot off 0
      let rest ← readAlts (g + 1) n
      pure (⟨a, target⟩ :: rest)
    | .ok _ => raise .illegalGrammar 8

/-- The alternatives whose flag slot holds 1, each with its index: the set `S` of R191. -/
def State.flagged (s : State) (alts : List Alt) : List (Alt × Nat) :=
  alts.zipIdx.filter fun x => (s.docSlot x.1.slot).toNat = 1

/-- The selection of R191: the alternative whose index is on the stream, and the flag it sets on decode. -/
def selectAlt (alts : List Alt) (width : Nat) : Dir → Act Alt
  | .encode => do
    let s ← current
    raiseIf (alts.any fun x => 1 < (s.docSlot x.slot).toNat) .boundsViolation 1
    match s.flagged alts with
    | [] => raise .invalidVariant 1
    | [(x, k)] => do
      writeBits k width
      pure x
    | _ => raise .invalidVariant 2
  | .decode => do
    let k ← readBits width
    match alts[k]? with
    | none => raise .invalidVariant 3
    | some x => do
      writeDoc x.slot 1
      pure x

/-- `CHOICE nalt` (R191). -/
def execGwChoice (nalt : Half) (s : State) : Host.Outcome State Fault Refusal :=
  descriptor (fun d g => do
    let alts ← readAlts (g + 1) nalt.toNat
    let s ← current
    raiseIf (alts.any fun x => !s.jumpOk (g + nalt.toNat) x.target.toNat) .illegalGrammar 4
    let x ← selectAlt alts (cl2 nalt.toNat) d
    setGpc x.target.toNat) s

/-- `ALT off, target` fetched for execution (R192): it is data of a CHOICE, so IllegalGrammar(8). -/
def execGwAlt (_off _target : Half) (s : State) : Host.Outcome State Fault Refusal :=
  descriptor (fun _ _ => raise .illegalGrammar 8) s

/-- The structural checks of R193 after `Slot`, in its order. The word at `g + B` is looked at for its KIND
alone (log 11). -/
def listChecks (g : Nat) (max body elem stride : Half) : Act Unit := do
  let s ← current
  raiseIf (s.params.gtSteps ≤ g + body.toNat) .illegalGrammar 2
  raiseIf (Decode.topByte (s.gtWord (g + body.toNat)) != 0x07#8) .illegalGrammar 6
  raiseIf (s.ls.head?.any fun f => f.stop.toNat ≤ g + body.toNat) .illegalGrammar 4
  raiseIf (0 < max.toNat && s.params.docSlots < s.base.toNat + elem.toNat + max.toNat * stride.toNat)
    .illegalGrammar 3
  raiseIf (s.ls.length = s.params.loopDepth) .illegalGrammar 5

/-- A count or length on the stream and in DOC, at most `max` (R193, R226, R227): BoundsViolation(5) above it. -/
def countField (m : LenMode) (max : Nat) (a : Nat) : Dir → Act Nat
  | .encode => do
    let n ← readDoc a
    raiseIf (max < n) .boundsViolation 5
    writeLen m max n
    pure n
  | .decode => do
    let n ← readLen m max
    raiseIf (max < n) .boundsViolation 5
    writeDoc a n
    pure n

/-- The frame a LIST with `n` elements pushes, and BASE and GPC with it (R193). -/
def State.enterList (s : State) (g n : Nat) (body elem stride : Half) : State :=
  { s with
    ls := { start := BitVec.ofNat 16 (g + 1), stop := BitVec.ofNat 16 (g + body.toNat), rem := BitVec.ofNat 16 n,
            cur := BitVec.ofNat 32 (s.base.toNat + elem.toNat), saved := s.base, stride := stride } :: s.ls
    base := BitVec.ofNat 32 (s.base.toNat + elem.toNat)
    gpc := BitVec.ofNat 16 (g + 1) }

/-- The pseudocode of R193 for either length mode. -/
def listRule (m : LenMode) (off max body elem stride : Half) (d : Dir) (g : Nat) : Act Unit := do
  let a ← slot off 0
  listChecks g max body elem stride
  let n ← countField m max.toNat a d
  if n = 0 then goJump g (g + 1 + body.toNat)
  else effect fun s => s.enterList g n body elem stride

/-- `LIST.N off, max, body, elem, stride` (R193, LM = 0). -/
def execGwListN (off max body elem stride : Half) (s : State) : Host.Outcome State Fault Refusal :=
  descriptor (listRule .bounded off max body elem stride) s

/-- `LIST.V off, max, body, elem, stride` (R193, LM = 1). -/
def execGwListV (off max body elem stride : Half) (s : State) : Host.Outcome State Fault Refusal :=
  descriptor (listRule .varuint off max body elem stride) s

/-- The next element of the list whose frame is `f` (R194): `F.rem` is `rem` now. -/
def State.nextElement (s : State) (f : Frame) (rem : Nat) (outer : List Frame) : State :=
  { s with
    ls := { f with rem := BitVec.ofNat 16 rem, cur := BitVec.ofNat 32 (f.cur.toNat + f.stride.toNat) } :: outer
    base := BitVec.ofNat 32 (f.cur.toNat + f.stride.toNat)
    gpc := f.start }

/-- The list whose frame is `f` is left (R194): BASE as before the LIST, the frame popped. -/
def State.leaveList (s : State) (f : Frame) (outer : List Frame) : State :=
  { s with base := f.saved, ls := outer }

/-- `LEND` (R194). -/
def execGwLend (s : State) : Host.Outcome State Fault Refusal :=
  descriptor (fun _ g => do
    let s ← current
    match s.ls with
    | [] => raise .illegalGrammar 6
    | f :: outer => do
      raiseIf (f.stop.toNat != g) .illegalGrammar 6
      if 0 < f.rem.toNat - 1 then effect fun s => s.nextElement f (f.rem.toNat - 1) outer
      else do
        effect fun s => s.leaveList f outer
        goNext g) s

end Sys2Proof.Machine
end

