-- ==== Sys2Proof/Machine/Cursor.lean ====
section
/-! DEFINITION. The bitstream cursor commands: BS_INIT, BS_WRITE_BITS, BS_READ_BITS, BS_GET_LENGTH,
BS_SET_LIMIT (R130, R133 to R136). -/

namespace Sys2Proof.Machine

/-- The state a successful BS_INIT leaves (R130), from the state with the fault fields cleared. -/
def State.bound (s : State) (cap start ext : Word) : State :=
  { s with cap := cap, pos := start, limit := 0, ext := ext, gpc := 0, base := 0, ls := [],
           status := { s.status with limitEn := false, inited := true } }

/-- `STATUS.INITED <- 0`, before BS_INIT raises (R130, R256). -/
def State.unbound (s : State) : State := { s with status := { s.status with inited := false } }

/-- `if c: STATUS.INITED <- 0; raise BufferOverflow(sub)` (R130). -/
def rejectInit (c : Bool) (sub : Nat) : Act Unit :=
  if c then do
    effect State.unbound
    raise .bufferOverflow sub
  else pure ()

/-- The pseudocode of R130. -/
def bsInit (cap start ext : Word) : Act Unit := do
  effect State.leaveFault
  let s ← current
  rejectInit (s.params.bufBytes < cap.toNat) 1
  rejectInit (cap.toNat * 8 < start.toNat) 2
  effect fun s => s.bound cap start ext
  effect State.done

/-- `BS_INIT cap, start, ext` (R130): the one command accepted in the fault state (R252 test 1, R258), and one
that needs no earlier BS_INIT. -/
def execBsInit (cap start ext : Word) (s : State) : Host.Outcome State Fault Refusal :=
  .next (settle (bsInit cap start ext) s)

/-- `BS_WRITE_BITS value, width` (R133). -/
def execBsWriteBits (value width : Word) (s : State) : Host.Outcome State Fault Refusal :=
  .next <| command true (do
    writeBits value.toNat width.toNat
    effect State.done) s

/-- `BS_READ_BITS width` (R135). -/
def execBsReadBits (width : Word) (s : State) : Host.Outcome State Fault Refusal :=
  .next <| command true (do
    let r ← readBits width.toNat
    effect fun s => s.doneWith r) s

/-- `BS_GET_LENGTH` (R134): `(POS + 7) div 8`. -/
def execBsGetLength (s : State) : Host.Outcome State Fault Refusal :=
  .next <| command true (effect fun s => s.doneWith ((s.pos.toNat + 7) / 8)) s

/-- The state with the end-of-data limit in force (R136). -/
def State.limited (s : State) (bytes : Word) : State :=
  { s with limit := bytes, status := { s.status with limitEn := true } }

/-- `BS_SET_LIMIT bytes` (R136). -/
def execBsSetLimit (bytes : Word) (s : State) : Host.Outcome State Fault Refusal :=
  .next <| command true (do
    let s ← current
    raiseIf (s.cap.toNat < bytes.toNat) .bufferOverflow 5
    effect fun s => s.limited bytes
    effect State.done) s

end Sys2Proof.Machine
end

