-- ==== Sys2Proof/Machine/Fields.lean ====
section
/-! DEFINITION. The field descriptors: ENUM (R221), NBIT (R222), VARUINT (R224), STRING (R226), BYTES (R227). -/

namespace Sys2Proof.Machine

/-- The field of R221 in either direction. -/
def enumField (n a : Nat) : Dir → Act Unit
  | .encode => do
    let v ← readDoc a
    raiseIf (n ≤ v) .boundsViolation 2
    writeBits v (cl2 n)
  | .decode => do
    let v ← readBits (cl2 n)
    raiseIf (n ≤ v) .boundsViolation 2
    writeDoc a v

/-- `ENUM off, n` (R221). -/
def execGwEnum (off n : Half) (s : State) : Host.Outcome State Fault Refusal :=
  descriptor (fun d g => do
    let a ← slot off 0
    enumField n.toNat a d
    goNext g) s

/-- The field of R222 in either direction: the distance from `min` on the stream. -/
def nbitField (min max a : Nat) : Dir → Act Unit
  | .encode => do
    let v ← readDoc a
    raiseIf (v < min || max < v) .boundsViolation 3
    writeBits (v - min) (cl2 (max - min + 1))
  | .decode => do
    let u ← readBits (cl2 (max - min + 1))
    raiseIf (max < min + u) .boundsViolation 3
    writeDoc a (min + u)

/-- `NBIT off, min, max` (R222). -/
def execGwNbit (off min max : Half) (s : State) : Host.Outcome State Fault Refusal :=
  descriptor (fun d g => do
    let a ← slot off 0
    nbitField min.toNat max.toNat a d
    goNext g) s

/-- The field of R224 in either direction. -/
def varuintField (vb a : Nat) : Dir → Act Unit
  | .encode => do
    let v ← readDoc a
    raiseIf (2 ^ vb ≤ v) .boundsViolation 4
    writeVar v
  | .decode => do
    let v ← readVar vb
    writeDoc a v

/-- `VARUINT off, vb` (R224). -/
def execGwVaruint (off vb : Half) (s : State) : Host.Outcome State Fault Refusal :=
  descriptor (fun d g => do
    let a ← slot off 0
    varuintField vb.toNat a d
    goNext g) s

/-- The characters of R226 in either direction. -/
def charsField (chw a n : Nat) : Dir → Act Unit
  | .encode => writeChars chw a n
  | .decode => readChars chw a n

/-- The pseudocode of R226 for either length mode; R227's is the same with `chw` = 8. -/
def stringRule (m : LenMode) (off cap : Half) (chw : Nat) (d : Dir) (g : Nat) : Act Unit := do
  let a ← slot off cap.toNat
  let n ← countField m cap.toNat a d
  charsField chw (a + 1) n d
  goNext g

/-- `STRING.N off, cap, chw` (R226, LM = 0). -/
def execGwStringN (off cap : Half) (chw : Byte) (s : State) : Host.Outcome State Fault Refusal :=
  descriptor (stringRule .bounded off cap chw.toNat) s

/-- `STRING.V off, cap, chw` (R226, LM = 1). -/
def execGwStringV (off cap : Half) (chw : Byte) (s : State) : Host.Outcome State Fault Refusal :=
  descriptor (stringRule .varuint off cap chw.toNat) s

/-- `BYTES.N off, cap` (R227, LM = 0). -/
def execGwBytesN (off cap : Half) (s : State) : Host.Outcome State Fault Refusal :=
  descriptor (stringRule .bounded off cap 8) s

/-- `BYTES.V off, cap` (R227, LM = 1). -/
def execGwBytesV (off cap : Half) (s : State) : Host.Outcome State Fault Refusal :=
  descriptor (stringRule .varuint off cap 8) s

end Sys2Proof.Machine
end

