-- ==== Sys2Proof/Machine/Framer.lean ====
section
/-! DEFINITION. The V2GTP framer commands (R160 to R163): they work on BUF[0..7] and do not use the cursor. -/

namespace Sys2Proof.Machine

/-- The version FR_WRITE_HEADER writes (R161). -/
def headerVersion : Nat := 0x01

/-- Its complement on 8 bits (R161). -/
def headerInverse : Nat := 0xFE

/-- The eight bytes of the header (R162). -/
def State.putHeader (s : State) (length : Word) (tag : Half) : State :=
  (((s.memWrite 0 headerVersion 1).memWrite 1 headerInverse 1).memWrite 2 tag.toNat 2).memWrite 4 length.toNat 4

/-- `FR_WRITE_HEADER length, tag` (R162). -/
def execFrWriteHeader (length : Word) (tag : Half) (s : State) : Host.Outcome State Fault Refusal :=
  .next <| command false (do
    effect fun s => s.putHeader length tag
    effect State.done) s

/-- `FR_READ_HEADER tag` (R163): the version pair, then the tag, then the length. -/
def execFrReadHeader (tag : Half) (s : State) : Host.Outcome State Fault Refusal :=
  .next <| command false (do
    let s ← current
    raiseIf (s.memRead 1 1 != 255 - s.memRead 0 1) .malformedHeader 1
    raiseIf (s.memRead 2 2 != tag.toNat) .malformedHeader 2
    effect fun s => s.doneWith (s.memRead 4 4)) s

end Sys2Proof.Machine
end

