-- ==== Sys2Proof/Machine/Dispatch.lean ====
section
/-! DEFINITION. One arm per instruction, each one direct call of its meaning. -/

namespace Sys2Proof.Machine

def exec (i : Instr) (s : State) : Host.Outcome State Fault Refusal :=
  match i with
  | .bsInit cap start ext => Sys2Proof.Machine.execBsInit cap start ext s
  | .bsWriteBits value width => Sys2Proof.Machine.execBsWriteBits value width s
  | .bsReadBits width => Sys2Proof.Machine.execBsReadBits width s
  | .bsGetLength => Sys2Proof.Machine.execBsGetLength s
  | .bsSetLimit bytes => Sys2Proof.Machine.execBsSetLimit bytes s
  | .frWriteHeader length tag => Sys2Proof.Machine.execFrWriteHeader length tag s
  | .frReadHeader tag => Sys2Proof.Machine.execFrReadHeader tag s
  | .cdEncode entry => Sys2Proof.Machine.execCdEncode entry s
  | .cdDecode entry => Sys2Proof.Machine.execCdDecode entry s
  | .gwEnd => Sys2Proof.Machine.execGwEnd s
  | .gwFail code => Sys2Proof.Machine.execGwFail code s
  | .gwPres off skip => Sys2Proof.Machine.execGwPres off skip s
  | .gwChoice nalt => Sys2Proof.Machine.execGwChoice nalt s
  | .gwAlt off target => Sys2Proof.Machine.execGwAlt off target s
  | .gwListN off max body elem stride => Sys2Proof.Machine.execGwListN off max body elem stride s
  | .gwListV off max body elem stride => Sys2Proof.Machine.execGwListV off max body elem stride s
  | .gwLend => Sys2Proof.Machine.execGwLend s
  | .gwEnum off n => Sys2Proof.Machine.execGwEnum off n s
  | .gwNbit off min max => Sys2Proof.Machine.execGwNbit off min max s
  | .gwVaruint off vb => Sys2Proof.Machine.execGwVaruint off vb s
  | .gwStringN off cap chw => Sys2Proof.Machine.execGwStringN off cap chw s
  | .gwStringV off cap chw => Sys2Proof.Machine.execGwStringV off cap chw s
  | .gwBytesN off cap => Sys2Proof.Machine.execGwBytesN off cap s
  | .gwBytesV off cap => Sys2Proof.Machine.execGwBytesV off cap s

end Sys2Proof.Machine
end

