-- ==== Sys2Proof/Machine/HostPort.lean ====
section
/-! DEFINITION. The host's side of the block: the register read port (R42), the memory port (R77), reset
(R290). -/

namespace Sys2Proof.Machine

/-- `LSP` (R29): the number of frames in use. -/
def State.lsp (s : State) : Word := BitVec.ofNat 32 s.ls.length

/-- `HostRegRead(n)` (R42): registers 0 to 8, GPC zero-extended, 0 for any other number. -/
def State.hostRegRead (s : State) (n : Nat) : Word :=
  match n with
  | 0 => s.status.toWord
  | 1 => s.pos
  | 2 => s.cap
  | 3 => s.limit
  | 4 => s.ext
  | 5 => s.res
  | 6 => s.gpc.setWidth 32
  | 7 => s.base
  | 8 => s.lsp
  | _ => 0

/-- The reset event (R290, R43): the instance is as after reset "whatever the block was doing"; the memories'
contents are new free values (log 2); what the host still has to do and what it has read are the host's. -/
def State.resetEvent (s : State) : State :=
  { State.resetWith s.params with inbox := s.inbox, hostData := s.hostData, resets := s.resets + 1 }

/-- One port operation of the host other than a command (R42, R77, R290). "A port access changes no register,
not even STATUS" (R77). -/
def State.portOp (s : State) : HostOp → State
  | .command _ => s
  | .regRead n => { s with hostData := (s.hostRegRead n).setWidth 128 }
  | .readBuf a => { s with hostData := (s.bufByte a).setWidth 128 }
  | .writeBuf a v => s.setBufByte a v
  | .readDoc i => { s with hostData := (s.docSlot i).setWidth 128 }
  | .writeDoc i v => s.setDocSlot i v
  | .readGt g => { s with hostData := s.gtWord g }
  | .writeGt g v => s.setGtWord g v
  | .reset => s.resetEvent

/-- The host's next operation leaves its queue. -/
def State.served (s : State) (rest : List HostOp) : State := { s with inbox := rest }

/-- A command word stands on the port (R21, R90). -/
def State.present (s : State) (w : Wide) : State := { s with cmd := w }

end Sys2Proof.Machine
end

