-- ==== Sys2Proof/Machine/Step.lean ====
section
/-! DEFINITION. One step of the machine. While a codec run is in progress it fetches and executes one
descriptor (R182); otherwise it serves the host's next operation (R78, R306); reset comes first, at any time
(R290). With nothing to do "the block does nothing" (R290). -/

namespace Sys2Proof.Machine

/-- A step of the codec run: the fetch of R182 and the descriptor's rule. -/
def stepRun (s : State) : Host.Outcome State Fault Refusal :=
  match s.fetch with
  | .ok i => exec i s
  | .error e => .next (s.takeFault e)

/-- A command word presented on the port (R252). -/
def stepCommand (w : Wide) (s : State) : Host.Outcome State Fault Refusal :=
  match decodeCommand w with
  | .ok i => exec i (s.present w)
  | .error _ => .next (illegalCommand (s.present w))

/-- One step. -/
def step (s : State) : Host.Outcome State Fault Refusal :=
  match s.inbox, s.run with
  | .reset :: rest, _ => .next (s.served rest).resetEvent
  | _, some _ => stepRun s
  | [], none => .next s
  | .command w :: rest, none => stepCommand w (s.served rest)
  | op :: rest, none => .next ((s.served rest).portOp op)

/-- `s` with the word of one opcode-table row placed where the next step fetches (log 5). A word that is a
descriptor (as `decodeTableWord` reads it) goes to `GT[GPC]` with a codec run in progress in the decode
direction, GPC inside the table and no reset waiting; any other word goes to the command port, with no run in
progress. -/
def State.withFetchWord (s : State) (nbits w : Nat) : State :=
  match decodeDescriptor (BitVec.ofNat 128 (w % 2 ^ nbits)) with
  | .ok _ =>
    let g := if s.gpc.toNat < s.params.gtSteps then s.gpc else 0
    { s.setGtWord g.toNat (BitVec.ofNat 128 (w % 2 ^ nbits)) with
      gpc := g, run := some .decode, inbox := s.inbox.dropWhile fun op => op = .reset }
  | .error _ => { s with run := none, inbox := .command (BitVec.ofNat 128 (w % 2 ^ nbits)) :: s.inbox }

end Sys2Proof.Machine
end

