-- ==== Sys2Proof/Machine/Assembler.lean ====
section
/-! DEFINITION. The assembler's names and operand orders (R110, R111) and the pseudo-instructions (R112), which
stand for sequences and have no encoding of their own. -/

namespace Sys2Proof.Machine

/-- The mnemonic of R110 and R111. -/
def mnemonic : Instr → String
  | .bsInit _ _ _ => "BS_INIT"
  | .bsWriteBits _ _ => "BS_WRITE_BITS"
  | .bsReadBits _ => "BS_READ_BITS"
  | .bsGetLength => "BS_GET_LENGTH"
  | .bsSetLimit _ => "BS_SET_LIMIT"
  | .frWriteHeader _ _ => "FR_WRITE_HEADER"
  | .frReadHeader _ => "FR_READ_HEADER"
  | .cdEncode _ => "CD_ENCODE"
  | .cdDecode _ => "CD_DECODE"
  | .gwEnd => "END"
  | .gwFail _ => "FAIL"
  | .gwPres _ _ => "PRES"
  | .gwChoice _ => "CHOICE"
  | .gwAlt _ _ => "ALT"
  | .gwListN _ _ _ _ _ => "LIST.N"
  | .gwListV _ _ _ _ _ => "LIST.V"
  | .gwLend => "LEND"
  | .gwEnum _ _ => "ENUM"
  | .gwNbit _ _ _ => "NBIT"
  | .gwVaruint _ _ => "VARUINT"
  | .gwStringN _ _ _ => "STRING.N"
  | .gwStringV _ _ _ => "STRING.V"
  | .gwBytesN _ _ => "BYTES.N"
  | .gwBytesV _ _ => "BYTES.V"

/-- The operands in the order R110 and R111 write them. -/
def operands : Instr → List Nat
  | .bsInit cap start ext => [cap.toNat, start.toNat, ext.toNat]
  | .bsWriteBits value width => [value.toNat, width.toNat]
  | .bsReadBits width => [width.toNat]
  | .bsGetLength => []
  | .bsSetLimit bytes => [bytes.toNat]
  | .frWriteHeader length tag => [length.toNat, tag.toNat]
  | .frReadHeader tag => [tag.toNat]
  | .cdEncode entry => [entry.toNat]
  | .cdDecode entry => [entry.toNat]
  | .gwEnd => []
  | .gwFail code => [(Decode.codeField code).toNat]
  | .gwPres off skip => [off.toNat, skip.toNat]
  | .gwChoice nalt => [nalt.toNat]
  | .gwAlt off target => [off.toNat, target.toNat]
  | .gwListN off max body elem stride => [off.toNat, max.toNat, body.toNat, elem.toNat, stride.toNat]
  | .gwListV off max body elem stride => [off.toNat, max.toNat, body.toNat, elem.toNat, stride.toNat]
  | .gwLend => []
  | .gwEnum off n => [off.toNat, n.toNat]
  | .gwNbit off min max => [off.toNat, min.toNat, max.toNat]
  | .gwVaruint off vb => [off.toNat, vb.toNat]
  | .gwStringN off cap chw => [off.toNat, cap.toNat, chw.toNat]
  | .gwStringV off cap chw => [off.toNat, cap.toNat, chw.toNat]
  | .gwBytesN off cap => [off.toNat, cap.toNat]
  | .gwBytesV off cap => [off.toNat, cap.toNat]

/-- `OPT off { body }` (R112): PRES with the body's length as skip, then the body. -/
def pseudoOpt (off : Half) (body : List Instr) : List Instr :=
  .gwPres off (BitVec.ofNat 16 body.length) :: body

/-- `ABSENT off` (R112): `PRES off, 1` then `FAIL 4`. -/
def pseudoAbsent (off : Half) : List Instr := [.gwPres off 1, .gwFail .invalidVariant]

/-- `FRAME_ENCODE cap, entry, tag` (R112), the commands up to the length query. -/
def frameEncodeBody (cap : Word) (entry : Half) : List Instr :=
  [.bsInit cap 64 0, .cdEncode entry, .bsGetLength]

/-- The last command of FRAME_ENCODE, from the length `len` = RES that the query gave: `FR_WRITE_HEADER L - 8,
tag`; the host does the subtraction (R112). -/
def frameEncodeHeader (len : Word) (tag : Half) : Instr := .frWriteHeader (len - 8) tag

/-- The first command of `FRAME_DECODE cap, entry, tag` (R112). -/
def frameDecodeHeader (tag : Half) : Instr := .frReadHeader tag

/-- The rest of FRAME_DECODE from the payload length `n` = RES; none when `8 + N` exceeds 2^32 - 1, where the
host "cannot form the operand and treats the frame as too long" (R112). -/
def frameDecodeBody (cap : Word) (entry : Half) (n : Word) : Option (List Instr) :=
  if 8 + n.toNat < 2 ^ 32 then some [.bsInit cap 64 0, .bsSetLimit (8 + n), .cdDecode entry] else none

end Sys2Proof.Machine
end

