-- ==== Sys2Proof/Machine/Command.lean ====
section
/-! DEFINITION. A command as the ONE transition the host sees (R7, R68, R78): the step that accepts its word
and, for CD_ENCODE and CD_DECODE, the steps of the run it starts, up to R195's bound. -/

namespace Sys2Proof.Machine

/-- R195's bound on the steps of a run: `GT_STEPS * 65536^LOOP_DEPTH`. -/
def runBound (p : Params) : Nat := p.gtSteps * 65536 ^ p.loopDepth

/-- The state after at most `n` further steps of the run in progress; it stops where the run ends. -/
def State.finishRun : Nat → State → State
  | 0, s => s
  | n + 1, s =>
    match s.run with
    | none => s
    | some _ =>
      match stepRun s with
      | .next t => t.finishRun n
      | _ => s

/-- The whole of one command (R7): the host sees the state before it and this state, "never in between" (R68). -/
def State.commandWhole (s : State) (w : Wide) : State :=
  match stepCommand w s with
  | .next t => t.finishRun (runBound s.params)
  | _ => s

end Sys2Proof.Machine
end

