-- ==== Sys2Proof/Machine/Program.lean ====
section
/-! DEFINITION. R198's well-formed program: the check a table supplier can make in advance. The block makes no
use of it. -/

namespace Sys2Proof.Machine

/-- The field that starts at slot `base + off` and takes `extra` further slots lies inside DOC (R185). -/
def slotFits (p : Params) (base : Nat) (off : Half) (extra : Nat) : Bool :=
  base + off.toNat + extra < p.docSlots

/-- A jump to `t` stays inside the innermost enclosing body; `loops` holds the LEND indices of the enclosing
bodies, innermost first. -/
def insideBody (loops : List Nat) (t : Nat) : Bool :=
  match loops with
  | [] => true
  | e :: _ => t ≤ e

/-- The ALT words at `g`, `g+1`, ..., `g+n-1` with their flag slots and targets; none where one is missing or
illegal (R191). -/
def altWords (word : Nat → Wide) : Nat → Nat → Option (List (Half × Half))
  | _, 0 => some []
  | g, n + 1 =>
    match decodeDescriptor (word g) with
    | .ok (.gwAlt off target) => (altWords word (g + 1) n).map fun l => (off, target) :: l
    | _ => none

/-- What R198 asks of a LIST at `g` besides its body and the steps after it. -/
def listFits (p : Params) (word : Nat → Wide) (g base : Nat) (loops : List Nat) (off max body elem stride : Half) :
    Bool :=
  slotFits p base off 0 && g + body.toNat < p.gtSteps &&
    (match decodeDescriptor (word (g + body.toNat)) with
     | .ok .gwLend => true
     | _ => false) &&
    (match loops with
     | [] => true
     | e :: _ => g + body.toNat < e) &&
    (max.toNat = 0 || base + elem.toNat + max.toNat * stride.toNat ≤ p.docSlots) &&
    loops.length < p.loopDepth

/-- R198 for the steps reachable from `g`, inside the bodies `loops`, with BASE at most `base`. The fuel is the
number of indices still ahead: every recursive call goes forward. -/
def programOk (p : Params) (word : Nat → Wide) : Nat → Nat → Nat → List Nat → Bool
  | 0, _, _, _ => false
  | fuel + 1, g, base, loops =>
    g < p.gtSteps &&
    match decodeDescriptor (word g) with
    | .error _ => false
    | .ok i =>
      match i with
      | .gwEnd => loops.isEmpty
      | .gwFail _ => true
      | .gwPres off skip =>
        slotFits p base off 0 && programOk p word fuel (g + 1) base loops &&
          insideBody loops (g + 1 + skip.toNat) && programOk p word fuel (g + 1 + skip.toNat) base loops
      | .gwChoice nalt =>
        g + nalt.toNat < p.gtSteps &&
        match altWords word (g + 1) nalt.toNat with
        | none => false
        | some alts => alts.all fun x =>
            slotFits p base x.1 0 && g + nalt.toNat < x.2.toNat && insideBody loops x.2.toNat &&
              programOk p word fuel x.2.toNat base loops
      | .gwListN off max body elem stride =>
        listFits p word g base loops off max body elem stride &&
          (max.toNat = 0 || programOk p word fuel (g + 1) (base + elem.toNat + (max.toNat - 1) * stride.toNat)
            ((g + body.toNat) :: loops)) &&
          insideBody loops (g + 1 + body.toNat) && programOk p word fuel (g + 1 + body.toNat) base loops
      | .gwListV off max body elem stride =>
        listFits p word g base loops off max body elem stride &&
          (max.toNat = 0 || programOk p word fuel (g + 1) (base + elem.toNat + (max.toNat - 1) * stride.toNat)
            ((g + body.toNat) :: loops)) &&
          insideBody loops (g + 1 + body.toNat) && programOk p word fuel (g + 1 + body.toNat) base loops
      | .gwLend => loops.head? = some g
      | .gwEnum off _ => slotFits p base off 0 && programOk p word fuel (g + 1) base loops
      | .gwNbit off _ _ => slotFits p base off 0 && programOk p word fuel (g + 1) base loops
      | .gwVaruint off _ => slotFits p base off 0 && programOk p word fuel (g + 1) base loops
      | .gwStringN off cap _ => slotFits p base off cap.toNat && programOk p word fuel (g + 1) base loops
      | .gwStringV off cap _ => slotFits p base off cap.toNat && programOk p word fuel (g + 1) base loops
      | .gwBytesN off cap => slotFits p base off cap.toNat && programOk p word fuel (g + 1) base loops
      | .gwBytesV off cap => slotFits p base off cap.toNat && programOk p word fuel (g + 1) base loops
      | .gwAlt _ _ => false
      | .bsInit _ _ _ => false
      | .bsWriteBits _ _ => false
      | .bsReadBits _ => false
      | .bsGetLength => false
      | .bsSetLimit _ => false
      | .frWriteHeader _ _ => false
      | .frReadHeader _ => false
      | .cdEncode _ => false
      | .cdDecode _ => false

/-- The grammar program that starts at `entry` in the state's GT is well formed (R198). -/
def State.programOk (s : State) (entry : Nat) : Bool :=
  Machine.programOk s.params s.gtWord s.params.gtSteps entry 0 []

end Sys2Proof.Machine
end

