-- ==== Sys2Proof/Safety.lean ====
section
/-! DEFINITION. The terms claims use: the invariants of the state (R23 to R25, R40, R195), what the stream and
DOC hold (R64, R223, R225), and which states agree on a codec run's inputs (R197). -/

namespace Sys2Proof.Machine

/-- The three memories are in canonical form and list no address outside their space. -/
abbrev State.memoryOk (s : State) : Prop :=
  (s.buf.wf ∧ s.doc.wf ∧ s.gt.wf) ∧
    s.buf.below s.params.bufBytes ∧ s.doc.below s.params.docSlots ∧ s.gt.below s.params.gtSteps

/-- The register invariants: R6, R23 to R25, R40 and the fault fields of R22, R250. -/
abbrev State.registersOk (s : State) : Prop :=
  Config.legal s.params ∧ s.cap.toNat ≤ s.params.bufBytes ∧ s.pos.toNat ≤ s.cap.toNat * 8 ∧
    (s.status.limitEn = true → s.limit.toNat ≤ s.cap.toNat) ∧
    (s.status.fault = false → s.status.code = 0 ∧ s.status.sub = 0) ∧
    (s.status.fault = true → 1 ≤ s.status.code.toNat ∧ s.run = none) ∧
    s.status.code.toNat ≤ 6 ∧ s.rc.toNat ≤ 6 ∧
    (s.run ≠ none → s.status.inited = true) ∧
    (s.run = none → s.status.fault = false → s.ls = [])

/-- The open lists of a run at GT index `g` with BASE = `base`, innermost first (R193 to R195): `g` stays
inside the body, whose last word is a LEND, the elements still to come lie inside DOC, and each list was entered
at the index before its `start`, inside the body around it and with its own LEND before that body's. -/
def framesOk (p : Params) (word : Nat → Wide) : Nat → Nat → List Frame → Bool
  | _, base, [] => base = 0
  | g, base, f :: outer =>
    1 ≤ f.start.toNat && f.start.toNat ≤ g && g ≤ f.stop.toNat && f.stop.toNat < p.gtSteps &&
      Decode.topByte (word f.stop.toNat) = 0x07#8 && 1 ≤ f.rem.toNat && base = f.cur.toNat &&
      f.cur.toNat + f.rem.toNat * f.stride.toNat ≤ p.docSlots &&
      outer.head?.all (fun o => f.stop.toNat < o.stop.toNat) &&
      framesOk p word (f.start.toNat - 1) f.saved.toNat outer

/-- The loop invariant of a run (R39, R195). -/
abbrev State.loopsOk (s : State) : Prop :=
  s.run ≠ none → s.ls.length ≤ s.params.loopDepth ∧ framesOk s.params s.gtWord s.gpc.toNat s.base.toNat s.ls = true

/-- The `w` low bits of `v` stand at stream index `p`, most significant first (R61, R64). -/
def State.fieldAt (s : State) (p w v : Nat) : Prop := ∀ i < w, s.bufBit (p + i) = v.testBit (w - 1 - i)

/-- From `s` to `t` BUF changed at most in the stream bits `p` to `p+w-1` (R131, R67): no other bit, and no
byte without one of those bits. -/
def State.changedBits (s t : State) (p w : Nat) : Prop :=
  (∀ q, (q < p ∨ p + w ≤ q) → t.bufBit q = s.bufBit q) ∧
    ∀ a, (a * 8 + 8 ≤ p ∨ p + w ≤ a * 8) → t.bufByte a = s.bufByte a

/-- From `s` to `t` DOC changed at most in the slots `a` to `a+n-1`. -/
def State.changedSlots (s t : State) (a n : Nat) : Prop := ∀ i, (i < a ∨ a + n ≤ i) → t.docSlot i = s.docSlot i

/-- The shortest varuint of `v` has `k` groups (R223). -/
def varuintGroups (v k : Nat) : Prop := 1 ≤ k ∧ v < 128 ^ k ∧ (k = 1 ∨ 128 ^ (k - 1) ≤ v)

/-- The `k` groups of the shortest varuint of `v` stand at stream index `p` (R223): group `j` is the value's
`j`-th seven bits with bit 7 set in every group but the last. -/
def State.varuintAt (s : State) (p v k : Nat) : Prop :=
  ∀ j < k, s.fieldAt (p + 8 * j) 8 (v / 128 ^ j % 128 + if j + 1 < k then 128 else 0)

/-- The value of a sequence of varuint groups, the first least significant (R223). -/
def varuintValue : List Nat → Nat
  | [] => 0
  | o :: os => o % 128 + 128 * varuintValue os

/-- The varuint at stream index `p`, minimal or not, is the groups `os` (R223): one to ten groups, bit 7 set
in every group but the last. -/
def State.varuintGroupsAt (s : State) (p : Nat) (os : List Nat) : Prop :=
  1 ≤ os.length ∧ os.length ≤ 10 ∧
    ∀ j (h : j < os.length), os[j] < 256 ∧ (128 ≤ os[j] ↔ j + 1 < os.length) ∧ s.fieldAt (p + 8 * j) 8 os[j]

/-- The octets `os` stand at stream index `p`, whatever their continuation bits say. -/
def State.octetsAt (s : State) (p : Nat) (os : List Nat) : Prop :=
  ∀ j (h : j < os.length), os[j] < 256 ∧ s.fieldAt (p + 8 * j) 8 os[j]

/-- The prefix of R225 that an encode of `n` writes at `p` takes `k` bits. -/
def lenBits (m : LenMode) (cap n k : Nat) : Prop :=
  match m with
  | .bounded => k = cl2 (cap + 1)
  | .varuint => ∃ g, varuintGroups n g ∧ k = 8 * g

/-- The prefix of R225 that an encode of `n` writes stands at `p` and takes `k` bits. -/
def State.lenWritten (s : State) (m : LenMode) (p n k : Nat) : Prop :=
  match m with
  | .bounded => s.fieldAt p k n
  | .varuint => s.varuintAt p n (k / 8)

/-- A prefix of R225 that a decode reads as `n` stands at `p` and takes `k` bits. -/
def State.lenReadable (s : State) (m : LenMode) (cap p n k : Nat) : Prop :=
  match m with
  | .bounded => k = cl2 (cap + 1) ∧ n < 2 ^ k ∧ s.fieldAt p k n
  | .varuint => ∃ os, s.varuintGroupsAt p os ∧ k = 8 * os.length ∧ n = varuintValue os ∧ n < 2 ^ 32

/-- `i` is ENUM or NBIT with slot offset `off`, and carries the value `v`, which its range has, as the number `u` in
`w` bits (R221, R222). -/
def carries (i : Instr) (off : Half) (v u w : Nat) : Prop :=
  (∃ n : Half, i = .gwEnum off n ∧ v < n.toNat ∧ u = v ∧ w = cl2 n.toNat) ∨
    ∃ min max : Half, i = .gwNbit off min max ∧ min.toNat ≤ v ∧ v ≤ max.toNat ∧ u = v - min.toNat ∧
      w = cl2 (max.toNat - min.toNat + 1)

/-- `i` is STRING or BYTES in the length mode `m`, with characters of `chw` bits, 8 for BYTES (R226, R227). -/
def charsForm (i : Instr) (m : LenMode) (off cap : Half) (chw : Byte) : Prop :=
  i = .gwStringN off cap chw ∧ m = .bounded ∨ i = .gwStringV off cap chw ∧ m = .varuint ∨
    i = .gwBytesN off cap ∧ m = .bounded ∧ chw = 8 ∨ i = .gwBytesV off cap ∧ m = .varuint ∧ chw = 8

/-- `i` is LIST in the length mode `m` (R193). -/
def listForm (i : Instr) (m : LenMode) (off max body elem stride : Half) : Prop :=
  i = .gwListN off max body elem stride ∧ m = .bounded ∨ i = .gwListV off max body elem stride ∧ m = .varuint

/-- The ALT words of a CHOICE at `g` (R191): word `g + 1 + i` is `ALT off_i, T_i`, its flag slot exists and its
target is a legal jump target. -/
def State.altsAt (s : State) (g : Nat) (alts : List (Half × Half)) : Prop :=
  g + alts.length < s.params.gtSteps ∧
    ∀ i (h : i < alts.length),
      decodeDescriptor (s.gtWord (g + 1 + i)) = .ok (.gwAlt alts[i].1 alts[i].2) ∧
        s.base.toNat + alts[i].1.toNat < s.params.docSlots ∧
        s.jumpOk (g + alts.length) alts[i].2.toNat = true

/-- The structural checks of a LIST at GPC pass (R193). -/
def State.listAt (s : State) (off max body elem stride : Half) : Prop :=
  s.base.toNat + off.toNat < s.params.docSlots ∧
    s.gpc.toNat + body.toNat < s.params.gtSteps ∧
    Decode.topByte (s.gtWord (s.gpc.toNat + body.toNat)) = 0x07#8 ∧
    (∀ f, s.ls.head? = some f → s.gpc.toNat + body.toNat < f.stop.toNat) ∧
    (0 < max.toNat → s.base.toNat + elem.toNat + max.toNat * stride.toNat ≤ s.params.docSlots) ∧
    s.ls.length ≠ s.params.loopDepth

/-- The `k` words behind a CHOICE at `g` are ALT words whose flag slots exist (R191); their targets may be any. -/
def State.altWords (s : State) (g k : Nat) : Prop :=
  g + k < s.params.gtSteps ∧
    ∀ j < k, ∃ off target : Half, decodeDescriptor (s.gtWord (g + 1 + j)) = .ok (.gwAlt off target) ∧
      s.base.toNat + off.toNat < s.params.docSlots

/-- The first access of a prefix of R225 takes this many bits: all of a bounded one, one group of a varuint. -/
def firstPrefixBits (m : LenMode) (cap : Nat) : Nat :=
  match m with
  | .bounded => cl2 (cap + 1)
  | .varuint => 8

/-- The descriptor `i` at GPC comes to a first stream access, of `w` bits (R186): its structural checks pass and, on
encode, so do those of the value it reads from DOC. -/
def State.firstAccess (s : State) (d : Dir) (i : Instr) (w : Nat) : Prop :=
  (∃ off skip : Half, i = .gwPres off skip ∧ s.base.toNat + off.toNat < s.params.docSlots ∧ w = 1 ∧
    (d = .encode → (s.docSlot (s.base.toNat + off.toNat)).toNat ≤ 1)) ∨
  (∃ (nalt : Half) (alts : List (Half × Half)), i = .gwChoice nalt ∧ alts.length = nalt.toNat ∧
    s.altsAt s.gpc.toNat alts ∧ w = cl2 nalt.toNat ∧
    (d = .encode → ∃ k < alts.length, ∀ j (hj : j < alts.length),
      (s.docSlot (s.base.toNat + alts[j].1.toNat)).toNat = if j = k then 1 else 0)) ∨
  (∃ off n : Half, i = .gwEnum off n ∧ s.base.toNat + off.toNat < s.params.docSlots ∧ w = cl2 n.toNat ∧
    (d = .encode → (s.docSlot (s.base.toNat + off.toNat)).toNat < n.toNat)) ∨
  (∃ off min max : Half, i = .gwNbit off min max ∧ s.base.toNat + off.toNat < s.params.docSlots ∧
    w = cl2 (max.toNat - min.toNat + 1) ∧
    (d = .encode → min.toNat ≤ (s.docSlot (s.base.toNat + off.toNat)).toNat ∧
      (s.docSlot (s.base.toNat + off.toNat)).toNat ≤ max.toNat)) ∨
  (∃ off vb : Half, i = .gwVaruint off vb ∧ s.base.toNat + off.toNat < s.params.docSlots ∧ w = 8 ∧
    (d = .encode → (s.docSlot (s.base.toNat + off.toNat)).toNat < 2 ^ vb.toNat)) ∨
  (∃ (m : LenMode) (off cap : Half) (chw : Byte), charsForm i m off cap chw ∧
    s.base.toNat + off.toNat + cap.toNat < s.params.docSlots ∧ w = firstPrefixBits m cap.toNat ∧
    (d = .encode → (s.docSlot (s.base.toNat + off.toNat)).toNat ≤ cap.toNat)) ∨
  ∃ (m : LenMode) (off max body elem stride : Half), listForm i m off max body elem stride ∧
    s.listAt off max body elem stride ∧ w = firstPrefixBits m max.toNat ∧
    (d = .encode → (s.docSlot (s.base.toNat + off.toNat)).toNat ≤ max.toNat)

/-- The descriptor `i` at GPC, its structural checks passed, moves slot BASE + `off` as a varuint: values up to `top`
on encode, below `2 ^ vb` on decode (R224, R225). -/
def State.movesVaruint (s : State) (i : Instr) (off : Half) (vb top : Nat) : Prop :=
  (∃ bits : Half, i = .gwVaruint off bits ∧ s.base.toNat + off.toNat < s.params.docSlots ∧ vb = bits.toNat ∧
    top = 2 ^ bits.toNat - 1) ∨
  (∃ (cap : Half) (chw : Byte), charsForm i .varuint off cap chw ∧
    s.base.toNat + off.toNat + cap.toNat < s.params.docSlots ∧ vb = 32 ∧ top = cap.toNat) ∨
  ∃ max body elem stride : Half, listForm i .varuint off max body elem stride ∧ s.listAt off max body elem stride ∧
    vb = 32 ∧ top = max.toNat

/-- The rule of a descriptor that moved `w` bits from DOC to the stream and went on at GT index `g` (R186): from
`s` to `t` BUF changed at most in those bits, POS grew by `w`, GPC is `g`, and nothing else changed. -/
def State.encoded (s t : State) (w g : Nat) : Prop :=
  t = { s with buf := t.buf, pos := BitVec.ofNat 32 (s.pos.toNat + w), gpc := BitVec.ofNat 16 g } ∧
    s.changedBits t s.pos.toNat w

/-- The rule of a descriptor that moved `w` bits from the stream to the `n` slots from `a` on and went on at GT
index `g` (R186): DOC changed at most in those slots, POS grew by `w`, GPC is `g`, and nothing else changed. -/
def State.decoded (s t : State) (w a n g : Nat) : Prop :=
  t = { s with doc := t.doc, pos := BitVec.ofNat 32 (s.pos.toNat + w), gpc := BitVec.ofNat 16 g } ∧
    s.changedSlots t a n

/-- The state in which a decode-side check raises: the `w` bits before it were consumed (R186, R189). -/
def State.consumed (s : State) (w : Nat) : State := { s with pos := BitVec.ofNat 32 (s.pos.toNat + w) }

/-- The slots an encode of the descriptor at GPC reads as a meaningful field (R229): the flag, the value, the
length or count, the first `n` character slots, the selected flags. -/
def State.fieldSlots (s : State) : Instr → List Nat
  | .gwPres off _ => [s.base.toNat + off.toNat]
  | .gwEnum off _ => [s.base.toNat + off.toNat]
  | .gwNbit off _ _ => [s.base.toNat + off.toNat]
  | .gwVaruint off _ => [s.base.toNat + off.toNat]
  | .gwListN off _ _ _ _ => [s.base.toNat + off.toNat]
  | .gwListV off _ _ _ _ => [s.base.toNat + off.toNat]
  | .gwStringN off _ _ => List.range' (s.base.toNat + off.toNat) ((s.docSlot (s.base.toNat + off.toNat)).toNat + 1)
  | .gwStringV off _ _ => List.range' (s.base.toNat + off.toNat) ((s.docSlot (s.base.toNat + off.toNat)).toNat + 1)
  | .gwBytesN off _ => List.range' (s.base.toNat + off.toNat) ((s.docSlot (s.base.toNat + off.toNat)).toNat + 1)
  | .gwBytesV off _ => List.range' (s.base.toNat + off.toNat) ((s.docSlot (s.base.toNat + off.toNat)).toNat + 1)
  | .gwChoice nalt =>
    (List.range nalt.toNat).filterMap fun i =>
      let a := s.base.toNat + (Decode.off (s.gtWord (s.gpc.toNat + 1 + i))).toNat
      if (s.docSlot a).toNat = 1 then some a else none
  | .gwEnd => []
  | .gwFail _ => []
  | .gwAlt _ _ => []
  | .gwLend => []
  | .bsInit _ _ _ => []
  | .bsWriteBits _ _ => []
  | .bsReadBits _ => []
  | .bsGetLength => []
  | .bsSetLimit _ => []
  | .frWriteHeader _ _ => []
  | .frReadHeader _ => []
  | .cdEncode _ => []
  | .cdDecode _ => []

/-- The slots that at most `n` further steps of the encode run in progress read as meaningful fields (R229). -/
def State.runSlots : Nat → State → List Nat
  | 0, _ => []
  | n + 1, s =>
    match s.run, s.fetch with
    | some _, .ok i =>
      s.fieldSlots i ++
        match exec i s with
        | .next t => t.runSlots n
        | _ => []
    | _, _ => []

/-- The block is ready for a command: no codec run, no fault, and a BS_INIT has been (R252). -/
def State.ready (s : State) : Prop := s.run = none ∧ s.status.fault = false ∧ s.status.inited = true

/-- The two states have the same inputs of a codec command (R197): equal contents of GT, DOC and BUF (not
equal lists, log 2), and equal POS, CAP, LIMIT and LIMIT_EN, in the same instance. -/
def State.codecAgree (s t : State) : Prop :=
  s.params = t.params ∧ (∀ g, s.gtWord g = t.gtWord g) ∧ (∀ a, s.docSlot a = t.docSlot a) ∧
    (∀ a, s.bufByte a = t.bufByte a) ∧
    s.pos = t.pos ∧ s.cap = t.cap ∧ s.limit = t.limit ∧ s.status.limitEn = t.status.limitEn

/-- No reset is the next thing the host does (R290). -/
def State.noReset (s : State) : Prop := s.inbox.head? ≠ some .reset

end Sys2Proof.Machine
end

