-- ==== Sys2Proof/Certificates/Slice0/Obligations.lean ====
section
/-! DEFINITION. The statements for the provers, from the numbered rules of spec/. Where a clause rests on a choice
of the model, the docstring names the log entry. -/

open Sys2Proof Sys2Proof.Machine

/-! Encoding -/

/-- R90 to R93: a well-formed command's word decodes to it, every operand at every value. -/
def Obligations.CommandDecodeEncode : Prop :=
  ∀ i : Instr, i.isCommand = true → i.wf = true → decodeCommand (encode i) = .ok i

/-- R100 to R103: a well-formed descriptor's word decodes to it, every field at every value. -/
def Obligations.DescriptorDecodeEncode : Prop :=
  ∀ i : Instr, i.isCommand = false → i.wf = true → decodeDescriptor (encode i) = .ok i

/-- R90 to R93, R100 to R103: no bit of an accepted word is ignored, and no accepted word is ill-formed. -/
def Obligations.AcceptedWordsAreCanonical : Prop :=
  ∀ (w : Wide) (i : Instr),
    (decodeCommand w = .ok i → encode i = w ∧ i.wf = true ∧ i.isCommand = true) ∧
      (decodeDescriptor w = .ok i → encode i = w ∧ i.wf = true ∧ i.isCommand = false)

/-- R93: `LegalCmd`, clause by clause, is what the command decoder accepts; any other word raises
IllegalCommand(1) with no other effect (in the fault state it is refused, R252 test 1). -/
def Obligations.LegalCommandWords : Prop :=
  ∀ w : Wide,
    ((∃ i, decodeCommand w = .ok i) ↔ legalCmd w = true) ∧
      ∀ s : State, legalCmd w = false → s.status.fault = false → s.run = none →
        stepCommand w s = .next
          { s with cmd := w, rc := 6, status := { s.status with fault := true, code := 6, sub := 1 } }

/-- R103: `LegalGW`, clause by clause, is what the descriptor decoder accepts. -/
def Obligations.LegalDescriptorWords : Prop :=
  ∀ w : Wide, (∃ i, decodeDescriptor w = .ok i) ↔ legalGW w = true

/-- Words written out in the test vectors (95_test_vectors.md P1 to P5), one or more of each family, decode to
the instructions they stand for. -/
def Obligations.SampleWordsDecode : Prop :=
  decodeCommand 0x01000000000000070000000000000004 = .ok (.bsInit 4 0 7) ∧
    decodeCommand 0x020000000000000000000009000001FF = .ok (.bsWriteBits 0x1FF 9) ∧
    decodeCommand 0x10000000000000000000ABCD00000002 = .ok (.frWriteHeader 2 0xABCD) ∧
    decodeCommand 0x21000000000000000000000000000000 = .ok (.cdDecode 0) ∧
    decodeDescriptor 0x05000000000100070000000000000000 = .ok (.gwAlt 1 7) ∧
    decodeDescriptor 0x06000000000000030004000100050000 = .ok (.gwListN 0 3 4 1 5) ∧
    decodeDescriptor 0x11000000000500010014000000000000 = .ok (.gwNbit 5 1 20) ∧
    decodeDescriptor 0x13000700000C00140000000000000000 = .ok (.gwStringN 12 20 7)

/-! The step -/

/-- R252 test 4, R306: with no codec run in progress a legal command word at the head of the host's queue is
executed, in the state where it has left the queue and stands in CMD (the queue is the model's, log 4). -/
def Obligations.StepRunsTheCommand : Prop :=
  ∀ (s : State) (w : Wide) (rest : List HostOp) (i : Instr),
    s.run = none → s.inbox = .command w :: rest → decodeCommand w = .ok i →
      step s = exec i { s with inbox := rest, cmd := w }

/-- R182: in a codec run (and no reset event, R290) the descriptor at GPC is fetched and executed. The run takes
one step of the model per descriptor (log 3). -/
def Obligations.StepRunsTheDescriptor : Prop :=
  ∀ (s : State) (d : Dir) (i : Instr),
    s.run = some d → s.noReset → s.gpc.toNat < s.params.gtSteps →
      decodeDescriptor (s.gtWord s.gpc.toNat) = .ok i → step s = exec i s

/-- R182: a fetch at or beyond GT_STEPS raises IllegalGrammar(2), a fetch of an illegal word IllegalGrammar(1);
GPC keeps its value, the run ends and nothing but the fault fields and RC changes (R256). -/
def Obligations.FetchFaults : Prop :=
  ∀ (s : State) (d : Dir), s.run = some d → s.noReset →
    (s.params.gtSteps ≤ s.gpc.toNat →
      step s = .next { s with run := none, rc := 5, status := { s.status with fault := true, code := 5, sub := 2 } }) ∧
    (s.gpc.toNat < s.params.gtSteps → legalGW (s.gtWord s.gpc.toNat) = false →
      step s = .next { s with run := none, rc := 5, status := { s.status with fault := true, code := 5, sub := 1 } })

/-- R252 test 3, R253: without a BS_INIT the cursor and codec commands raise IllegalCommand(2), and no other
state changes. -/
def Obligations.NeedsInitialisation : Prop :=
  ∀ (i : Instr) (s : State),
    ((∃ v w, i = .bsWriteBits v w) ∨ (∃ w, i = .bsReadBits w) ∨ i = .bsGetLength ∨ (∃ b, i = .bsSetLimit b) ∨
        (∃ e, i = .cdEncode e) ∨ (∃ e, i = .cdDecode e)) →
      s.run = none → s.status.fault = false → s.status.inited = false →
      exec i s = .next { s with rc := 6, status := { s.status with fault := true, code := 6, sub := 2 } }

/-- R257, R252 test 1: in the fault state every word on the command port that is not a legal BS_INIT, legal or
not, only sets RC to the latched code. -/
def Obligations.FaultStateRefuses : Prop :=
  ∀ (s : State) (w : Wide), s.status.fault = true →
    (∀ cap start ext, decodeCommand w ≠ .ok (.bsInit cap start ext)) →
      stepCommand w s = .next { s with cmd := w, rc := s.status.code }

/-- R258: a step leaves the fault state only by reset or by a BS_INIT that succeeds. -/
def Obligations.FaultStateLeftOnlyByInit : Prop :=
  ∀ s t : State, step s = .next t → s.status.fault = true → t.status.fault = false →
    (∃ rest, s.inbox = .reset :: rest) ∨
      ∃ w rest cap start ext, s.inbox = .command w :: rest ∧ decodeCommand w = .ok (.bsInit cap start ext) ∧
        cap.toNat ≤ s.params.bufBytes ∧ start.toNat ≤ cap.toNat * 8

/-- No state makes the block stop: every step answers a next state ("calls are bounded and non-blocking"). -/
def Obligations.EveryStepAnswers : Prop := ∀ s : State, ∃ t, step s = .next t

/-- The model's choice (log 10): outside a codec run `exec` of a descriptor stops with the model's own fault. -/
def Obligations.DescriptorNeedsARun : Prop :=
  ∀ (i : Instr) (s : State), i.isCommand = false → s.run = none → exec i s = .fault .noRun

/-! Reset and the host's ports -/

/-- R43, R290: after reset every numbered register reads 0 (STATUS with all its fields) and RC is 0. That it is so
in the instance of any parameters, which reset leaves as they are, is the model's choice of how to hold them
(log 1). -/
def Obligations.ResetValues : Prop :=
  ∀ (p : Params) (n : Nat),
    (State.resetWith p).hostRegRead n = 0 ∧ (State.resetWith p).rc = 0 ∧ (State.resetWith p).status = Status.reset ∧
      (State.resetWith p).params = p

/-- R290: reset at any time, also during a codec run: every numbered register and RC are 0 whatever the block
was doing; and with no command and no run the block does nothing. The host's queue and read data stay (log 4). -/
def Obligations.ResetEvent : Prop :=
  (∀ (s : State) (rest : List HostOp), s.inbox = .reset :: rest →
    ∃ t, step s = .next t ∧ (∀ n, t.hostRegRead n = 0) ∧ t.rc = 0 ∧ t.run = none ∧ t.params = s.params ∧
      t.inbox = rest ∧ t.hostData = s.hostData) ∧
    ∀ s : State, s.inbox = [] → s.run = none → step s = .next s

/-- R42, R22: the register port returns register n for n = 0 to 8, GPC zero-extended, 0 for any other n, and has
no side effect; STATUS is read with its fields at their places. -/
def Obligations.RegisterPort : Prop :=
  ∀ (s : State) (n : Nat) (rest : List HostOp), s.run = none → s.inbox = .regRead n :: rest →
    ∃ v : Word,
      step s = .next { s with inbox := rest, hostData := v.setWidth 128 } ∧
      (n = 0 → v.getLsbD 0 = s.status.inited ∧ v.getLsbD 1 = s.status.fault ∧ v.getLsbD 2 = s.status.limitEn ∧
        v.extractLsb' 3 5 = 0 ∧ v.extractLsb' 8 8 = s.status.code ∧ v.extractLsb' 16 4 = s.status.sub ∧
        v.extractLsb' 20 12 = 0) ∧
      (n = 1 → v = s.pos) ∧ (n = 2 → v = s.cap) ∧ (n = 3 → v = s.limit) ∧ (n = 4 → v = s.ext) ∧
      (n = 5 → v = s.res) ∧ (n = 6 → v.toNat = s.gpc.toNat) ∧ (n = 7 → v = s.base) ∧
      (n = 8 → v = BitVec.ofNat 32 s.ls.length) ∧ (8 < n → v = 0)

/-- R77: the memory port in any state: a write inside a memory is what the next read of that cell returns, every
other cell keeps its value, outside it reads 0 and writes do nothing, and no register changes. -/
def Obligations.MemoryPort : Prop :=
  ∀ s : State,
    (∀ a v b, s.portOp (.writeBuf a v) = { s with buf := (s.portOp (.writeBuf a v)).buf } ∧
      (s.portOp (.writeBuf a v)).bufByte b = if b = a ∧ a < s.params.bufBytes then v else s.bufByte b) ∧
    (∀ i v j, s.portOp (.writeDoc i v) = { s with doc := (s.portOp (.writeDoc i v)).doc } ∧
      (s.portOp (.writeDoc i v)).docSlot j = if j = i ∧ i < s.params.docSlots then v else s.docSlot j) ∧
    (∀ g v h, s.portOp (.writeGt g v) = { s with gt := (s.portOp (.writeGt g v)).gt } ∧
      (s.portOp (.writeGt g v)).gtWord h = if h = g ∧ g < s.params.gtSteps then v else s.gtWord h) ∧
    (∀ a, s.portOp (.readBuf a) = { s with hostData := (s.bufByte a).setWidth 128 }) ∧
    (∀ i, s.portOp (.readDoc i) = { s with hostData := (s.docSlot i).setWidth 128 }) ∧
    (∀ g, s.portOp (.readGt g) = { s with hostData := s.gtWord g }) ∧
    (∀ a, s.params.bufBytes ≤ a → s.bufByte a = 0) ∧ (∀ i, s.params.docSlots ≤ i → s.docSlot i = 0) ∧
    (∀ g, s.params.gtSteps ≤ g → s.gtWord g = 0) ∧
    ∀ op rest, s.run = none → s.inbox = op :: rest → (∀ w, op ≠ .command w) →
      op = .reset ∨ step s = .next (State.portOp { s with inbox := rest } op)

/-! The cursor commands -/

/-- R130: BS_INIT in every state without a run, the fault state among them: the two rejections and the success,
each with everything it writes; RES, RC apart, and the memories never change. -/
def Obligations.InitCommand : Prop :=
  ∀ (cap start ext : Word) (s : State), s.run = none →
    exec (.bsInit cap start ext) s = .next (
      if s.params.bufBytes < cap.toNat then
        { s with rc := 1, status := { s.status with inited := false, fault := true, code := 1, sub := 1 } }
      else if cap.toNat * 8 < start.toNat then
        { s with rc := 1, status := { s.status with inited := false, fault := true, code := 1, sub := 2 } }
      else
        { s with rc := 0, cap := cap, pos := start, limit := 0, ext := ext, gpc := 0, base := 0, ls := [],
                 status := { inited := true, fault := false, limitEn := false, code := 0, sub := 0 } })

/-- R131, R133: BS_WRITE_BITS writes exactly the low `width` bits, most significant first, at POS; all other bits
and bytes of BUF, RES and every other register keep their values. -/
def Obligations.WriteBitsCommand : Prop :=
  ∀ (value width : Word) (s : State), s.ready → s.cap.toNat ≤ s.params.bufBytes →
    s.pos.toNat + width.toNat ≤ s.cap.toNat * 8 →
    ∃ t, exec (.bsWriteBits value width) s = .next t ∧
      t = { s with rc := 0, buf := t.buf, pos := BitVec.ofNat 32 (s.pos.toNat + width.toNat) } ∧
      t.fieldAt s.pos.toNat width.toNat value.toNat ∧ s.changedBits t s.pos.toNat width.toNat

/-- R132, R135: BS_READ_BITS returns the `width` bits at POS, the first the most significant, and moves POS; it
writes nothing else. The bound is the limit while it is in force, the capacity otherwise. -/
def Obligations.ReadBitsCommand : Prop :=
  ∀ (width : Word) (s : State), s.ready → width.toNat ≤ 32 →
    s.pos.toNat + width.toNat ≤ (if s.status.limitEn then s.limit.toNat * 8 else s.cap.toNat * 8) →
    ∃ r, exec (.bsReadBits width) s = .next
        { s with rc := 0, res := r, pos := BitVec.ofNat 32 (s.pos.toNat + width.toNat) } ∧
      r.toNat < 2 ^ width.toNat ∧ s.fieldAt s.pos.toNat width.toNat r.toNat

/-- R131, R132, R267: a bit write past the capacity and a bit read past the read bound raise BufferOverflow(3)
and (4), before any bit moves: of BS_WRITE_BITS and BS_READ_BITS, and of every descriptor that accesses the stream.
Where the first access of a descriptor has no room, nothing but what the raise writes changes (R186); the groups of
a varuint and the characters moved before the one that has no room stay, and on decode their slots (R189, R223,
R226). No decode step moves POS past the read bound. -/
def Obligations.BitAccessOverflow : Prop :=
  (∀ (value width : Word) (s : State), s.ready →
    (s.cap.toNat * 8 < s.pos.toNat + width.toNat → exec (.bsWriteBits value width) s = .next
      { s with rc := 1, status := { s.status with fault := true, code := 1, sub := 3 } }) ∧
    ((if s.status.limitEn then s.limit.toNat * 8 else s.cap.toNat * 8) < s.pos.toNat + width.toNat →
      exec (.bsReadBits width) s = .next
        { s with rc := 1, status := { s.status with fault := true, code := 1, sub := 4 } })) ∧
  (∀ (i : Instr) (w : Nat) (s : State),
    (s.run = some .encode → s.firstAccess .encode i w → s.cap.toNat * 8 < s.pos.toNat + w → exec i s = .next
      { s with rc := 1, run := none, status := { s.status with fault := true, code := 1, sub := 3 } }) ∧
    (s.run = some .decode → s.firstAccess .decode i w →
      (if s.status.limitEn then s.limit.toNat * 8 else s.cap.toNat * 8) < s.pos.toNat + w → exec i s = .next
        { s with rc := 1, run := none, status := { s.status with fault := true, code := 1, sub := 4 } })) ∧
  (∀ (i : Instr) (off : Half) (vb top : Nat) (s : State), s.registersOk → s.movesVaruint i off vb top →
    (∀ v k j, s.run = some .encode → (s.docSlot (s.base.toNat + off.toNat)).toNat = v → v ≤ top →
      varuintGroups v k → j < k → s.pos.toNat + 8 * j ≤ s.cap.toNat * 8 →
      s.cap.toNat * 8 < s.pos.toNat + 8 * (j + 1) →
      ∃ t, exec i s = .next (t.takeFault ⟨.bufferOverflow, 3⟩) ∧ s.encoded t (8 * j) s.gpc.toNat ∧
        ∀ l < j, t.fieldAt (s.pos.toNat + 8 * l) 8 (v / 128 ^ l % 128 + 128)) ∧
    (∀ os : List Nat, s.run = some .decode → s.octetsAt s.pos.toNat os → (∀ o ∈ os, 128 ≤ o) → os.length < 10 →
      varuintValue os < 2 ^ vb → s.pos.toNat + 8 * os.length ≤ s.readBound →
      s.readBound < s.pos.toNat + 8 * (os.length + 1) →
      exec i s = .next ((s.consumed (8 * os.length)).takeFault ⟨.bufferOverflow, 4⟩))) ∧
  (∀ (i : Instr) (m : LenMode) (off cap : Half) (chw : Byte) (s : State) (n k j : Nat), charsForm i m off cap chw →
    s.registersOk → s.base.toNat + off.toNat + cap.toNat < s.params.docSlots → n ≤ cap.toNat → j < n →
    (s.run = some .encode → (s.docSlot (s.base.toNat + off.toNat)).toNat = n → lenBits m cap.toNat n k →
      (∀ l ≤ j, (s.docSlot (s.base.toNat + off.toNat + 1 + l)).toNat < 2 ^ chw.toNat) →
      s.pos.toNat + k + j * chw.toNat ≤ s.cap.toNat * 8 →
      s.cap.toNat * 8 < s.pos.toNat + k + (j + 1) * chw.toNat →
      ∃ t, exec i s = .next (t.takeFault ⟨.bufferOverflow, 3⟩) ∧ s.encoded t (k + j * chw.toNat) s.gpc.toNat ∧
        t.lenWritten m s.pos.toNat n k ∧
        ∀ l < j, t.fieldAt (s.pos.toNat + k + l * chw.toNat) chw.toNat
          (s.docSlot (s.base.toNat + off.toNat + 1 + l)).toNat) ∧
    (s.run = some .decode → chw.toNat ≤ 8 → s.lenReadable m cap.toNat s.pos.toNat n k →
      s.pos.toNat + k + j * chw.toNat ≤ s.readBound → s.readBound < s.pos.toNat + k + (j + 1) * chw.toNat →
      ∃ t, exec i s = .next (t.takeFault ⟨.bufferOverflow, 4⟩) ∧
        s.decoded t (k + j * chw.toNat) (s.base.toNat + off.toNat) (j + 1) s.gpc.toNat ∧
        (t.docSlot (s.base.toNat + off.toNat)).toNat = n ∧
        ∀ l < j, s.fieldAt (s.pos.toNat + k + l * chw.toNat) chw.toNat
            (t.docSlot (s.base.toNat + off.toNat + 1 + l)).toNat ∧
          (t.docSlot (s.base.toNat + off.toNat + 1 + l)).toNat < 2 ^ chw.toNat)) ∧
  ∀ s t : State, s.run = some .decode → s.noReset → s.registersOk → step s = .next t →
    t.pos = s.pos ∨ s.pos.toNat ≤ t.pos.toNat ∧ t.pos.toNat ≤ s.readBound

/-- R134: BS_GET_LENGTH returns the whole bytes below POS, rounding up, and writes RES only. -/
def Obligations.GetLengthCommand : Prop :=
  ∀ s : State, s.ready →
    ∃ r : Word, exec .bsGetLength s = .next { s with rc := 0, res := r } ∧ r.toNat = (s.pos.toNat + 7) / 8

/-- R136: BS_SET_LIMIT puts the limit in force, or raises BufferOverflow(5) with limit and enable unchanged. -/
def Obligations.SetLimitCommand : Prop :=
  ∀ (bytes : Word) (s : State), s.ready →
    exec (.bsSetLimit bytes) s = .next (
      if s.cap.toNat < bytes.toNat then
        { s with rc := 1, status := { s.status with fault := true, code := 1, sub := 5 } }
      else { s with rc := 0, limit := bytes, status := { s.status with limitEn := true } })

/-- R138: a field written at POS is read back by a read of the same width at the same index, whatever else of the
two states differs outside the field's bits. -/
def Obligations.ReadMirrorsWrite : Prop :=
  ∀ (value width : Word) (s t r : State), s.ready → width.toNat ≤ 32 → s.cap.toNat ≤ s.params.bufBytes →
    s.pos.toNat + width.toNat ≤ s.cap.toNat * 8 → exec (.bsWriteBits value width) s = .next t →
    r.ready → r.pos = s.pos → s.pos.toNat + width.toNat ≤ r.readBound →
    (∀ q, s.pos.toNat ≤ q → q < s.pos.toNat + width.toNat → r.bufBit q = t.bufBit q) →
    ∃ v : Word, exec (.bsReadBits width) r = .next
        { r with rc := 0, res := v, pos := BitVec.ofNat 32 (s.pos.toNat + width.toNat) } ∧
      v.toNat = value.toNat % 2 ^ width.toNat

/-- R137: only BS_INIT lets POS decrease, and only the bit accesses and the codec runs move it. -/
def Obligations.PositionOnlyGrows : Prop :=
  ∀ (i : Instr) (s t : State), s.registersOk → exec i s = .next t → (∀ cap start ext, i ≠ .bsInit cap start ext) →
    s.pos.toNat ≤ t.pos.toNat ∧
      (i.isCommand = true → (∀ v w, i ≠ .bsWriteBits v w) → (∀ w, i ≠ .bsReadBits w) → t.pos = s.pos)

/-! The framer commands -/

/-- R162, R160, R161: FR_WRITE_HEADER writes the eight header bytes, big-endian, and nothing else; it needs no
BS_INIT and does not look at the cursor. -/
def Obligations.WriteHeaderCommand : Prop :=
  ∀ (length : Word) (tag : Half) (s : State), s.run = none → s.status.fault = false → 8 ≤ s.params.bufBytes →
    ∃ t, exec (.frWriteHeader length tag) s = .next t ∧ t = { s with rc := 0, buf := t.buf } ∧
      t.bufByte 0 = 0x01 ∧ t.bufByte 1 = 0xFE ∧
      (t.bufByte 2).toNat * 256 + (t.bufByte 3).toNat = tag.toNat ∧
      (t.bufByte 4).toNat * 256 ^ 3 + (t.bufByte 5).toNat * 256 ^ 2 + (t.bufByte 6).toNat * 256 +
        (t.bufByte 7).toNat = length.toNat ∧
      ∀ a, 8 ≤ a → t.bufByte a = s.bufByte a

/-- R163, R165: FR_READ_HEADER for every content of BUF[0..7] and every tag: the version pair first, then the tag,
then the length into RES; POS is neither read nor moved. -/
def Obligations.ReadHeaderCommand : Prop :=
  ∀ (tag : Half) (s : State), s.run = none → s.status.fault = false →
    ((s.bufByte 1).toNat ≠ 255 - (s.bufByte 0).toNat → exec (.frReadHeader tag) s = .next
      { s with rc := 2, status := { s.status with fault := true, code := 2, sub := 1 } }) ∧
    ((s.bufByte 1).toNat = 255 - (s.bufByte 0).toNat →
      (s.bufByte 2).toNat * 256 + (s.bufByte 3).toNat ≠ tag.toNat → exec (.frReadHeader tag) s = .next
        { s with rc := 2, status := { s.status with fault := true, code := 2, sub := 2 } }) ∧
    ((s.bufByte 1).toNat = 255 - (s.bufByte 0).toNat →
      (s.bufByte 2).toNat * 256 + (s.bufByte 3).toNat = tag.toNat →
      ∃ r : Word, exec (.frReadHeader tag) s = .next { s with rc := 0, res := r } ∧
        r.toNat = (s.bufByte 4).toNat * 256 ^ 3 + (s.bufByte 5).toNat * 256 ^ 2 + (s.bufByte 6).toNat * 256 +
          (s.bufByte 7).toNat)

/-- R164: after FR_WRITE_HEADER n, t the command FR_READ_HEADER t succeeds with RES = n, and with any other tag
raises MalformedHeader(2), in every state with the same bytes 0 to 7. -/
def Obligations.HeaderRoundTrip : Prop :=
  ∀ (n : Word) (tag other : Half) (s t r : State), s.run = none → s.status.fault = false →
    8 ≤ s.params.bufBytes → exec (.frWriteHeader n tag) s = .next t → r.run = none → r.status.fault = false →
    (∀ a < 8, r.bufByte a = t.bufByte a) →
    exec (.frReadHeader tag) r = .next { r with rc := 0, res := n } ∧
      (other ≠ tag → exec (.frReadHeader other) r = .next
        { r with rc := 2, status := { r.status with fault := true, code := 2, sub := 2 } })

/-! The codec: its start and its control descriptors -/

/-- R180, R181, R182: CD_ENCODE and CD_DECODE start a run at the entry index in their direction, with BASE = 0 and
an empty loop stack; the cursor is where it was. -/
def Obligations.CodecCommandsStart : Prop :=
  ∀ (entry : Half) (s : State), s.ready →
    exec (.cdEncode entry) s = .next { s with gpc := entry, base := 0, ls := [], run := some .encode } ∧
      exec (.cdDecode entry) s = .next { s with gpc := entry, base := 0, ls := [], run := some .decode }

/-- R187: END ends the run and its command with RC = 0 and writes nothing; inside a list body it raises
IllegalGrammar(7). -/
def Obligations.EndDescriptor : Prop :=
  ∀ (s : State) (d : Dir), s.run = some d →
    exec .gwEnd s = .next (
      if s.ls = [] then { s with rc := 0, run := none }
      else { s with rc := 5, run := none, status := { s.status with fault := true, code := 5, sub := 7 } })

/-- R188: FAIL raises the fault whose code it names, with sub-cause 0, and writes nothing but the fault state; its
word's field A is that code. -/
def Obligations.FailDescriptor : Prop :=
  ∀ (k : FaultKind) (s : State) (d : Dir), s.run = some d →
    ∃ c : Byte, c.toNat = (Decode.fieldA (encode (.gwFail k))).toNat ∧ 1 ≤ c.toNat ∧ c.toNat ≤ 6 ∧
      exec (.gwFail k) s = .next
        { s with rc := c, run := none, status := { s.status with fault := true, code := c, sub := 0 } }

/-- R192: an ALT word fetched for execution raises IllegalGrammar(8) in both directions, with no other effect. -/
def Obligations.AltDescriptor : Prop :=
  ∀ (off target : Half) (s : State) (d : Dir), s.run = some d →
    exec (.gwAlt off target) s = .next
      { s with rc := 5, run := none, status := { s.status with fault := true, code := 5, sub := 8 } }

/-- R190: PRES moves the flag as one bit and goes on at the next word when it is 1, past the skipped steps when it
is 0; on decode the flag slot is written in both cases. -/
def Obligations.PresDescriptor : Prop :=
  ∀ (off skip : Half) (s : State) (f g : Nat), s.registersOk → s.base.toNat + off.toNat < s.params.docSlots →
    (f = 1 ∧ g = s.gpc.toNat + 1 ∧ g < s.params.gtSteps ∨
      f = 0 ∧ g = s.gpc.toNat + 1 + skip.toNat ∧ s.jumpOk s.gpc.toNat g = true) →
    (s.run = some .encode → (s.docSlot (s.base.toNat + off.toNat)).toNat = f →
      s.pos.toNat + 1 ≤ s.cap.toNat * 8 →
      ∃ t, exec (.gwPres off skip) s = .next t ∧ s.encoded t 1 g ∧ t.bufBit s.pos.toNat = decide (f = 1)) ∧
    (s.run = some .decode → s.bufBit s.pos.toNat = decide (f = 1) → s.pos.toNat + 1 ≤ s.readBound →
      ∃ t, exec (.gwPres off skip) s = .next t ∧ s.decoded t 1 (s.base.toNat + off.toNat) 1 g ∧
        (t.docSlot (s.base.toNat + off.toNat)).toNat = f)

/-- R191: CHOICE with exactly one flag of 1 writes that alternative's index in `cl2(nalt)` bits and goes on at its
target; decoding a legal index sets that flag, no other slot, and goes on at its target. -/
def Obligations.ChoiceSelects : Prop :=
  ∀ (nalt : Half) (s : State) (alts : List (Half × Half)) (k : Nat) (hk : k < alts.length),
    s.registersOk → alts.length = nalt.toNat → s.altsAt s.gpc.toNat alts →
    (s.run = some .encode → s.pos.toNat + cl2 nalt.toNat ≤ s.cap.toNat * 8 →
      (∀ j (hj : j < alts.length),
        (s.docSlot (s.base.toNat + alts[j].1.toNat)).toNat = if j = k then 1 else 0) →
      ∃ t, exec (.gwChoice nalt) s = .next t ∧ s.encoded t (cl2 nalt.toNat) alts[k].2.toNat ∧
        t.fieldAt s.pos.toNat (cl2 nalt.toNat) k) ∧
    (s.run = some .decode → s.pos.toNat + cl2 nalt.toNat ≤ s.readBound →
      s.fieldAt s.pos.toNat (cl2 nalt.toNat) k →
      ∃ t, exec (.gwChoice nalt) s = .next t ∧
        s.decoded t (cl2 nalt.toNat) (s.base.toNat + alts[k].1.toNat) 1 alts[k].2.toNat ∧
        (t.docSlot (s.base.toNat + alts[k].1.toNat)).toNat = 1)

/-- R270, R191: a CHOICE on encode with no flag of 1, with two, or with a flag above 1, and on decode an index that
names no alternative, raise InvalidVariant(1), (2), BoundsViolation(1) and InvalidVariant(3); on encode nothing is
written, on decode the index bits were consumed. Before that, in both directions and with no effect, the first word
behind it that is off the table, illegal, or no ALT word raises IllegalGrammar(2), (1) or (8), the words before that
one being ALT words with their slots inside DOC (SlotRange has the slot of such a word), and, when all `nalt` words
are, a target of any of them that is no legal jump raises IllegalGrammar(4). -/
def Obligations.ChoiceRejects : Prop :=
  (∀ (nalt : Half) (s : State) (alts : List (Half × Half)), s.registersOk → alts.length = nalt.toNat →
    s.altsAt s.gpc.toNat alts →
    (s.run = some .encode →
      (∀ j (hj : j < alts.length), (s.docSlot (s.base.toNat + alts[j].1.toNat)).toNat = 0) →
      exec (.gwChoice nalt) s = .next (s.takeFault ⟨.invalidVariant, 1⟩)) ∧
    (s.run = some .encode →
      (∀ j (hj : j < alts.length), (s.docSlot (s.base.toNat + alts[j].1.toNat)).toNat ≤ 1) →
      (∃ j k, ∃ (hj : j < alts.length) (hk : k < alts.length), j ≠ k ∧
        (s.docSlot (s.base.toNat + alts[j].1.toNat)).toNat = 1 ∧
        (s.docSlot (s.base.toNat + alts[k].1.toNat)).toNat = 1) →
      exec (.gwChoice nalt) s = .next (s.takeFault ⟨.invalidVariant, 2⟩)) ∧
    (s.run = some .encode →
      (∃ j, ∃ hj : j < alts.length, 1 < (s.docSlot (s.base.toNat + alts[j].1.toNat)).toNat) →
      exec (.gwChoice nalt) s = .next (s.takeFault ⟨.boundsViolation, 1⟩)) ∧
    (s.run = some .decode → s.pos.toNat + cl2 nalt.toNat ≤ s.readBound →
      nalt.toNat ≤ s.bitsValue s.pos.toNat (cl2 nalt.toNat) →
      exec (.gwChoice nalt) s = .next ((s.consumed (cl2 nalt.toNat)).takeFault ⟨.invalidVariant, 3⟩))) ∧
  ∀ (nalt : Half) (s : State) (d : Dir) (k : Nat), s.run = some d → s.altWords s.gpc.toNat k →
    (k < nalt.toNat → s.params.gtSteps ≤ s.gpc.toNat + 1 + k →
      exec (.gwChoice nalt) s = .next (s.takeFault ⟨.illegalGrammar, 2⟩)) ∧
    (k < nalt.toNat → s.gpc.toNat + 1 + k < s.params.gtSteps → legalGW (s.gtWord (s.gpc.toNat + 1 + k)) = false →
      exec (.gwChoice nalt) s = .next (s.takeFault ⟨.illegalGrammar, 1⟩)) ∧
    (∀ i, k < nalt.toNat → s.gpc.toNat + 1 + k < s.params.gtSteps →
      decodeDescriptor (s.gtWord (s.gpc.toNat + 1 + k)) = .ok i → (∀ off target, i ≠ .gwAlt off target) →
      exec (.gwChoice nalt) s = .next (s.takeFault ⟨.illegalGrammar, 8⟩)) ∧
    (k = nalt.toNat →
      (∃ j < k, ∃ off target : Half, decodeDescriptor (s.gtWord (s.gpc.toNat + 1 + j)) = .ok (.gwAlt off target) ∧
        s.jumpOk (s.gpc.toNat + nalt.toNat) target.toNat = false) →
      exec (.gwChoice nalt) s = .next (s.takeFault ⟨.illegalGrammar, 4⟩))

/-- R193: a LIST whose structural checks pass moves its count and enters the body with a frame for it, BASE at
record 0, when the count is at least 1, and goes on after the LEND when it is 0. A structural check that fails, the
ones before it having passed, raises in both directions and with no effect: IllegalGrammar(2) for a body that leaves
GT, (6) for one whose last word has not the kind LEND, (4) for one that does not end before the enclosing LEND, and
(5) when the loop stack is full (SlotRange has (3), for the count slot and the element area). -/
def Obligations.ListDescriptor : Prop :=
  (∀ (i : Instr) (m : LenMode) (off max body elem stride : Half) (s : State) (n k : Nat),
    listForm i m off max body elem stride →
    s.registersOk → s.listAt off max body elem stride → n ≤ max.toNat →
    (n = 0 → s.jumpOk s.gpc.toNat (s.gpc.toNat + 1 + body.toNat) = true) →
    (s.run = some .encode → (s.docSlot (s.base.toNat + off.toNat)).toNat = n → lenBits m max.toNat n k →
      s.pos.toNat + k ≤ s.cap.toNat * 8 →
      ∃ t, s.encoded t k (s.gpc.toNat + 1 + body.toNat) ∧ t.lenWritten m s.pos.toNat n k ∧
        exec i s = .next (if n = 0 then t else t.enterList s.gpc.toNat n body elem stride)) ∧
    (s.run = some .decode → s.lenReadable m max.toNat s.pos.toNat n k → s.pos.toNat + k ≤ s.readBound →
      ∃ t, s.decoded t k (s.base.toNat + off.toNat) 1 (s.gpc.toNat + 1 + body.toNat) ∧
        (t.docSlot (s.base.toNat + off.toNat)).toNat = n ∧
        exec i s = .next (if n = 0 then t else t.enterList s.gpc.toNat n body elem stride))) ∧
  ∀ (i : Instr) (m : LenMode) (off max body elem stride : Half) (s : State) (d : Dir),
    listForm i m off max body elem stride → s.run = some d → s.base.toNat + off.toNat < s.params.docSlots →
    (s.params.gtSteps ≤ s.gpc.toNat + body.toNat → exec i s = .next (s.takeFault ⟨.illegalGrammar, 2⟩)) ∧
    (s.gpc.toNat + body.toNat < s.params.gtSteps →
      (Decode.topByte (s.gtWord (s.gpc.toNat + body.toNat)) ≠ 0x07#8 →
        exec i s = .next (s.takeFault ⟨.illegalGrammar, 6⟩)) ∧
      (Decode.topByte (s.gtWord (s.gpc.toNat + body.toNat)) = 0x07#8 →
        (∀ f, s.ls.head? = some f → f.stop.toNat ≤ s.gpc.toNat + body.toNat →
          exec i s = .next (s.takeFault ⟨.illegalGrammar, 4⟩)) ∧
        ((∀ f, s.ls.head? = some f → s.gpc.toNat + body.toNat < f.stop.toNat) →
          (0 < max.toNat → s.base.toNat + elem.toNat + max.toNat * stride.toNat ≤ s.params.docSlots) →
          s.ls.length = s.params.loopDepth → exec i s = .next (s.takeFault ⟨.illegalGrammar, 5⟩))))

/-- R193: what entering a list body with `n` elements writes: the frame, BASE and GPC; BASE + C fits its register. -/
def Obligations.ListFrame : Prop :=
  ∀ (s : State) (off max body elem stride : Half) (n : Nat), s.registersOk → s.listAt off max body elem stride →
    1 ≤ body.toNat → 1 ≤ n → n ≤ max.toNat →
    ∃ f : Frame, s.enterList s.gpc.toNat n body elem stride =
        { s with ls := f :: s.ls, base := f.cur, gpc := f.start } ∧
      f.start.toNat = s.gpc.toNat + 1 ∧ f.stop.toNat = s.gpc.toNat + body.toNat ∧ f.rem.toNat = n ∧
      f.cur.toNat = s.base.toNat + elem.toNat ∧ f.saved = s.base ∧ f.stride = stride

/-- R194, R183: LEND goes to the next element while one remains, with BASE at its record (at most DOC_SLOTS,
R193), and otherwise restores BASE, pops the frame and goes on, or raises IllegalGrammar(2) at the last word of GT
with the frame popped (R189); with no open list, or at another list's LEND, it raises IllegalGrammar(6). -/
def Obligations.LendDescriptor : Prop :=
  ∀ (s : State) (d : Dir), s.run = some d → Config.legal s.params →
    (∀ f outer, s.ls = f :: outer → f.stop = s.gpc → 2 ≤ f.rem.toNat →
      f.cur.toNat + f.stride.toNat ≤ s.params.docSlots →
      ∃ h : Frame, exec .gwLend s = .next { s with ls := h :: outer, base := h.cur, gpc := h.start } ∧
        h = { f with rem := h.rem, cur := h.cur } ∧ h.rem.toNat = f.rem.toNat - 1 ∧
        h.cur.toNat = f.cur.toNat + f.stride.toNat) ∧
    (∀ f outer, s.ls = f :: outer → f.stop = s.gpc → f.rem.toNat = 1 → s.gpc.toNat + 1 < s.params.gtSteps →
      exec .gwLend s = .next { s with ls := outer, base := f.saved, gpc := s.gpc + 1 }) ∧
    (∀ f outer, s.ls = f :: outer → f.stop = s.gpc → f.rem.toNat = 1 → s.params.gtSteps ≤ s.gpc.toNat + 1 →
      exec .gwLend s = .next (State.takeFault { s with ls := outer, base := f.saved } ⟨.illegalGrammar, 2⟩)) ∧
    ((s.ls = [] ∨ ∃ f outer, s.ls = f :: outer ∧ f.stop ≠ s.gpc) →
      exec .gwLend s = .next (s.takeFault ⟨.illegalGrammar, 6⟩))

/-! The field descriptors -/

/-- R221: ENUM moves the index in `cl2(n)` bits. -/
def Obligations.EnumDescriptor : Prop :=
  ∀ (off n : Half) (s : State) (v : Nat), s.registersOk → v < n.toNat →
    s.base.toNat + off.toNat < s.params.docSlots → s.gpc.toNat + 1 < s.params.gtSteps →
    (s.run = some .encode → (s.docSlot (s.base.toNat + off.toNat)).toNat = v →
      s.pos.toNat + cl2 n.toNat ≤ s.cap.toNat * 8 →
      ∃ t, exec (.gwEnum off n) s = .next t ∧ s.encoded t (cl2 n.toNat) (s.gpc.toNat + 1) ∧
        t.fieldAt s.pos.toNat (cl2 n.toNat) v) ∧
    (s.run = some .decode → s.fieldAt s.pos.toNat (cl2 n.toNat) v → s.pos.toNat + cl2 n.toNat ≤ s.readBound →
      ∃ t, exec (.gwEnum off n) s = .next t ∧
        s.decoded t (cl2 n.toNat) (s.base.toNat + off.toNat) 1 (s.gpc.toNat + 1) ∧
        (t.docSlot (s.base.toNat + off.toNat)).toNat = v)

/-- R222: NBIT moves the distance of the value from `min` in `cl2(max - min + 1)` bits. -/
def Obligations.NbitDescriptor : Prop :=
  ∀ (off min max : Half) (s : State) (v w : Nat), s.registersOk → min.toNat ≤ v → v ≤ max.toNat →
    w = cl2 (max.toNat - min.toNat + 1) → s.base.toNat + off.toNat < s.params.docSlots →
    s.gpc.toNat + 1 < s.params.gtSteps →
    (s.run = some .encode → (s.docSlot (s.base.toNat + off.toNat)).toNat = v →
      s.pos.toNat + w ≤ s.cap.toNat * 8 →
      ∃ t, exec (.gwNbit off min max) s = .next t ∧ s.encoded t w (s.gpc.toNat + 1) ∧
        t.fieldAt s.pos.toNat w (v - min.toNat)) ∧
    (s.run = some .decode → s.fieldAt s.pos.toNat w (v - min.toNat) → s.pos.toNat + w ≤ s.readBound →
      ∃ t, exec (.gwNbit off min max) s = .next t ∧
        s.decoded t w (s.base.toNat + off.toNat) 1 (s.gpc.toNat + 1) ∧
        (t.docSlot (s.base.toNat + off.toNat)).toNat = v)

/-- R223, R224: VARUINT writes the shortest form of the value, `k` groups, and reads any form of up to ten groups. -/
def Obligations.VaruintDescriptor : Prop :=
  ∀ (off vb : Half) (s : State), s.registersOk → vb.toNat ≤ 64 → s.base.toNat + off.toNat < s.params.docSlots →
    s.gpc.toNat + 1 < s.params.gtSteps →
    (∀ v k, s.run = some .encode → (s.docSlot (s.base.toNat + off.toNat)).toNat = v → v < 2 ^ vb.toNat →
      varuintGroups v k → s.pos.toNat + 8 * k ≤ s.cap.toNat * 8 →
      ∃ t, exec (.gwVaruint off vb) s = .next t ∧ s.encoded t (8 * k) (s.gpc.toNat + 1) ∧
        t.varuintAt s.pos.toNat v k) ∧
    (∀ os : List Nat, s.run = some .decode → s.varuintGroupsAt s.pos.toNat os → varuintValue os < 2 ^ vb.toNat →
      s.pos.toNat + 8 * os.length ≤ s.readBound →
      ∃ t, exec (.gwVaruint off vb) s = .next t ∧
        s.decoded t (8 * os.length) (s.base.toNat + off.toNat) 1 (s.gpc.toNat + 1) ∧
        (t.docSlot (s.base.toNat + off.toNat)).toNat = varuintValue os)

/-- R225, R226, R227: STRING and BYTES on encode write the length prefix and then exactly `n` characters of `chw`
bits (8 for BYTES), unaligned. -/
def Obligations.StringEncodes : Prop :=
  ∀ (i : Instr) (m : LenMode) (off cap : Half) (chw : Byte) (s : State) (n k : Nat),
    charsForm i m off cap chw →
    s.run = some .encode → s.registersOk → s.base.toNat + off.toNat + cap.toNat < s.params.docSlots →
    s.gpc.toNat + 1 < s.params.gtSteps → (s.docSlot (s.base.toNat + off.toNat)).toNat = n → n ≤ cap.toNat →
    (∀ j < n, (s.docSlot (s.base.toNat + off.toNat + 1 + j)).toNat < 2 ^ chw.toNat) → lenBits m cap.toNat n k →
    s.pos.toNat + k + n * chw.toNat ≤ s.cap.toNat * 8 →
    ∃ t, exec i s = .next t ∧ s.encoded t (k + n * chw.toNat) (s.gpc.toNat + 1) ∧
      t.lenWritten m s.pos.toNat n k ∧
      ∀ j < n, t.fieldAt (s.pos.toNat + k + j * chw.toNat) chw.toNat
        (s.docSlot (s.base.toNat + off.toNat + 1 + j)).toNat

/-- R225, R226, R227: STRING and BYTES on decode write the length slot and exactly `n` character slots; the slots
above them keep their values. -/
def Obligations.StringDecodes : Prop :=
  ∀ (i : Instr) (m : LenMode) (off cap : Half) (chw : Byte) (s : State) (n k : Nat),
    charsForm i m off cap chw →
    s.run = some .decode → s.registersOk → chw.toNat ≤ 8 →
    s.base.toNat + off.toNat + cap.toNat < s.params.docSlots → s.gpc.toNat + 1 < s.params.gtSteps →
    s.lenReadable m cap.toNat s.pos.toNat n k → n ≤ cap.toNat →
    s.pos.toNat + k + n * chw.toNat ≤ s.readBound →
    ∃ t, exec i s = .next t ∧
      s.decoded t (k + n * chw.toNat) (s.base.toNat + off.toNat) (n + 1) (s.gpc.toNat + 1) ∧
      (t.docSlot (s.base.toNat + off.toNat)).toNat = n ∧
      ∀ j < n, s.fieldAt (s.pos.toNat + k + j * chw.toNat) chw.toNat
          (t.docSlot (s.base.toNat + off.toNat + 1 + j)).toNat ∧
        (t.docSlot (s.base.toNat + off.toNat + 1 + j)).toNat < 2 ^ chw.toNat

/-- R186, R221, R222, R224: a value outside its descriptor's range raises BoundsViolation: on encode with nothing
written, on decode of ENUM and NBIT after their bits were consumed and with DOC unchanged. R223, R225: a varuint on
decode raises BoundsViolation(4) at the group with which its value reaches `2^vb` (2^32 for a length or count), and
after a tenth group that announces another, with those groups consumed. R226, R227: a character code that does not
fit its `chw` bits raises BoundsViolation(6) on encode, with the prefix and the characters before it written. -/
def Obligations.ValueBounds : Prop :=
  (∀ (off a b : Half) (s : State) (v : Nat), s.registersOk → s.base.toNat + off.toNat < s.params.docSlots →
    (s.run = some .encode → (s.docSlot (s.base.toNat + off.toNat)).toNat = v →
      (a.toNat ≤ v → exec (.gwEnum off a) s = .next (s.takeFault ⟨.boundsViolation, 2⟩)) ∧
      ((v < a.toNat ∨ b.toNat < v) → exec (.gwNbit off a b) s = .next (s.takeFault ⟨.boundsViolation, 3⟩)) ∧
      (2 ^ a.toNat ≤ v → exec (.gwVaruint off a) s = .next (s.takeFault ⟨.boundsViolation, 4⟩)) ∧
      (1 < v → exec (.gwPres off b) s = .next (s.takeFault ⟨.boundsViolation, 1⟩))) ∧
    (s.run = some .decode → s.pos.toNat + cl2 a.toNat ≤ s.readBound →
      a.toNat ≤ s.bitsValue s.pos.toNat (cl2 a.toNat) →
      exec (.gwEnum off a) s = .next ((s.consumed (cl2 a.toNat)).takeFault ⟨.boundsViolation, 2⟩)) ∧
    (s.run = some .decode → s.pos.toNat + cl2 (b.toNat - a.toNat + 1) ≤ s.readBound →
      b.toNat < a.toNat + s.bitsValue s.pos.toNat (cl2 (b.toNat - a.toNat + 1)) →
      exec (.gwNbit off a b) s =
        .next ((s.consumed (cl2 (b.toNat - a.toNat + 1))).takeFault ⟨.boundsViolation, 3⟩))) ∧
  (∀ (i : Instr) (off a body elem stride : Half) (chw : Byte) (s : State) (extra vb : Nat) (os : List Nat),
    (i = .gwVaruint off a ∧ extra = 0 ∧ vb = a.toNat ∨
      charsForm i .varuint off a chw ∧ extra = a.toNat ∧ vb = 32 ∨
      listForm i .varuint off a body elem stride ∧ s.listAt off a body elem stride ∧ extra = 0 ∧ vb = 32) →
    s.run = some .decode → s.registersOk → s.base.toNat + off.toNat + extra < s.params.docSlots →
    s.octetsAt s.pos.toNat os → (∀ j (h : j < os.length), j + 1 < os.length → 128 ≤ os[j]) →
    s.pos.toNat + 8 * os.length ≤ s.readBound →
    (os.length ≤ 10 ∧ varuintValue os.dropLast < 2 ^ vb ∧ 2 ^ vb ≤ varuintValue os ∨
      os.length = 10 ∧ varuintValue os < 2 ^ vb ∧ ∀ o ∈ os, 128 ≤ o) →
    exec i s = .next ((s.consumed (8 * os.length)).takeFault ⟨.boundsViolation, 4⟩)) ∧
  ∀ (i : Instr) (m : LenMode) (off cap : Half) (chw : Byte) (s : State) (n k j : Nat),
    charsForm i m off cap chw → s.run = some .encode → s.registersOk →
    s.base.toNat + off.toNat + cap.toNat < s.params.docSlots →
    (s.docSlot (s.base.toNat + off.toNat)).toNat = n → n ≤ cap.toNat → lenBits m cap.toNat n k → j < n →
    (∀ l < j, (s.docSlot (s.base.toNat + off.toNat + 1 + l)).toNat < 2 ^ chw.toNat) →
    2 ^ chw.toNat ≤ (s.docSlot (s.base.toNat + off.toNat + 1 + j)).toNat →
    s.pos.toNat + k + j * chw.toNat ≤ s.cap.toNat * 8 →
    ∃ t, exec i s = .next (t.takeFault ⟨.boundsViolation, 6⟩) ∧ s.encoded t (k + j * chw.toNat) s.gpc.toNat ∧
      t.lenWritten m s.pos.toNat n k ∧
      ∀ l < j, t.fieldAt (s.pos.toNat + k + l * chw.toNat) chw.toNat
        (s.docSlot (s.base.toNat + off.toNat + 1 + l)).toNat

/-- R230, R269: a length or count above the maximum raises BoundsViolation(5): on encode with nothing written, on
decode after the prefix was consumed and with DOC unchanged; and whatever it is, a decode step of LIST, STRING or
BYTES writes no slot outside the field's own range. -/
def Obligations.CountBounds : Prop :=
  ∀ (i : Instr) (m : LenMode) (off cap body elem stride : Half) (chw : Byte) (s : State) (extra n k : Nat),
    (extra = cap.toNat ∧
        (i = .gwStringN off cap chw ∧ m = .bounded ∨ i = .gwStringV off cap chw ∧ m = .varuint ∨
          i = .gwBytesN off cap ∧ m = .bounded ∨ i = .gwBytesV off cap ∧ m = .varuint) ∨
      extra = 0 ∧ s.listAt off cap body elem stride ∧
        (i = .gwListN off cap body elem stride ∧ m = .bounded ∨
          i = .gwListV off cap body elem stride ∧ m = .varuint)) →
    s.registersOk → s.base.toNat + off.toNat + extra < s.params.docSlots →
    (s.run = some .encode → cap.toNat < (s.docSlot (s.base.toNat + off.toNat)).toNat →
      exec i s = .next (s.takeFault ⟨.boundsViolation, 5⟩)) ∧
    (s.run = some .decode → s.lenReadable m cap.toNat s.pos.toNat n k → s.pos.toNat + k ≤ s.readBound →
      cap.toNat < n → exec i s = .next ((s.consumed k).takeFault ⟨.boundsViolation, 5⟩)) ∧
    (s.run = some .decode → ∃ t, exec i s = .next t ∧ s.changedSlots t (s.base.toNat + off.toNat) (extra + 1))

/-- R185: a descriptor whose slot range leaves DOC raises IllegalGrammar(3) before any effect, in both
directions; a CHOICE does so for the flag slot of its first ALT word that leaves DOC, the words before that one
being legal ALT words with their slots inside DOC (R191), and a LIST for its element area at `max` elements, the
checks before that one having passed, whatever its count is (R193, R251). -/
def Obligations.SlotRange : Prop :=
  (∀ (i : Instr) (off a b c d : Half) (chw : Byte) (s : State) (dir : Dir) (extra : Nat), s.run = some dir →
    (extra = 0 ∧ (i = .gwPres off a ∨ i = .gwEnum off a ∨ i = .gwNbit off a b ∨ i = .gwVaruint off a ∨
        i = .gwListN off a b c d ∨ i = .gwListV off a b c d) ∨
      extra = a.toNat ∧ (i = .gwStringN off a chw ∨ i = .gwStringV off a chw ∨ i = .gwBytesN off a ∨
        i = .gwBytesV off a)) →
    s.params.docSlots ≤ s.base.toNat + off.toNat + extra →
    exec i s = .next
      { s with rc := 5, run := none, status := { s.status with fault := true, code := 5, sub := 3 } }) ∧
  (∀ (nalt off target : Half) (s : State) (dir : Dir) (k : Nat), s.run = some dir → k < nalt.toNat →
    s.altWords s.gpc.toNat k → s.gpc.toNat + 1 + k < s.params.gtSteps →
    decodeDescriptor (s.gtWord (s.gpc.toNat + 1 + k)) = .ok (.gwAlt off target) →
    s.params.docSlots ≤ s.base.toNat + off.toNat →
    exec (.gwChoice nalt) s = .next
      { s with rc := 5, run := none, status := { s.status with fault := true, code := 5, sub := 3 } }) ∧
  ∀ (i : Instr) (m : LenMode) (off max body elem stride : Half) (s : State) (dir : Dir),
    listForm i m off max body elem stride → s.run = some dir → s.base.toNat + off.toNat < s.params.docSlots →
    s.gpc.toNat + body.toNat < s.params.gtSteps →
    Decode.topByte (s.gtWord (s.gpc.toNat + body.toNat)) = 0x07#8 →
    (∀ f, s.ls.head? = some f → s.gpc.toNat + body.toNat < f.stop.toNat) → 0 < max.toNat →
    s.params.docSlots < s.base.toNat + elem.toNat + max.toNat * stride.toNat →
    exec i s = .next
      { s with rc := 5, run := none, status := { s.status with fault := true, code := 5, sub := 3 } }

/-- R186, R189, R183: the check of `Next` or `Jump` comes last. At the last word of GT every field descriptor in
either direction, and a PRES whose flag is 1, raise IllegalGrammar(2), and a PRES whose flag is 0 and a LIST whose
count is 0 raise IllegalGrammar(4) where their jump is not legal: after the stream access and, on decode, after
the write of DOC, all of which stay; GPC keeps its value. -/
def Obligations.SequencingCheckComesLast : Prop :=
  ∀ s : State, s.registersOk →
    (∀ (i : Instr) (off : Half) (v u w : Nat), carries i off v u w →
      s.base.toNat + off.toNat < s.params.docSlots → s.params.gtSteps ≤ s.gpc.toNat + 1 →
      (s.run = some .encode → (s.docSlot (s.base.toNat + off.toNat)).toNat = v → s.pos.toNat + w ≤ s.cap.toNat * 8 →
        ∃ t, exec i s = .next (t.takeFault ⟨.illegalGrammar, 2⟩) ∧ s.encoded t w s.gpc.toNat ∧
          t.fieldAt s.pos.toNat w u) ∧
      (s.run = some .decode → s.fieldAt s.pos.toNat w u → s.pos.toNat + w ≤ s.readBound →
        ∃ t, exec i s = .next (t.takeFault ⟨.illegalGrammar, 2⟩) ∧
          s.decoded t w (s.base.toNat + off.toNat) 1 s.gpc.toNat ∧
          (t.docSlot (s.base.toNat + off.toNat)).toNat = v)) ∧
    (∀ off vb : Half, vb.toNat ≤ 64 → s.base.toNat + off.toNat < s.params.docSlots →
      s.params.gtSteps ≤ s.gpc.toNat + 1 →
      (∀ v k, s.run = some .encode → (s.docSlot (s.base.toNat + off.toNat)).toNat = v → v < 2 ^ vb.toNat →
        varuintGroups v k → s.pos.toNat + 8 * k ≤ s.cap.toNat * 8 →
        ∃ t, exec (.gwVaruint off vb) s = .next (t.takeFault ⟨.illegalGrammar, 2⟩) ∧
          s.encoded t (8 * k) s.gpc.toNat ∧ t.varuintAt s.pos.toNat v k) ∧
      (∀ os : List Nat, s.run = some .decode → s.varuintGroupsAt s.pos.toNat os → varuintValue os < 2 ^ vb.toNat →
        s.pos.toNat + 8 * os.length ≤ s.readBound →
        ∃ t, exec (.gwVaruint off vb) s = .next (t.takeFault ⟨.illegalGrammar, 2⟩) ∧
          s.decoded t (8 * os.length) (s.base.toNat + off.toNat) 1 s.gpc.toNat ∧
          (t.docSlot (s.base.toNat + off.toNat)).toNat = varuintValue os)) ∧
    (∀ (i : Instr) (m : LenMode) (off cap : Half) (chw : Byte) (n k : Nat), charsForm i m off cap chw →
      s.base.toNat + off.toNat + cap.toNat < s.params.docSlots → s.params.gtSteps ≤ s.gpc.toNat + 1 →
      n ≤ cap.toNat →
      (s.run = some .encode → (s.docSlot (s.base.toNat + off.toNat)).toNat = n →
        (∀ j < n, (s.docSlot (s.base.toNat + off.toNat + 1 + j)).toNat < 2 ^ chw.toNat) → lenBits m cap.toNat n k →
        s.pos.toNat + k + n * chw.toNat ≤ s.cap.toNat * 8 →
        ∃ t, exec i s = .next (t.takeFault ⟨.illegalGrammar, 2⟩) ∧
          s.encoded t (k + n * chw.toNat) s.gpc.toNat ∧ t.lenWritten m s.pos.toNat n k ∧
          ∀ j < n, t.fieldAt (s.pos.toNat + k + j * chw.toNat) chw.toNat
            (s.docSlot (s.base.toNat + off.toNat + 1 + j)).toNat) ∧
      (s.run = some .decode → chw.toNat ≤ 8 → s.lenReadable m cap.toNat s.pos.toNat n k →
        s.pos.toNat + k + n * chw.toNat ≤ s.readBound →
        ∃ t, exec i s = .next (t.takeFault ⟨.illegalGrammar, 2⟩) ∧
          s.decoded t (k + n * chw.toNat) (s.base.toNat + off.toNat) (n + 1) s.gpc.toNat ∧
          (t.docSlot (s.base.toNat + off.toNat)).toNat = n ∧
          ∀ j < n, s.fieldAt (s.pos.toNat + k + j * chw.toNat) chw.toNat
              (t.docSlot (s.base.toNat + off.toNat + 1 + j)).toNat ∧
            (t.docSlot (s.base.toNat + off.toNat + 1 + j)).toNat < 2 ^ chw.toNat)) ∧
    (∀ (off skip : Half) (f sub : Nat), s.base.toNat + off.toNat < s.params.docSlots →
      (f = 1 ∧ s.params.gtSteps ≤ s.gpc.toNat + 1 ∧ sub = 2 ∨
        f = 0 ∧ s.jumpOk s.gpc.toNat (s.gpc.toNat + 1 + skip.toNat) = false ∧ sub = 4) →
      (s.run = some .encode → (s.docSlot (s.base.toNat + off.toNat)).toNat = f → s.pos.toNat + 1 ≤ s.cap.toNat * 8 →
        ∃ t, exec (.gwPres off skip) s = .next (t.takeFault ⟨.illegalGrammar, BitVec.ofNat 4 sub⟩) ∧
          s.encoded t 1 s.gpc.toNat ∧ t.bufBit s.pos.toNat = decide (f = 1)) ∧
      (s.run = some .decode → s.bufBit s.pos.toNat = decide (f = 1) → s.pos.toNat + 1 ≤ s.readBound →
        ∃ t, exec (.gwPres off skip) s = .next (t.takeFault ⟨.illegalGrammar, BitVec.ofNat 4 sub⟩) ∧
          s.decoded t 1 (s.base.toNat + off.toNat) 1 s.gpc.toNat ∧
          (t.docSlot (s.base.toNat + off.toNat)).toNat = f)) ∧
    ∀ (i : Instr) (m : LenMode) (off max body elem stride : Half) (k : Nat),
      listForm i m off max body elem stride → s.listAt off max body elem stride →
      s.jumpOk s.gpc.toNat (s.gpc.toNat + 1 + body.toNat) = false →
      (s.run = some .encode → (s.docSlot (s.base.toNat + off.toNat)).toNat = 0 → lenBits m max.toNat 0 k →
        s.pos.toNat + k ≤ s.cap.toNat * 8 →
        ∃ t, exec i s = .next (t.takeFault ⟨.illegalGrammar, 4⟩) ∧ s.encoded t k s.gpc.toNat ∧
          t.lenWritten m s.pos.toNat 0 k) ∧
      (s.run = some .decode → s.lenReadable m max.toNat s.pos.toNat 0 k → s.pos.toNat + k ≤ s.readBound →
        ∃ t, exec i s = .next (t.takeFault ⟨.illegalGrammar, 4⟩) ∧
          s.decoded t k (s.base.toNat + off.toNat) 1 s.gpc.toNat ∧
          (t.docSlot (s.base.toNat + off.toNat)).toNat = 0)

/-! The whole machine -/

/-- R20, R30 to R32: every step keeps the memories in canonical form and inside their spaces. -/
def Obligations.MemoryInvariant : Prop := ∀ s t : State, s.memoryOk → step s = .next t → t.memoryOk

/-- R40, R23 to R25, R250: every step keeps the register invariants, and R40's (a) to (e) follow from them
between commands. -/
def Obligations.RegisterInvariant : Prop :=
  (∀ s t : State, s.registersOk → step s = .next t → t.registersOk) ∧
    ∀ s : State, s.registersOk → s.run = none → s.status.inited = true → s.status.fault = false →
      s.cap.toNat ≤ s.params.bufBytes ∧ s.pos.toNat ≤ s.cap.toNat * 8 ∧
        (s.status.limitEn = true → s.limit.toNat ≤ s.cap.toNat) ∧ s.lsp = 0 ∧ s.status.code = 0 ∧ s.status.sub = 0

/-- The three invariants hold after reset of every legal instance (State.reset is one, log 1). -/
def Obligations.InvariantsHoldAtReset : Prop :=
  (State.reset.memoryOk ∧ State.reset.registersOk ∧ State.reset.loopsOk) ∧
    ∀ p : Params, Config.legal p →
      (State.resetWith p).memoryOk ∧ (State.resetWith p).registersOk ∧ (State.resetWith p).loopsOk

/-- R39, R195: every step keeps the loop stack well nested: GPC inside the body of the top frame, elements still to
come inside DOC, bodies nested, at most LOOP_DEPTH frames. -/
def Obligations.LoopInvariant : Prop :=
  ∀ s t : State, Config.legal s.params → s.loopsOk → step s = .next t → t.loopsOk

/-- R195, R304: every command ends, a codec command within GT_STEPS * 65536^LOOP_DEPTH steps, whatever GT, DOC and
BUF hold. -/
def Obligations.CommandsEnd : Prop :=
  ∀ (s : State) (w : Wide), Config.legal s.params → s.run = none → (s.commandWhole w).run = none

/-- R180, R181, R76: a step of a run writes BUF only in the encode direction and DOC only in the decode direction,
never GT; and only POS, GPC, BASE, the loop stack and the fault fields with it. -/
def Obligations.RunWritesOnly : Prop :=
  ∀ (s t : State) (d : Dir), s.run = some d → s.noReset → step s = .next t →
    t = { s with buf := t.buf, doc := t.doc, pos := t.pos, gpc := t.gpc, base := t.base, ls := t.ls, rc := t.rc,
                 run := t.run, status := { s.status with fault := t.status.fault, code := t.status.code,
                                                         sub := t.status.sub } } ∧
      (d = .encode → t.doc = s.doc) ∧ (d = .decode → t.buf = s.buf) ∧ (t.run = none ∨ t.run = some d)

/-- R131, R71 (a), R67: a step of an encode run changes no bit of BUF but those from the old POS to the new, and
those lie below CAP * 8. -/
def Obligations.EncodeWritesItsBits : Prop :=
  ∀ s t : State, s.run = some .encode → s.noReset → s.registersOk → step s = .next t →
    s.changedBits t s.pos.toNat (t.pos.toNat - s.pos.toNat) ∧ t.pos.toNat ≤ s.cap.toNat * 8

/-- R26: EXT has no effect on any step but on what BS_INIT, a read of register 4 and reset leave in EXT and in the
host's read data. -/
def Obligations.ExternalStateHasNoEffect : Prop :=
  ∀ (s t : State) (e : Word), step s = .next t →
    ∃ t', step { s with ext := e } = .next t' ∧ t' = { t with ext := t'.ext, hostData := t'.hostData } ∧
      (t'.ext = t.ext ∨ t.ext = s.ext ∧ t'.ext = e) ∧
      ((∀ rest, s.inbox ≠ .regRead 4 :: rest) → t'.hostData = t.hostData)

/-- R197: the effect of a codec command is a function of the contents of GT, DOC and BUF, of POS, CAP, LIMIT,
LIMIT_EN, the entry and the direction: from two states that agree on those (the contents, however each came to hold
them) it leaves equal contents and registers, and ends in both or in neither, with equal RC and fault. -/
def Obligations.CodecIsDeterministic : Prop :=
  ∀ (s t : State) (i : Instr) (entry : Half), i = .cdEncode entry ∨ i = .cdDecode entry → s.ready → t.ready →
    s.codecAgree t →
    (s.commandWhole (encode i)).codecAgree (t.commandWhole (encode i)) ∧
      (s.commandWhole (encode i)).gpc = (t.commandWhole (encode i)).gpc ∧
      (s.commandWhole (encode i)).base = (t.commandWhole (encode i)).base ∧
      (s.commandWhole (encode i)).ls = (t.commandWhole (encode i)).ls ∧
      (s.commandWhole (encode i)).run = (t.commandWhole (encode i)).run ∧
      (s.commandWhole (encode i)).status.fault = (t.commandWhole (encode i)).status.fault ∧
      ((s.commandWhole (encode i)).run = none → (s.commandWhole (encode i)).rc = (t.commandWhole (encode i)).rc) ∧
      ((s.commandWhole (encode i)).status.fault = true →
        (s.commandWhole (encode i)).status.code = (t.commandWhole (encode i)).status.code ∧
          (s.commandWhole (encode i)).status.sub = (t.commandWhole (encode i)).status.sub)

/-- R68, R78: a command as one transition is the steps of the model until the run ends, the host's queue apart
(log 3). -/
def Obligations.CommandIsItsSteps : Prop :=
  ∀ (s : State) (w : Wide) (rest : List HostOp), s.run = none → s.inbox = .command w :: rest →
    (∀ op ∈ rest, op ≠ .reset) →
    ∃ n, Host.Core.run core n s = .next (State.commandWhole { s with inbox := rest } w)

/-- R198, R254: a run of a program that passes R198's check raises IllegalGrammar with no sub-cause but 0, which is
that of a `FAIL 5` that its supplier wrote. That R198 allows a `FAIL 5` is the model's reading (log 18). -/
def Obligations.WellFormedProgramsRun : Prop :=
  ∀ (s : State) (i : Instr) (entry : Half), i = .cdEncode entry ∨ i = .cdDecode entry → s.ready → s.registersOk →
    s.programOk entry.toNat = true →
    (s.commandWhole (encode i)).status.code = 5 → (s.commandWhole (encode i)).status.sub = 0

/-- R229: the round trip of a whole message. An encode run from POS p that ends with RC = 0 at q is decoded, by the
same program from p on a zero DOC with a read bound of at least q, to RC = 0 at q; every slot the encode read as a
meaningful field holds what it held then, every other slot 0; and encoding that document again from p writes the
same bits. -/
def Obligations.MessageRoundTrip : Prop :=
  ∀ (x y : State) (entry : Half), x.ready → x.registersOk →
    (x.commandWhole (encode (.cdEncode entry))).rc = 0 →
    (x.commandWhole (encode (.cdEncode entry))).status.fault = false →
    y.ready → y.registersOk → y.params = x.params → (∀ g, y.gtWord g = x.gtWord g) → y.pos = x.pos →
    (x.commandWhole (encode (.cdEncode entry))).pos.toNat ≤ y.readBound →
    (∀ q, x.pos.toNat ≤ q → q < (x.commandWhole (encode (.cdEncode entry))).pos.toNat →
      y.bufBit q = (x.commandWhole (encode (.cdEncode entry))).bufBit q) →
    (∀ a, y.docSlot a = 0) →
    (y.commandWhole (encode (.cdDecode entry))).rc = 0 ∧
      (y.commandWhole (encode (.cdDecode entry))).status.fault = false ∧
      (y.commandWhole (encode (.cdDecode entry))).pos = (x.commandWhole (encode (.cdEncode entry))).pos ∧
      (∀ a, (y.commandWhole (encode (.cdDecode entry))).docSlot a =
        if a ∈ (x.startRun entry .encode).runSlots (runBound x.params) then x.docSlot a else 0) ∧
      ∀ z : State, z.ready → z.registersOk → z.params = x.params → (∀ g, z.gtWord g = x.gtWord g) →
        z.pos = x.pos → x.cap.toNat ≤ z.cap.toNat →
        (∀ a, z.docSlot a = (y.commandWhole (encode (.cdDecode entry))).docSlot a) →
        (z.commandWhole (encode (.cdEncode entry))).rc = 0 ∧
          (z.commandWhole (encode (.cdEncode entry))).pos = (x.commandWhole (encode (.cdEncode entry))).pos ∧
          ∀ q, x.pos.toNat ≤ q → q < (x.commandWhole (encode (.cdEncode entry))).pos.toNat →
            (z.commandWhole (encode (.cdEncode entry))).bufBit q =
              (x.commandWhole (encode (.cdEncode entry))).bufBit q
end

