-- ==== Sys2Proof/Laws/State.lean ====
section
/-! SUPPORT. One lemma per field per update of the state, and the cell reads of each update that leaves the
memories alone: no later proof unfolds a record update. -/

namespace Sys2Proof.Machine

variable (s : State)

/-! `State.takeFault` -/

@[simp] theorem State.takeFault_params (e : Raise) : (s.takeFault e).params = s.params := rfl
@[simp] theorem State.takeFault_cmd (e : Raise) : (s.takeFault e).cmd = s.cmd := rfl
@[simp] theorem State.takeFault_rc (e : Raise) : (s.takeFault e).rc = faultCode e.kind := rfl
@[simp] theorem State.takeFault_status (e : Raise) : (s.takeFault e).status = s.status.latch e.kind e.sub := rfl
@[simp] theorem State.takeFault_pos (e : Raise) : (s.takeFault e).pos = s.pos := rfl
@[simp] theorem State.takeFault_cap (e : Raise) : (s.takeFault e).cap = s.cap := rfl
@[simp] theorem State.takeFault_limit (e : Raise) : (s.takeFault e).limit = s.limit := rfl
@[simp] theorem State.takeFault_ext (e : Raise) : (s.takeFault e).ext = s.ext := rfl
@[simp] theorem State.takeFault_res (e : Raise) : (s.takeFault e).res = s.res := rfl
@[simp] theorem State.takeFault_gpc (e : Raise) : (s.takeFault e).gpc = s.gpc := rfl
@[simp] theorem State.takeFault_base (e : Raise) : (s.takeFault e).base = s.base := rfl
@[simp] theorem State.takeFault_ls (e : Raise) : (s.takeFault e).ls = s.ls := rfl
@[simp] theorem State.takeFault_buf (e : Raise) : (s.takeFault e).buf = s.buf := rfl
@[simp] theorem State.takeFault_doc (e : Raise) : (s.takeFault e).doc = s.doc := rfl
@[simp] theorem State.takeFault_gt (e : Raise) : (s.takeFault e).gt = s.gt := rfl
@[simp] theorem State.takeFault_run (e : Raise) : (s.takeFault e).run = none := rfl
@[simp] theorem State.takeFault_inbox (e : Raise) : (s.takeFault e).inbox = s.inbox := rfl
@[simp] theorem State.takeFault_hostData (e : Raise) : (s.takeFault e).hostData = s.hostData := rfl
@[simp] theorem State.takeFault_resets (e : Raise) : (s.takeFault e).resets = s.resets := rfl
@[simp] theorem State.takeFault_bufByte (e : Raise) (k : Nat) : (s.takeFault e).bufByte k = s.bufByte k := rfl
@[simp] theorem State.takeFault_bufBit (e : Raise) (k : Nat) : (s.takeFault e).bufBit k = s.bufBit k := rfl
@[simp] theorem State.takeFault_docSlot (e : Raise) (k : Nat) : (s.takeFault e).docSlot k = s.docSlot k := rfl
@[simp] theorem State.takeFault_gtWord (e : Raise) (k : Nat) : (s.takeFault e).gtWord k = s.gtWord k := rfl

/-! `State.leaveFault` -/

@[simp] theorem State.leaveFault_params : (s.leaveFault).params = s.params := rfl
@[simp] theorem State.leaveFault_cmd : (s.leaveFault).cmd = s.cmd := rfl
@[simp] theorem State.leaveFault_rc : (s.leaveFault).rc = s.rc := rfl
@[simp] theorem State.leaveFault_status : (s.leaveFault).status = s.status.clear := rfl
@[simp] theorem State.leaveFault_pos : (s.leaveFault).pos = s.pos := rfl
@[simp] theorem State.leaveFault_cap : (s.leaveFault).cap = s.cap := rfl
@[simp] theorem State.leaveFault_limit : (s.leaveFault).limit = s.limit := rfl
@[simp] theorem State.leaveFault_ext : (s.leaveFault).ext = s.ext := rfl
@[simp] theorem State.leaveFault_res : (s.leaveFault).res = s.res := rfl
@[simp] theorem State.leaveFault_gpc : (s.leaveFault).gpc = s.gpc := rfl
@[simp] theorem State.leaveFault_base : (s.leaveFault).base = s.base := rfl
@[simp] theorem State.leaveFault_ls : (s.leaveFault).ls = s.ls := rfl
@[simp] theorem State.leaveFault_buf : (s.leaveFault).buf = s.buf := rfl
@[simp] theorem State.leaveFault_doc : (s.leaveFault).doc = s.doc := rfl
@[simp] theorem State.leaveFault_gt : (s.leaveFault).gt = s.gt := rfl
@[simp] theorem State.leaveFault_run : (s.leaveFault).run = s.run := rfl
@[simp] theorem State.leaveFault_inbox : (s.leaveFault).inbox = s.inbox := rfl
@[simp] theorem State.leaveFault_hostData : (s.leaveFault).hostData = s.hostData := rfl
@[simp] theorem State.leaveFault_resets : (s.leaveFault).resets = s.resets := rfl
@[simp] theorem State.leaveFault_bufByte (k : Nat) : (s.leaveFault).bufByte k = s.bufByte k := rfl
@[simp] theorem State.leaveFault_bufBit (k : Nat) : (s.leaveFault).bufBit k = s.bufBit k := rfl
@[simp] theorem State.leaveFault_docSlot (k : Nat) : (s.leaveFault).docSlot k = s.docSlot k := rfl
@[simp] theorem State.leaveFault_gtWord (k : Nat) : (s.leaveFault).gtWord k = s.gtWord k := rfl

/-! `State.refuse` -/

@[simp] theorem State.refuse_params : (s.refuse).params = s.params := rfl
@[simp] theorem State.refuse_cmd : (s.refuse).cmd = s.cmd := rfl
@[simp] theorem State.refuse_rc : (s.refuse).rc = s.status.code := rfl
@[simp] theorem State.refuse_status : (s.refuse).status = s.status := rfl
@[simp] theorem State.refuse_pos : (s.refuse).pos = s.pos := rfl
@[simp] theorem State.refuse_cap : (s.refuse).cap = s.cap := rfl
@[simp] theorem State.refuse_limit : (s.refuse).limit = s.limit := rfl
@[simp] theorem State.refuse_ext : (s.refuse).ext = s.ext := rfl
@[simp] theorem State.refuse_res : (s.refuse).res = s.res := rfl
@[simp] theorem State.refuse_gpc : (s.refuse).gpc = s.gpc := rfl
@[simp] theorem State.refuse_base : (s.refuse).base = s.base := rfl
@[simp] theorem State.refuse_ls : (s.refuse).ls = s.ls := rfl
@[simp] theorem State.refuse_buf : (s.refuse).buf = s.buf := rfl
@[simp] theorem State.refuse_doc : (s.refuse).doc = s.doc := rfl
@[simp] theorem State.refuse_gt : (s.refuse).gt = s.gt := rfl
@[simp] theorem State.refuse_run : (s.refuse).run = s.run := rfl
@[simp] theorem State.refuse_inbox : (s.refuse).inbox = s.inbox := rfl
@[simp] theorem State.refuse_hostData : (s.refuse).hostData = s.hostData := rfl
@[simp] theorem State.refuse_resets : (s.refuse).resets = s.resets := rfl
@[simp] theorem State.refuse_bufByte (k : Nat) : (s.refuse).bufByte k = s.bufByte k := rfl
@[simp] theorem State.refuse_bufBit (k : Nat) : (s.refuse).bufBit k = s.bufBit k := rfl
@[simp] theorem State.refuse_docSlot (k : Nat) : (s.refuse).docSlot k = s.docSlot k := rfl
@[simp] theorem State.refuse_gtWord (k : Nat) : (s.refuse).gtWord k = s.gtWord k := rfl

/-! `State.done` -/

@[simp] theorem State.done_params : (s.done).params = s.params := rfl
@[simp] theorem State.done_cmd : (s.done).cmd = s.cmd := rfl
@[simp] theorem State.done_rc : (s.done).rc = 0 := rfl
@[simp] theorem State.done_status : (s.done).status = s.status := rfl
@[simp] theorem State.done_pos : (s.done).pos = s.pos := rfl
@[simp] theorem State.done_cap : (s.done).cap = s.cap := rfl
@[simp] theorem State.done_limit : (s.done).limit = s.limit := rfl
@[simp] theorem State.done_ext : (s.done).ext = s.ext := rfl
@[simp] theorem State.done_res : (s.done).res = s.res := rfl
@[simp] theorem State.done_gpc : (s.done).gpc = s.gpc := rfl
@[simp] theorem State.done_base : (s.done).base = s.base := rfl
@[simp] theorem State.done_ls : (s.done).ls = s.ls := rfl
@[simp] theorem State.done_buf : (s.done).buf = s.buf := rfl
@[simp] theorem State.done_doc : (s.done).doc = s.doc := rfl
@[simp] theorem State.done_gt : (s.done).gt = s.gt := rfl
@[simp] theorem State.done_run : (s.done).run = none := rfl
@[simp] theorem State.done_inbox : (s.done).inbox = s.inbox := rfl
@[simp] theorem State.done_hostData : (s.done).hostData = s.hostData := rfl
@[simp] theorem State.done_resets : (s.done).resets = s.resets := rfl
@[simp] theorem State.done_bufByte (k : Nat) : (s.done).bufByte k = s.bufByte k := rfl
@[simp] theorem State.done_bufBit (k : Nat) : (s.done).bufBit k = s.bufBit k := rfl
@[simp] theorem State.done_docSlot (k : Nat) : (s.done).docSlot k = s.docSlot k := rfl
@[simp] theorem State.done_gtWord (k : Nat) : (s.done).gtWord k = s.gtWord k := rfl

/-! `State.doneWith` -/

@[simp] theorem State.doneWith_params (v : Nat) : (s.doneWith v).params = s.params := rfl
@[simp] theorem State.doneWith_cmd (v : Nat) : (s.doneWith v).cmd = s.cmd := rfl
@[simp] theorem State.doneWith_rc (v : Nat) : (s.doneWith v).rc = 0 := rfl
@[simp] theorem State.doneWith_status (v : Nat) : (s.doneWith v).status = s.status := rfl
@[simp] theorem State.doneWith_pos (v : Nat) : (s.doneWith v).pos = s.pos := rfl
@[simp] theorem State.doneWith_cap (v : Nat) : (s.doneWith v).cap = s.cap := rfl
@[simp] theorem State.doneWith_limit (v : Nat) : (s.doneWith v).limit = s.limit := rfl
@[simp] theorem State.doneWith_ext (v : Nat) : (s.doneWith v).ext = s.ext := rfl
@[simp] theorem State.doneWith_res (v : Nat) : (s.doneWith v).res = BitVec.ofNat 32 v := rfl
@[simp] theorem State.doneWith_gpc (v : Nat) : (s.doneWith v).gpc = s.gpc := rfl
@[simp] theorem State.doneWith_base (v : Nat) : (s.doneWith v).base = s.base := rfl
@[simp] theorem State.doneWith_ls (v : Nat) : (s.doneWith v).ls = s.ls := rfl
@[simp] theorem State.doneWith_buf (v : Nat) : (s.doneWith v).buf = s.buf := rfl
@[simp] theorem State.doneWith_doc (v : Nat) : (s.doneWith v).doc = s.doc := rfl
@[simp] theorem State.doneWith_gt (v : Nat) : (s.doneWith v).gt = s.gt := rfl
@[simp] theorem State.doneWith_run (v : Nat) : (s.doneWith v).run = none := rfl
@[simp] theorem State.doneWith_inbox (v : Nat) : (s.doneWith v).inbox = s.inbox := rfl
@[simp] theorem State.doneWith_hostData (v : Nat) : (s.doneWith v).hostData = s.hostData := rfl
@[simp] theorem State.doneWith_resets (v : Nat) : (s.doneWith v).resets = s.resets := rfl
@[simp] theorem State.doneWith_bufByte (v : Nat) (k : Nat) : (s.doneWith v).bufByte k = s.bufByte k := rfl
@[simp] theorem State.doneWith_bufBit (v : Nat) (k : Nat) : (s.doneWith v).bufBit k = s.bufBit k := rfl
@[simp] theorem State.doneWith_docSlot (v : Nat) (k : Nat) : (s.doneWith v).docSlot k = s.docSlot k := rfl
@[simp] theorem State.doneWith_gtWord (v : Nat) (k : Nat) : (s.doneWith v).gtWord k = s.gtWord k := rfl

/-! `State.withPos` -/

@[simp] theorem State.withPos_params (p : Nat) : (s.withPos p).params = s.params := rfl
@[simp] theorem State.withPos_cmd (p : Nat) : (s.withPos p).cmd = s.cmd := rfl
@[simp] theorem State.withPos_rc (p : Nat) : (s.withPos p).rc = s.rc := rfl
@[simp] theorem State.withPos_status (p : Nat) : (s.withPos p).status = s.status := rfl
@[simp] theorem State.withPos_pos (p : Nat) : (s.withPos p).pos = BitVec.ofNat 32 p := rfl
@[simp] theorem State.withPos_cap (p : Nat) : (s.withPos p).cap = s.cap := rfl
@[simp] theorem State.withPos_limit (p : Nat) : (s.withPos p).limit = s.limit := rfl
@[simp] theorem State.withPos_ext (p : Nat) : (s.withPos p).ext = s.ext := rfl
@[simp] theorem State.withPos_res (p : Nat) : (s.withPos p).res = s.res := rfl
@[simp] theorem State.withPos_gpc (p : Nat) : (s.withPos p).gpc = s.gpc := rfl
@[simp] theorem State.withPos_base (p : Nat) : (s.withPos p).base = s.base := rfl
@[simp] theorem State.withPos_ls (p : Nat) : (s.withPos p).ls = s.ls := rfl
@[simp] theorem State.withPos_buf (p : Nat) : (s.withPos p).buf = s.buf := rfl
@[simp] theorem State.withPos_doc (p : Nat) : (s.withPos p).doc = s.doc := rfl
@[simp] theorem State.withPos_gt (p : Nat) : (s.withPos p).gt = s.gt := rfl
@[simp] theorem State.withPos_run (p : Nat) : (s.withPos p).run = s.run := rfl
@[simp] theorem State.withPos_inbox (p : Nat) : (s.withPos p).inbox = s.inbox := rfl
@[simp] theorem State.withPos_hostData (p : Nat) : (s.withPos p).hostData = s.hostData := rfl
@[simp] theorem State.withPos_resets (p : Nat) : (s.withPos p).resets = s.resets := rfl
@[simp] theorem State.withPos_bufByte (p : Nat) (k : Nat) : (s.withPos p).bufByte k = s.bufByte k := rfl
@[simp] theorem State.withPos_bufBit (p : Nat) (k : Nat) : (s.withPos p).bufBit k = s.bufBit k := rfl
@[simp] theorem State.withPos_docSlot (p : Nat) (k : Nat) : (s.withPos p).docSlot k = s.docSlot k := rfl
@[simp] theorem State.withPos_gtWord (p : Nat) (k : Nat) : (s.withPos p).gtWord k = s.gtWord k := rfl

/-! `State.withGpc` -/

@[simp] theorem State.withGpc_params (t : Nat) : (s.withGpc t).params = s.params := rfl
@[simp] theorem State.withGpc_cmd (t : Nat) : (s.withGpc t).cmd = s.cmd := rfl
@[simp] theorem State.withGpc_rc (t : Nat) : (s.withGpc t).rc = s.rc := rfl
@[simp] theorem State.withGpc_status (t : Nat) : (s.withGpc t).status = s.status := rfl
@[simp] theorem State.withGpc_pos (t : Nat) : (s.withGpc t).pos = s.pos := rfl
@[simp] theorem State.withGpc_cap (t : Nat) : (s.withGpc t).cap = s.cap := rfl
@[simp] theorem State.withGpc_limit (t : Nat) : (s.withGpc t).limit = s.limit := rfl
@[simp] theorem State.withGpc_ext (t : Nat) : (s.withGpc t).ext = s.ext := rfl
@[simp] theorem State.withGpc_res (t : Nat) : (s.withGpc t).res = s.res := rfl
@[simp] theorem State.withGpc_gpc (t : Nat) : (s.withGpc t).gpc = BitVec.ofNat 16 t := rfl
@[simp] theorem State.withGpc_base (t : Nat) : (s.withGpc t).base = s.base := rfl
@[simp] theorem State.withGpc_ls (t : Nat) : (s.withGpc t).ls = s.ls := rfl
@[simp] theorem State.withGpc_buf (t : Nat) : (s.withGpc t).buf = s.buf := rfl
@[simp] theorem State.withGpc_doc (t : Nat) : (s.withGpc t).doc = s.doc := rfl
@[simp] theorem State.withGpc_gt (t : Nat) : (s.withGpc t).gt = s.gt := rfl
@[simp] theorem State.withGpc_run (t : Nat) : (s.withGpc t).run = s.run := rfl
@[simp] theorem State.withGpc_inbox (t : Nat) : (s.withGpc t).inbox = s.inbox := rfl
@[simp] theorem State.withGpc_hostData (t : Nat) : (s.withGpc t).hostData = s.hostData := rfl
@[simp] theorem State.withGpc_resets (t : Nat) : (s.withGpc t).resets = s.resets := rfl
@[simp] theorem State.withGpc_bufByte (t : Nat) (k : Nat) : (s.withGpc t).bufByte k = s.bufByte k := rfl
@[simp] theorem State.withGpc_bufBit (t : Nat) (k : Nat) : (s.withGpc t).bufBit k = s.bufBit k := rfl
@[simp] theorem State.withGpc_docSlot (t : Nat) (k : Nat) : (s.withGpc t).docSlot k = s.docSlot k := rfl
@[simp] theorem State.withGpc_gtWord (t : Nat) (k : Nat) : (s.withGpc t).gtWord k = s.gtWord k := rfl

/-! `State.bound` -/

@[simp] theorem State.bound_params (cap start ext : Word) : (s.bound cap start ext).params = s.params := rfl
@[simp] theorem State.bound_cmd (cap start ext : Word) : (s.bound cap start ext).cmd = s.cmd := rfl
@[simp] theorem State.bound_rc (cap start ext : Word) : (s.bound cap start ext).rc = s.rc := rfl
@[simp] theorem State.bound_status (cap start ext : Word) : (s.bound cap start ext).status =
    { s.status with limitEn := false, inited := true } := rfl
@[simp] theorem State.bound_pos (cap start ext : Word) : (s.bound cap start ext).pos = start := rfl
@[simp] theorem State.bound_cap (cap start ext : Word) : (s.bound cap start ext).cap = cap := rfl
@[simp] theorem State.bound_limit (cap start ext : Word) : (s.bound cap start ext).limit = 0 := rfl
@[simp] theorem State.bound_ext (cap start ext : Word) : (s.bound cap start ext).ext = ext := rfl
@[simp] theorem State.bound_res (cap start ext : Word) : (s.bound cap start ext).res = s.res := rfl
@[simp] theorem State.bound_gpc (cap start ext : Word) : (s.bound cap start ext).gpc = 0 := rfl
@[simp] theorem State.bound_base (cap start ext : Word) : (s.bound cap start ext).base = 0 := rfl
@[simp] theorem State.bound_ls (cap start ext : Word) : (s.bound cap start ext).ls = [] := rfl
@[simp] theorem State.bound_buf (cap start ext : Word) : (s.bound cap start ext).buf = s.buf := rfl
@[simp] theorem State.bound_doc (cap start ext : Word) : (s.bound cap start ext).doc = s.doc := rfl
@[simp] theorem State.bound_gt (cap start ext : Word) : (s.bound cap start ext).gt = s.gt := rfl
@[simp] theorem State.bound_run (cap start ext : Word) : (s.bound cap start ext).run = s.run := rfl
@[simp] theorem State.bound_inbox (cap start ext : Word) : (s.bound cap start ext).inbox = s.inbox := rfl
@[simp] theorem State.bound_hostData (cap start ext : Word) : (s.bound cap start ext).hostData = s.hostData := rfl
@[simp] theorem State.bound_resets (cap start ext : Word) : (s.bound cap start ext).resets = s.resets := rfl
@[simp] theorem State.bound_bufByte (cap start ext : Word) (k : Nat) : (s.bound cap start ext).bufByte k = s.bufByte k := rfl
@[simp] theorem State.bound_bufBit (cap start ext : Word) (k : Nat) : (s.bound cap start ext).bufBit k = s.bufBit k := rfl
@[simp] theorem State.bound_docSlot (cap start ext : Word) (k : Nat) : (s.bound cap start ext).docSlot k = s.docSlot k := rfl
@[simp] theorem State.bound_gtWord (cap start ext : Word) (k : Nat) : (s.bound cap start ext).gtWord k = s.gtWord k := rfl

/-! `State.unbound` -/

@[simp] theorem State.unbound_params : (s.unbound).params = s.params := rfl
@[simp] theorem State.unbound_cmd : (s.unbound).cmd = s.cmd := rfl
@[simp] theorem State.unbound_rc : (s.unbound).rc = s.rc := rfl
@[simp] theorem State.unbound_status : (s.unbound).status = { s.status with inited := false } := rfl
@[simp] theorem State.unbound_pos : (s.unbound).pos = s.pos := rfl
@[simp] theorem State.unbound_cap : (s.unbound).cap = s.cap := rfl
@[simp] theorem State.unbound_limit : (s.unbound).limit = s.limit := rfl
@[simp] theorem State.unbound_ext : (s.unbound).ext = s.ext := rfl
@[simp] theorem State.unbound_res : (s.unbound).res = s.res := rfl
@[simp] theorem State.unbound_gpc : (s.unbound).gpc = s.gpc := rfl
@[simp] theorem State.unbound_base : (s.unbound).base = s.base := rfl
@[simp] theorem State.unbound_ls : (s.unbound).ls = s.ls := rfl
@[simp] theorem State.unbound_buf : (s.unbound).buf = s.buf := rfl
@[simp] theorem State.unbound_doc : (s.unbound).doc = s.doc := rfl
@[simp] theorem State.unbound_gt : (s.unbound).gt = s.gt := rfl
@[simp] theorem State.unbound_run : (s.unbound).run = s.run := rfl
@[simp] theorem State.unbound_inbox : (s.unbound).inbox = s.inbox := rfl
@[simp] theorem State.unbound_hostData : (s.unbound).hostData = s.hostData := rfl
@[simp] theorem State.unbound_resets : (s.unbound).resets = s.resets := rfl
@[simp] theorem State.unbound_bufByte (k : Nat) : (s.unbound).bufByte k = s.bufByte k := rfl
@[simp] theorem State.unbound_bufBit (k : Nat) : (s.unbound).bufBit k = s.bufBit k := rfl
@[simp] theorem State.unbound_docSlot (k : Nat) : (s.unbound).docSlot k = s.docSlot k := rfl
@[simp] theorem State.unbound_gtWord (k : Nat) : (s.unbound).gtWord k = s.gtWord k := rfl

/-! `State.limited` -/

@[simp] theorem State.limited_params (b : Word) : (s.limited b).params = s.params := rfl
@[simp] theorem State.limited_cmd (b : Word) : (s.limited b).cmd = s.cmd := rfl
@[simp] theorem State.limited_rc (b : Word) : (s.limited b).rc = s.rc := rfl
@[simp] theorem State.limited_status (b : Word) : (s.limited b).status = { s.status with limitEn := true } := rfl
@[simp] theorem State.limited_pos (b : Word) : (s.limited b).pos = s.pos := rfl
@[simp] theorem State.limited_cap (b : Word) : (s.limited b).cap = s.cap := rfl
@[simp] theorem State.limited_limit (b : Word) : (s.limited b).limit = b := rfl
@[simp] theorem State.limited_ext (b : Word) : (s.limited b).ext = s.ext := rfl
@[simp] theorem State.limited_res (b : Word) : (s.limited b).res = s.res := rfl
@[simp] theorem State.limited_gpc (b : Word) : (s.limited b).gpc = s.gpc := rfl
@[simp] theorem State.limited_base (b : Word) : (s.limited b).base = s.base := rfl
@[simp] theorem State.limited_ls (b : Word) : (s.limited b).ls = s.ls := rfl
@[simp] theorem State.limited_buf (b : Word) : (s.limited b).buf = s.buf := rfl
@[simp] theorem State.limited_doc (b : Word) : (s.limited b).doc = s.doc := rfl
@[simp] theorem State.limited_gt (b : Word) : (s.limited b).gt = s.gt := rfl
@[simp] theorem State.limited_run (b : Word) : (s.limited b).run = s.run := rfl
@[simp] theorem State.limited_inbox (b : Word) : (s.limited b).inbox = s.inbox := rfl
@[simp] theorem State.limited_hostData (b : Word) : (s.limited b).hostData = s.hostData := rfl
@[simp] theorem State.limited_resets (b : Word) : (s.limited b).resets = s.resets := rfl
@[simp] theorem State.limited_bufByte (b : Word) (k : Nat) : (s.limited b).bufByte k = s.bufByte k := rfl
@[simp] theorem State.limited_bufBit (b : Word) (k : Nat) : (s.limited b).bufBit k = s.bufBit k := rfl
@[simp] theorem State.limited_docSlot (b : Word) (k : Nat) : (s.limited b).docSlot k = s.docSlot k := rfl
@[simp] theorem State.limited_gtWord (b : Word) (k : Nat) : (s.limited b).gtWord k = s.gtWord k := rfl

/-! `State.startRun` -/

@[simp] theorem State.startRun_params (g : Half) (d : Dir) : (s.startRun g d).params = s.params := rfl
@[simp] theorem State.startRun_cmd (g : Half) (d : Dir) : (s.startRun g d).cmd = s.cmd := rfl
@[simp] theorem State.startRun_rc (g : Half) (d : Dir) : (s.startRun g d).rc = s.rc := rfl
@[simp] theorem State.startRun_status (g : Half) (d : Dir) : (s.startRun g d).status = s.status := rfl
@[simp] theorem State.startRun_pos (g : Half) (d : Dir) : (s.startRun g d).pos = s.pos := rfl
@[simp] theorem State.startRun_cap (g : Half) (d : Dir) : (s.startRun g d).cap = s.cap := rfl
@[simp] theorem State.startRun_limit (g : Half) (d : Dir) : (s.startRun g d).limit = s.limit := rfl
@[simp] theorem State.startRun_ext (g : Half) (d : Dir) : (s.startRun g d).ext = s.ext := rfl
@[simp] theorem State.startRun_res (g : Half) (d : Dir) : (s.startRun g d).res = s.res := rfl
@[simp] theorem State.startRun_gpc (g : Half) (d : Dir) : (s.startRun g d).gpc = g := rfl
@[simp] theorem State.startRun_base (g : Half) (d : Dir) : (s.startRun g d).base = 0 := rfl
@[simp] theorem State.startRun_ls (g : Half) (d : Dir) : (s.startRun g d).ls = [] := rfl
@[simp] theorem State.startRun_buf (g : Half) (d : Dir) : (s.startRun g d).buf = s.buf := rfl
@[simp] theorem State.startRun_doc (g : Half) (d : Dir) : (s.startRun g d).doc = s.doc := rfl
@[simp] theorem State.startRun_gt (g : Half) (d : Dir) : (s.startRun g d).gt = s.gt := rfl
@[simp] theorem State.startRun_run (g : Half) (d : Dir) : (s.startRun g d).run = some d := rfl
@[simp] theorem State.startRun_inbox (g : Half) (d : Dir) : (s.startRun g d).inbox = s.inbox := rfl
@[simp] theorem State.startRun_hostData (g : Half) (d : Dir) : (s.startRun g d).hostData = s.hostData := rfl
@[simp] theorem State.startRun_resets (g : Half) (d : Dir) : (s.startRun g d).resets = s.resets := rfl
@[simp] theorem State.startRun_bufByte (g : Half) (d : Dir) (k : Nat) : (s.startRun g d).bufByte k = s.bufByte k := rfl
@[simp] theorem State.startRun_bufBit (g : Half) (d : Dir) (k : Nat) : (s.startRun g d).bufBit k = s.bufBit k := rfl
@[simp] theorem State.startRun_docSlot (g : Half) (d : Dir) (k : Nat) : (s.startRun g d).docSlot k = s.docSlot k := rfl
@[simp] theorem State.startRun_gtWord (g : Half) (d : Dir) (k : Nat) : (s.startRun g d).gtWord k = s.gtWord k := rfl

/-! `State.enterList` -/

@[simp] theorem State.enterList_params (g n : Nat) (body elem stride : Half) : (s.enterList g n body elem stride).params =
    s.params := rfl
@[simp] theorem State.enterList_cmd (g n : Nat) (body elem stride : Half) : (s.enterList g n body elem stride).cmd =
    s.cmd := rfl
@[simp] theorem State.enterList_rc (g n : Nat) (body elem stride : Half) : (s.enterList g n body elem stride).rc =
    s.rc := rfl
@[simp] theorem State.enterList_status (g n : Nat) (body elem stride : Half) : (s.enterList g n body elem stride).status =
    s.status := rfl
@[simp] theorem State.enterList_pos (g n : Nat) (body elem stride : Half) : (s.enterList g n body elem stride).pos =
    s.pos := rfl
@[simp] theorem State.enterList_cap (g n : Nat) (body elem stride : Half) : (s.enterList g n body elem stride).cap =
    s.cap := rfl
@[simp] theorem State.enterList_limit (g n : Nat) (body elem stride : Half) : (s.enterList g n body elem stride).limit =
    s.limit := rfl
@[simp] theorem State.enterList_ext (g n : Nat) (body elem stride : Half) : (s.enterList g n body elem stride).ext =
    s.ext := rfl
@[simp] theorem State.enterList_res (g n : Nat) (body elem stride : Half) : (s.enterList g n body elem stride).res =
    s.res := rfl
@[simp] theorem State.enterList_gpc (g n : Nat) (body elem stride : Half) : (s.enterList g n body elem stride).gpc =
    BitVec.ofNat 16 (g + 1) := rfl
@[simp] theorem State.enterList_base (g n : Nat) (body elem stride : Half) : (s.enterList g n body elem stride).base =
    BitVec.ofNat 32 (s.base.toNat + elem.toNat) := rfl
@[simp] theorem State.enterList_ls (g n : Nat) (body elem stride : Half) : (s.enterList g n body elem stride).ls =
    { start := BitVec.ofNat 16 (g + 1), stop := BitVec.ofNat 16 (g + body.toNat), rem := BitVec.ofNat 16 n,
        cur := BitVec.ofNat 32 (s.base.toNat + elem.toNat), saved := s.base, stride := stride } :: s.ls := rfl
@[simp] theorem State.enterList_buf (g n : Nat) (body elem stride : Half) : (s.enterList g n body elem stride).buf =
    s.buf := rfl
@[simp] theorem State.enterList_doc (g n : Nat) (body elem stride : Half) : (s.enterList g n body elem stride).doc =
    s.doc := rfl
@[simp] theorem State.enterList_gt (g n : Nat) (body elem stride : Half) : (s.enterList g n body elem stride).gt =
    s.gt := rfl
@[simp] theorem State.enterList_run (g n : Nat) (body elem stride : Half) : (s.enterList g n body elem stride).run =
    s.run := rfl
@[simp] theorem State.enterList_inbox (g n : Nat) (body elem stride : Half) : (s.enterList g n body elem stride).inbox =
    s.inbox := rfl
@[simp] theorem State.enterList_hostData (g n : Nat) (body elem stride : Half) : (s.enterList g n body elem stride).hostData =
    s.hostData := rfl
@[simp] theorem State.enterList_resets (g n : Nat) (body elem stride : Half) : (s.enterList g n body elem stride).resets =
    s.resets := rfl
@[simp] theorem State.enterList_bufByte (g n : Nat) (body elem stride : Half) (k : Nat) : (s.enterList g n body elem stride).bufByte k = s.bufByte k := rfl
@[simp] theorem State.enterList_bufBit (g n : Nat) (body elem stride : Half) (k : Nat) : (s.enterList g n body elem stride).bufBit k = s.bufBit k := rfl
@[simp] theorem State.enterList_docSlot (g n : Nat) (body elem stride : Half) (k : Nat) : (s.enterList g n body elem stride).docSlot k = s.docSlot k := rfl
@[simp] theorem State.enterList_gtWord (g n : Nat) (body elem stride : Half) (k : Nat) : (s.enterList g n body elem stride).gtWord k = s.gtWord k := rfl

/-! `State.nextElement` -/

@[simp] theorem State.nextElement_params (f : Frame) (rem : Nat) (outer : List Frame) : (s.nextElement f rem outer).params =
    s.params := rfl
@[simp] theorem State.nextElement_cmd (f : Frame) (rem : Nat) (outer : List Frame) : (s.nextElement f rem outer).cmd =
    s.cmd := rfl
@[simp] theorem State.nextElement_rc (f : Frame) (rem : Nat) (outer : List Frame) : (s.nextElement f rem outer).rc =
    s.rc := rfl
@[simp] theorem State.nextElement_status (f : Frame) (rem : Nat) (outer : List Frame) : (s.nextElement f rem outer).status =
    s.status := rfl
@[simp] theorem State.nextElement_pos (f : Frame) (rem : Nat) (outer : List Frame) : (s.nextElement f rem outer).pos =
    s.pos := rfl
@[simp] theorem State.nextElement_cap (f : Frame) (rem : Nat) (outer : List Frame) : (s.nextElement f rem outer).cap =
    s.cap := rfl
@[simp] theorem State.nextElement_limit (f : Frame) (rem : Nat) (outer : List Frame) : (s.nextElement f rem outer).limit =
    s.limit := rfl
@[simp] theorem State.nextElement_ext (f : Frame) (rem : Nat) (outer : List Frame) : (s.nextElement f rem outer).ext =
    s.ext := rfl
@[simp] theorem State.nextElement_res (f : Frame) (rem : Nat) (outer : List Frame) : (s.nextElement f rem outer).res =
    s.res := rfl
@[simp] theorem State.nextElement_gpc (f : Frame) (rem : Nat) (outer : List Frame) : (s.nextElement f rem outer).gpc =
    f.start := rfl
@[simp] theorem State.nextElement_base (f : Frame) (rem : Nat) (outer : List Frame) : (s.nextElement f rem outer).base =
    BitVec.ofNat 32 (f.cur.toNat + f.stride.toNat) := rfl
@[simp] theorem State.nextElement_ls (f : Frame) (rem : Nat) (outer : List Frame) : (s.nextElement f rem outer).ls =
    { f with rem := BitVec.ofNat 16 rem, cur := BitVec.ofNat 32 (f.cur.toNat + f.stride.toNat) } :: outer := rfl
@[simp] theorem State.nextElement_buf (f : Frame) (rem : Nat) (outer : List Frame) : (s.nextElement f rem outer).buf =
    s.buf := rfl
@[simp] theorem State.nextElement_doc (f : Frame) (rem : Nat) (outer : List Frame) : (s.nextElement f rem outer).doc =
    s.doc := rfl
@[simp] theorem State.nextElement_gt (f : Frame) (rem : Nat) (outer : List Frame) : (s.nextElement f rem outer).gt =
    s.gt := rfl
@[simp] theorem State.nextElement_run (f : Frame) (rem : Nat) (outer : List Frame) : (s.nextElement f rem outer).run =
    s.run := rfl
@[simp] theorem State.nextElement_inbox (f : Frame) (rem : Nat) (outer : List Frame) : (s.nextElement f rem outer).inbox =
    s.inbox := rfl
@[simp] theorem State.nextElement_hostData (f : Frame) (rem : Nat) (outer : List Frame) : (s.nextElement f rem outer).hostData =
    s.hostData := rfl
@[simp] theorem State.nextElement_resets (f : Frame) (rem : Nat) (outer : List Frame) : (s.nextElement f rem outer).resets =
    s.resets := rfl
@[simp] theorem State.nextElement_bufByte (f : Frame) (rem : Nat) (outer : List Frame) (k : Nat) : (s.nextElement f rem outer).bufByte k = s.bufByte k := rfl
@[simp] theorem State.nextElement_bufBit (f : Frame) (rem : Nat) (outer : List Frame) (k : Nat) : (s.nextElement f rem outer).bufBit k = s.bufBit k := rfl
@[simp] theorem State.nextElement_docSlot (f : Frame) (rem : Nat) (outer : List Frame) (k : Nat) : (s.nextElement f rem outer).docSlot k = s.docSlot k := rfl
@[simp] theorem State.nextElement_gtWord (f : Frame) (rem : Nat) (outer : List Frame) (k : Nat) : (s.nextElement f rem outer).gtWord k = s.gtWord k := rfl

/-! `State.leaveList` -/

@[simp] theorem State.leaveList_params (f : Frame) (outer : List Frame) : (s.leaveList f outer).params =
    s.params := rfl
@[simp] theorem State.leaveList_cmd (f : Frame) (outer : List Frame) : (s.leaveList f outer).cmd =
    s.cmd := rfl
@[simp] theorem State.leaveList_rc (f : Frame) (outer : List Frame) : (s.leaveList f outer).rc = s.rc := rfl
@[simp] theorem State.leaveList_status (f : Frame) (outer : List Frame) : (s.leaveList f outer).status =
    s.status := rfl
@[simp] theorem State.leaveList_pos (f : Frame) (outer : List Frame) : (s.leaveList f outer).pos =
    s.pos := rfl
@[simp] theorem State.leaveList_cap (f : Frame) (outer : List Frame) : (s.leaveList f outer).cap =
    s.cap := rfl
@[simp] theorem State.leaveList_limit (f : Frame) (outer : List Frame) : (s.leaveList f outer).limit =
    s.limit := rfl
@[simp] theorem State.leaveList_ext (f : Frame) (outer : List Frame) : (s.leaveList f outer).ext =
    s.ext := rfl
@[simp] theorem State.leaveList_res (f : Frame) (outer : List Frame) : (s.leaveList f outer).res =
    s.res := rfl
@[simp] theorem State.leaveList_gpc (f : Frame) (outer : List Frame) : (s.leaveList f outer).gpc =
    s.gpc := rfl
@[simp] theorem State.leaveList_base (f : Frame) (outer : List Frame) : (s.leaveList f outer).base =
    f.saved := rfl
@[simp] theorem State.leaveList_ls (f : Frame) (outer : List Frame) : (s.leaveList f outer).ls =
    outer := rfl
@[simp] theorem State.leaveList_buf (f : Frame) (outer : List Frame) : (s.leaveList f outer).buf =
    s.buf := rfl
@[simp] theorem State.leaveList_doc (f : Frame) (outer : List Frame) : (s.leaveList f outer).doc =
    s.doc := rfl
@[simp] theorem State.leaveList_gt (f : Frame) (outer : List Frame) : (s.leaveList f outer).gt = s.gt := rfl
@[simp] theorem State.leaveList_run (f : Frame) (outer : List Frame) : (s.leaveList f outer).run =
    s.run := rfl
@[simp] theorem State.leaveList_inbox (f : Frame) (outer : List Frame) : (s.leaveList f outer).inbox =
    s.inbox := rfl
@[simp] theorem State.leaveList_hostData (f : Frame) (outer : List Frame) : (s.leaveList f outer).hostData =
    s.hostData := rfl
@[simp] theorem State.leaveList_resets (f : Frame) (outer : List Frame) : (s.leaveList f outer).resets =
    s.resets := rfl
@[simp] theorem State.leaveList_bufByte (f : Frame) (outer : List Frame) (k : Nat) : (s.leaveList f outer).bufByte k = s.bufByte k := rfl
@[simp] theorem State.leaveList_bufBit (f : Frame) (outer : List Frame) (k : Nat) : (s.leaveList f outer).bufBit k = s.bufBit k := rfl
@[simp] theorem State.leaveList_docSlot (f : Frame) (outer : List Frame) (k : Nat) : (s.leaveList f outer).docSlot k = s.docSlot k := rfl
@[simp] theorem State.leaveList_gtWord (f : Frame) (outer : List Frame) (k : Nat) : (s.leaveList f outer).gtWord k = s.gtWord k := rfl

/-! `State.served` -/

@[simp] theorem State.served_params (rest : List HostOp) : (s.served rest).params = s.params := rfl
@[simp] theorem State.served_cmd (rest : List HostOp) : (s.served rest).cmd = s.cmd := rfl
@[simp] theorem State.served_rc (rest : List HostOp) : (s.served rest).rc = s.rc := rfl
@[simp] theorem State.served_status (rest : List HostOp) : (s.served rest).status = s.status := rfl
@[simp] theorem State.served_pos (rest : List HostOp) : (s.served rest).pos = s.pos := rfl
@[simp] theorem State.served_cap (rest : List HostOp) : (s.served rest).cap = s.cap := rfl
@[simp] theorem State.served_limit (rest : List HostOp) : (s.served rest).limit = s.limit := rfl
@[simp] theorem State.served_ext (rest : List HostOp) : (s.served rest).ext = s.ext := rfl
@[simp] theorem State.served_res (rest : List HostOp) : (s.served rest).res = s.res := rfl
@[simp] theorem State.served_gpc (rest : List HostOp) : (s.served rest).gpc = s.gpc := rfl
@[simp] theorem State.served_base (rest : List HostOp) : (s.served rest).base = s.base := rfl
@[simp] theorem State.served_ls (rest : List HostOp) : (s.served rest).ls = s.ls := rfl
@[simp] theorem State.served_buf (rest : List HostOp) : (s.served rest).buf = s.buf := rfl
@[simp] theorem State.served_doc (rest : List HostOp) : (s.served rest).doc = s.doc := rfl
@[simp] theorem State.served_gt (rest : List HostOp) : (s.served rest).gt = s.gt := rfl
@[simp] theorem State.served_run (rest : List HostOp) : (s.served rest).run = s.run := rfl
@[simp] theorem State.served_inbox (rest : List HostOp) : (s.served rest).inbox = rest := rfl
@[simp] theorem State.served_hostData (rest : List HostOp) : (s.served rest).hostData = s.hostData := rfl
@[simp] theorem State.served_resets (rest : List HostOp) : (s.served rest).resets = s.resets := rfl
@[simp] theorem State.served_bufByte (rest : List HostOp) (k : Nat) : (s.served rest).bufByte k = s.bufByte k := rfl
@[simp] theorem State.served_bufBit (rest : List HostOp) (k : Nat) : (s.served rest).bufBit k = s.bufBit k := rfl
@[simp] theorem State.served_docSlot (rest : List HostOp) (k : Nat) : (s.served rest).docSlot k = s.docSlot k := rfl
@[simp] theorem State.served_gtWord (rest : List HostOp) (k : Nat) : (s.served rest).gtWord k = s.gtWord k := rfl

/-! `State.present` -/

@[simp] theorem State.present_params (w : Wide) : (s.present w).params = s.params := rfl
@[simp] theorem State.present_cmd (w : Wide) : (s.present w).cmd = w := rfl
@[simp] theorem State.present_rc (w : Wide) : (s.present w).rc = s.rc := rfl
@[simp] theorem State.present_status (w : Wide) : (s.present w).status = s.status := rfl
@[simp] theorem State.present_pos (w : Wide) : (s.present w).pos = s.pos := rfl
@[simp] theorem State.present_cap (w : Wide) : (s.present w).cap = s.cap := rfl
@[simp] theorem State.present_limit (w : Wide) : (s.present w).limit = s.limit := rfl
@[simp] theorem State.present_ext (w : Wide) : (s.present w).ext = s.ext := rfl
@[simp] theorem State.present_res (w : Wide) : (s.present w).res = s.res := rfl
@[simp] theorem State.present_gpc (w : Wide) : (s.present w).gpc = s.gpc := rfl
@[simp] theorem State.present_base (w : Wide) : (s.present w).base = s.base := rfl
@[simp] theorem State.present_ls (w : Wide) : (s.present w).ls = s.ls := rfl
@[simp] theorem State.present_buf (w : Wide) : (s.present w).buf = s.buf := rfl
@[simp] theorem State.present_doc (w : Wide) : (s.present w).doc = s.doc := rfl
@[simp] theorem State.present_gt (w : Wide) : (s.present w).gt = s.gt := rfl
@[simp] theorem State.present_run (w : Wide) : (s.present w).run = s.run := rfl
@[simp] theorem State.present_inbox (w : Wide) : (s.present w).inbox = s.inbox := rfl
@[simp] theorem State.present_hostData (w : Wide) : (s.present w).hostData = s.hostData := rfl
@[simp] theorem State.present_resets (w : Wide) : (s.present w).resets = s.resets := rfl
@[simp] theorem State.present_bufByte (w : Wide) (k : Nat) : (s.present w).bufByte k = s.bufByte k := rfl
@[simp] theorem State.present_bufBit (w : Wide) (k : Nat) : (s.present w).bufBit k = s.bufBit k := rfl
@[simp] theorem State.present_docSlot (w : Wide) (k : Nat) : (s.present w).docSlot k = s.docSlot k := rfl
@[simp] theorem State.present_gtWord (w : Wide) (k : Nat) : (s.present w).gtWord k = s.gtWord k := rfl

/-! `State.setBufByte` -/

@[simp] theorem State.setBufByte_params (a : Nat) (v : Byte) : (s.setBufByte a v).params = s.params := rfl
@[simp] theorem State.setBufByte_cmd (a : Nat) (v : Byte) : (s.setBufByte a v).cmd = s.cmd := rfl
@[simp] theorem State.setBufByte_rc (a : Nat) (v : Byte) : (s.setBufByte a v).rc = s.rc := rfl
@[simp] theorem State.setBufByte_status (a : Nat) (v : Byte) : (s.setBufByte a v).status = s.status := rfl
@[simp] theorem State.setBufByte_pos (a : Nat) (v : Byte) : (s.setBufByte a v).pos = s.pos := rfl
@[simp] theorem State.setBufByte_cap (a : Nat) (v : Byte) : (s.setBufByte a v).cap = s.cap := rfl
@[simp] theorem State.setBufByte_limit (a : Nat) (v : Byte) : (s.setBufByte a v).limit = s.limit := rfl
@[simp] theorem State.setBufByte_ext (a : Nat) (v : Byte) : (s.setBufByte a v).ext = s.ext := rfl
@[simp] theorem State.setBufByte_res (a : Nat) (v : Byte) : (s.setBufByte a v).res = s.res := rfl
@[simp] theorem State.setBufByte_gpc (a : Nat) (v : Byte) : (s.setBufByte a v).gpc = s.gpc := rfl
@[simp] theorem State.setBufByte_base (a : Nat) (v : Byte) : (s.setBufByte a v).base = s.base := rfl
@[simp] theorem State.setBufByte_ls (a : Nat) (v : Byte) : (s.setBufByte a v).ls = s.ls := rfl
@[simp] theorem State.setBufByte_doc (a : Nat) (v : Byte) : (s.setBufByte a v).doc = s.doc := rfl
@[simp] theorem State.setBufByte_gt (a : Nat) (v : Byte) : (s.setBufByte a v).gt = s.gt := rfl
@[simp] theorem State.setBufByte_run (a : Nat) (v : Byte) : (s.setBufByte a v).run = s.run := rfl
@[simp] theorem State.setBufByte_inbox (a : Nat) (v : Byte) : (s.setBufByte a v).inbox = s.inbox := rfl
@[simp] theorem State.setBufByte_hostData (a : Nat) (v : Byte) : (s.setBufByte a v).hostData = s.hostData := rfl
@[simp] theorem State.setBufByte_resets (a : Nat) (v : Byte) : (s.setBufByte a v).resets = s.resets := rfl
@[simp] theorem State.setBufByte_docSlot (a : Nat) (v : Byte) (k : Nat) : (s.setBufByte a v).docSlot k = s.docSlot k := rfl
@[simp] theorem State.setBufByte_gtWord (a : Nat) (v : Byte) (k : Nat) : (s.setBufByte a v).gtWord k = s.gtWord k := rfl

/-! `State.setBufBit` -/

@[simp] theorem State.setBufBit_params (p : Nat) (b : Bool) : (s.setBufBit p b).params = s.params := rfl
@[simp] theorem State.setBufBit_cmd (p : Nat) (b : Bool) : (s.setBufBit p b).cmd = s.cmd := rfl
@[simp] theorem State.setBufBit_rc (p : Nat) (b : Bool) : (s.setBufBit p b).rc = s.rc := rfl
@[simp] theorem State.setBufBit_status (p : Nat) (b : Bool) : (s.setBufBit p b).status = s.status := rfl
@[simp] theorem State.setBufBit_pos (p : Nat) (b : Bool) : (s.setBufBit p b).pos = s.pos := rfl
@[simp] theorem State.setBufBit_cap (p : Nat) (b : Bool) : (s.setBufBit p b).cap = s.cap := rfl
@[simp] theorem State.setBufBit_limit (p : Nat) (b : Bool) : (s.setBufBit p b).limit = s.limit := rfl
@[simp] theorem State.setBufBit_ext (p : Nat) (b : Bool) : (s.setBufBit p b).ext = s.ext := rfl
@[simp] theorem State.setBufBit_res (p : Nat) (b : Bool) : (s.setBufBit p b).res = s.res := rfl
@[simp] theorem State.setBufBit_gpc (p : Nat) (b : Bool) : (s.setBufBit p b).gpc = s.gpc := rfl
@[simp] theorem State.setBufBit_base (p : Nat) (b : Bool) : (s.setBufBit p b).base = s.base := rfl
@[simp] theorem State.setBufBit_ls (p : Nat) (b : Bool) : (s.setBufBit p b).ls = s.ls := rfl
@[simp] theorem State.setBufBit_doc (p : Nat) (b : Bool) : (s.setBufBit p b).doc = s.doc := rfl
@[simp] theorem State.setBufBit_gt (p : Nat) (b : Bool) : (s.setBufBit p b).gt = s.gt := rfl
@[simp] theorem State.setBufBit_run (p : Nat) (b : Bool) : (s.setBufBit p b).run = s.run := rfl
@[simp] theorem State.setBufBit_inbox (p : Nat) (b : Bool) : (s.setBufBit p b).inbox = s.inbox := rfl
@[simp] theorem State.setBufBit_hostData (p : Nat) (b : Bool) : (s.setBufBit p b).hostData = s.hostData := rfl
@[simp] theorem State.setBufBit_resets (p : Nat) (b : Bool) : (s.setBufBit p b).resets = s.resets := rfl
@[simp] theorem State.setBufBit_docSlot (p : Nat) (b : Bool) (k : Nat) : (s.setBufBit p b).docSlot k = s.docSlot k := rfl
@[simp] theorem State.setBufBit_gtWord (p : Nat) (b : Bool) (k : Nat) : (s.setBufBit p b).gtWord k = s.gtWord k := rfl

/-! `State.setDocSlot` -/

@[simp] theorem State.setDocSlot_params (i : Nat) (v : Cell64) : (s.setDocSlot i v).params = s.params := rfl
@[simp] theorem State.setDocSlot_cmd (i : Nat) (v : Cell64) : (s.setDocSlot i v).cmd = s.cmd := rfl
@[simp] theorem State.setDocSlot_rc (i : Nat) (v : Cell64) : (s.setDocSlot i v).rc = s.rc := rfl
@[simp] theorem State.setDocSlot_status (i : Nat) (v : Cell64) : (s.setDocSlot i v).status = s.status := rfl
@[simp] theorem State.setDocSlot_pos (i : Nat) (v : Cell64) : (s.setDocSlot i v).pos = s.pos := rfl
@[simp] theorem State.setDocSlot_cap (i : Nat) (v : Cell64) : (s.setDocSlot i v).cap = s.cap := rfl
@[simp] theorem State.setDocSlot_limit (i : Nat) (v : Cell64) : (s.setDocSlot i v).limit = s.limit := rfl
@[simp] theorem State.setDocSlot_ext (i : Nat) (v : Cell64) : (s.setDocSlot i v).ext = s.ext := rfl
@[simp] theorem State.setDocSlot_res (i : Nat) (v : Cell64) : (s.setDocSlot i v).res = s.res := rfl
@[simp] theorem State.setDocSlot_gpc (i : Nat) (v : Cell64) : (s.setDocSlot i v).gpc = s.gpc := rfl
@[simp] theorem State.setDocSlot_base (i : Nat) (v : Cell64) : (s.setDocSlot i v).base = s.base := rfl
@[simp] theorem State.setDocSlot_ls (i : Nat) (v : Cell64) : (s.setDocSlot i v).ls = s.ls := rfl
@[simp] theorem State.setDocSlot_buf (i : Nat) (v : Cell64) : (s.setDocSlot i v).buf = s.buf := rfl
@[simp] theorem State.setDocSlot_gt (i : Nat) (v : Cell64) : (s.setDocSlot i v).gt = s.gt := rfl
@[simp] theorem State.setDocSlot_run (i : Nat) (v : Cell64) : (s.setDocSlot i v).run = s.run := rfl
@[simp] theorem State.setDocSlot_inbox (i : Nat) (v : Cell64) : (s.setDocSlot i v).inbox = s.inbox := rfl
@[simp] theorem State.setDocSlot_hostData (i : Nat) (v : Cell64) : (s.setDocSlot i v).hostData = s.hostData := rfl
@[simp] theorem State.setDocSlot_resets (i : Nat) (v : Cell64) : (s.setDocSlot i v).resets = s.resets := rfl
@[simp] theorem State.setDocSlot_bufByte (i : Nat) (v : Cell64) (k : Nat) : (s.setDocSlot i v).bufByte k = s.bufByte k := rfl
@[simp] theorem State.setDocSlot_bufBit (i : Nat) (v : Cell64) (k : Nat) : (s.setDocSlot i v).bufBit k = s.bufBit k := rfl
@[simp] theorem State.setDocSlot_gtWord (i : Nat) (v : Cell64) (k : Nat) : (s.setDocSlot i v).gtWord k = s.gtWord k := rfl

/-! `State.setGtWord` -/

@[simp] theorem State.setGtWord_params (g : Nat) (v : Wide) : (s.setGtWord g v).params = s.params := rfl
@[simp] theorem State.setGtWord_cmd (g : Nat) (v : Wide) : (s.setGtWord g v).cmd = s.cmd := rfl
@[simp] theorem State.setGtWord_rc (g : Nat) (v : Wide) : (s.setGtWord g v).rc = s.rc := rfl
@[simp] theorem State.setGtWord_status (g : Nat) (v : Wide) : (s.setGtWord g v).status = s.status := rfl
@[simp] theorem State.setGtWord_pos (g : Nat) (v : Wide) : (s.setGtWord g v).pos = s.pos := rfl
@[simp] theorem State.setGtWord_cap (g : Nat) (v : Wide) : (s.setGtWord g v).cap = s.cap := rfl
@[simp] theorem State.setGtWord_limit (g : Nat) (v : Wide) : (s.setGtWord g v).limit = s.limit := rfl
@[simp] theorem State.setGtWord_ext (g : Nat) (v : Wide) : (s.setGtWord g v).ext = s.ext := rfl
@[simp] theorem State.setGtWord_res (g : Nat) (v : Wide) : (s.setGtWord g v).res = s.res := rfl
@[simp] theorem State.setGtWord_gpc (g : Nat) (v : Wide) : (s.setGtWord g v).gpc = s.gpc := rfl
@[simp] theorem State.setGtWord_base (g : Nat) (v : Wide) : (s.setGtWord g v).base = s.base := rfl
@[simp] theorem State.setGtWord_ls (g : Nat) (v : Wide) : (s.setGtWord g v).ls = s.ls := rfl
@[simp] theorem State.setGtWord_buf (g : Nat) (v : Wide) : (s.setGtWord g v).buf = s.buf := rfl
@[simp] theorem State.setGtWord_doc (g : Nat) (v : Wide) : (s.setGtWord g v).doc = s.doc := rfl
@[simp] theorem State.setGtWord_run (g : Nat) (v : Wide) : (s.setGtWord g v).run = s.run := rfl
@[simp] theorem State.setGtWord_inbox (g : Nat) (v : Wide) : (s.setGtWord g v).inbox = s.inbox := rfl
@[simp] theorem State.setGtWord_hostData (g : Nat) (v : Wide) : (s.setGtWord g v).hostData = s.hostData := rfl
@[simp] theorem State.setGtWord_resets (g : Nat) (v : Wide) : (s.setGtWord g v).resets = s.resets := rfl
@[simp] theorem State.setGtWord_bufByte (g : Nat) (v : Wide) (k : Nat) : (s.setGtWord g v).bufByte k = s.bufByte k := rfl
@[simp] theorem State.setGtWord_bufBit (g : Nat) (v : Wide) (k : Nat) : (s.setGtWord g v).bufBit k = s.bufBit k := rfl
@[simp] theorem State.setGtWord_docSlot (g : Nat) (v : Wide) (k : Nat) : (s.setGtWord g v).docSlot k = s.docSlot k := rfl

/-! `State.resetEvent` (R43, R290) -/

@[simp] theorem State.resetEvent_params : s.resetEvent.params = s.params := rfl
@[simp] theorem State.resetEvent_cmd : s.resetEvent.cmd = 0 := rfl
@[simp] theorem State.resetEvent_rc : s.resetEvent.rc = 0 := rfl
@[simp] theorem State.resetEvent_status : s.resetEvent.status = Status.reset := rfl
@[simp] theorem State.resetEvent_pos : s.resetEvent.pos = 0 := rfl
@[simp] theorem State.resetEvent_cap : s.resetEvent.cap = 0 := rfl
@[simp] theorem State.resetEvent_limit : s.resetEvent.limit = 0 := rfl
@[simp] theorem State.resetEvent_ext : s.resetEvent.ext = 0 := rfl
@[simp] theorem State.resetEvent_res : s.resetEvent.res = 0 := rfl
@[simp] theorem State.resetEvent_gpc : s.resetEvent.gpc = 0 := rfl
@[simp] theorem State.resetEvent_base : s.resetEvent.base = 0 := rfl
@[simp] theorem State.resetEvent_ls : s.resetEvent.ls = [] := rfl
@[simp] theorem State.resetEvent_buf : s.resetEvent.buf = [] := rfl
@[simp] theorem State.resetEvent_doc : s.resetEvent.doc = [] := rfl
@[simp] theorem State.resetEvent_gt : s.resetEvent.gt = [] := rfl
@[simp] theorem State.resetEvent_run : s.resetEvent.run = none := rfl
@[simp] theorem State.resetEvent_inbox : s.resetEvent.inbox = s.inbox := rfl
@[simp] theorem State.resetEvent_hostData : s.resetEvent.hostData = s.hostData := rfl
@[simp] theorem State.resetEvent_resets : s.resetEvent.resets = s.resets + 1 := rfl

end Sys2Proof.Machine
end

