-- ==== Sys2Proof/Laws/Memory.lean ====
section
/-! SUPPORT. The laws of the memories: read after write, writes elsewhere, the canonical form kept by every
memory operation, and the byte and bit views of BUF (R11, R60 to R64). -/

namespace Sys2Proof.Machine

/-! The sorted list -/

theorem Memory.find?_write {w : Nat} (m : Memory w) (a b : Nat) (v : BitVec w) :
    (m.write a v).find? b = if b = a then some v else m.find? b := by
  induction m with
  | nil => simp [Memory.write, Memory.find?]
  | cons x m ih =>
    obtain ⟨c, u⟩ := x
    simp only [Memory.write]
    split
    · simp [Memory.find?]
    · split
      · subst a
        by_cases h : b = c <;> simp [Memory.find?, h]
      · by_cases h : b = c
        · have : b ≠ a := by omega
          simp [Memory.find?, h]; omega
        · simp [Memory.find?, h, ih]

theorem Memory.mem_write {w : Nat} (m : Memory w) (a : Nat) (v : BitVec w) (x : Nat × BitVec w)
    (h : x ∈ m.write a v) : x = (a, v) ∨ x ∈ m := by
  induction m with
  | nil => simpa [Memory.write] using h
  | cons y m ih =>
    obtain ⟨c, u⟩ := y
    simp only [Memory.write] at h
    split at h
    · simpa using h
    · split at h
      · simp only [List.mem_cons] at h ⊢; tauto
      · simp only [List.mem_cons] at h ⊢
        rcases h with h | h
        · exact .inr (.inl h)
        · rcases ih h with h | h
          · exact .inl h
          · exact .inr (.inr h)

/-- A write keeps the canonical form. -/
theorem Memory.wf_write {w : Nat} (m : Memory w) (a : Nat) (v : BitVec w) (h : m.wf) : (m.write a v).wf := by
  induction m with
  | nil => simp [Memory.write, Memory.wf]
  | cons y m ih =>
    obtain ⟨c, u⟩ := y
    simp only [Memory.wf, List.pairwise_cons] at h
    obtain ⟨h1, h2⟩ := h
    simp only [Memory.write]
    split
    · next hac =>
      simp only [Memory.wf, List.pairwise_cons, List.mem_cons]
      refine ⟨?_, h1, h2⟩
      rintro x (rfl | hx)
      · exact hac
      · have := h1 x hx; omega
    · split
      · next hac => subst hac; exact List.pairwise_cons.2 ⟨h1, h2⟩
      · next h3 h4 =>
        refine List.pairwise_cons.2 ⟨fun x hx => ?_, ih h2⟩
        rcases Memory.mem_write m a v x hx with rfl | hx
        · show c < a; omega
        · exact h1 x hx

theorem Memory.below_write {w : Nat} (m : Memory w) (a : Nat) (v : BitVec w) (n : Nat) (h : m.below n)
    (ha : a < n) : (m.write a v).below n := by
  intro x hx
  rcases Memory.mem_write m a v x hx with rfl | hx
  · exact ha
  · exact h x hx

/-! Bytes of BUF -/

variable (s t : State)

theorem State.bufByte_setBufByte (a b : Nat) (v : Byte) (h : a < s.params.bufBytes) :
    (s.setBufByte a v).bufByte b = if b = a then v else s.bufByte b := by
  by_cases hb : b = a
  · subst hb; simp [State.bufByte, State.setBufByte, h, Memory.find?_write]
  · simp [State.bufByte, State.setBufByte, h, Memory.find?_write, hb]

/-- A byte write outside BUF does nothing (R77). -/
theorem State.setBufByte_outside (a : Nat) (v : Byte) (h : s.params.bufBytes ≤ a) : s.setBufByte a v = s := by
  simp [State.setBufByte, Nat.not_lt.2 h]

theorem State.bufByte_setBufByte_ne (a b : Nat) (v : Byte) (h : b ≠ a) :
    (s.setBufByte a v).bufByte b = s.bufByte b := by
  by_cases ha : a < s.params.bufBytes
  · simp [State.bufByte_setBufByte s a b v ha, h]
  · rw [State.setBufByte_outside s a v (by omega)]

theorem State.docSlot_setDocSlot (a b : Nat) (v : Cell64) (h : a < s.params.docSlots) :
    (s.setDocSlot a v).docSlot b = if b = a then v else s.docSlot b := by
  by_cases hb : b = a
  · subst hb; simp [State.docSlot, State.setDocSlot, h, Memory.find?_write]
  · simp [State.docSlot, State.setDocSlot, h, Memory.find?_write, hb]

theorem State.docSlot_setDocSlot_ne (a b : Nat) (v : Cell64) (h : b ≠ a) :
    (s.setDocSlot a v).docSlot b = s.docSlot b := by
  by_cases ha : a < s.params.docSlots
  · simp [State.docSlot_setDocSlot s a b v ha, h]
  · simp [State.setDocSlot, ha]

theorem State.gtWord_setGtWord (a b : Nat) (v : Wide) (h : a < s.params.gtSteps) :
    (s.setGtWord a v).gtWord b = if b = a then v else s.gtWord b := by
  by_cases hb : b = a
  · subst hb; simp [State.gtWord, State.setGtWord, h, Memory.find?_write]
  · simp [State.gtWord, State.setGtWord, h, Memory.find?_write, hb]

/-! Bits of BUF -/

theorem setByteBit_getLsbD (v : Byte) (k j : Nat) (b : Bool) (hk : k < 8) :
    (setByteBit v k b).getLsbD j = if j = k then b else v.getLsbD j := by
  by_cases hj : j < 8
  · by_cases hjk : j = k
    · subst hjk; cases b <;> simp [setByteBit, hj]
    · have hkj : ¬ (j - k = 0 ∧ k ≤ j) := by omega
      cases b
      · simp [setByteBit, hj, hjk]; omega
      · simp [setByteBit, hj, hjk]; omega
  · have : j ≠ k := by omega
    simp [this, BitVec.getLsbD_of_ge _ _ (Nat.not_lt.1 hj)]

/-- `BufSetBit` (R11): the one bit is set and every other bit kept. -/
theorem State.bufBit_setBufBit (p q : Nat) (b : Bool) (h : p < s.params.bufBytes * 8) :
    (s.setBufBit p b).bufBit q = if q = p then b else s.bufBit q := by
  have hp : p / 8 < s.params.bufBytes := by omega
  simp only [State.setBufBit, State.bufBit]
  rw [State.bufByte_setBufByte s _ _ _ hp]
  by_cases h8 : q / 8 = p / 8
  · rw [if_pos h8, setByteBit_getLsbD _ _ _ _ (by omega)]
    by_cases hq : q = p
    · simp [hq]
    · have : ¬ (7 - q % 8 = 7 - p % 8) := by omega
      simp [hq, this, h8]
  · have : q ≠ p := by rintro rfl; exact h8 rfl
    simp [h8, this]

theorem State.bufByte_setBufBit_ne (p a : Nat) (b : Bool) (h : a ≠ p / 8) :
    (s.setBufBit p b).bufByte a = s.bufByte a := by
  simp [State.setBufBit, State.bufByte_setBufByte_ne, h]

/-- Two bytes with the same eight stream bits are equal. -/
theorem State.bufByte_eq_of_bufBit (a : Nat) (h : ∀ q, a * 8 ≤ q → q < a * 8 + 8 → t.bufBit q = s.bufBit q) :
    t.bufByte a = s.bufByte a := by
  apply BitVec.eq_of_getLsbD_eq
  intro i hi
  have := h (a * 8 + (7 - i)) (by omega) (by omega)
  simp only [State.bufBit] at this
  rw [show (a * 8 + (7 - i)) / 8 = a by omega, show 7 - (a * 8 + (7 - i)) % 8 = i by omega] at this
  exact this

/-! `putBits`: only BUF changes, and in it exactly the field (R131) -/

/-- The loop of R131 touches BUF alone. -/
theorem State.putBits_eq (p v w : Nat) : s.putBits p v w = { s with buf := (s.putBits p v w).buf } := by
  induction w generalizing s p with
  | zero => rfl
  | succ w ih =>
    show (s.setBufBit p (v.testBit w)).putBits (p + 1) v w = _
    rw [ih]; rfl

@[simp] theorem State.putBits_params (p v w : Nat) : (s.putBits p v w).params = s.params := by
  rw [State.putBits_eq]
@[simp] theorem State.putBits_cmd (p v w : Nat) : (s.putBits p v w).cmd = s.cmd := by
  rw [State.putBits_eq]
@[simp] theorem State.putBits_rc (p v w : Nat) : (s.putBits p v w).rc = s.rc := by
  rw [State.putBits_eq]
@[simp] theorem State.putBits_status (p v w : Nat) : (s.putBits p v w).status = s.status := by
  rw [State.putBits_eq]
@[simp] theorem State.putBits_pos (p v w : Nat) : (s.putBits p v w).pos = s.pos := by
  rw [State.putBits_eq]
@[simp] theorem State.putBits_cap (p v w : Nat) : (s.putBits p v w).cap = s.cap := by
  rw [State.putBits_eq]
@[simp] theorem State.putBits_limit (p v w : Nat) : (s.putBits p v w).limit = s.limit := by
  rw [State.putBits_eq]
@[simp] theorem State.putBits_ext (p v w : Nat) : (s.putBits p v w).ext = s.ext := by
  rw [State.putBits_eq]
@[simp] theorem State.putBits_res (p v w : Nat) : (s.putBits p v w).res = s.res := by
  rw [State.putBits_eq]
@[simp] theorem State.putBits_gpc (p v w : Nat) : (s.putBits p v w).gpc = s.gpc := by
  rw [State.putBits_eq]
@[simp] theorem State.putBits_base (p v w : Nat) : (s.putBits p v w).base = s.base := by
  rw [State.putBits_eq]
@[simp] theorem State.putBits_ls (p v w : Nat) : (s.putBits p v w).ls = s.ls := by
  rw [State.putBits_eq]
@[simp] theorem State.putBits_doc (p v w : Nat) : (s.putBits p v w).doc = s.doc := by
  rw [State.putBits_eq]
@[simp] theorem State.putBits_gt (p v w : Nat) : (s.putBits p v w).gt = s.gt := by
  rw [State.putBits_eq]
@[simp] theorem State.putBits_run (p v w : Nat) : (s.putBits p v w).run = s.run := by
  rw [State.putBits_eq]
@[simp] theorem State.putBits_inbox (p v w : Nat) : (s.putBits p v w).inbox = s.inbox := by
  rw [State.putBits_eq]
@[simp] theorem State.putBits_hostData (p v w : Nat) : (s.putBits p v w).hostData = s.hostData := by
  rw [State.putBits_eq]
@[simp] theorem State.putBits_resets (p v w : Nat) : (s.putBits p v w).resets = s.resets := by
  rw [State.putBits_eq]
@[simp] theorem State.putBits_docSlot (p v w : Nat) (k : Nat) : (s.putBits p v w).docSlot k = s.docSlot k := by
  rw [State.putBits_eq]; rfl
@[simp] theorem State.putBits_gtWord (p v w : Nat) (k : Nat) : (s.putBits p v w).gtWord k = s.gtWord k := by
  rw [State.putBits_eq]; rfl

/-- `putBits` writes the `w` low bits of `v`, most significant first, and no other bit (R131). -/
theorem State.bufBit_putBits (p v w q : Nat) (h : p + w ≤ s.params.bufBytes * 8) :
    (s.putBits p v w).bufBit q = if p ≤ q ∧ q < p + w then v.testBit (p + w - 1 - q) else s.bufBit q := by
  induction w generalizing s p with
  | zero => rw [if_neg (by omega)]; rfl
  | succ w ih =>
    simp only [State.putBits]
    rw [ih _ _ (by simp; omega), State.bufBit_setBufBit _ _ _ _ (by omega)]
    by_cases h1 : q = p
    · subst h1
      rw [if_neg (by omega), if_pos rfl, if_pos (by omega)]
      congr 1; omega
    · by_cases h2 : p + 1 ≤ q ∧ q < p + 1 + w
      · rw [if_pos h2, if_pos (by omega)]; congr 1; omega
      · rw [if_neg h2, if_neg h1, if_neg (by omega)]

/-- The field stands where it was written (R64). -/
theorem State.fieldAt_putBits (p v w : Nat) (h : p + w ≤ s.params.bufBytes * 8) :
    (s.putBits p v w).fieldAt p w v := by
  intro i hi
  rw [State.bufBit_putBits s _ _ _ _ h, if_pos (by omega)]
  congr 1; omega

/-- Nothing outside the field changes (R131, R67). -/
theorem State.changedBits_putBits (p v w : Nat) (h : p + w ≤ s.params.bufBytes * 8) :
    s.changedBits (s.putBits p v w) p w := by
  have hb : ∀ q, (q < p ∨ p + w ≤ q) → (s.putBits p v w).bufBit q = s.bufBit q := fun q hq => by
    rw [State.bufBit_putBits s _ _ _ _ h, if_neg (by omega)]
  exact ⟨hb, fun a ha => State.bufByte_eq_of_bufBit _ _ _ fun q _ _ => hb q (by omega)⟩

theorem State.memory_setBufByte (a : Nat) (v : Byte) (h : s.memoryOk) : (s.setBufByte a v).memoryOk := by
  obtain ⟨⟨h1, h2, h3⟩, h4, h5, h6⟩ := h
  by_cases ha : a < s.params.bufBytes
  · refine ⟨⟨?_, h2, h3⟩, ?_, h5, h6⟩
    · simp only [State.setBufByte, ha, if_true]; exact Memory.wf_write _ _ _ h1
    · simp only [State.setBufByte, ha, if_true]; exact Memory.below_write _ _ _ _ h4 ha
  · rw [State.setBufByte_outside s a v (by omega)]; exact ⟨⟨h1, h2, h3⟩, h4, h5, h6⟩

theorem State.memory_setDocSlot (a : Nat) (v : Cell64) (h : s.memoryOk) : (s.setDocSlot a v).memoryOk := by
  obtain ⟨⟨h1, h2, h3⟩, h4, h5, h6⟩ := h
  by_cases ha : a < s.params.docSlots
  · refine ⟨⟨h1, ?_, h3⟩, h4, ?_, h6⟩
    · simp only [State.setDocSlot, ha, if_true]; exact Memory.wf_write _ _ _ h2
    · simp only [State.setDocSlot, ha, if_true]; exact Memory.below_write _ _ _ _ h5 ha
  · simpa [State.setDocSlot, ha] using ⟨⟨h1, h2, h3⟩, h4, h5, h6⟩

theorem State.memory_setGtWord (a : Nat) (v : Wide) (h : s.memoryOk) : (s.setGtWord a v).memoryOk := by
  obtain ⟨⟨h1, h2, h3⟩, h4, h5, h6⟩ := h
  by_cases ha : a < s.params.gtSteps
  · refine ⟨⟨h1, h2, ?_⟩, h4, h5, ?_⟩
    · simp only [State.setGtWord, ha, if_true]; exact Memory.wf_write _ _ _ h3
    · simp only [State.setGtWord, ha, if_true]; exact Memory.below_write _ _ _ _ h6 ha
  · simpa [State.setGtWord, ha] using ⟨⟨h1, h2, h3⟩, h4, h5, h6⟩

theorem State.memory_putBits (p v w : Nat) (h : s.memoryOk) : (s.putBits p v w).memoryOk := by
  induction w generalizing s p with
  | zero => exact h
  | succ w ih => exact ih _ _ (State.memory_setBufByte _ _ _ h)

theorem State.memory_memWrite (a v n : Nat) (h : s.memoryOk) : (s.memWrite a v n).memoryOk := by
  induction n generalizing s a with
  | zero => exact h
  | succ n ih => exact ih _ _ (State.memory_setBufByte _ _ _ h)

/-- The memories of the state after reset have the canonical form. -/
theorem State.memory_reset : State.reset.memoryOk := by decide

/-! `bitsValue`: the sum of R132 -/

theorem State.bitsValue_congr (p w : Nat) (h : ∀ q, p ≤ q → q < p + w → t.bufBit q = s.bufBit q) :
    t.bitsValue p w = s.bitsValue p w := by
  induction w generalizing p with
  | zero => rfl
  | succ w ih =>
    simp only [State.bitsValue]
    rw [h p (by omega) (by omega), ih (p + 1) fun q _ _ => h q (by omega) (by omega)]

/-- "the result is below 2^w" (R132). -/
theorem State.bitsValue_lt (p w : Nat) : s.bitsValue p w < 2 ^ w := by
  induction w generalizing p with
  | zero => simp [State.bitsValue]
  | succ w ih =>
    have h1 := ih (p + 1)
    have h2 : (s.bufBit p).toNat ≤ 1 := by cases s.bufBit p <;> simp
    simp only [State.bitsValue, Nat.pow_succ]
    calc (s.bufBit p).toNat * 2 ^ w + s.bitsValue (p + 1) w < 1 * 2 ^ w + 2 ^ w := by
          have := Nat.mul_le_mul_right (2 ^ w) h2; omega
      _ = 2 ^ w * 2 := by ring

/-- "The first bit read (at index POS) is the most significant bit of the result" (R132). -/
theorem State.testBit_bitsValue (p w i : Nat) (h : i < w) :
    (s.bitsValue p w).testBit (w - 1 - i) = s.bufBit (p + i) := by
  induction w generalizing p i with
  | zero => omega
  | succ w ih =>
    have hlt := s.bitsValue_lt (p + 1) w
    simp only [State.bitsValue]
    cases i with
    | zero =>
      have : w + 1 - 1 - 0 = w := by omega
      rw [this, Nat.mul_comm, Nat.testBit_two_pow_mul_add _ hlt]
      cases s.bufBit p <;> simp
    | succ i =>
      rw [Nat.mul_comm, Nat.testBit_two_pow_mul_add _ hlt, if_pos (by omega)]
      rw [show w + 1 - 1 - (i + 1) = w - 1 - i by omega, ih (p + 1) i (by omega)]
      congr 1; omega

/-- A field that stands on the stream is what the sum of R132 reads. -/
theorem State.bitsValue_of_fieldAt (p w v : Nat) (h : s.fieldAt p w v) : s.bitsValue p w = v % 2 ^ w := by
  apply Nat.eq_of_testBit_eq
  intro i
  by_cases hi : i < w
  · have h1 := s.testBit_bitsValue p w (w - 1 - i) (by omega)
    have h2 := h (w - 1 - i) (by omega)
    rw [show w - 1 - (w - 1 - i) = i by omega] at h1 h2
    rw [h1, h2, Nat.testBit_mod_two_pow]; simp [hi]
  · rw [Nat.testBit_lt_two_pow (lt_of_lt_of_le (s.bitsValue_lt p w) (Nat.pow_le_pow_right (by omega) (by omega))),
      Nat.testBit_mod_two_pow]
    simp [hi]

/-- Read mirrors write (R138) for the primitives. -/
theorem State.bitsValue_putBits (p v w : Nat) (h : p + w ≤ s.params.bufBytes * 8) :
    (s.putBits p v w).bitsValue p w = v % 2 ^ w :=
  State.bitsValue_of_fieldAt _ _ _ _ (State.fieldAt_putBits s p v w h)

theorem State.fieldAt_bitsValue (p w : Nat) : s.fieldAt p w (s.bitsValue p w) := fun i hi =>
  (s.testBit_bitsValue p w i hi).symm

/-! The byte view (R62) -/

theorem State.memWrite_eq (a v n : Nat) : s.memWrite a v n = { s with buf := (s.memWrite a v n).buf } := by
  induction n generalizing s a with
  | zero => rfl
  | succ n ih =>
    show (s.setBufByte a (BitVec.ofNat 8 (v / 256 ^ n % 256))).memWrite (a + 1) v n = _
    rw [ih]; rfl

@[simp] theorem State.memWrite_params (a v n : Nat) : (s.memWrite a v n).params = s.params := by
  rw [State.memWrite_eq]
@[simp] theorem State.memWrite_cmd (a v n : Nat) : (s.memWrite a v n).cmd = s.cmd := by
  rw [State.memWrite_eq]
@[simp] theorem State.memWrite_rc (a v n : Nat) : (s.memWrite a v n).rc = s.rc := by
  rw [State.memWrite_eq]
@[simp] theorem State.memWrite_status (a v n : Nat) : (s.memWrite a v n).status = s.status := by
  rw [State.memWrite_eq]
@[simp] theorem State.memWrite_pos (a v n : Nat) : (s.memWrite a v n).pos = s.pos := by
  rw [State.memWrite_eq]
@[simp] theorem State.memWrite_cap (a v n : Nat) : (s.memWrite a v n).cap = s.cap := by
  rw [State.memWrite_eq]
@[simp] theorem State.memWrite_limit (a v n : Nat) : (s.memWrite a v n).limit = s.limit := by
  rw [State.memWrite_eq]
@[simp] theorem State.memWrite_ext (a v n : Nat) : (s.memWrite a v n).ext = s.ext := by
  rw [State.memWrite_eq]
@[simp] theorem State.memWrite_res (a v n : Nat) : (s.memWrite a v n).res = s.res := by
  rw [State.memWrite_eq]
@[simp] theorem State.memWrite_gpc (a v n : Nat) : (s.memWrite a v n).gpc = s.gpc := by
  rw [State.memWrite_eq]
@[simp] theorem State.memWrite_base (a v n : Nat) : (s.memWrite a v n).base = s.base := by
  rw [State.memWrite_eq]
@[simp] theorem State.memWrite_ls (a v n : Nat) : (s.memWrite a v n).ls = s.ls := by
  rw [State.memWrite_eq]
@[simp] theorem State.memWrite_doc (a v n : Nat) : (s.memWrite a v n).doc = s.doc := by
  rw [State.memWrite_eq]
@[simp] theorem State.memWrite_gt (a v n : Nat) : (s.memWrite a v n).gt = s.gt := by
  rw [State.memWrite_eq]
@[simp] theorem State.memWrite_run (a v n : Nat) : (s.memWrite a v n).run = s.run := by
  rw [State.memWrite_eq]
@[simp] theorem State.memWrite_inbox (a v n : Nat) : (s.memWrite a v n).inbox = s.inbox := by
  rw [State.memWrite_eq]
@[simp] theorem State.memWrite_hostData (a v n : Nat) : (s.memWrite a v n).hostData = s.hostData := by
  rw [State.memWrite_eq]
@[simp] theorem State.memWrite_resets (a v n : Nat) : (s.memWrite a v n).resets = s.resets := by
  rw [State.memWrite_eq]
@[simp] theorem State.memWrite_docSlot (a v n : Nat) (k : Nat) : (s.memWrite a v n).docSlot k = s.docSlot k := by
  rw [State.memWrite_eq]; rfl
@[simp] theorem State.memWrite_gtWord (a v n : Nat) (k : Nat) : (s.memWrite a v n).gtWord k = s.gtWord k := by
  rw [State.memWrite_eq]; rfl

/-- `MemWrite(a, n, v)` (R62): byte `a + i` becomes `(v div 256^(n-1-i)) mod 256`, every other byte is kept. -/
theorem State.bufByte_memWrite (a v n b : Nat) (h : a + n ≤ s.params.bufBytes) :
    (s.memWrite a v n).bufByte b =
      if a ≤ b ∧ b < a + n then BitVec.ofNat 8 (v / 256 ^ (a + n - 1 - b) % 256) else s.bufByte b := by
  induction n generalizing s a with
  | zero => rw [if_neg (by omega)]; rfl
  | succ n ih =>
    simp only [State.memWrite]
    rw [ih _ _ (by simp; omega), State.bufByte_setBufByte _ _ _ _ (by omega)]
    by_cases h1 : b = a
    · subst h1
      rw [if_neg (by omega), if_pos rfl, if_pos (by omega), show b + (n + 1) - 1 - b = n by omega]
    · by_cases h2 : a + 1 ≤ b ∧ b < a + 1 + n
      · rw [if_pos h2, if_pos (by omega), show a + 1 + n - 1 - b = a + (n + 1) - 1 - b by omega]
      · rw [if_neg h2, if_neg h1, if_neg (by omega)]

theorem State.bufByte_memWrite_ne (a v n b : Nat) (h : b < a ∨ a + n ≤ b) :
    (s.memWrite a v n).bufByte b = s.bufByte b := by
  induction n generalizing s a with
  | zero => rfl
  | succ n ih =>
    simp only [State.memWrite]
    rw [ih _ _ (by omega), State.bufByte_setBufByte_ne _ _ _ _ (by omega)]

end Sys2Proof.Machine
end

