-- ==== Sys2Proof/Laws/Act.lean ====
section
/-! SUPPORT. What each shared operation can do, said once: how a rule's pseudocode runs line by line, and one
lemma for each of the shared operations of Ops and Operands that gives its result from every state. -/

namespace Sys2Proof.Machine

variable (s : State)

/-! Running a piece of pseudocode line by line -/

@[simp] theorem Act.pure_run {α : Type} (a : α) : (pure a : Act α) s = .ok a s := rfl

theorem Act.bind_ok {α β : Type} {m : Act α} {f : α → Act β} {s t : State} {a : α} (h : m s = .ok a t) :
    (m >>= f) s = f a t := by
  show EStateM.bind m f s = _
  simp only [EStateM.bind, h]

theorem Act.bind_error {α β : Type} {m : Act α} {f : α → Act β} {s t : State} {e : Raise} (h : m s = .error e t) :
    (m >>= f) s = .error e t := by
  show EStateM.bind m f s = _
  simp only [EStateM.bind, h]

/-- A sequence that went on: its first part went on, and so did its second. -/
theorem Act.bind_eq_ok {α β : Type} {m : Act α} {f : α → Act β} {s t : State} {b : β} (h : (m >>= f) s = .ok b t) :
    ∃ a u, m s = .ok a u ∧ f a u = .ok b t := by
  cases hm : m s with
  | ok a u => exact ⟨a, u, rfl, by rw [Act.bind_ok hm] at h; exact h⟩
  | error e u => rw [Act.bind_error hm] at h; cases h

/-- A sequence that raised: its first part did, or its second. -/
theorem Act.bind_eq_error {α β : Type} {m : Act α} {f : α → Act β} {s t : State} {e : Raise}
    (h : (m >>= f) s = .error e t) :
    m s = .error e t ∨ ∃ a u, m s = .ok a u ∧ f a u = .error e t := by
  cases hm : m s with
  | ok a u => exact .inr ⟨a, u, rfl, by rw [Act.bind_ok hm] at h; exact h⟩
  | error e2 u => rw [Act.bind_error hm] at h; cases h; exact .inl rfl

@[simp] theorem current_run : current s = .ok s s := rfl
@[simp] theorem effect_run (f : State → State) : effect f s = .ok () (f s) := rfl
@[simp] theorem raise_run {α : Type} (k : FaultKind) (n : Nat) :
    (raise k n : Act α) s = .error ⟨k, BitVec.ofNat 4 n⟩ s := rfl
@[simp] theorem raiseIf_run (c : Bool) (k : FaultKind) (n : Nat) :
    raiseIf c k n s = if c then .error ⟨k, BitVec.ofNat 4 n⟩ s else .ok () s := rfl

@[simp] theorem bind_current {β : Type} (f : State → Act β) : (current >>= f) s = f s s := rfl
@[simp] theorem bind_pure {α β : Type} (a : α) (f : α → Act β) : ((pure a : Act α) >>= f) s = f a s := rfl
@[simp] theorem bind_effect {β : Type} (g : State → State) (f : Unit → Act β) :
    (effect g >>= f) s = f () (g s) := rfl
@[simp] theorem bind_raise {α β : Type} (k : FaultKind) (n : Nat) (f : α → Act β) :
    ((raise k n : Act α) >>= f) s = .error ⟨k, BitVec.ofNat 4 n⟩ s := rfl
@[simp] theorem bind_raiseIf {β : Type} (c : Bool) (k : FaultKind) (n : Nat) (f : Unit → Act β) :
    (raiseIf c k n >>= f) s = if c then .error ⟨k, BitVec.ofNat 4 n⟩ s else f () s := by
  cases c <;> rfl
@[simp] theorem bind_assoc_run {α β γ : Type} (m : Act α) (f : α → Act β) (g : β → Act γ) :
    ((m >>= f) >>= g) s = (m >>= fun a => f a >>= g) s := by
  cases h : m s with
  | ok a t => rw [Act.bind_ok h]; cases h2 : f a t with
    | ok b u => rw [Act.bind_ok h2, Act.bind_ok ((Act.bind_ok h).trans h2)]
    | error e u => rw [Act.bind_error h2, Act.bind_error ((Act.bind_ok h).trans h2)]
  | error e t => rw [Act.bind_error h, Act.bind_error (Act.bind_error h)]

@[simp] theorem settled_ok (t : State) : settled (.ok () t) = t := rfl
@[simp] theorem settled_error (e : Raise) (t : State) : settled (.error e t) = t.takeFault e := rfl
theorem settle_def (m : Act Unit) : settle m s = settled (m s) := rfl

/-! The shared operations -/

/-- `WriteBits(v, w)` (R131): everything it can do. -/
theorem writeBits_run (v w : Nat) :
    writeBits v w s =
      if s.cap.toNat * 8 < s.pos.toNat + w then .error ⟨.bufferOverflow, 3⟩ s
      else .ok () ((s.putBits s.pos.toNat v w).withPos (s.pos.toNat + w)) := by
  simp only [writeBits, bind_current, bind_raiseIf, decide_eq_true_eq]
  rfl

/-- `ReadBits(w)` (R132): everything it can do. -/
theorem readBits_run (w : Nat) :
    readBits w s =
      if s.readBound < s.pos.toNat + w then .error ⟨.bufferOverflow, 4⟩ s
      else .ok (s.bitsValue s.pos.toNat w) (s.withPos (s.pos.toNat + w)) := by
  simp only [readBits, bind_current, bind_raiseIf, decide_eq_true_eq]
  rfl

@[simp] theorem readDoc_run (a : Nat) : readDoc a s = .ok (s.docSlot a).toNat s := rfl
@[simp] theorem writeDoc_run (a v : Nat) : writeDoc a v s = .ok () (s.setDocSlot a (BitVec.ofNat 64 v)) := rfl
@[simp] theorem bind_readDoc {β : Type} (a : Nat) (f : Nat → Act β) :
    (readDoc a >>= f) s = f (s.docSlot a).toNat s := rfl
@[simp] theorem bind_writeDoc {β : Type} (a v : Nat) (f : Unit → Act β) :
    (writeDoc a v >>= f) s = f () (s.setDocSlot a (BitVec.ofNat 64 v)) := rfl

/-- `Slot(off, extra)` (R185): everything it can do. -/
theorem slot_run (off : Half) (extra : Nat) :
    slot off extra s =
      if s.params.docSlots ≤ s.base.toNat + off.toNat + extra then .error ⟨.illegalGrammar, 3⟩ s
      else .ok (s.base.toNat + off.toNat) s := by
  simp only [slot, bind_current, bind_raiseIf, decide_eq_true_eq]
  rfl

/-- `Next(g)` (R183): everything it can do. -/
theorem goNext_run (g : Nat) :
    goNext g s = if s.params.gtSteps ≤ g + 1 then .error ⟨.illegalGrammar, 2⟩ s else .ok () (s.withGpc (g + 1)) := by
  simp only [goNext, bind_current, bind_raiseIf, decide_eq_true_eq]
  rfl

/-- `Jump(g, t)` (R183): everything it can do. -/
theorem goJump_run (g t : Nat) :
    goJump g t s = if s.jumpOk g t then .ok () (s.withGpc t) else .error ⟨.illegalGrammar, 4⟩ s := by
  simp only [goJump, bind_current, bind_raiseIf]
  cases s.jumpOk g t <;> rfl

@[simp] theorem setGpc_run (t : Nat) : setGpc t s = .ok () (s.withGpc t) := rfl

theorem bind_writeBits {β : Type} (v w : Nat) (f : Unit → Act β) :
    (writeBits v w >>= f) s =
      if s.cap.toNat * 8 < s.pos.toNat + w then .error ⟨.bufferOverflow, 3⟩ s
      else f () ((s.putBits s.pos.toNat v w).withPos (s.pos.toNat + w)) := by
  have h := writeBits_run s v w
  split at h
  · next hc => rw [Act.bind_error h, if_pos hc]
  · next hc => rw [Act.bind_ok h, if_neg hc]

theorem bind_readBits {β : Type} (w : Nat) (f : Nat → Act β) :
    (readBits w >>= f) s =
      if s.readBound < s.pos.toNat + w then .error ⟨.bufferOverflow, 4⟩ s
      else f (s.bitsValue s.pos.toNat w) (s.withPos (s.pos.toNat + w)) := by
  have h := readBits_run s w
  split at h
  · next hc => rw [Act.bind_error h, if_pos hc]
  · next hc => rw [Act.bind_ok h, if_neg hc]

theorem bind_slot {β : Type} (off : Half) (extra : Nat) (f : Nat → Act β) :
    (slot off extra >>= f) s =
      if s.params.docSlots ≤ s.base.toNat + off.toNat + extra then .error ⟨.illegalGrammar, 3⟩ s
      else f (s.base.toNat + off.toNat) s := by
  have h := slot_run s off extra
  split at h
  · next hc => rw [Act.bind_error h, if_pos hc]
  · next hc => rw [Act.bind_ok h, if_neg hc]

/-- A rejection of BS_INIT (R130): INITED is cleared before the raise. -/
theorem bind_rejectInit {β : Type} (c : Bool) (n : Nat) (f : Unit → Act β) :
    (rejectInit c n >>= f) s =
      if c then .error ⟨.bufferOverflow, BitVec.ofNat 4 n⟩ s.unbound else f () s := by
  cases c <;> rfl

/-! Commands and descriptors -/

/-- A command accepted in the normal state runs its rule (R252 test 4). -/
theorem command_run (needs : Bool) (body : Act Unit) (hf : s.status.fault = false)
    (hi : needs = true → s.status.inited = true) : command needs body s = settled (body s) := by
  cases needs
  · simp [command, hf, settle]
  · simp [command, hf, hi, settle]

/-- In the fault state every command but BS_INIT is refused (R257). -/
theorem command_refused (needs : Bool) (body : Act Unit) (hf : s.status.fault = true) :
    command needs body s = s.refuse := by simp [command, hf]

/-- Without a BS_INIT a command that needs one raises IllegalCommand(2) (R252 test 3). -/
theorem command_uninited (body : Act Unit) (hf : s.status.fault = false) (hi : s.status.inited = false) :
    command true body s = s.takeFault ⟨.illegalCommand, 2⟩ := by simp [command, hf, hi]

/-- A descriptor in a run executes its rule at GPC (R182). -/
theorem descriptor_run (body : Dir → Nat → Act Unit) (d : Dir) (h : s.run = some d) :
    descriptor body s = .next (settled (body d s.gpc.toNat s)) := by simp [descriptor, h, settle]

/-- Outside a run a descriptor has no effect the spec gives (log 10). -/
theorem descriptor_noRun (body : Dir → Nat → Act Unit) (h : s.run = none) :
    descriptor body s = .fault .noRun := by simp [descriptor, h]

/-! `cl2` (R12) -/

theorem cl2From_spec (n k j : Nat) (hn : n ≤ 2 ^ (j + k)) (hk : ∀ i < k, 2 ^ i < n) :
    n ≤ 2 ^ cl2From n j k ∧ ∀ i < cl2From n j k, 2 ^ i < n := by
  induction j generalizing k with
  | zero => exact ⟨by simpa [cl2From] using hn, by simpa [cl2From] using hk⟩
  | succ j ih =>
    simp only [cl2From]
    split
    · next h => exact ⟨h, hk⟩
    · next h =>
      refine ih (k + 1) (by rwa [show j + (k + 1) = j + 1 + k by omega]) fun i hi => ?_
      rcases Nat.lt_succ_iff_lt_or_eq.1 hi with h1 | rfl
      · exact hk i h1
      · omega

/-- `2 ^ cl2(n)` reaches `n` (R12). -/
theorem le_two_pow_cl2 (n : Nat) : n ≤ 2 ^ cl2 n :=
  (cl2From_spec n 0 n (le_of_lt Nat.lt_two_pow_self) (by omega)).1

/-- No smaller exponent does: `cl2(n)` is the least (R12). -/
theorem two_pow_lt_of_lt_cl2 (n i : Nat) (h : i < cl2 n) : 2 ^ i < n :=
  (cl2From_spec n 0 n (le_of_lt Nat.lt_two_pow_self) (by omega)).2 i h

end Sys2Proof.Machine
end

