-- ==== Sys2Proof/Laws/Effects.lean ====
section
/-! SUPPORT. Everything a descriptor can do to the state, said once: a chain of stream accesses and DOC writes,
each with the check that came before it, and then one move of the walk or one raise (R186, R189). A property that
each access and each move keeps is kept by every step of a codec run. -/

namespace Sys2Proof.Machine

/-- One stream access or DOC write of a descriptor in direction `d`. -/
inductive Effect (d : Dir) : State → State → Prop where
  /-- `WriteBits(v, w)` after its check (R131). -/
  | write (s : State) (v w : Nat) (hd : d = .encode) (h : s.pos.toNat + w ≤ s.cap.toNat * 8) :
      Effect d s ((s.putBits s.pos.toNat v w).withPos (s.pos.toNat + w))
  /-- `ReadBits(w)` after its check (R132). -/
  | read (s : State) (w : Nat) (hd : d = .decode) (h : s.pos.toNat + w ≤ s.readBound) :
      Effect d s (s.withPos (s.pos.toNat + w))
  /-- `DOC[a] <- v`. -/
  | doc (s : State) (a v : Nat) (hd : d = .decode) : Effect d s (s.setDocSlot a (BitVec.ofNat 64 v))

/-- A chain of effects. -/
abbrev Effects (d : Dir) : State → State → Prop := Relation.ReflTransGen (Effect d)

/-- The state a piece of pseudocode reaches, whether it goes on or raises. -/
def Act.reached {α : Type} : EStateM.Result Raise State α → State
  | .ok _ t => t
  | .error _ t => t

/-- A piece of pseudocode does effects of direction `d` only. -/
def Act.does {α : Type} (d : Dir) (m : Act α) : Prop := ∀ s, Effects d s (Act.reached (m s))

variable {α β : Type} {d : Dir}

theorem Act.does_bind {m : Act α} {f : α → Act β} (hm : Act.does d m) (hf : ∀ a, Act.does d (f a)) :
    Act.does d (m >>= f) := by
  intro s
  have h1 := hm s
  cases h : m s with
  | ok a t => rw [Act.bind_ok h]; rw [h] at h1; exact h1.trans (hf a t)
  | error e t => rw [Act.bind_error h]; rw [h] at h1; exact h1

theorem Act.does_pure (a : α) : Act.does d (pure a : Act α) := fun _ => .refl
theorem Act.does_current : Act.does d current := fun _ => .refl
theorem Act.does_raise (k : FaultKind) (n : Nat) : Act.does d (raise k n : Act α) := fun _ => .refl
theorem Act.does_raiseIf (c : Bool) (k : FaultKind) (n : Nat) : Act.does d (raiseIf c k n) := by
  intro s; rw [raiseIf_run]; split <;> exact .refl
theorem Act.does_slot (off : Half) (extra : Nat) : Act.does d (slot off extra) := by
  intro s; rw [slot_run]; split <;> exact .refl
theorem Act.does_readDoc (a : Nat) : Act.does d (readDoc a) := fun _ => .refl
theorem Act.does_ite {c : Prop} [Decidable c] {m n : Act α} (hm : Act.does d m) (hn : Act.does d n) :
    Act.does d (if c then m else n) := by split <;> assumption
theorem Act.does_writeBits (v w : Nat) : Act.does .encode (writeBits v w) := by
  intro s; rw [writeBits_run]; split
  · exact .refl
  · next h => exact .single (.write s v w rfl (by omega))
theorem Act.does_readBits (w : Nat) : Act.does .decode (readBits w) := by
  intro s; rw [readBits_run]; split
  · exact .refl
  · next h => exact .single (.read s w rfl (by omega))
theorem Act.does_writeDoc (a v : Nat) : Act.does .decode (writeDoc a v) := fun s => .single (.doc s a v rfl)

theorem Act.does_writeVarGroups (n v : Nat) : Act.does .encode (writeVarGroups n v) := by
  induction n generalizing v with
  | zero => exact Act.does_pure ()
  | succ n ih =>
    exact Act.does_ite (Act.does_bind (Act.does_writeBits _ _) fun _ => ih _) (Act.does_writeBits _ _)
theorem Act.does_writeLen (m : LenMode) (cap n : Nat) : Act.does .encode (writeLen m cap n) := by
  cases m
  · exact Act.does_writeBits _ _
  · exact Act.does_writeVarGroups _ _
theorem Act.does_readVarGroups (vb n k acc : Nat) : Act.does .decode (readVarGroups vb n k acc) := by
  induction n generalizing k acc with
  | zero => exact Act.does_raise _ _
  | succ n ih =>
    exact Act.does_bind (Act.does_readBits _) fun _ => Act.does_bind (Act.does_raiseIf _ _ _) fun _ =>
      Act.does_ite (Act.does_pure _) (ih _ _)
theorem Act.does_readLen (m : LenMode) (cap : Nat) : Act.does .decode (readLen m cap) := by
  cases m
  · exact Act.does_readBits _
  · exact Act.does_readVarGroups _ _ _ _
theorem Act.does_writeChars (chw a n : Nat) : Act.does .encode (writeChars chw a n) := by
  induction n generalizing a with
  | zero => exact Act.does_pure ()
  | succ n ih =>
    exact Act.does_bind (Act.does_readDoc _) fun _ => Act.does_bind (Act.does_raiseIf _ _ _) fun _ =>
      Act.does_bind (Act.does_writeBits _ _) fun _ => ih _
theorem Act.does_readChars (chw a n : Nat) : Act.does .decode (readChars chw a n) := by
  induction n generalizing a with
  | zero => exact Act.does_pure ()
  | succ n ih => exact Act.does_bind (Act.does_readBits _) fun _ => Act.does_bind (Act.does_writeDoc _ _) fun _ => ih _

theorem Act.does_presBit (a : Nat) : Act.does d (presBit a d) := by
  cases d
  · exact Act.does_bind (Act.does_readDoc _) fun _ => Act.does_bind (Act.does_raiseIf _ _ _) fun _ =>
      Act.does_bind (Act.does_writeBits _ _) fun _ => Act.does_pure _
  · exact Act.does_bind (Act.does_readBits _) fun _ => Act.does_bind (Act.does_writeDoc _ _) fun _ => Act.does_pure _

theorem Act.does_readAlts (g n : Nat) : Act.does d (readAlts g n) := by
  induction n generalizing g with
  | zero => exact Act.does_pure _
  | succ n ih =>
    refine Act.does_bind Act.does_current fun s => Act.does_bind (Act.does_raiseIf _ _ _) fun _ => ?_
    split
    · exact Act.does_raise _ _
    · exact Act.does_bind (Act.does_slot _ _) fun _ => Act.does_bind (ih _) fun _ => Act.does_pure _
    · exact Act.does_raise _ _

theorem Act.does_selectAlt (alts : List Alt) (w : Nat) : Act.does d (selectAlt alts w d) := by
  cases d
  · refine Act.does_bind Act.does_current fun s => Act.does_bind (Act.does_raiseIf _ _ _) fun _ => ?_
    split
    · exact Act.does_raise _ _
    · exact Act.does_bind (Act.does_writeBits _ _) fun _ => Act.does_pure _
    · exact Act.does_raise _ _
  · refine Act.does_bind (Act.does_readBits _) fun k => ?_
    split
    · exact Act.does_raise _ _
    · exact Act.does_bind (Act.does_writeDoc _ _) fun _ => Act.does_pure _

theorem Act.does_listChecks (g : Nat) (max body elem stride : Half) :
    Act.does d (listChecks g max body elem stride) :=
  Act.does_bind Act.does_current fun _ => Act.does_bind (Act.does_raiseIf _ _ _) fun _ =>
    Act.does_bind (Act.does_raiseIf _ _ _) fun _ => Act.does_bind (Act.does_raiseIf _ _ _) fun _ =>
      Act.does_bind (Act.does_raiseIf _ _ _) fun _ => Act.does_raiseIf _ _ _

theorem Act.does_countField (m : LenMode) (max a : Nat) : Act.does d (countField m max a d) := by
  cases d
  · exact Act.does_bind (Act.does_readDoc _) fun _ => Act.does_bind (Act.does_raiseIf _ _ _) fun _ =>
      Act.does_bind (Act.does_writeLen _ _ _) fun _ => Act.does_pure _
  · exact Act.does_bind (Act.does_readLen _ _) fun _ => Act.does_bind (Act.does_raiseIf _ _ _) fun _ =>
      Act.does_bind (Act.does_writeDoc _ _) fun _ => Act.does_pure _

theorem Act.does_enumField (n a : Nat) : Act.does d (enumField n a d) := by
  cases d
  · exact Act.does_bind (Act.does_readDoc _) fun _ => Act.does_bind (Act.does_raiseIf _ _ _) fun _ =>
      Act.does_writeBits _ _
  · exact Act.does_bind (Act.does_readBits _) fun _ => Act.does_bind (Act.does_raiseIf _ _ _) fun _ =>
      Act.does_writeDoc _ _

theorem Act.does_nbitField (min max a : Nat) : Act.does d (nbitField min max a d) := by
  cases d
  · exact Act.does_bind (Act.does_readDoc _) fun _ => Act.does_bind (Act.does_raiseIf _ _ _) fun _ =>
      Act.does_writeBits _ _
  · exact Act.does_bind (Act.does_readBits _) fun _ => Act.does_bind (Act.does_raiseIf _ _ _) fun _ =>
      Act.does_writeDoc _ _

theorem Act.does_varuintField (vb a : Nat) : Act.does d (varuintField vb a d) := by
  cases d
  · exact Act.does_bind (Act.does_readDoc _) fun _ => Act.does_bind (Act.does_raiseIf _ _ _) fun _ =>
      Act.does_writeVarGroups _ _
  · exact Act.does_bind (Act.does_readVarGroups _ _ _ _) fun _ => Act.does_writeDoc _ _

theorem Act.does_charsField (chw a n : Nat) : Act.does d (charsField chw a n d) := by
  cases d
  · exact Act.does_writeChars _ _ _
  · exact Act.does_readChars _ _ _

/-- The accesses change BUF, DOC and POS alone. -/
theorem Effects.frame {s t : State} (h : Effects d s t) :
    t = { s with buf := t.buf, doc := t.doc, pos := t.pos } := by
  induction h with
  | refl => rfl
  | tail _ h ih =>
    cases h with
    | write v w hd h => rw [State.putBits_eq]; rw [ih]; rfl
    | read w hd h => rw [ih]; rfl
    | doc a v hd => rw [ih]; rfl

/-- The last thing a descriptor at `s` does, in the state `u` that its accesses reached: a raise, the end of the
run, or a move of the walk with the checks that allowed it. -/
inductive Move (i : Instr) (s u : State) : State → Prop where
  | fault (e : Raise) : Move i s u (u.takeFault e)
  | done (h : s.ls = []) (hi : i = .gwEnd) : Move i s u u.done
  /-- `Next(g)` (R183). -/
  | next (h : s.gpc.toNat + 1 < s.params.gtSteps) (hi : i ≠ .gwLend) : Move i s u (u.withGpc (s.gpc.toNat + 1))
  /-- `Jump(g, t)`, or a CHOICE's checked assignment (R183, R191). -/
  | jump (t : Nat) (hg : s.gpc.toNat < t) (ht : t < s.params.gtSteps)
      (hl : ∀ f, s.ls.head? = some f → t ≤ f.stop.toNat) : Move i s u (u.withGpc t)
  /-- A LIST enters its body (R193). -/
  | enter (off max body elem stride : Half) (n : Nat)
      (hi : i = .gwListN off max body elem stride ∨ i = .gwListV off max body elem stride)
      (h : s.listAt off max body elem stride) (h1 : 1 ≤ n) (hn : n ≤ max.toNat) :
      Move i s u (u.enterList s.gpc.toNat n body elem stride)
  /-- LEND goes to the next element (R194). -/
  | element (f : Frame) (outer : List Frame) (hl : s.ls = f :: outer) (hs : f.stop.toNat = s.gpc.toNat)
      (hr : 2 ≤ f.rem.toNat) : Move i s u (u.nextElement f (f.rem.toNat - 1) outer)
  /-- LEND leaves the list (R194). -/
  | leave (f : Frame) (outer : List Frame) (hl : s.ls = f :: outer) (hs : f.stop.toNat = s.gpc.toNat)
      (hr : f.rem.toNat ≤ 1) (h : s.gpc.toNat + 1 < s.params.gtSteps) :
      Move i s u ((u.leaveList f outer).withGpc (s.gpc.toNat + 1))
  /-- LEND leaves the list at the last word of GT (R194, R183). -/
  | leaveFault (f : Frame) (outer : List Frame) (hl : s.ls = f :: outer) (hs : f.stop.toNat = s.gpc.toNat)
      (hr : f.rem.toNat ≤ 1) : Move i s u ((u.leaveList f outer).takeFault ⟨.illegalGrammar, 2⟩)

/-- What a descriptor did (R182): accesses in the run's direction, and then its last move. -/
def Did (d : Dir) (i : Instr) (s t : State) : Prop := ∃ u, Effects d s u ∧ Move i s u t

/-- The first piece of a descriptor's rule did accesses only: it raised, or the rest of the rule goes on from the
state it reached. -/
theorem Did.bind {i : Instr} {m : Act α} {f : α → Act Unit} {s v t : State} (hv : Effects d s v)
    (h : settled ((m >>= f) v) = t) (hm : Act.does d m)
    (hf : ∀ a u, m v = .ok a u → Effects d s u → settled (f a u) = t → Did d i s t) : Did d i s t := by
  have h1 := hm v
  cases hr : m v with
  | error e u =>
    rw [Act.bind_error hr] at h; rw [hr] at h1
    exact ⟨u, hv.trans h1, by rw [← h]; exact .fault e⟩
  | ok a u =>
    rw [Act.bind_ok hr] at h; rw [hr] at h1
    exact hf a u hr (hv.trans h1) h

theorem Did.goNext {i : Instr} {s u t : State} (hu : Effects d s u) (hi : i ≠ .gwLend)
    (h : settled (goNext s.gpc.toNat u) = t) : Did d i s t := by
  have hp : u.params = s.params := by rw [hu.frame]
  rw [goNext_run, hp] at h
  split at h
  · exact ⟨u, hu, by rw [← h]; exact .fault _⟩
  · exact ⟨u, hu, by rw [← h]; exact .next (by omega) hi⟩

theorem jumpOk_spec {s : State} {g t : Nat} (h : s.jumpOk g t = true) :
    g < t ∧ t < s.params.gtSteps ∧ ∀ f, s.ls.head? = some f → t ≤ f.stop.toNat := by
  unfold State.jumpOk at h
  simp only [Bool.and_eq_true, decide_eq_true_eq] at h
  refine ⟨h.1.1, h.1.2, fun f hf => ?_⟩
  have h2 := h.2
  cases hl : s.ls with
  | nil => simp [hl] at hf
  | cons f' o => rw [hl] at h2 hf; simp at hf h2; subst hf; exact h2

theorem Did.goJump {i : Instr} {s u t : State} {n : Nat} (hu : Effects d s u)
    (h : settled (goJump s.gpc.toNat n u) = t) : Did d i s t := by
  have hp : u.params = s.params := by rw [hu.frame]
  have hl : u.ls = s.ls := by rw [hu.frame]
  rw [goJump_run] at h
  split at h
  · next hj =>
    obtain ⟨h1, h2, h3⟩ := jumpOk_spec hj
    rw [hp] at h2; rw [hl] at h3
    exact ⟨u, hu, by rw [← h]; exact .jump n h1 h2 h3⟩
  · exact ⟨u, hu, by rw [← h]; exact .fault _⟩

/-- The structural checks of a LIST read the state and change nothing; when they pass, `listAt` holds but for the
count slot (R193). -/
theorem listChecks_run (s : State) (g : Nat) (max body elem stride : Half) :
    (∃ e, listChecks g max body elem stride s = .error e s) ∨
      (listChecks g max body elem stride s = .ok () s ∧ g + body.toNat < s.params.gtSteps ∧
        Decode.topByte (s.gtWord (g + body.toNat)) = 0x07#8 ∧
        (∀ f, s.ls.head? = some f → g + body.toNat < f.stop.toNat) ∧
        (0 < max.toNat → s.base.toNat + elem.toNat + max.toNat * stride.toNat ≤ s.params.docSlots) ∧
        s.ls.length ≠ s.params.loopDepth) := by
  simp only [listChecks, bind_current, bind_raiseIf, raiseIf_run]
  split
  · exact .inl ⟨_, rfl⟩
  · next h1 =>
    split
    · exact .inl ⟨_, rfl⟩
    · next h2 =>
      split
      · exact .inl ⟨_, rfl⟩
      · next h3 =>
        split
        · exact .inl ⟨_, rfl⟩
        · next h4 =>
          split
          · exact .inl ⟨_, rfl⟩
          · next h5 =>
            refine .inr ⟨rfl, by simpa using h1, by simpa using h2, fun f hf => ?_, ?_, by simpa using h5⟩
            · rw [hf] at h3; simpa using h3
            · intro hm
              simp only [Bool.and_eq_true, decide_eq_true_eq, not_and] at h4
              have := h4 hm; omega

/-- A count that was moved is at most the maximum (R193, R226). -/
theorem countField_le {m : LenMode} {max a n : Nat} {u v : State} (h : countField m max a d u = .ok n v) :
    n ≤ max := by
  cases d
  · simp only [countField, bind_readDoc, bind_raiseIf, decide_eq_true_eq] at h
    split at h
    · cases h
    · obtain ⟨_, _, _, h⟩ := Act.bind_eq_ok h
      simp only [Act.pure_run] at h; cases h; omega
  · obtain ⟨k, w, _, h⟩ := Act.bind_eq_ok h
    simp only [bind_raiseIf, decide_eq_true_eq] at h
    split at h
    · cases h
    · simp only [bind_writeDoc, Act.pure_run] at h; cases h; omega

theorem Did.listRule {m : LenMode} {i : Instr} {off max body elem stride : Half} {s t : State}
    (hi : i = .gwListN off max body elem stride ∨ i = .gwListV off max body elem stride)
    (h : settled (listRule m off max body elem stride d s.gpc.toNat s) = t) : Did d i s t := by
  rw [Machine.listRule, bind_slot] at h
  split at h
  · exact ⟨s, .refl, by rw [← h]; exact .fault _⟩
  · next hs =>
    rcases listChecks_run s s.gpc.toNat max body elem stride with ⟨e, he⟩ | ⟨hc, h1, h2, h3, h4, h5⟩
    · rw [Act.bind_error he] at h; exact ⟨s, .refl, by rw [← h]; exact .fault _⟩
    · rw [Act.bind_ok hc] at h
      refine Did.bind .refl h (Act.does_countField _ _ _) fun n u hn hu h => ?_
      split at h
      · exact Did.goJump hu h
      · refine ⟨u, hu, ?_⟩
        rw [← h]
        exact .enter off max body elem stride n hi ⟨by omega, h1, h2, h3, h4, h5⟩ (by omega) (countField_le hn)

theorem Did.stringRule {m : LenMode} {i : Instr} {off cap : Half} {chw : Nat} {s t : State} (hi : i ≠ .gwLend)
    (h : settled (stringRule m off cap chw d s.gpc.toNat s) = t) : Did d i s t :=
  Did.bind .refl h (Act.does_slot _ _) fun _ _ _ hu h =>
    Did.bind hu h (Act.does_countField _ _ _) fun _ _ _ hu h =>
      Did.bind hu h (Act.does_charsField _ _ _) fun _ _ _ hu h => Did.goNext hu hi h

/-- A field between its slot check and `Next` (R221, R222, R224). -/
theorem Did.field {i : Instr} {off : Half} {f : Nat → Act Unit} {s t : State} (hi : i ≠ .gwLend)
    (hf : ∀ a, Act.does d (f a))
    (h : settled ((do let a ← slot off 0; f a; Machine.goNext s.gpc.toNat) s) = t) : Did d i s t :=
  Did.bind .refl h (Act.does_slot _ _) fun _ _ _ hu h =>
    Did.bind hu h (hf _) fun _ _ _ hu h => Did.goNext hu hi h

/-- One more alternative was read: its word is an ALT inside GT and its flag slot exists (R191). -/
theorem readAlts_succ {g n : Nat} {s u : State} {l : List Alt} (h : readAlts g (n + 1) s = .ok l u) :
    ∃ off target rest, g < s.params.gtSteps ∧ decodeDescriptor (s.gtWord g) = .ok (.gwAlt off target) ∧
      s.base.toNat + off.toNat < s.params.docSlots ∧ readAlts (g + 1) n s = .ok rest u ∧
      l = ⟨s.base.toNat + off.toNat, target⟩ :: rest := by
  simp only [readAlts, bind_current, bind_raiseIf, decide_eq_true_eq] at h
  split at h
  · cases h
  · next hg =>
    cases hw : decodeDescriptor (s.gtWord g) with
    | error e => rw [hw] at h; cases h
    | ok i =>
      rw [hw] at h
      cases i
      case gwAlt off target =>
        simp only [bind_slot] at h
        split at h
        · cases h
        · next ha =>
          obtain ⟨rest, v, h1, h2⟩ := Act.bind_eq_ok h
          cases h2
          exact ⟨off, target, rest, by omega, rfl, by omega, h1, rfl⟩
      all_goals cases h

/-- The alternatives a CHOICE read leave the state as it was. -/
theorem readAlts_state {g n : Nat} {s u : State} {l : List Alt} (h : readAlts g n s = .ok l u) : u = s := by
  induction n generalizing g l u with
  | zero => cases h; rfl
  | succ n ih =>
    obtain ⟨_, _, _, _, _, _, h, _⟩ := readAlts_succ h
    exact ih h

/-- The selected alternative is one of those read (R191). -/
theorem selectAlt_mem {alts : List Alt} {w : Nat} {x : Alt} {u v : State} (h : selectAlt alts w d u = .ok x v) :
    x ∈ alts := by
  cases d
  · simp only [selectAlt, bind_current, bind_raiseIf] at h
    split at h
    · cases h
    · rcases hf : u.flagged alts with _ | ⟨⟨y, k⟩, _ | ⟨z, r⟩⟩
      · rw [hf] at h; cases h
      · rw [hf] at h
        obtain ⟨_, _, _, h⟩ := Act.bind_eq_ok h
        have hm : (y, k) ∈ u.flagged alts := by rw [hf]; simp
        have hy := (List.mem_zipIdx (List.mem_filter.1 hm).1).2.2
        cases h
        rw [hy]; exact List.getElem_mem _
      · rw [hf] at h; cases h
  · obtain ⟨k, w', _, h⟩ := Act.bind_eq_ok h
    cases hy : alts[k]? with
    | none => rw [hy] at h; cases h
    | some y => rw [hy] at h; cases h; exact List.mem_of_getElem? hy

/-- What a descriptor can do: its accesses and its last move (R182, R186, R189). -/
theorem exec_did {i : Instr} {s t : State} (hi : i.isCommand = false) (hd : s.run = some d)
    (h : exec i s = .next t) : Did d i s t := by
  cases i
  case gwEnd =>
    rw [exec, execGwEnd, descriptor_run s _ d hd] at h
    have h := Host.Outcome.next.inj h
    simp only [bind_current, bind_raiseIf] at h
    split at h
    · exact ⟨s, .refl, by rw [← h]; exact .fault _⟩
    · next hl => exact ⟨s, .refl, by rw [← h]; exact .done (by simpa using hl) rfl⟩
  case gwFail code =>
    rw [exec, execGwFail, descriptor_run s _ d hd] at h
    have h := Host.Outcome.next.inj h
    exact ⟨s, .refl, by rw [← h]; exact .fault _⟩
  case gwPres off skip =>
    rw [exec, execGwPres, descriptor_run s _ d hd] at h
    have h := Host.Outcome.next.inj h
    refine Did.bind .refl h (Act.does_slot _ _) fun _ _ _ hu h =>
      Did.bind hu h (Act.does_presBit _) fun _ _ _ hu h => ?_
    split at h
    · exact Did.goNext hu (by simp) h
    · exact Did.goJump hu h
  case gwChoice nalt =>
    rw [exec, execGwChoice, descriptor_run s _ d hd] at h
    have h := Host.Outcome.next.inj h
    refine Did.bind .refl h (Act.does_readAlts _ _) fun alts u ha hu h => ?_
    have hus := readAlts_state ha
    subst hus
    simp only [bind_current, bind_raiseIf] at h
    split at h
    · exact ⟨_, .refl, by rw [← h]; exact .fault _⟩
    · next hj =>
      refine Did.bind .refl h (Act.does_selectAlt _ _) fun x v hx hv h => ?_
      have hx := selectAlt_mem hx
      simp only [List.any_eq_true, Bool.not_eq_true', not_exists, not_and, Bool.not_eq_false] at hj
      obtain ⟨h1, h2, h3⟩ := jumpOk_spec (hj x hx)
      exact ⟨v, hv, by rw [← h]; exact .jump _ (by omega) h2 h3⟩
  case gwAlt off target =>
    rw [exec, execGwAlt, descriptor_run s _ d hd] at h
    have h := Host.Outcome.next.inj h
    exact ⟨s, .refl, by rw [← h]; exact .fault _⟩
  case gwListN off max body elem stride =>
    rw [exec, execGwListN, descriptor_run s _ d hd] at h
    have h := Host.Outcome.next.inj h
    exact Did.listRule (.inl rfl) h
  case gwListV off max body elem stride =>
    rw [exec, execGwListV, descriptor_run s _ d hd] at h
    have h := Host.Outcome.next.inj h
    exact Did.listRule (.inr rfl) h
  case gwLend =>
    rw [exec, execGwLend, descriptor_run s _ d hd] at h
    have h := Host.Outcome.next.inj h
    rw [bind_current] at h
    cases hl : s.ls with
    | nil => rw [hl] at h; exact ⟨s, .refl, by rw [← h]; exact .fault _⟩
    | cons f outer =>
      simp only [hl, bind_raiseIf] at h
      split at h
      · exact ⟨s, .refl, by rw [← h]; exact .fault _⟩
      · next hs =>
        have hs : f.stop.toNat = s.gpc.toNat := by simpa using hs
        split at h
        · exact ⟨s, .refl, by rw [← h]; exact .element f outer hl hs (by omega)⟩
        · rw [bind_effect, goNext_run] at h
          split at h
          · exact ⟨s, .refl, by rw [← h]; exact .leaveFault f outer hl hs (by omega)⟩
          · next hg => exact ⟨s, .refl, by rw [← h]; exact .leave f outer hl hs (by omega) (by simpa using hg)⟩
  case gwEnum off n =>
    rw [exec, execGwEnum, descriptor_run s _ d hd] at h
    have h := Host.Outcome.next.inj h
    exact Did.field (by simp) (fun _ => Act.does_enumField _ _) h
  case gwNbit off min max =>
    rw [exec, execGwNbit, descriptor_run s _ d hd] at h
    have h := Host.Outcome.next.inj h
    exact Did.field (by simp) (fun _ => Act.does_nbitField _ _ _) h
  case gwVaruint off vb =>
    rw [exec, execGwVaruint, descriptor_run s _ d hd] at h
    have h := Host.Outcome.next.inj h
    exact Did.field (by simp) (fun _ => Act.does_varuintField _ _) h
  case gwStringN off cap chw =>
    rw [exec, execGwStringN, descriptor_run s _ d hd] at h
    have h := Host.Outcome.next.inj h
    exact Did.stringRule (by simp) h
  case gwStringV off cap chw =>
    rw [exec, execGwStringV, descriptor_run s _ d hd] at h
    have h := Host.Outcome.next.inj h
    exact Did.stringRule (by simp) h
  case gwBytesN off cap =>
    rw [exec, execGwBytesN, descriptor_run s _ d hd] at h
    have h := Host.Outcome.next.inj h
    exact Did.stringRule (by simp) h
  case gwBytesV off cap =>
    rw [exec, execGwBytesV, descriptor_run s _ d hd] at h
    have h := Host.Outcome.next.inj h
    exact Did.stringRule (by simp) h
  all_goals simp [Instr.isCommand] at hi

end Sys2Proof.Machine
end

