-- ==== Sys2Proof/Laws/Encoding.lean ====
section
/-! SUPPORT. The fields of the words the encoder writes, and a word from its fields: no proof about encodings
unfolds a concatenation. -/

namespace Sys2Proof.Decode

/-- The low part of a concatenation. -/
theorem field_low {v w start len : Nat} (x : BitVec v) (y : BitVec w) (h : start + len ≤ w) :
    (x ++ y).extractLsb' start len = y.extractLsb' start len := BitVec.extractLsb'_append_eq_of_add_le h

/-- The high part of a concatenation. -/
theorem field_high {v w start len : Nat} (x : BitVec v) (y : BitVec w) (h : w ≤ start) :
    (x ++ y).extractLsb' start len = x.extractLsb' (start - w) len := BitVec.extractLsb'_append_eq_of_le h

@[simp] theorem topByte_cmdWord (o : Byte) (a0 a1 a2 : Word) : topByte (cmdWord o a0 a1 a2) = o := by
  rw [topByte, cmdWord, field_high _ _ (by decide)]
  exact BitVec.extractLsb'_eq_self
@[simp] theorem reserved_cmdWord (o : Byte) (a0 a1 a2 : Word) : reserved (cmdWord o a0 a1 a2) = 0#24 := by
  rw [reserved, cmdWord, field_low _ _ (by decide), field_high _ _ (by decide)]
  exact BitVec.extractLsb'_eq_self
@[simp] theorem arg2_cmdWord (o : Byte) (a0 a1 a2 : Word) : arg2 (cmdWord o a0 a1 a2) = a2 := by
  rw [arg2, cmdWord, field_low _ _ (by decide), field_low _ _ (by decide), field_high _ _ (by decide)]
  exact BitVec.extractLsb'_eq_self
@[simp] theorem arg1_cmdWord (o : Byte) (a0 a1 a2 : Word) : arg1 (cmdWord o a0 a1 a2) = a1 := by
  rw [arg1, cmdWord, field_low _ _ (by decide), field_low _ _ (by decide), field_low _ _ (by decide), field_high _ _ (by decide)]
  exact BitVec.extractLsb'_eq_self
@[simp] theorem arg0_cmdWord (o : Byte) (a0 a1 a2 : Word) : arg0 (cmdWord o a0 a1 a2) = a0 := by
  rw [arg0, cmdWord, field_low _ _ (by decide), field_low _ _ (by decide), field_low _ _ (by decide), field_low _ _ (by decide)]
  exact BitVec.extractLsb'_eq_self

@[simp] theorem topByte_gwWord (kind : Byte) (mode : BitVec 4) (cw : Byte) (o a b c d : Half) :
    topByte (gwWord kind mode cw o a b c d) = kind := by
  rw [topByte, gwWord, field_high _ _ (by decide)]
  exact BitVec.extractLsb'_eq_self
@[simp] theorem lm_gwWord (kind : Byte) (mode : BitVec 4) (cw : Byte) (o a b c d : Half) :
    lm (gwWord kind mode cw o a b c d) = mode := by
  rw [lm, gwWord, field_low _ _ (by decide), field_high _ _ (by decide)]
  exact BitVec.extractLsb'_eq_self
@[simp] theorem reservedHigh_gwWord (kind : Byte) (mode : BitVec 4) (cw : Byte) (o a b c d : Half) :
    reservedHigh (gwWord kind mode cw o a b c d) = 0#4 := by
  rw [reservedHigh, gwWord, field_low _ _ (by decide), field_low _ _ (by decide), field_high _ _ (by decide)]
  exact BitVec.extractLsb'_eq_self
@[simp] theorem chw_gwWord (kind : Byte) (mode : BitVec 4) (cw : Byte) (o a b c d : Half) :
    chw (gwWord kind mode cw o a b c d) = cw := by
  rw [chw, gwWord]
  rw [field_low _ _ (by decide), field_low _ _ (by decide), field_low _ _ (by decide)]
  rw [field_high _ _ (by decide)]
  exact BitVec.extractLsb'_eq_self
@[simp] theorem reservedMid_gwWord (kind : Byte) (mode : BitVec 4) (cw : Byte) (o a b c d : Half) :
    reservedMid (gwWord kind mode cw o a b c d) = 0#8 := by
  rw [reservedMid, gwWord]
  rw [field_low _ _ (by decide), field_low _ _ (by decide), field_low _ _ (by decide)]
  rw [field_low _ _ (by decide), field_high _ _ (by decide)]
  exact BitVec.extractLsb'_eq_self
@[simp] theorem off_gwWord (kind : Byte) (mode : BitVec 4) (cw : Byte) (o a b c d : Half) :
    off (gwWord kind mode cw o a b c d) = o := by
  rw [off, gwWord]
  rw [field_low _ _ (by decide), field_low _ _ (by decide), field_low _ _ (by decide)]
  rw [field_low _ _ (by decide), field_low _ _ (by decide), field_high _ _ (by decide)]
  exact BitVec.extractLsb'_eq_self
@[simp] theorem fieldA_gwWord (kind : Byte) (mode : BitVec 4) (cw : Byte) (o a b c d : Half) :
    fieldA (gwWord kind mode cw o a b c d) = a := by
  rw [fieldA, gwWord]
  rw [field_low _ _ (by decide), field_low _ _ (by decide), field_low _ _ (by decide)]
  rw [field_low _ _ (by decide), field_low _ _ (by decide), field_low _ _ (by decide)]
  rw [field_high _ _ (by decide)]
  exact BitVec.extractLsb'_eq_self
@[simp] theorem fieldB_gwWord (kind : Byte) (mode : BitVec 4) (cw : Byte) (o a b c d : Half) :
    fieldB (gwWord kind mode cw o a b c d) = b := by
  rw [fieldB, gwWord]
  rw [field_low _ _ (by decide), field_low _ _ (by decide), field_low _ _ (by decide)]
  rw [field_low _ _ (by decide), field_low _ _ (by decide), field_low _ _ (by decide)]
  rw [field_low _ _ (by decide), field_high _ _ (by decide)]
  exact BitVec.extractLsb'_eq_self
@[simp] theorem fieldC_gwWord (kind : Byte) (mode : BitVec 4) (cw : Byte) (o a b c d : Half) :
    fieldC (gwWord kind mode cw o a b c d) = c := by
  rw [fieldC, gwWord]
  rw [field_low _ _ (by decide), field_low _ _ (by decide), field_low _ _ (by decide)]
  rw [field_low _ _ (by decide), field_low _ _ (by decide), field_low _ _ (by decide)]
  rw [field_low _ _ (by decide), field_low _ _ (by decide), field_high _ _ (by decide)]
  exact BitVec.extractLsb'_eq_self
@[simp] theorem fieldD_gwWord (kind : Byte) (mode : BitVec 4) (cw : Byte) (o a b c d : Half) :
    fieldD (gwWord kind mode cw o a b c d) = d := by
  rw [fieldD, gwWord]
  rw [field_low _ _ (by decide), field_low _ _ (by decide), field_low _ _ (by decide)]
  rw [field_low _ _ (by decide), field_low _ _ (by decide), field_low _ _ (by decide)]
  rw [field_low _ _ (by decide), field_low _ _ (by decide), field_low _ _ (by decide)]
  rw [field_high _ _ (by decide)]
  exact BitVec.extractLsb'_eq_self
@[simp] theorem reservedLow_gwWord (kind : Byte) (mode : BitVec 4) (cw : Byte) (o a b c d : Half) :
    reservedLow (gwWord kind mode cw o a b c d) = 0#16 := by
  rw [reservedLow, gwWord]
  rw [field_low _ _ (by decide), field_low _ _ (by decide), field_low _ _ (by decide)]
  rw [field_low _ _ (by decide), field_low _ _ (by decide), field_low _ _ (by decide)]
  rw [field_low _ _ (by decide), field_low _ _ (by decide), field_low _ _ (by decide)]
  rw [field_low _ _ (by decide)]
  exact BitVec.extractLsb'_eq_self

theorem join {w start₁ len₁ len₂ : Nat} (x : BitVec w) (start₂ : Nat) (h : start₂ = start₁ + len₁) :
    x.extractLsb' start₂ len₂ ++ x.extractLsb' start₁ len₁ = x.extractLsb' start₁ (len₂ + len₁) :=
  BitVec.extractLsb'_append_extractLsb'_eq_extractLsb' h

/-- A command word with its reserved bits 0 is the word of its fields (R90). -/
theorem cmdWord_fields (w : Wide) (h : reserved w = 0) : cmdWord (topByte w) (arg0 w) (arg1 w) (arg2 w) = w := by
  rw [cmdWord, show (0#24) = w.extractLsb' 96 24 from h.symm]
  simp only [topByte, arg0, arg1, arg2]
  rw [join w 32 rfl, join w 64 rfl, join w 96 rfl, join w 120 rfl]
  exact BitVec.extractLsb'_eq_self

/-- A descriptor word with its reserved bits 0 is the word of its fields (R100). -/
theorem gwWord_fields (w : Wide) (h1 : reservedHigh w = 0) (h2 : reservedMid w = 0) (h3 : reservedLow w = 0) :
    gwWord (topByte w) (lm w) (chw w) (off w) (fieldA w) (fieldB w) (fieldC w) (fieldD w) = w := by
  rw [gwWord, show (0#16) = w.extractLsb' 0 16 from h3.symm, show (0#8) = w.extractLsb' 96 8 from h2.symm,
    show (0#4) = w.extractLsb' 112 4 from h1.symm]
  simp only [topByte, lm, chw, off, fieldA, fieldB, fieldC, fieldD]
  rw [join w 16 rfl, join w 32 rfl, join w 48 rfl, join w 64 rfl, join w 80 rfl, join w 96 rfl, join w 104 rfl,
    join w 112 rfl, join w 116 rfl, join w 120 rfl]
  exact BitVec.extractLsb'_eq_self

/-- A check of the decoder passed: its condition holds and what follows it gave the answer. -/
theorem require_eq_ok {c : Bool} {why : Reject} {k : Except Reject Instr} {i : Instr} :
    require c why k = .ok i ↔ c = true ∧ k = .ok i := by
  cases c <;> simp [require]

end Sys2Proof.Decode
end

