-- ==== Sys2Proof/Laws/PerInstr.lean ====
section
/-! SUPPORT. The statements made per instruction: one family, one lemma per constructor. -/

namespace Sys2Proof.Laws.OpcodeByte

/-- The byte of the opcode maps R91 (commands) and R101 (descriptors). -/
def mapByte : Instr → Byte
  | .bsInit _ _ _ => 0x01
  | .bsWriteBits _ _ => 0x02
  | .bsReadBits _ => 0x03
  | .bsGetLength => 0x04
  | .bsSetLimit _ => 0x05
  | .frWriteHeader _ _ => 0x10
  | .frReadHeader _ => 0x11
  | .cdEncode _ => 0x20
  | .cdDecode _ => 0x21
  | .gwEnd => 0x01
  | .gwFail _ => 0x02
  | .gwPres _ _ => 0x03
  | .gwChoice _ => 0x04
  | .gwAlt _ _ => 0x05
  | .gwListN _ _ _ _ _ => 0x06
  | .gwListV _ _ _ _ _ => 0x06
  | .gwLend => 0x07
  | .gwEnum _ _ => 0x10
  | .gwNbit _ _ _ => 0x11
  | .gwVaruint _ _ => 0x12
  | .gwStringN _ _ _ => 0x13
  | .gwStringV _ _ _ => 0x13
  | .gwBytesN _ _ => 0x14
  | .gwBytesV _ _ => 0x14

/-- The encoder puts the map's byte into bits 127:120 (R90 `OPC`, R100 `KIND`). -/
def Statement (i : Instr) : Prop :=
  Decode.topByte (encode i) = mapByte i

theorem bsInit (cap start ext : Word) : Statement (.bsInit cap start ext) :=
  Decode.topByte_cmdWord _ _ _ _
theorem bsWriteBits (value width : Word) : Statement (.bsWriteBits value width) :=
  Decode.topByte_cmdWord _ _ _ _
theorem bsReadBits (width : Word) : Statement (.bsReadBits width) :=
  Decode.topByte_cmdWord _ _ _ _
theorem bsGetLength : Statement (.bsGetLength) :=
  Decode.topByte_cmdWord _ _ _ _
theorem bsSetLimit (bytes : Word) : Statement (.bsSetLimit bytes) :=
  Decode.topByte_cmdWord _ _ _ _
theorem frWriteHeader (length : Word) (tag : Half) : Statement (.frWriteHeader length tag) :=
  Decode.topByte_cmdWord _ _ _ _
theorem frReadHeader (tag : Half) : Statement (.frReadHeader tag) :=
  Decode.topByte_cmdWord _ _ _ _
theorem cdEncode (entry : Half) : Statement (.cdEncode entry) :=
  Decode.topByte_cmdWord _ _ _ _
theorem cdDecode (entry : Half) : Statement (.cdDecode entry) :=
  Decode.topByte_cmdWord _ _ _ _
theorem gwEnd : Statement (.gwEnd) :=
  Decode.topByte_gwWord _ _ _ _ _ _ _ _
theorem gwFail (code : FaultKind) : Statement (.gwFail code) :=
  Decode.topByte_gwWord _ _ _ _ _ _ _ _
theorem gwPres (off skip : Half) : Statement (.gwPres off skip) :=
  Decode.topByte_gwWord _ _ _ _ _ _ _ _
theorem gwChoice (nalt : Half) : Statement (.gwChoice nalt) :=
  Decode.topByte_gwWord _ _ _ _ _ _ _ _
theorem gwAlt (off target : Half) : Statement (.gwAlt off target) :=
  Decode.topByte_gwWord _ _ _ _ _ _ _ _
theorem gwListN (off max body elem stride : Half) : Statement (.gwListN off max body elem stride) :=
  Decode.topByte_gwWord _ _ _ _ _ _ _ _
theorem gwListV (off max body elem stride : Half) : Statement (.gwListV off max body elem stride) :=
  Decode.topByte_gwWord _ _ _ _ _ _ _ _
theorem gwLend : Statement (.gwLend) :=
  Decode.topByte_gwWord _ _ _ _ _ _ _ _
theorem gwEnum (off n : Half) : Statement (.gwEnum off n) :=
  Decode.topByte_gwWord _ _ _ _ _ _ _ _
theorem gwNbit (off min max : Half) : Statement (.gwNbit off min max) :=
  Decode.topByte_gwWord _ _ _ _ _ _ _ _
theorem gwVaruint (off vb : Half) : Statement (.gwVaruint off vb) :=
  Decode.topByte_gwWord _ _ _ _ _ _ _ _
theorem gwStringN (off cap : Half) (chw : Byte) : Statement (.gwStringN off cap chw) :=
  Decode.topByte_gwWord _ _ _ _ _ _ _ _
theorem gwStringV (off cap : Half) (chw : Byte) : Statement (.gwStringV off cap chw) :=
  Decode.topByte_gwWord _ _ _ _ _ _ _ _
theorem gwBytesN (off cap : Half) : Statement (.gwBytesN off cap) :=
  Decode.topByte_gwWord _ _ _ _ _ _ _ _
theorem gwBytesV (off cap : Half) : Statement (.gwBytesV off cap) :=
  Decode.topByte_gwWord _ _ _ _ _ _ _ _

end Sys2Proof.Laws.OpcodeByte
end

