-- ==== Sys2Proof/Laws/Step.lean ====
section
/-! SUPPORT. Everything one step can do, said once, and everything a command can do. -/

namespace Sys2Proof.Machine

variable {s t : State}

/-- What a step can be: the reset event, a step of the codec run, or, with no run, nothing to do, a command, or
another operation of the host. -/
theorem step_cases (h : step s = .next t) :
    (∃ rest, s.inbox = .reset :: rest ∧ t = (s.served rest).resetEvent) ∨
      (s.noReset ∧ (∃ d, s.run = some d) ∧ stepRun s = .next t) ∨
      (s.noReset ∧ s.run = none ∧
        ((s.inbox = [] ∧ t = s) ∨
          (∃ w rest, s.inbox = .command w :: rest ∧ stepCommand w (s.served rest) = .next t) ∨
          ∃ op rest, s.inbox = op :: rest ∧ (∀ w, op ≠ .command w) ∧ op ≠ .reset ∧
            t = (s.served rest).portOp op)) := by
  unfold step at h
  cases hi : s.inbox with
  | nil =>
    cases hr : s.run with
    | none => rw [hi, hr] at h; exact .inr (.inr ⟨by simp [State.noReset, hi], rfl, .inl ⟨rfl, by cases h; rfl⟩⟩)
    | some d => rw [hi, hr] at h; exact .inr (.inl ⟨by simp [State.noReset, hi], ⟨d, rfl⟩, h⟩)
  | cons op rest =>
    by_cases ho : op = .reset
    · subst ho; rw [hi] at h; exact .inl ⟨rest, rfl, by cases h; rfl⟩
    · have hn : s.noReset := by simpa [State.noReset, hi] using ho
      cases hr : s.run with
      | some d =>
        refine .inr (.inl ⟨hn, ⟨d, rfl⟩, ?_⟩)
        rw [hi, hr] at h; cases op <;> first | exact h | exact absurd rfl ho
      | none =>
        refine .inr (.inr ⟨hn, rfl, .inr ?_⟩)
        rw [hi, hr] at h
        by_cases hw : ∃ w, op = .command w
        · obtain ⟨w, rfl⟩ := hw; exact .inl ⟨w, rest, rfl, h⟩
        · refine .inr ⟨op, rest, rfl, fun w hw' => hw ⟨w, hw'⟩, ho, ?_⟩
          cases op <;> first | (cases h; rfl) | exact absurd ⟨_, rfl⟩ hw

/-- What a step of a run can be: a fault of the fetch, or the fetched descriptor's rule. -/
theorem stepRun_cases (h : stepRun s = .next t) :
    (∃ e, s.fetch = .error e ∧ t = s.takeFault e) ∨ ∃ i, s.fetch = .ok i ∧ exec i s = .next t := by
  unfold stepRun at h
  cases hf : s.fetch with
  | error e => rw [hf] at h; exact .inl ⟨e, rfl, by cases h; rfl⟩
  | ok i => rw [hf] at h; exact .inr ⟨i, rfl, h⟩

/-- What a fetch that answers an instruction has checked (R182). -/
theorem fetch_eq_ok {i : Instr} (h : s.fetch = .ok i) :
    s.gpc.toNat < s.params.gtSteps ∧ decodeDescriptor (s.gtWord s.gpc.toNat) = .ok i := by
  unfold State.fetch at h
  split at h
  · cases h
  · next hg =>
    refine ⟨by omega, ?_⟩
    cases hd : decodeDescriptor (s.gtWord s.gpc.toNat) with
    | ok j => rw [hd] at h; cases h; rfl
    | error e => rw [hd] at h; cases h

/-- One effect of a command from the accepted state `s` (the fault state excluded, BS_INIT apart): what each of
the eight other commands leaves (R133 to R136, R162, R163, R180, R181). -/
inductive CommandEffect (s : State) : State → Prop where
  | write (v w : Nat) (h : s.pos.toNat + w ≤ s.cap.toNat * 8) :
      CommandEffect s ((s.putBits s.pos.toNat v w).withPos (s.pos.toNat + w)).done
  | read (w : Nat) (h : s.pos.toNat + w ≤ s.readBound) :
      CommandEffect s ((s.withPos (s.pos.toNat + w)).doneWith (s.bitsValue s.pos.toNat w))
  | length : CommandEffect s (s.doneWith ((s.pos.toNat + 7) / 8))
  | limit (bytes : Word) (h : bytes.toNat ≤ s.cap.toNat) : CommandEffect s (s.limited bytes).done
  | header (length : Word) (tag : Half) : CommandEffect s (s.putHeader length tag).done
  | payload : CommandEffect s (s.doneWith (s.memRead 4 4))
  | start (entry : Half) (d : Dir) (h : s.status.inited = true) : CommandEffect s (s.startRun entry d)

/-- What a command can do: BS_INIT's three outcomes, a refusal in the fault state, a fault with nothing else
changed, or one of the effects above. -/
theorem exec_command {i : Instr} (hi : i.isCommand = true) (h : exec i s = .next t) :
    (∃ cap start ext, i = .bsInit cap start ext ∧
      ((s.params.bufBytes < cap.toNat ∧ t = (s.leaveFault.unbound).takeFault ⟨.bufferOverflow, 1⟩) ∨
        (cap.toNat ≤ s.params.bufBytes ∧ cap.toNat * 8 < start.toNat ∧
          t = (s.leaveFault.unbound).takeFault ⟨.bufferOverflow, 2⟩) ∨
        (cap.toNat ≤ s.params.bufBytes ∧ start.toNat ≤ cap.toNat * 8 ∧
          t = (s.leaveFault.bound cap start ext).done))) ∨
      (s.status.fault = true ∧ t = s.refuse) ∨
      (s.status.fault = false ∧ ((∃ e, t = s.takeFault e) ∨ CommandEffect s t)) := by
  have key : ∀ needs body, command needs body s = t →
      (∀ u, body s = .ok () u → (needs = true → s.status.inited = true) → CommandEffect s u) →
      (∀ e u, body s = .error e u → u = s) →
      (s.status.fault = true ∧ t = s.refuse) ∨
        (s.status.fault = false ∧ ((∃ e, t = s.takeFault e) ∨ CommandEffect s t)) := by
    intro needs body hc hok herr
    cases hf : s.status.fault with
    | true => exact .inl ⟨rfl, by rw [← hc, command_refused s _ _ hf]⟩
    | false =>
      refine .inr ⟨rfl, ?_⟩
      by_cases hn : needs = true → s.status.inited = true
      · rw [command_run s needs body hf hn] at hc
        cases hb : body s with
        | ok a u => rw [hb] at hc; exact .inr (by rw [← hc]; exact hok u hb hn)
        | error e u => rw [hb] at hc; exact .inl ⟨e, by rw [← hc, ← herr e u hb]; rfl⟩
      · simp only [Classical.not_imp, Bool.not_eq_true] at hn
        obtain ⟨hn, hi⟩ := hn
        subst hn
        exact .inl ⟨_, by rw [← hc, command_uninited s _ hf hi]⟩
  cases i
  case bsInit cap start ext =>
    refine .inl ⟨cap, start, ext, rfl, ?_⟩
    have h' : settled (bsInit cap start ext s) = t := by cases h; rfl
    simp only [bsInit, bind_effect, bind_current, bind_rejectInit, decide_eq_true_eq] at h'
    by_cases h1 : s.params.bufBytes < cap.toNat
    · rw [if_pos (by exact h1)] at h'; exact .inl ⟨h1, h'.symm⟩
    · rw [if_neg (by exact h1)] at h'
      by_cases h2 : cap.toNat * 8 < start.toNat
      · rw [if_pos h2] at h'; exact .inr (.inl ⟨by omega, h2, h'.symm⟩)
      · rw [if_neg h2] at h'; exact .inr (.inr ⟨by omega, by omega, h'.symm⟩)
  case bsWriteBits value width =>
    refine .inr (key true _ (Host.Outcome.next.inj h) (fun u hu _ => ?_) fun e u hu => ?_)
    · rw [bind_writeBits] at hu
      split at hu
      · cases hu
      · next hc => cases hu; exact .write _ _ (by omega)
    · rw [bind_writeBits] at hu
      split at hu
      · cases hu; rfl
      · cases hu
  case bsReadBits width =>
    refine .inr (key true _ (Host.Outcome.next.inj h) (fun u hu _ => ?_) fun e u hu => ?_)
    · rw [bind_readBits] at hu
      split at hu
      · cases hu
      · next hc => cases hu; exact .read _ (by omega)
    · rw [bind_readBits] at hu
      split at hu
      · cases hu; rfl
      · cases hu
  case bsGetLength =>
    refine .inr (key true _ (Host.Outcome.next.inj h) (fun u hu _ => ?_) fun e u hu => ?_)
    · cases hu; exact .length
    · cases hu
  case bsSetLimit bytes =>
    refine .inr (key true _ (Host.Outcome.next.inj h) (fun u hu _ => ?_) fun e u hu => ?_)
    · rw [bind_current, bind_raiseIf] at hu
      split at hu
      · cases hu
      · next hc => cases hu; exact .limit _ (by simpa using hc)
    · rw [bind_current, bind_raiseIf] at hu
      split at hu
      · cases hu; rfl
      · cases hu
  case frWriteHeader length tag =>
    refine .inr (key false _ (Host.Outcome.next.inj h) (fun u hu _ => ?_) fun e u hu => ?_)
    · cases hu; exact .header _ _
    · cases hu
  case frReadHeader tag =>
    refine .inr (key false _ (Host.Outcome.next.inj h) (fun u hu _ => ?_) fun e u hu => ?_)
    · rw [bind_current, bind_raiseIf] at hu
      split at hu
      · cases hu
      · rw [bind_raiseIf] at hu
        split at hu
        · cases hu
        · cases hu; exact .payload
    · rw [bind_current, bind_raiseIf] at hu
      split at hu
      · cases hu; rfl
      · rw [bind_raiseIf] at hu
        split at hu
        · cases hu; rfl
        · cases hu
  case cdEncode entry =>
    refine .inr (key true _ (Host.Outcome.next.inj h) (fun u hu hn => ?_) fun e u hu => ?_)
    · cases hu; exact .start _ _ (hn rfl)
    · cases hu
  case cdDecode entry =>
    refine .inr (key true _ (Host.Outcome.next.inj h) (fun u hu hn => ?_) fun e u hu => ?_)
    · cases hu; exact .start _ _ (hn rfl)
    · cases hu
  all_goals simp [Instr.isCommand] at hi

end Sys2Proof.Machine
end

