-- ==== Sys2Proof/Laws/Stream.lean ====
section
/-! SUPPORT. What the compound stream operations of Operands do, said once each: a varuint (R223), a length prefix
(R225), a run of characters (R226) and a count (R193), with the bits they move, the slots they write and the raise
they stop at. -/

namespace Sys2Proof.Machine

/-! Encode: a chain of writes -/

/-- From `s` to `t` the next `w` bits of the stream were written, and nothing else changed but POS (R131). -/
def Wrote (s t : State) (w : Nat) : Prop :=
  t = { s with buf := t.buf, pos := BitVec.ofNat 32 (s.pos.toNat + w) } ∧ s.changedBits t s.pos.toNat w

/-- CAP lies inside a BUF that R6 allows, so no index of the stream wraps. -/
def State.capOk (s : State) : Prop := s.cap.toNat ≤ s.params.bufBytes ∧ s.params.bufBytes ≤ 2 ^ 28

theorem State.registersOk.capOk {s : State} (h : s.registersOk) : s.capOk := ⟨h.2.1, h.1.1.2⟩

theorem Wrote.refl (s : State) : Wrote s s 0 := by
  refine ⟨?_, fun _ _ => rfl, fun _ _ => rfl⟩
  simp

theorem Wrote.pos {s t : State} {w : Nat} (h : Wrote s t w) (hc : s.capOk) (hr : s.pos.toNat + w ≤ s.cap.toNat * 8) :
    t.pos.toNat = s.pos.toNat + w := by
  obtain ⟨h1, h2⟩ := hc
  rw [h.1]; simp only [BitVec.toNat_ofNat]; omega

theorem Wrote.capOk {s t : State} {w : Nat} (h : Wrote s t w) (hc : s.capOk) : t.capOk := by rw [h.1]; exact hc
theorem Wrote.params {s t : State} {w : Nat} (h : Wrote s t w) : t.params = s.params := by rw [h.1]
theorem Wrote.jumpOk {s t : State} {w : Nat} (h : Wrote s t w) (g x : Nat) : t.jumpOk g x = s.jumpOk g x := by
  rw [h.1]; rfl
theorem Wrote.cap {s t : State} {w : Nat} (h : Wrote s t w) : t.cap = s.cap := by rw [h.1]
theorem Wrote.docSlot {s t : State} {w : Nat} (h : Wrote s t w) (a : Nat) : t.docSlot a = s.docSlot a := by
  rw [h.1]; rfl

/-- A step of a descriptor that has written `w` bits, GPC where it was. -/
theorem Wrote.encoded {s t : State} {w : Nat} (h : Wrote s t w) : s.encoded t w s.gpc.toNat := by
  refine ⟨?_, h.2⟩
  rw [BitVec.ofNat_toNat, BitVec.setWidth_eq]; exact h.1

/-- A step of a descriptor that has written `w` bits and goes on at `g`. -/
theorem Wrote.encoded_withGpc {s t : State} {w : Nat} (h : Wrote s t w) (g : Nat) : s.encoded (t.withGpc g) w g := by
  refine ⟨?_, fun q hq => ?_, fun a ha => ?_⟩
  · simp only [State.withGpc_buf]; conv_lhs => rw [h.1]
    rfl
  · rw [State.withGpc_bufBit]; exact h.2.1 q hq
  · rw [State.withGpc_bufByte]; exact h.2.2 a ha

/-- Writes add up. -/
theorem Wrote.trans {s t u : State} {w x : Nat} (h : Wrote s t w) (k : Wrote t u x) (hc : s.capOk)
    (hr : s.pos.toNat + w ≤ s.cap.toNat * 8) : Wrote s u (w + x) := by
  have hp := h.pos hc hr
  refine ⟨?_, fun q hq => ?_, fun a ha => ?_⟩
  · conv_lhs => rw [k.1, hp, h.1, Nat.add_assoc]
  · rw [k.2.1 q (by omega), h.2.1 q (by omega)]
  · rw [k.2.2 a (by omega), h.2.2 a (by omega)]

/-- What was written stays through the writes behind it. -/
theorem Wrote.fieldAt {t u : State} {p w v x : Nat} (k : Wrote t u x) (hp : p + w ≤ t.pos.toNat)
    (h : t.fieldAt p w v) : u.fieldAt p w v := fun i hi => by rw [k.2.1 _ (by omega)]; exact h i hi

/-- `WriteBits` with room (R131). -/
theorem writeBits_wrote (s : State) (v w : Nat) (hc : s.capOk) (hr : s.pos.toNat + w ≤ s.cap.toNat * 8) :
    ∃ t, writeBits v w s = .ok () t ∧ Wrote s t w ∧ t.fieldAt s.pos.toNat w v := by
  obtain ⟨h1, h2⟩ := hc
  have hb : s.pos.toNat + w ≤ s.params.bufBytes * 8 := by omega
  refine ⟨_, by rw [writeBits_run, if_neg (by omega)], ⟨?_, fun q hq => ?_, fun a ha => ?_⟩, fun i hi => ?_⟩
  · simp only [State.withPos]; conv_lhs => rw [State.putBits_eq]
  · rw [State.withPos_bufBit]; exact (State.changedBits_putBits s _ v w hb).1 q hq
  · rw [State.withPos_bufByte]; exact (State.changedBits_putBits s _ v w hb).2 a ha
  · rw [State.withPos_bufBit]; exact State.fieldAt_putBits s _ v w hb i hi

/-- Behind the first of two or more groups stand the groups of the rest of the value (R223). -/
theorem varuintGroups_next {v k : Nat} (h : varuintGroups v (k + 2)) :
    0 < v / 128 ∧ varuintGroups (v / 128) (k + 1) := by
  obtain ⟨_, h2, h3⟩ := h
  have h4 : 128 ^ (k + 1) ≤ v := h3.resolve_left (by omega)
  have h5 : 128 ^ k ≤ v / 128 := by
    rw [Nat.le_div_iff_mul_le (by omega), ← pow_succ]; exact h4
  exact ⟨lt_of_lt_of_le (by positivity) h5, by omega, Nat.div_lt_of_lt_mul (by rw [← pow_succ']; exact h2),
    .inr h5⟩

/-- `WriteVar` with room (R223): the groups of the shortest form. -/
theorem writeVarGroups_wrote (left : Nat) :
    ∀ (s : State) (v k : Nat), varuintGroups v k → k ≤ left → s.capOk → s.pos.toNat + 8 * k ≤ s.cap.toNat * 8 →
      ∃ t, writeVarGroups left v s = .ok () t ∧ Wrote s t (8 * k) ∧ t.varuintAt s.pos.toNat v k := by
  induction left with
  | zero => intro s v k hk hl; have := hk.1; omega
  | succ left ih =>
    intro s v k hk hl hc hr
    obtain ⟨h1, h2, h3⟩ := hk
    simp only [writeVarGroups]
    split
    · next hv =>
      obtain ⟨k, rfl⟩ : ∃ j, k = j + 2 := by
        rcases k with _ | _ | k
        · omega
        · simp only [zero_add, pow_one] at h2; have := Nat.div_eq_of_lt h2; omega
        · exact ⟨k, rfl⟩
      have hg := (varuintGroups_next ⟨h1, h2, h3⟩).2
      obtain ⟨t, ht, wt, ft⟩ := writeBits_wrote s (128 + v % 128) 8 hc (by omega)
      have hp := wt.pos hc (by omega)
      obtain ⟨u, hu, wu, fu⟩ := ih t (v / 128) (k + 1) hg (by omega) (wt.capOk hc) (by rw [hp, wt.cap]; omega)
      refine ⟨u, by rw [Act.bind_ok ht, hu], ?_, fun j hj => ?_⟩
      · rw [show 8 * (k + 2) = 8 + 8 * (k + 1) by ring]; exact wt.trans wu hc (by omega)
      · rcases j with _ | j
        · rw [if_pos (by omega), pow_zero, Nat.div_one, Nat.add_comm (v % 128)]
          exact wu.fieldAt (by omega) ft
        · have := fu j (by omega)
          rw [Nat.div_div_eq_div_mul, ← pow_succ', hp] at this
          rw [show s.pos.toNat + 8 * (j + 1) = s.pos.toNat + 8 + 8 * j by ring]
          rwa [if_congr (show j + 1 + 1 < k + 2 ↔ j + 1 < k + 1 by omega) rfl rfl]
    · next hv =>
      have hlt : v < 128 := by
        by_contra hn
        exact hv (Nat.div_pos (by omega) (by omega))
      obtain rfl : k = 1 := by
        rcases h3 with h3 | h3
        · exact h3
        · by_contra hn
          have : 128 ^ 1 ≤ 128 ^ (k - 1) := Nat.pow_le_pow_right (by omega) (by omega)
          omega
      obtain ⟨t, ht, wt, ft⟩ := writeBits_wrote s (v % 128) 8 hc (by omega)
      refine ⟨t, ht, wt, fun j hj => ?_⟩
      obtain rfl : j = 0 := by omega
      simpa using ft

/-- `WriteVar` with room for `j` groups of `k` only (R223, R189): those stand, each announcing another. -/
theorem writeVarGroups_full (j : Nat) :
    ∀ (left : Nat) (s : State) (v k : Nat), varuintGroups v k → j < k → k ≤ left → s.capOk →
      s.pos.toNat + 8 * j ≤ s.cap.toNat * 8 → s.cap.toNat * 8 < s.pos.toNat + 8 * (j + 1) →
      ∃ t, writeVarGroups left v s = .error ⟨.bufferOverflow, 3⟩ t ∧ Wrote s t (8 * j) ∧
        ∀ l < j, t.fieldAt (s.pos.toNat + 8 * l) 8 (v / 128 ^ l % 128 + 128) := by
  induction j with
  | zero =>
    intro left s v k hk hj hl hc _ hf
    obtain ⟨left, rfl⟩ : ∃ m, left = m + 1 := ⟨left - 1, by omega⟩
    refine ⟨s, ?_, Wrote.refl s, fun l h => by omega⟩
    simp only [writeVarGroups]
    split
    · rw [bind_writeBits, if_pos (by omega)]
    · rw [writeBits_run, if_pos (by omega)]
  | succ j ih =>
    intro left s v k hk hj hl hc hr hf
    obtain ⟨left, rfl⟩ : ∃ m, left = m + 1 := ⟨left - 1, by omega⟩
    obtain ⟨k, rfl⟩ : ∃ m, k = m + 2 := ⟨k - 2, by omega⟩
    obtain ⟨hv, hg⟩ := varuintGroups_next hk
    simp only [writeVarGroups]
    rw [if_pos hv]
    obtain ⟨t, ht, wt, ft⟩ := writeBits_wrote s (128 + v % 128) 8 hc (by omega)
    have hp := wt.pos hc (by omega)
    obtain ⟨u, hu, wu, fu⟩ := ih left t (v / 128) (k + 1) hg (by omega) (by omega) (wt.capOk hc)
      (by rw [hp, wt.cap]; omega) (by rw [hp, wt.cap]; omega)
    refine ⟨u, by rw [Act.bind_ok ht, hu], ?_, fun l h => ?_⟩
    · rw [show 8 * (j + 1) = 8 + 8 * j by ring]; exact wt.trans wu hc (by omega)
    · rcases l with _ | l
      · rw [pow_zero, Nat.div_one, Nat.add_comm (v % 128)]
        exact wu.fieldAt (by omega) ft
      · have := fu l (by omega)
        rw [Nat.div_div_eq_div_mul, ← pow_succ', hp] at this
        rwa [show s.pos.toNat + 8 * (l + 1) = s.pos.toNat + 8 + 8 * l by ring]

theorem groups_le_ten {v k : Nat} (h : varuintGroups v k) (hv : v < 2 ^ 64) : k ≤ 10 := by
  by_contra hn
  have h1 : 128 ^ (k - 1) ≤ v := h.2.2.resolve_left (by omega)
  have h2 : (128 : Nat) ^ 10 ≤ 128 ^ (k - 1) := Nat.pow_le_pow_right (by omega) (by omega)
  have h3 : (2 : Nat) ^ 64 ≤ 128 ^ 10 := by norm_num
  omega

/-- `WriteLen` with room (R225). -/
theorem writeLen_wrote (s : State) (m : LenMode) (cap n k : Nat) (hn : n < 2 ^ 64) (hk : lenBits m cap n k)
    (hc : s.capOk) (hr : s.pos.toNat + k ≤ s.cap.toNat * 8) :
    ∃ t, writeLen m cap n s = .ok () t ∧ Wrote s t k ∧ t.lenWritten m s.pos.toNat n k := by
  cases m with
  | bounded => subst hk; exact writeBits_wrote s n _ hc hr
  | varuint =>
    obtain ⟨g, hg, rfl⟩ := hk
    obtain ⟨t, ht, wt, vt⟩ := writeVarGroups_wrote 10 s n g hg (groups_le_ten hg hn) hc hr
    exact ⟨t, ht, wt, by rwa [State.lenWritten, Nat.mul_div_cancel_left g (by omega)]⟩

theorem Wrote.lenWritten {t u : State} {m : LenMode} {p n k x : Nat} (w : Wrote t u x) (hp : p + k ≤ t.pos.toNat)
    (h : t.lenWritten m p n k) : u.lenWritten m p n k := by
  cases m with
  | bounded => exact w.fieldAt hp h
  | varuint =>
    intro j hj
    have : 8 * (k / 8) ≤ k := Nat.mul_div_le k 8
    exact w.fieldAt (by omega) (h j hj)

/-- The encode loop of R226 with room: every character stands in its bits. -/
theorem writeChars_wrote (chw n : Nat) :
    ∀ (s : State) (a : Nat), (∀ j < n, (s.docSlot (a + j)).toNat < 2 ^ chw) → s.capOk →
      s.pos.toNat + n * chw ≤ s.cap.toNat * 8 →
      ∃ t, writeChars chw a n s = .ok () t ∧ Wrote s t (n * chw) ∧
        ∀ j < n, t.fieldAt (s.pos.toNat + j * chw) chw (s.docSlot (a + j)).toNat := by
  induction n with
  | zero => intro s a _ _ _; exact ⟨s, rfl, by simpa using Wrote.refl s, fun j hj => by omega⟩
  | succ n ih =>
    intro s a hv hc hr
    have hm : (n + 1) * chw = chw + n * chw := by ring
    have h0 : (s.docSlot a).toNat < 2 ^ chw := hv 0 (by omega)
    obtain ⟨t, ht, wt, ft⟩ := writeBits_wrote s (s.docSlot a).toNat chw hc (by omega)
    have hp := wt.pos hc (by omega)
    obtain ⟨u, hu, wu, fu⟩ := ih t (a + 1)
      (fun j hj => by rw [wt.docSlot, Nat.add_assoc, Nat.add_comm 1 j]; exact hv (j + 1) (by omega)) (wt.capOk hc)
      (by rw [hp, wt.cap]; omega)
    refine ⟨u, ?_, by rw [hm]; exact wt.trans wu hc (by omega), fun j hj => ?_⟩
    · rw [writeChars, bind_readDoc, bind_raiseIf, if_neg (by simpa using h0), Act.bind_ok ht, hu]
    · rcases j with _ | j
      · simpa using wu.fieldAt (by omega) ft
      · have := fu j (by omega)
        rw [wt.docSlot, hp, Nat.add_assoc a, Nat.add_comm 1 j] at this
        rwa [show s.pos.toNat + (j + 1) * chw = s.pos.toNat + chw + j * chw by ring]

/-- The encode loop of R226 up to a character that does not fit: the ones before it are written. -/
theorem writeChars_above (chw j : Nat) :
    ∀ (s : State) (a n : Nat), j < n → (∀ l < j, (s.docSlot (a + l)).toNat < 2 ^ chw) →
      2 ^ chw ≤ (s.docSlot (a + j)).toNat → s.capOk → s.pos.toNat + j * chw ≤ s.cap.toNat * 8 →
      ∃ t, writeChars chw a n s = .error ⟨.boundsViolation, 6⟩ t ∧ Wrote s t (j * chw) ∧
        ∀ l < j, t.fieldAt (s.pos.toNat + l * chw) chw (s.docSlot (a + l)).toNat := by
  induction j with
  | zero =>
    intro s a n hn _ hv hc hr
    obtain ⟨n, rfl⟩ : ∃ m, n = m + 1 := ⟨n - 1, by omega⟩
    refine ⟨s, ?_, by simpa using Wrote.refl s, fun l hl => by omega⟩
    rw [writeChars, bind_readDoc, bind_raiseIf, if_pos (by simpa using hv)]; rfl
  | succ j ih =>
    intro s a n hn hl hv hc hr
    obtain ⟨n, rfl⟩ : ∃ m, n = m + 1 := ⟨n - 1, by omega⟩
    have hm : (j + 1) * chw = chw + j * chw := by ring
    have h0 : (s.docSlot a).toNat < 2 ^ chw := hl 0 (by omega)
    obtain ⟨t, ht, wt, ft⟩ := writeBits_wrote s (s.docSlot a).toNat chw hc (by omega)
    have hp := wt.pos hc (by omega)
    obtain ⟨u, hu, wu, fu⟩ := ih t (a + 1) n (by omega)
      (fun l h => by rw [wt.docSlot, Nat.add_assoc, Nat.add_comm 1 l]; exact hl (l + 1) (by omega))
      (by rwa [wt.docSlot, Nat.add_assoc, Nat.add_comm 1 j]) (wt.capOk hc) (by rw [hp, wt.cap]; omega)
    refine ⟨u, ?_, by rw [hm]; exact wt.trans wu hc (by omega), fun l h => ?_⟩
    · rw [writeChars, bind_readDoc, bind_raiseIf, if_neg (by simpa using h0), Act.bind_ok ht, hu]
    · rcases l with _ | l
      · simpa using wu.fieldAt (by omega) ft
      · have := fu l (by omega)
        rw [wt.docSlot, hp, Nat.add_assoc a, Nat.add_comm 1 l] at this
        rwa [show s.pos.toNat + (l + 1) * chw = s.pos.toNat + chw + l * chw by ring]

/-- The encode loop of R226 with room for `j` characters only: those are written (R189). -/
theorem writeChars_full (chw j : Nat) :
    ∀ (s : State) (a n : Nat), j < n → (∀ l ≤ j, (s.docSlot (a + l)).toNat < 2 ^ chw) → s.capOk →
      s.pos.toNat + j * chw ≤ s.cap.toNat * 8 → s.cap.toNat * 8 < s.pos.toNat + (j + 1) * chw →
      ∃ t, writeChars chw a n s = .error ⟨.bufferOverflow, 3⟩ t ∧ Wrote s t (j * chw) ∧
        ∀ l < j, t.fieldAt (s.pos.toNat + l * chw) chw (s.docSlot (a + l)).toNat := by
  induction j with
  | zero =>
    intro s a n hn hv hc hr hf
    obtain ⟨n, rfl⟩ : ∃ m, n = m + 1 := ⟨n - 1, by omega⟩
    have h0 : (s.docSlot a).toNat < 2 ^ chw := hv 0 (by omega)
    refine ⟨s, ?_, by simpa using Wrote.refl s, fun l hl => by omega⟩
    rw [writeChars, bind_readDoc, bind_raiseIf, if_neg (by simpa using h0), bind_writeBits, if_pos (by omega)]
  | succ j ih =>
    intro s a n hn hv hc hr hf
    obtain ⟨n, rfl⟩ : ∃ m, n = m + 1 := ⟨n - 1, by omega⟩
    have hm : (j + 1) * chw = chw + j * chw := by ring
    have hm2 : (j + 1 + 1) * chw = chw + (j + 1) * chw := by ring
    have h0 : (s.docSlot a).toNat < 2 ^ chw := hv 0 (by omega)
    obtain ⟨t, ht, wt, ft⟩ := writeBits_wrote s (s.docSlot a).toNat chw hc (by omega)
    have hp := wt.pos hc (by omega)
    obtain ⟨u, hu, wu, fu⟩ := ih t (a + 1) n (by omega)
      (fun l h => by rw [wt.docSlot, Nat.add_assoc, Nat.add_comm 1 l]; exact hv (l + 1) (by omega))
      (wt.capOk hc) (by rw [hp, wt.cap]; omega) (by rw [hp, wt.cap]; omega)
    refine ⟨u, ?_, by rw [hm]; exact wt.trans wu hc (by omega), fun l h => ?_⟩
    · rw [writeChars, bind_readDoc, bind_raiseIf, if_neg (by simpa using h0), Act.bind_ok ht, hu]
    · rcases l with _ | l
      · simpa using wu.fieldAt (by omega) ft
      · have := fu l (by omega)
        rw [wt.docSlot, hp, Nat.add_assoc a, Nat.add_comm 1 l] at this
        rwa [show s.pos.toNat + (l + 1) * chw = s.pos.toNat + chw + l * chw by ring]

/-! Decode: a chain of reads -/

theorem State.registersOk.readBound_lt {s : State} (h : s.registersOk) : s.readBound < 2 ^ 32 := by
  obtain ⟨⟨⟨_, h1⟩, _⟩, h2, _, h3, _⟩ := h
  unfold State.readBound
  split
  · next hl => have := h3 hl; omega
  · omega

theorem State.consumed_pos (s : State) {w : Nat} (hb : s.readBound < 2 ^ 32) (hr : s.pos.toNat + w ≤ s.readBound) :
    (s.consumed w).pos.toNat = s.pos.toNat + w := by
  simp only [State.consumed, BitVec.toNat_ofNat]; omega

@[simp] theorem State.consumed_zero (s : State) : s.consumed 0 = s := by simp [State.consumed]

theorem State.consumed_consumed (s : State) {w x : Nat} (hb : s.readBound < 2 ^ 32)
    (hr : s.pos.toNat + w ≤ s.readBound) : (s.consumed w).consumed x = s.consumed (w + x) := by
  have := s.consumed_pos hb hr
  simp only [State.consumed] at this ⊢
  rw [this, Nat.add_assoc]

@[simp] theorem State.consumed_readBound (s : State) (w : Nat) : (s.consumed w).readBound = s.readBound := rfl
@[simp] theorem State.consumed_bufBit (s : State) (w q : Nat) : (s.consumed w).bufBit q = s.bufBit q := rfl

/-- `ReadBits` of a field that stands there (R132). -/
theorem readBits_found (s : State) (w v : Nat) (hv : v < 2 ^ w) (hf : s.fieldAt s.pos.toNat w v)
    (hr : s.pos.toNat + w ≤ s.readBound) : readBits w s = .ok v (s.consumed w) := by
  rw [readBits_run, if_neg (by omega), State.bitsValue_of_fieldAt s _ _ _ hf, Nat.mod_eq_of_lt hv]; rfl

theorem State.octetsAt_cons {s : State} {o : Nat} {os : List Nat} {p : Nat} :
    s.octetsAt p (o :: os) ↔ (o < 256 ∧ s.fieldAt p 8 o) ∧ s.octetsAt (p + 8) os := by
  constructor
  · intro h
    refine ⟨h 0 (by simp), fun j hj => ?_⟩
    have := h (j + 1) (by simpa using hj)
    rwa [List.getElem_cons_succ, show p + 8 * (j + 1) = p + 8 + 8 * j by ring] at this
  · rintro ⟨h0, h1⟩ j hj
    rcases j with _ | j
    · exact h0
    · have := h1 j (by simpa using hj)
      rwa [List.getElem_cons_succ, show p + 8 * (j + 1) = p + 8 + 8 * j by ring]

theorem State.octetsAt_consumed {s : State} {w p : Nat} {os : List Nat} (h : s.octetsAt p os) :
    (s.consumed w).octetsAt p os := h

/-- One group that announces another and stays below the bound (R223). -/
theorem readVarGroups_more (s : State) (vb left k acc o : Nat) (ho : o < 256) (h8 : 128 ≤ o)
    (hf : s.fieldAt s.pos.toNat 8 o) (hr : s.pos.toNat + 8 ≤ s.readBound)
    (hv : acc + o % 128 * 128 ^ k < 2 ^ vb) :
    readVarGroups vb (left + 1) k acc s =
      readVarGroups vb left (k + 1) (acc + o % 128 * 128 ^ k) (s.consumed 8) := by
  rw [readVarGroups, Act.bind_ok (readBits_found s 8 o ho hf hr), bind_raiseIf, if_neg (by simpa using hv),
    if_neg (by omega)]

/-- The value of the groups behind the first, at its place. -/
theorem varuint_step (acc o k x : Nat) :
    acc + 128 ^ k * (o % 128 + 128 * x) = acc + o % 128 * 128 ^ k + 128 ^ (k + 1) * x := by ring

/-- `ReadVar` of groups whose value is below the bound (R223). -/
theorem readVarGroups_found (vb : Nat) (os : List Nat) :
    ∀ (s : State) (left k acc : Nat), os ≠ [] → os.length ≤ left → s.octetsAt s.pos.toNat os →
      (∀ j (h : j < os.length), 128 ≤ os[j] ↔ j + 1 < os.length) → acc + 128 ^ k * varuintValue os < 2 ^ vb →
      s.readBound < 2 ^ 32 → s.pos.toNat + 8 * os.length ≤ s.readBound →
      readVarGroups vb left k acc s = .ok (acc + 128 ^ k * varuintValue os) (s.consumed (8 * os.length)) := by
  induction os with
  | nil => intro s left k acc h; exact absurd rfl h
  | cons o os ih =>
    intro s left k acc _ hl ho hc hv hb hr
    rw [List.length_cons] at hl hr
    obtain ⟨left, rfl⟩ : ∃ m, left = m + 1 := ⟨left - 1, by omega⟩
    obtain ⟨⟨h256, hf⟩, hos⟩ := State.octetsAt_cons.1 ho
    rw [varuintValue, varuint_step] at hv ⊢
    have hv0 : acc + o % 128 * 128 ^ k < 2 ^ vb := by omega
    have h0 := hc 0 (by simp)
    rw [List.getElem_cons_zero, List.length_cons] at h0
    by_cases he : os = []
    · subst he
      have h8 : o < 128 := by by_contra hn; have := h0.1 (by omega); simp at this
      rw [readVarGroups, Act.bind_ok (readBits_found s 8 o h256 hf (by omega)), bind_raiseIf,
        if_neg (by simpa using hv0), if_pos h8]
      simp [varuintValue]
    · have hlen : 0 < os.length := List.length_pos_iff.2 he
      have hp := s.consumed_pos hb (show s.pos.toNat + 8 ≤ s.readBound by omega)
      rw [readVarGroups_more s vb left k acc o h256 (h0.2 (by omega)) hf (by omega) hv0,
        ih (s.consumed 8) left (k + 1) _ he (by omega) (by rw [hp]; exact hos)
          (fun j hj => by
            have := hc (j + 1) (by simpa using hj)
            simpa using this) hv hb (by rw [hp]; simp only [State.consumed_readBound]; omega),
        s.consumed_consumed hb (by omega), List.length_cons, Nat.mul_add, Nat.add_comm (8 * os.length)]

/-- `ReadVar` stops at the group with which the value reaches the bound, and after the last group it may read if
that one announces another (R223). -/
theorem readVarGroups_above (vb : Nat) (os : List Nat) :
    ∀ (s : State) (left k acc : Nat), s.octetsAt s.pos.toNat os →
      (∀ j (h : j < os.length), j + 1 < os.length → 128 ≤ os[j]) → s.readBound < 2 ^ 32 →
      s.pos.toNat + 8 * os.length ≤ s.readBound →
      (os ≠ [] ∧ os.length ≤ left ∧ acc + 128 ^ k * varuintValue os.dropLast < 2 ^ vb ∧
          2 ^ vb ≤ acc + 128 ^ k * varuintValue os ∨
        os.length = left ∧ acc + 128 ^ k * varuintValue os < 2 ^ vb ∧ ∀ o ∈ os, 128 ≤ o) →
      readVarGroups vb left k acc s = .error ⟨.boundsViolation, 4⟩ (s.consumed (8 * os.length)) := by
  induction os with
  | nil =>
    intro s left k acc _ _ _ _ h
    rcases h with ⟨h, _⟩ | ⟨h, _⟩
    · exact absurd rfl h
    · subst h; rw [List.length_nil, Nat.mul_zero, State.consumed_zero]; rfl
  | cons o os ih =>
    intro s left k acc ho hc hb hr h
    rw [List.length_cons] at hr
    obtain ⟨left, rfl⟩ : ∃ m, left = m + 1 := ⟨left - 1, by
      rcases h with ⟨_, h, _⟩ | ⟨h, _⟩ <;> rw [List.length_cons] at h <;> omega⟩
    obtain ⟨⟨h256, hf⟩, hos⟩ := State.octetsAt_cons.1 ho
    have hp := s.consumed_pos hb (show s.pos.toNat + 8 ≤ s.readBound by omega)
    by_cases hv0 : acc + o % 128 * 128 ^ k < 2 ^ vb
    · have hmore : os ≠ [] ∨ ∀ x ∈ o :: os, 128 ≤ x := by
        rcases h with ⟨_, _, _, h⟩ | ⟨_, _, h⟩
        · left; rintro rfl; rw [varuintValue, varuint_step] at h; simp [varuintValue] at h; omega
        · exact .inr h
      have h8 : 128 ≤ o := by
        rcases hmore with he | h8
        · have := hc 0 (by simp) (by have := List.length_pos_iff.2 he; rw [List.length_cons]; omega)
          simpa using this
        · exact h8 o (by simp)
      rw [readVarGroups_more s vb left k acc o h256 h8 hf (by omega) hv0,
        ih (s.consumed 8) left (k + 1) _ (by rw [hp]; exact hos)
          (fun j hj h1 => by
            have := hc (j + 1) (by simpa using hj) (by simpa using h1)
            simpa using this) hb (by rw [hp]; simp only [State.consumed_readBound]; omega) ?_,
        s.consumed_consumed hb (by omega), List.length_cons, Nat.mul_add, Nat.add_comm (8 * os.length)]
      rcases h with ⟨_, h1, h2, h3⟩ | ⟨h1, h2, h3⟩
      · left
        rw [varuintValue, varuint_step] at h3
        have he : os ≠ [] := by rintro rfl; simp [varuintValue] at h3; omega
        rw [List.dropLast_cons_of_ne_nil he, varuintValue, varuint_step] at h2
        rw [List.length_cons] at h1
        exact ⟨he, by omega, h2, h3⟩
      · right
        rw [varuintValue, varuint_step] at h2
        rw [List.length_cons] at h1
        exact ⟨by omega, h2, fun x hx => h3 x (by simp [hx])⟩
    · have he : os = [] := by
        by_contra he
        rcases h with ⟨_, _, h, _⟩ | ⟨_, h, _⟩
        · rw [List.dropLast_cons_of_ne_nil he, varuintValue, varuint_step] at h; omega
        · rw [varuintValue, varuint_step] at h; omega
      subst he
      rw [readVarGroups, Act.bind_ok (readBits_found s 8 o h256 hf (by omega)), bind_raiseIf,
        if_pos (by simpa using hv0)]
      simp

/-- `ReadVar` with room for the groups `os` only, all of which announce another (R223, R189). -/
theorem readVarGroups_full (vb : Nat) (os : List Nat) :
    ∀ (s : State) (left k acc : Nat), s.octetsAt s.pos.toNat os → (∀ o ∈ os, 128 ≤ o) → os.length < left →
      acc + 128 ^ k * varuintValue os < 2 ^ vb → s.readBound < 2 ^ 32 →
      s.pos.toNat + 8 * os.length ≤ s.readBound → s.readBound < s.pos.toNat + 8 * (os.length + 1) →
      readVarGroups vb left k acc s = .error ⟨.bufferOverflow, 4⟩ (s.consumed (8 * os.length)) := by
  induction os with
  | nil =>
    intro s left k acc _ _ hl _ _ _ hf
    obtain ⟨left, rfl⟩ : ∃ m, left = m + 1 := ⟨left - 1, by omega⟩
    rw [List.length_nil] at hf
    rw [readVarGroups, bind_readBits, if_pos (by omega)]
    simp
  | cons o os ih =>
    intro s left k acc ho h8 hl hv hb hr hf
    rw [List.length_cons] at hl hr hf
    obtain ⟨left, rfl⟩ : ∃ m, left = m + 1 := ⟨left - 1, by omega⟩
    obtain ⟨⟨h256, hfo⟩, hos⟩ := State.octetsAt_cons.1 ho
    have hp := s.consumed_pos hb (show s.pos.toNat + 8 ≤ s.readBound by omega)
    rw [varuintValue, varuint_step] at hv
    rw [readVarGroups_more s vb left k acc o h256 (h8 o (by simp)) hfo (by omega) (by omega),
      ih (s.consumed 8) left (k + 1) _ (by rw [hp]; exact hos) (fun x hx => h8 x (by simp [hx])) (by omega) hv hb
        (by rw [hp]; simp only [State.consumed_readBound]; omega)
        (by rw [hp]; simp only [State.consumed_readBound]; omega),
      s.consumed_consumed hb (by omega), List.length_cons, Nat.mul_add, Nat.add_comm (8 * os.length)]

theorem State.varuintGroupsAt.octetsAt {s : State} {p : Nat} {os : List Nat} (h : s.varuintGroupsAt p os) :
    s.octetsAt p os := fun j hj => ⟨(h.2.2 j hj).1, (h.2.2 j hj).2.2⟩

/-- `ReadVar` of one to ten groups whose value is below the bound (R223). -/
theorem readVar_found (s : State) (vb : Nat) (os : List Nat) (h : s.varuintGroupsAt s.pos.toNat os)
    (hv : varuintValue os < 2 ^ vb) (hb : s.readBound < 2 ^ 32) (hr : s.pos.toNat + 8 * os.length ≤ s.readBound) :
    readVar vb s = .ok (varuintValue os) (s.consumed (8 * os.length)) := by
  have he : os ≠ [] := by rintro rfl; have := h.1; simp at this
  have := readVarGroups_found vb os s 10 0 0 he h.2.1 h.octetsAt (fun j hj => (h.2.2 j hj).2.1) (by simpa using hv)
    hb hr
  simpa [readVar] using this

/-- `ReadLen` of a prefix that stands there (R225). -/
theorem readLen_found (s : State) (m : LenMode) (cap n k : Nat) (h : s.lenReadable m cap s.pos.toNat n k)
    (hb : s.readBound < 2 ^ 32) (hr : s.pos.toNat + k ≤ s.readBound) :
    readLen m cap s = .ok n (s.consumed k) := by
  cases m with
  | bounded =>
    obtain ⟨rfl, hn, hf⟩ := h
    exact readBits_found s _ n hn hf hr
  | varuint =>
    obtain ⟨os, ho, rfl, rfl, hn⟩ := h
    exact readVar_found s 32 os ho hn hb hr

/-- From `s` to `t` the next `w` bits of the stream were read, and nothing else changed but POS and at most the `n`
slots from `a` on. -/
def Took (s t : State) (w a n : Nat) : Prop :=
  t = { s with doc := t.doc, pos := BitVec.ofNat 32 (s.pos.toNat + w) } ∧ s.changedSlots t a n

theorem Took.readBound {s t : State} {w a n : Nat} (h : Took s t w a n) : t.readBound = s.readBound := by
  rw [h.1]; rfl
theorem Took.params {s t : State} {w a n : Nat} (h : Took s t w a n) : t.params = s.params := by rw [h.1]
theorem Took.jumpOk {s t : State} {w a n : Nat} (h : Took s t w a n) (g x : Nat) : t.jumpOk g x = s.jumpOk g x := by
  rw [h.1]; rfl
theorem Took.bufBit {s t : State} {w a n : Nat} (h : Took s t w a n) (q : Nat) : t.bufBit q = s.bufBit q := by
  rw [h.1]; rfl
theorem Took.pos {s t : State} {w a n : Nat} (h : Took s t w a n) (hb : s.readBound < 2 ^ 32)
    (hr : s.pos.toNat + w ≤ s.readBound) : t.pos.toNat = s.pos.toNat + w := by
  rw [h.1]; simp only [BitVec.toNat_ofNat]; omega

/-- A step of a descriptor that has read `w` bits into its slots, GPC where it was. -/
theorem Took.decoded {s t : State} {w a n : Nat} (h : Took s t w a n) : s.decoded t w a n s.gpc.toNat := by
  refine ⟨?_, h.2⟩
  rw [BitVec.ofNat_toNat, BitVec.setWidth_eq]; exact h.1

/-- A step of a descriptor that has read `w` bits into its slots and goes on at `g`. -/
theorem Took.decoded_withGpc {s t : State} {w a n : Nat} (h : Took s t w a n) (g : Nat) :
    s.decoded (t.withGpc g) w a n g := by
  refine ⟨?_, fun i hi => ?_⟩
  · simp only [State.withGpc_doc]; conv_lhs => rw [h.1]
    rfl
  · rw [State.withGpc_docSlot]; exact h.2 i hi

/-- Reads add up; the slots of the second stand behind those of the first. -/
theorem Took.trans {s t u : State} {w x a n b : Nat} (h : Took s t w a n) (k : Took t u x (a + n) b)
    (hb : s.readBound < 2 ^ 32) (hr : s.pos.toNat + w ≤ s.readBound) : Took s u (w + x) a (n + b) := by
  have hp := h.pos hb hr
  refine ⟨?_, fun i hi => ?_⟩
  · conv_lhs => rw [k.1, hp, h.1, Nat.add_assoc]
  · rw [k.2 i (by omega), h.2 i (by omega)]

/-- One field read into one slot. -/
theorem Took.slot (s : State) (w a v : Nat) (hv : v < 2 ^ 64) (ha : a < s.params.docSlots) :
    Took s ((s.consumed w).setDocSlot a (BitVec.ofNat 64 v)) w a 1 ∧
      (((s.consumed w).setDocSlot a (BitVec.ofNat 64 v)).docSlot a).toNat = v := by
  refine ⟨⟨rfl, fun i hi => ?_⟩, ?_⟩
  · exact State.docSlot_setDocSlot_ne (s.consumed w) a i _ (by omega)
  · rw [State.docSlot_setDocSlot (s.consumed w) a a _ ha, if_pos rfl, BitVec.toNat_ofNat, Nat.mod_eq_of_lt hv]

/-- The decode loop of R226: every character's slot holds what stood in its bits. -/
theorem readChars_took (chw n : Nat) :
    ∀ (s : State) (a : Nat), chw ≤ 8 → a + n ≤ s.params.docSlots → s.readBound < 2 ^ 32 →
      s.pos.toNat + n * chw ≤ s.readBound →
      ∃ t, readChars chw a n s = .ok () t ∧ Took s t (n * chw) a n ∧
        ∀ j < n, s.fieldAt (s.pos.toNat + j * chw) chw (t.docSlot (a + j)).toNat ∧
          (t.docSlot (a + j)).toNat < 2 ^ chw := by
  induction n with
  | zero =>
    intro s a _ _ _ _
    exact ⟨s, rfl, ⟨by simp, fun _ _ => rfl⟩, fun j hj => by omega⟩
  | succ n ih =>
    intro s a hw ha hb hr
    have hm : (n + 1) * chw = chw + n * chw := by ring
    have hlt := s.bitsValue_lt s.pos.toNat chw
    have h256 : (2 : Nat) ^ chw ≤ 2 ^ 64 := Nat.pow_le_pow_right (by omega) (by omega)
    obtain ⟨ht, hv⟩ := Took.slot s chw a (s.bitsValue s.pos.toNat chw) (by omega) (by omega)
    have hrd := readBits_found s chw _ hlt (s.fieldAt_bitsValue _ _) (by omega)
    generalize hT : (s.consumed chw).setDocSlot a (BitVec.ofNat 64 (s.bitsValue s.pos.toNat chw)) = t at ht hv
    have hp := ht.pos hb (by omega)
    obtain ⟨u, hu, wu, fu⟩ := ih t (a + 1) hw (by rw [ht.params]; omega) (by rwa [ht.readBound])
      (by rw [hp, ht.readBound]; omega)
    refine ⟨u, ?_, by rw [hm, Nat.add_comm n 1]; exact ht.trans wu hb (by omega), fun j hj => ?_⟩
    · rw [readChars, Act.bind_ok hrd, bind_writeDoc, hT, hu]
    · rcases j with _ | j
      · have hk : u.docSlot a = t.docSlot a := wu.2 a (by omega)
        rw [Nat.add_zero, hk, hv, Nat.zero_mul]
        exact ⟨s.fieldAt_bitsValue _ _, hlt⟩
      · have := fu j (by omega)
        rw [hp, Nat.add_assoc a, Nat.add_comm 1 j] at this
        rw [show s.pos.toNat + (j + 1) * chw = s.pos.toNat + chw + j * chw by ring]
        exact ⟨fun i hi => by rw [← ht.bufBit]; exact this.1 i hi, this.2⟩

/-- The decode loop of R226 with room for `j` characters only: their slots are written (R189). -/
theorem readChars_full (chw j : Nat) :
    ∀ (s : State) (a n : Nat), j < n → chw ≤ 8 → a + n ≤ s.params.docSlots → s.readBound < 2 ^ 32 →
      s.pos.toNat + j * chw ≤ s.readBound → s.readBound < s.pos.toNat + (j + 1) * chw →
      ∃ t, readChars chw a n s = .error ⟨.bufferOverflow, 4⟩ t ∧ Took s t (j * chw) a j ∧
        ∀ l < j, s.fieldAt (s.pos.toNat + l * chw) chw (t.docSlot (a + l)).toNat ∧
          (t.docSlot (a + l)).toNat < 2 ^ chw := by
  induction j with
  | zero =>
    intro s a n hn _ _ _ _ hf
    obtain ⟨n, rfl⟩ : ∃ m, n = m + 1 := ⟨n - 1, by omega⟩
    refine ⟨s, ?_, ⟨by simp, fun _ _ => rfl⟩, fun l h => by omega⟩
    rw [readChars, bind_readBits, if_pos (by omega)]
  | succ j ih =>
    intro s a n hn hw ha hb hr hf
    obtain ⟨n, rfl⟩ : ∃ m, n = m + 1 := ⟨n - 1, by omega⟩
    have hm : (j + 1) * chw = chw + j * chw := by ring
    have hm2 : (j + 1 + 1) * chw = chw + (j + 1) * chw := by ring
    have hlt := s.bitsValue_lt s.pos.toNat chw
    have h256 : (2 : Nat) ^ chw ≤ 2 ^ 64 := Nat.pow_le_pow_right (by omega) (by omega)
    obtain ⟨ht, hv⟩ := Took.slot s chw a (s.bitsValue s.pos.toNat chw) (by omega) (by omega)
    have hrd := readBits_found s chw _ hlt (s.fieldAt_bitsValue _ _) (by omega)
    generalize hT : (s.consumed chw).setDocSlot a (BitVec.ofNat 64 (s.bitsValue s.pos.toNat chw)) = t at ht hv
    have hp := ht.pos hb (by omega)
    obtain ⟨u, hu, wu, fu⟩ := ih t (a + 1) n (by omega) hw (by rw [ht.params]; omega) (by rwa [ht.readBound])
      (by rw [hp, ht.readBound]; omega) (by rw [hp, ht.readBound]; omega)
    refine ⟨u, ?_, by rw [hm, Nat.add_comm j 1]; exact ht.trans wu hb (by omega), fun l h => ?_⟩
    · rw [readChars, Act.bind_ok hrd, bind_writeDoc, hT, hu]
    · rcases l with _ | l
      · have hk : u.docSlot a = t.docSlot a := wu.2 a (by omega)
        rw [Nat.add_zero, hk, hv, Nat.zero_mul]
        exact ⟨s.fieldAt_bitsValue _ _, hlt⟩
      · have := fu l (by omega)
        rw [hp, Nat.add_assoc a, Nat.add_comm 1 l] at this
        rw [show s.pos.toNat + (l + 1) * chw = s.pos.toNat + chw + l * chw by ring]
        exact ⟨fun i hi => by rw [← ht.bufBit]; exact this.1 i hi, this.2⟩

/-! The count or length of a LIST, STRING or BYTES (R193, R226) -/

/-- On encode: the count slot's value as the prefix. -/
theorem countField_wrote (s : State) (m : LenMode) (max a n k : Nat) (hn : (s.docSlot a).toNat = n) (hm : n ≤ max)
    (hk : lenBits m max n k) (hc : s.capOk) (hr : s.pos.toNat + k ≤ s.cap.toNat * 8) :
    ∃ t, countField m max a .encode s = .ok n t ∧ Wrote s t k ∧ t.lenWritten m s.pos.toNat n k := by
  obtain ⟨t, ht, wt, ft⟩ := writeLen_wrote s m max n k (by rw [← hn]; exact (s.docSlot a).isLt) hk hc hr
  refine ⟨t, ?_, wt, ft⟩
  rw [countField, bind_readDoc, bind_raiseIf, hn, if_neg (by simpa using hm), Act.bind_ok ht, Act.pure_run]

/-- On decode: the prefix's value into the count slot. -/
theorem countField_took (s : State) (m : LenMode) (max a n k : Nat) (h : s.lenReadable m max s.pos.toNat n k)
    (hm : n ≤ max) (h64 : max < 2 ^ 64) (ha : a < s.params.docSlots) (hb : s.readBound < 2 ^ 32)
    (hr : s.pos.toNat + k ≤ s.readBound) :
    ∃ t, countField m max a .decode s = .ok n t ∧ Took s t k a 1 ∧ (t.docSlot a).toNat = n := by
  obtain ⟨ht, hv⟩ := Took.slot s k a n (by omega) ha
  refine ⟨_, ?_, ht, hv⟩
  rw [countField, Act.bind_ok (readLen_found s m max n k h hb hr), bind_raiseIf, if_neg (by simpa using hm),
    bind_writeDoc, Act.pure_run]

/-- A count above the maximum on encode raises before anything is written (R269). -/
theorem countField_above_encode (s : State) (m : LenMode) (max a : Nat) (h : max < (s.docSlot a).toNat) :
    countField m max a .encode s = .error ⟨.boundsViolation, 5⟩ s := by
  rw [countField, bind_readDoc, bind_raiseIf, if_pos (by simpa using h)]; rfl

/-- A count above the maximum on decode raises with the prefix consumed and DOC unchanged (R230). -/
theorem countField_above_decode (s : State) (m : LenMode) (max a n k : Nat)
    (h : s.lenReadable m max s.pos.toNat n k) (hm : max < n) (hb : s.readBound < 2 ^ 32)
    (hr : s.pos.toNat + k ≤ s.readBound) :
    countField m max a .decode s = .error ⟨.boundsViolation, 5⟩ (s.consumed k) := by
  rw [countField, Act.bind_ok (readLen_found s m max n k h hb hr), bind_raiseIf, if_pos (by simpa using hm)]; rfl

/-- The structural checks of a LIST pass where `listAt` says so (R193). -/
theorem listChecks_pass (s : State) {off max body elem stride : Half} (h : s.listAt off max body elem stride) :
    listChecks s.gpc.toNat max body elem stride s = .ok () s := by
  obtain ⟨_, h1, h2, h3, h4, h5⟩ := h
  have h3' : (s.ls.head?.any fun f => decide (f.stop.toNat ≤ s.gpc.toNat + body.toNat)) = false := by
    cases hl : s.ls.head? with
    | none => rfl
    | some f => have := h3 f hl; simpa using this
  have h4' : (decide (0 < max.toNat) &&
      decide (s.params.docSlots < s.base.toNat + elem.toNat + max.toNat * stride.toNat)) = false := by
    by_cases hm : 0 < max.toNat
    · have := h4 hm; simp; omega
    · simp [hm]
  rw [listChecks, bind_current, bind_raiseIf, if_neg (by simpa using h1), bind_raiseIf, if_neg (by simpa using h2),
    bind_raiseIf, if_neg (by rw [h3']; decide), bind_raiseIf, if_neg (by rw [h4']; decide), raiseIf_run,
    if_neg (by simpa using h5)]

/-! The forms that share one rule -/

/-- STRING and BYTES run the rule of R226 (R227). -/
theorem exec_charsForm {i : Instr} {m : LenMode} {off cap : Half} {chw : Byte} (h : charsForm i m off cap chw)
    (s : State) : exec i s = descriptor (stringRule m off cap chw.toNat) s := by
  rcases h with ⟨rfl, rfl⟩ | ⟨rfl, rfl⟩ | ⟨rfl, rfl, rfl⟩ | ⟨rfl, rfl, rfl⟩ <;> rfl

/-- LIST in either length mode runs the rule of R193. -/
theorem exec_listForm {i : Instr} {m : LenMode} {off max body elem stride : Half}
    (h : listForm i m off max body elem stride) (s : State) :
    exec i s = descriptor (listRule m off max body elem stride) s := by
  rcases h with ⟨rfl, rfl⟩ | ⟨rfl, rfl⟩ <;> rfl

/-- A descriptor whose rule raises ends the run with that fault, in the state it had reached (R256, R189). -/
theorem descriptor_raised {s t : State} {d : Dir} {e : Raise} {body : Dir → Nat → Act Unit} (hd : s.run = some d)
    (h : body d s.gpc.toNat s = .error e t) : descriptor body s = .next (t.takeFault e) := by
  rw [descriptor_run s body d hd, h]; rfl

/-! The ALT words and flags of a CHOICE (R191) -/

/-- The first structural loop of R191 over `k` good ALT words goes on to the words behind them. -/
theorem readAlts_error (s : State) (e : Raise) (k : Nat) : ∀ g n : Nat, k ≤ n → g + k ≤ s.params.gtSteps →
    (∀ j < k, ∃ off target : Half, decodeDescriptor (s.gtWord (g + j)) = .ok (.gwAlt off target) ∧
      s.base.toNat + off.toNat < s.params.docSlots) →
    readAlts (g + k) (n - k) s = .error e s → readAlts g n s = .error e s := by
  induction k with
  | zero => intro g n _ _ _ h; exact h
  | succ k ih =>
    intro g n hn hg hj h
    obtain ⟨n, rfl⟩ : ∃ m, n = m + 1 := ⟨n - 1, by omega⟩
    obtain ⟨o, t, h1, h2⟩ := hj 0 (by omega)
    rw [Nat.add_zero] at h1
    rw [readAlts, bind_current, bind_raiseIf, if_neg (by simp; omega), h1]
    simp only [bind_slot]
    rw [if_neg (by omega)]
    refine Act.bind_error (ih (g + 1) n (by omega) (by omega)
      (fun j hj' => (show g + (j + 1) = g + 1 + j by omega) ▸ hj (j + 1) (by omega)) ?_)
    rw [show g + 1 + k = g + (k + 1) by omega, show n - k = n + 1 - (k + 1) by omega]; exact h

/-- The first structural loop of R191 over ALT words with their slots inside DOC. -/
theorem readAlts_run (s : State) (alts : List (Half × Half)) : ∀ g : Nat, g + alts.length ≤ s.params.gtSteps →
    (∀ i (h : i < alts.length), decodeDescriptor (s.gtWord (g + i)) = .ok (.gwAlt alts[i].1 alts[i].2) ∧
      s.base.toNat + alts[i].1.toNat < s.params.docSlots) →
    readAlts g alts.length s = .ok (alts.map fun x => ⟨s.base.toNat + x.1.toNat, x.2⟩) s := by
  induction alts with
  | nil => intro _ _ _; rfl
  | cons x alts ih =>
    intro g hg hj
    obtain ⟨h1, h2⟩ := hj 0 (by simp)
    rw [Nat.add_zero] at h1
    rw [List.length_cons] at hg
    have hr := ih (g + 1) (by omega) (fun j hj' => by
      have := hj (j + 1) (by simpa using hj')
      rw [show g + (j + 1) = g + 1 + j by omega] at this; exact this)
    rw [List.length_cons, readAlts, bind_current, bind_raiseIf, if_neg (by simp; omega), h1]
    simp only [bind_slot, List.getElem_cons_zero] at h2 ⊢
    rw [if_neg (by omega), Act.bind_ok hr]; rfl

/-- The set `S` of R191 where the flag of alternative `k` is 1 and the others are 0. -/
theorem State.flagged_one (s : State) (k : Nat) (alts : List Alt) (hk : k < alts.length)
    (h : ∀ j (hj : j < alts.length), (s.docSlot alts[j].slot).toNat = if j = k then 1 else 0) :
    s.flagged alts = [(alts[k], k)] := by
  suffices ∀ (k : Nat) (l : List Alt) (b : Nat) (hk : k < l.length),
      (∀ j (hj : j < l.length), (s.docSlot l[j].slot).toNat = if j = k then 1 else 0) →
      (l.zipIdx b).filter (fun x => (s.docSlot x.1.slot).toNat = 1) = [(l[k], b + k)] by
    simpa [State.flagged] using this k alts 0 hk h
  intro k
  induction k with
  | zero =>
    intro l b hk h
    obtain ⟨x, l, rfl⟩ := List.exists_cons_of_length_pos hk
    have h0 := h 0 (by simp)
    simp only [List.getElem_cons_zero, if_pos] at h0
    rw [List.zipIdx_cons, List.filter_cons_of_pos (by simp [h0])]
    simp only [List.getElem_cons_zero, Nat.add_zero, List.cons.injEq, true_and]
    rw [List.filter_eq_nil_iff]
    rintro ⟨y, i⟩ hy
    obtain ⟨h1, h2, h3⟩ := List.mem_zipIdx hy
    have := h (i - (b + 1) + 1) (by simp; omega)
    simp only [List.getElem_cons_succ] at this
    rw [h3]; simp [this]
  | succ k ih =>
    intro l b hk h
    obtain ⟨x, l, rfl⟩ := List.exists_cons_of_length_pos (show 0 < l.length by omega)
    have h0 := h 0 (by simp)
    simp only [List.getElem_cons_zero] at h0
    rw [List.zipIdx_cons, List.filter_cons_of_neg (by simp [h0]), ih l (b + 1) (by simpa using hk) (fun j hj => by
      have := h (j + 1) (by simpa using hj)
      simpa using this)]
    simp; omega

end Sys2Proof.Machine
end

