-- ==== Sys2Proof/Tests/Slice0.lean ====
section
/-! SUPPORT. The model's own tests, from the vectors and examples of spec/ (95_test_vectors.md unless said
otherwise), and for every statement with hypotheses a state and operands that meet them, clause by clause. -/

namespace Sys2Proof.Tests

open Sys2Proof.Machine

/-! Small instances and states -/

/-- `n` cells of value 0, as the host has written them (R292). -/
def zeros (w n : Nat) : Memory w := (List.range n).map fun a => (a, 0)

/-- Cells with the given values from address 0 on. -/
def cells {w : Nat} (l : List (BitVec w)) : Memory w := l.zipIdx.map fun x => (x.2, x.1)

/-- An instance of 8 bytes, 8 slots, 8 words, 2 frames. -/
def tiny : Params := { bufBytes := 8, docSlots := 8, gtSteps := 8, loopDepth := 2 }

/-- `tiny` after `BS_INIT 8, 0, 0` with BUF and DOC zeroed and the given GT. -/
def idle (gt : List Wide) : State :=
  { State.resetWith tiny with
    status := { Status.reset with inited := true }, cap := 8, buf := zeros 8 8, doc := zeros 64 8, gt := cells gt }

/-- A codec run of direction `d` at GPC = 0 over the given DOC and first bytes of BUF. -/
def running (d : Dir) (doc : List Cell64) (buf : List Byte) (gt : List Wide) : State :=
  { idle gt with
    run := some d, doc := cells (doc ++ List.replicate (8 - doc.length) 0),
    buf := cells (buf ++ List.replicate (8 - buf.length) 0) }

/-- What a step left. -/
def got (o : Host.Outcome State Fault Refusal) (f : State → Bool) : Bool :=
  match o with
  | .next t => f t
  | .fault _ => false
  | .refused _ => false

/-- A command ended with this code and this sub-cause of STATUS. -/
def ended (rc : Byte) (sub : BitVec 4) (t : State) : Bool :=
  t.rc = rc && t.status.code = rc && t.status.sub = sub && t.status.fault = (rc != 0)

/-! WellFormed refuses an ill-formed term of each check (R93 (d), R103 (e) to (l)) -/

theorem test_wf_write_width : (Instr.bsWriteBits 0 33).wf = false := by decide
theorem test_wf_read_width : (Instr.bsReadBits 33).wf = false := by decide
theorem test_wf_choice_count : (Instr.gwChoice 0).wf = false := by decide
theorem test_wf_list_body_n : (Instr.gwListN 0 1 0 0 0).wf = false := by decide
theorem test_wf_list_max_n : (Instr.gwListN 0 256 1 0 0).wf = false := by decide
theorem test_wf_list_body_v : (Instr.gwListV 0 1 0 0 0).wf = false := by decide
theorem test_wf_enum_count : (Instr.gwEnum 0 0).wf = false := by decide
theorem test_wf_nbit_order : (Instr.gwNbit 0 2 1).wf = false := by decide
theorem test_wf_nbit_range : (Instr.gwNbit 0 0 256).wf = false := by decide
theorem test_wf_varuint_zero : (Instr.gwVaruint 0 0).wf = false := by decide
theorem test_wf_varuint_bits : (Instr.gwVaruint 0 65).wf = false := by decide
theorem test_wf_string_zero_n : (Instr.gwStringN 0 1 0).wf = false := by decide
theorem test_wf_string_width_n : (Instr.gwStringN 0 1 9).wf = false := by decide
theorem test_wf_string_cap_n : (Instr.gwStringN 0 256 8).wf = false := by decide
theorem test_wf_string_zero_v : (Instr.gwStringV 0 1 0).wf = false := by decide
theorem test_wf_string_width_v : (Instr.gwStringV 0 1 9).wf = false := by decide
theorem test_wf_bytes_cap : (Instr.gwBytesN 0 256).wf = false := by decide

/-! Decoding: words written out from the encodings R90 to R92 and R100 to R102, one for every constructor (P1 to
P5b hold most of them) -/

theorem test_decode_bs_init : decodeCommand 0x01000000000000070000002000000004 = .ok (.bsInit 4 0x20 7) := by decide
theorem test_decode_bs_write_bits :
    decodeCommand 0x020000000000000000000009000001FF = .ok (.bsWriteBits 0x1FF 9) := by decide
theorem test_decode_bs_read_bits :
    decodeCommand 0x03000000000000000000001400000000 = .ok (.bsReadBits 20) := by decide
theorem test_decode_bs_get_length : decodeCommand 0x04000000000000000000000000000000 = .ok .bsGetLength := by decide
theorem test_decode_bs_set_limit :
    decodeCommand 0x05000000000000000000000000000029 = .ok (.bsSetLimit 41) := by decide
theorem test_decode_fr_write_header :
    decodeCommand 0x10000000000000000000123400000021 = .ok (.frWriteHeader 33 0x1234) := by decide
theorem test_decode_fr_read_header :
    decodeCommand 0x11000000000000000000ABCD00000000 = .ok (.frReadHeader 0xABCD) := by decide
theorem test_decode_cd_encode : decodeCommand 0x20000000000000000000000000000009 = .ok (.cdEncode 9) := by decide
theorem test_decode_cd_decode : decodeCommand 0x21000000000000000000000000000000 = .ok (.cdDecode 0) := by decide
theorem test_decode_end : decodeDescriptor 0x01000000000000000000000000000000 = .ok .gwEnd := by decide
theorem test_decode_fail :
    decodeDescriptor 0x02000000000000040000000000000000 = .ok (.gwFail .invalidVariant) := by decide
theorem test_decode_pres : decodeDescriptor 0x03000000000B00010000000000000000 = .ok (.gwPres 11 1) := by decide
theorem test_decode_choice : decodeDescriptor 0x04000000000000020000000000000000 = .ok (.gwChoice 2) := by decide
theorem test_decode_alt : decodeDescriptor 0x05000000000100070000000000000000 = .ok (.gwAlt 1 7) := by decide
theorem test_decode_list_n :
    decodeDescriptor 0x06000000000000030004000100050000 = .ok (.gwListN 0 3 4 1 5) := by decide
theorem test_decode_list_v :
    decodeDescriptor 0x06100000000000030004000100050000 = .ok (.gwListV 0 3 4 1 5) := by decide
theorem test_decode_lend : decodeDescriptor 0x07000000000000000000000000000000 = .ok .gwLend := by decide
theorem test_decode_enum : decodeDescriptor 0x10000000001000020000000000000000 = .ok (.gwEnum 16 2) := by decide
theorem test_decode_nbit : decodeDescriptor 0x11000000000500010014000000000000 = .ok (.gwNbit 5 1 20) := by decide
theorem test_decode_varuint : decodeDescriptor 0x12000000000A00400000000000000000 = .ok (.gwVaruint 10 64) := by decide
theorem test_decode_string_n :
    decodeDescriptor 0x13000700000C00140000000000000000 = .ok (.gwStringN 12 20 7) := by decide
theorem test_decode_string_v :
    decodeDescriptor 0x13100800000000140000000000000000 = .ok (.gwStringV 0 20 8) := by decide
theorem test_decode_bytes_n : decodeDescriptor 0x14000000000100080000000000000000 = .ok (.gwBytesN 1 8) := by decide
theorem test_decode_bytes_v : decodeDescriptor 0x14100000000100080000000000000000 = .ok (.gwBytesV 1 8) := by decide
/-- The all-zero word is neither a command nor a descriptor (R91, R101). -/
theorem test_decode_zero :
    decodeCommand 0 = .error .unknownOpcode ∧ decodeDescriptor 0 = .error .unknownKind := by decide
/-- A word of the opcode table is read by the format it is legal in, the four that both formats allow as
descriptors (log 5). -/
theorem test_decode_table_word :
    decodeTableWord 128 0x04000000000000000000000000000000 = some .bsGetLength ∧
      decodeTableWord 128 0x01000000000000000000000000000000 = some .gwEnd := by decide

/-! `cl2` at the values R12 lists -/

theorem test_cl2 :
    [1, 2, 3, 4, 5, 8, 9, 16, 17, 32, 33, 64, 65, 128, 129, 256, 257, 65535, 65536].map cl2 =
      [0, 1, 2, 2, 3, 3, 4, 4, 5, 5, 6, 6, 7, 7, 8, 8, 9, 16, 16] := by decide

/-! One step of each instruction -/

/-- R130's example. -/
theorem test_bs_init :
    got (exec (.bsInit 4 0 7) (State.resetWith tiny)) (fun t =>
      t.cap = 4 && t.pos = 0 && t.ext = 7 && t.status.toWord = 0x00000001 && t.rc = 0) = true := by decide
/-- V6: a capacity above BUF_BYTES. -/
theorem test_bs_init_too_large :
    got (exec (.bsInit 9 0 0) (idle [])) (fun t => ended 1 1 t && !t.status.inited && t.cap = 8) = true := by decide
/-- P1 step 3: nine ones from stream bit 3 on. -/
theorem test_bs_write_bits :
    got (exec (.bsWriteBits 0x1FF 9) { idle [] with pos := 3, buf := cells [0xA0, 0, 0, 0, 0, 0, 0, 0] }) (fun t =>
      t.bufByte 0 = 0xBF && t.bufByte 1 = 0xF0 && t.pos = 12 && t.rc = 0) = true := by decide
/-- A write of one bit at the end of the capacity (R131). -/
theorem test_bs_write_bits_overflow :
    got (exec (.bsWriteBits 1 1) { idle [] with pos := 64 }) (fun t => ended 1 3 t && t.pos = 64) = true := by decide
/-- P1 step 9. -/
theorem test_bs_read_bits :
    got (exec (.bsReadBits 9) { idle [] with pos := 3, buf := cells [0xBF, 0xFA, 0, 0, 0, 0, 0, 0] }) (fun t =>
      t.res = 0x1FF && t.pos = 12 && t.rc = 0) = true := by decide
/-- R136's example: a read past the limit. -/
theorem test_bs_read_bits_limit :
    got (exec (.bsReadBits 1) ({ idle [] with pos := 16 }.limited 2)) (fun t => ended 1 4 t) = true := by decide
/-- R134's example. -/
theorem test_bs_get_length :
    got (exec .bsGetLength { idle [] with pos := 12 }) (fun t => t.res = 2 && t.pos = 12 && t.rc = 0) = true := by
  decide
/-- R136: a limit at the capacity, and one above it. -/
theorem test_bs_set_limit :
    got (exec (.bsSetLimit 8) (idle [])) (fun t => t.limit = 8 && t.status.toWord = 0x00000005) = true ∧
      got (exec (.bsSetLimit 9) (idle [])) (fun t => ended 1 5 t && !t.status.limitEn) = true := by decide
/-- R162's example. -/
theorem test_fr_write_header :
    got (exec (.frWriteHeader 0x28 0xABCD) (idle [])) (fun t =>
      (List.range 8).map t.bufByte = [0x01, 0xFE, 0xAB, 0xCD, 0, 0, 0, 0x28] && t.pos = 0) = true := by decide
/-- R163's examples: the tag found and the tag missed. -/
theorem test_fr_read_header :
    got (exec (.frReadHeader 0xABCD) { idle [] with buf := cells [0x01, 0xFE, 0xAB, 0xCD, 0, 0, 0, 0x28] })
        (fun t => t.res = 0x28 && t.rc = 0) = true ∧
      got (exec (.frReadHeader 0xABCE) { idle [] with buf := cells [0x01, 0xFE, 0xAB, 0xCD, 0, 0, 0, 0x28] })
        (fun t => ended 2 2 t && t.res = 0) = true := by decide
theorem test_cd_encode :
    got (exec (.cdEncode 3) { idle [] with base := 9 }) (fun t => t.gpc = 3 && t.base = 0 && t.run = some .encode) =
      true := by decide
theorem test_cd_decode :
    got (exec (.cdDecode 3) { idle [] with base := 9 }) (fun t => t.gpc = 3 && t.base = 0 && t.run = some .decode) =
      true := by decide
/-- END ends the run; inside a list body it is IllegalGrammar(7) (R187). -/
theorem test_end :
    got (exec .gwEnd (running .encode [] [] [])) (fun t => t.run = none && t.rc = 0) = true ∧
      got (exec .gwEnd { running .encode [] [] [] with ls := [⟨1, 2, 1, 0, 0, 0⟩] }) (fun t => ended 5 7 t) = true := by
  decide
/-- V10.5's FAIL 4. -/
theorem test_fail :
    got (exec (.gwFail .invalidVariant) (running .encode [] [] [])) (fun t => ended 4 0 t && t.run = none) = true := by
  decide
/-- R190's example: the bit 1, then the bit 0 with a skip. -/
theorem test_pres :
    got (exec (.gwPres 0 1) (running .encode [1] [] [])) (fun t => t.bufByte 0 = 0x80 && t.pos = 1 && t.gpc = 1) =
        true ∧
      got (exec (.gwPres 0 1) (running .decode [7] [0x7F] [])) (fun t =>
        t.docSlot 0 = 0 && t.pos = 1 && t.gpc = 2) = true := by decide
/-- V10.7 and V10.8: three alternatives, index 1 encoded, index 3 refused. -/
theorem test_choice :
    got (exec (.gwChoice 3) (running .encode [0, 1] []
        [0x04000000000000030000000000000000, 0x05000000000000040000000000000000,
          0x05000000000100040000000000000000, 0x05000000000200040000000000000000]))
        (fun t => t.bufByte 0 = 0x40 && t.pos = 2 && t.gpc = 4) = true ∧
      got (exec (.gwChoice 3) (running .decode [] [0xC0]
        [0x04000000000000030000000000000000, 0x05000000000000040000000000000000,
          0x05000000000100040000000000000000, 0x05000000000200040000000000000000]))
        (fun t => ended 4 3 t && t.pos = 2 && t.docSlot 0 = 0) = true := by decide
/-- V10.11. -/
theorem test_alt : got (exec (.gwAlt 0 1) (running .encode [] [] [])) (fun t => ended 5 8 t && t.pos = 0) = true := by
  decide
/-- V10.14's list: the count 2 in two bits, then the body; and a count above the maximum. -/
theorem test_list_n :
    got (exec (.gwListN 0 2 1 1 1) (running .encode [2] []
        [0x06000000000000020001000100010000, 0x07000000000000000000000000000000]))
        (fun t => t.bufByte 0 = 0x80 && t.pos = 2 && t.gpc = 1 && t.base = 1 &&
          t.ls = [⟨1, 1, 2, 1, 0, 1⟩]) = true ∧
      got (exec (.gwListN 0 2 1 1 1) (running .decode [] [0xC0]
        [0x06000000000000020001000100010000, 0x07000000000000000000000000000000]))
        (fun t => ended 3 5 t && t.pos = 2 && t.docSlot 0 = 0) = true := by decide
/-- The count as a varuint; a count of 0 goes past the LEND. -/
theorem test_list_v :
    got (exec (.gwListV 0 2 1 1 1) (running .decode [] [0x02]
        [0x06100000000000020001000100010000, 0x07000000000000000000000000000000]))
        (fun t => t.docSlot 0 = 2 && t.pos = 8 && t.gpc = 1 && t.base = 1) = true ∧
      got (exec (.gwListV 0 2 1 1 1) (running .encode [0] []
        [0x06100000000000020001000100010000, 0x07000000000000000000000000000000]))
        (fun t => t.pos = 8 && t.gpc = 2 && t.base = 0 && t.ls = []) = true := by decide
/-- R194's example, both LEND steps. -/
theorem test_lend :
    got (exec .gwLend { running .encode [] [] [] with gpc := 3, base := 1, ls := [⟨1, 3, 2, 1, 0, 2⟩] })
        (fun t => t.gpc = 1 && t.base = 3 && t.ls = [⟨1, 3, 1, 3, 0, 2⟩]) = true ∧
      got (exec .gwLend { running .encode [] [] [] with gpc := 3, base := 3, ls := [⟨1, 3, 1, 3, 0, 2⟩] })
        (fun t => t.gpc = 4 && t.base = 0 && t.ls = []) = true := by decide
/-- R221's examples. -/
theorem test_enum :
    got (exec (.gwEnum 0 3) (running .encode [2] [] [])) (fun t => t.bufByte 0 = 0x80 && t.pos = 2 && t.gpc = 1) =
        true ∧
      got (exec (.gwEnum 0 3) (running .decode [] [0xC0] [])) (fun t => ended 3 2 t && t.pos = 2) = true := by decide
/-- R222's examples. -/
theorem test_nbit :
    got (exec (.gwNbit 0 1 20) (running .encode [3] [] [])) (fun t => t.bufByte 0 = 0x10 && t.pos = 5) = true ∧
      got (exec (.gwNbit 0 1 20) (running .decode [] [0x98] [])) (fun t => t.docSlot 0 = 20 && t.pos = 5) = true := by
  decide
/-- R224's example, and R223's 80 00 for 0. -/
theorem test_varuint :
    got (exec (.gwVaruint 0 64) (running .encode [300] [] []))
        (fun t => t.bufByte 0 = 0xAC && t.bufByte 1 = 0x02 && t.pos = 16) = true ∧
      got (exec (.gwVaruint 0 8) (running .decode [9] [0x80, 0x00] [])) (fun t => t.docSlot 0 = 0 && t.pos = 16) =
        true := by decide
/-- R226's example "PIX". -/
theorem test_string_n :
    got (exec (.gwStringN 0 7 7) (running .encode [3, 80, 73, 88] [] []))
        (fun t => t.pos = 24 && (List.range 3).map t.bufByte = [0x74, 0x24, 0xD8]) = true := by decide
theorem test_string_v :
    got (exec (.gwStringV 0 7 8) (running .encode [3, 80, 73, 88] [] []))
        (fun t => t.pos = 32 && (List.range 4).map t.bufByte = [0x03, 0x50, 0x49, 0x58]) = true := by decide
/-- A BYTES of two bytes decodes into the length slot and two slots; the third keeps its value (R227). -/
theorem test_bytes_n :
    got (exec (.gwBytesN 0 7) (running .decode [9, 9, 9, 9] [0x46, 0x06, 0x20] []))
        (fun t => (List.range 4).map t.docSlot = [2, 0x30, 0x31, 9] && t.pos = 19) = true := by decide
theorem test_bytes_v :
    got (exec (.gwBytesV 0 7) (running .decode [9, 9, 9, 9] [0x02, 0x30, 0x31] []))
        (fun t => (List.range 4).map t.docSlot = [2, 0x30, 0x31, 9] && t.pos = 24) = true := by decide

/-! The hypotheses of the statements can be met: a state and operands for each, clause by clause, at a boundary
value where the clause has a range -/

/-- `idle` with one operation of the host waiting. -/
def waiting (op : HostOp) : State := { idle [] with inbox := [op] }

/-- `idle` in the fault state. -/
def faulted : State := (idle []).takeFault ⟨.bufferOverflow, 3⟩

theorem witness_CommandDecodeEncode :
    (Instr.bsWriteBits 0xFFFFFFFF 32).isCommand = true ∧ (Instr.bsWriteBits 0xFFFFFFFF 32).wf = true := by decide
theorem witness_DescriptorDecodeEncode :
    (Instr.gwListN 0xFFFF 255 1 0xFFFF 0xFFFF).isCommand = false ∧
      (Instr.gwListN 0xFFFF 255 1 0xFFFF 0xFFFF).wf = true := by decide
theorem witness_AcceptedWordsAreCanonical :
    decodeCommand 0x03000000000000000000002000000000 = .ok (.bsReadBits 32) ∧
      decodeDescriptor 0x02000000000000060000000000000000 = .ok (.gwFail .illegalCommand) := by decide
theorem witness_LegalCommandWords :
    legalCmd 0 = false ∧ (idle []).status.fault = false ∧ (idle []).run = none := by decide
theorem witness_StepRunsTheCommand :
    (waiting (.command 0x04000000000000000000000000000000)).run = none ∧
      (waiting (.command 0x04000000000000000000000000000000)).inbox =
        .command 0x04000000000000000000000000000000 :: [] ∧
      decodeCommand 0x04000000000000000000000000000000 = .ok .bsGetLength := by decide
theorem witness_StepRunsTheDescriptor :
    let s := running .encode [] [] [0x01000000000000000000000000000000]
    s.run = some .encode ∧ s.noReset ∧ s.gpc.toNat < s.params.gtSteps ∧
      decodeDescriptor (s.gtWord s.gpc.toNat) = .ok .gwEnd := by
  unfold State.noReset; decide
theorem witness_FetchFaults_range :
    let s := { running .encode [] [] [] with gpc := 8 }
    s.run = some .encode ∧ s.noReset ∧ s.params.gtSteps ≤ s.gpc.toNat := by
  unfold State.noReset; decide
theorem witness_FetchFaults_word :
    let s := { running .decode [] [] [0, 0, 0, 0, 0, 0, 0, 0] with gpc := 7 }
    s.run = some .decode ∧ s.noReset ∧ s.gpc.toNat < s.params.gtSteps ∧
      legalGW (s.gtWord s.gpc.toNat) = false := by
  unfold State.noReset; decide
theorem witness_NeedsInitialisation :
    (State.resetWith tiny).run = none ∧ (State.resetWith tiny).status.fault = false ∧
      (State.resetWith tiny).status.inited = false := by decide
theorem witness_FaultStateRefuses :
    faulted.status.fault = true ∧ ∀ cap start ext,
      decodeCommand 0x04000000000000000000000000000000 ≠ .ok (.bsInit cap start ext) := by
  refine ⟨by decide, fun cap start ext h => ?_⟩
  have h' : decodeCommand 0x04000000000000000000000000000000 = .ok .bsGetLength := by decide
  rw [h'] at h; cases h
theorem witness_FaultStateLeftOnlyByInit :
    ∃ t, step { faulted with inbox := [.command 0x01000000000000000000004000000008] } = .next t ∧
      faulted.status.fault = true ∧ t.status.fault = false := ⟨_, rfl, by decide, by decide⟩
theorem witness_DescriptorNeedsARun : Instr.gwEnd.isCommand = false ∧ (idle []).run = none := by decide
theorem witness_ResetEvent :
    { running .encode [] [] [] with inbox := [.reset] }.inbox = .reset :: [] ∧
      (idle []).inbox = [] ∧ (idle []).run = none := by decide
theorem witness_RegisterPort :
    (waiting (.regRead 8)).run = none ∧ (waiting (.regRead 8)).inbox = .regRead 8 :: [] ∧
      (waiting (.regRead 9)).inbox = .regRead 9 :: [] ∧ 8 < 9 := by decide
theorem witness_MemoryPort :
    (idle []).params.bufBytes ≤ 8 ∧ (idle []).params.docSlots ≤ 8 ∧ (idle []).params.gtSteps ≤ 8 ∧
      (waiting (.writeBuf 7 0xFF)).run = none ∧
      (waiting (.writeBuf 7 0xFF)).inbox = .writeBuf 7 0xFF :: [] ∧
      ∀ w, HostOp.writeBuf 7 0xFF ≠ .command w :=
  ⟨by decide, by decide, by decide, by decide, by decide, fun _ h => by cases h⟩
theorem witness_InitCommand :
    faulted.run = none ∧ faulted.params.bufBytes < (9 : Word).toNat ∧
      ¬ faulted.params.bufBytes < (8 : Word).toNat ∧ (8 : Word).toNat * 8 < (65 : Word).toNat ∧
      ¬ (8 : Word).toNat * 8 < (64 : Word).toNat := by decide
theorem witness_WriteBitsCommand :
    let s := { idle [] with pos := 32 }
    s.ready ∧ s.cap.toNat ≤ s.params.bufBytes ∧ s.pos.toNat + (32 : Word).toNat ≤ s.cap.toNat * 8 := by
  unfold State.ready; decide
theorem witness_ReadBitsCommand :
    let s := { idle [] with pos := 32 }
    s.ready ∧ (32 : Word).toNat ≤ 32 ∧
      s.pos.toNat + (32 : Word).toNat ≤ (if s.status.limitEn then s.limit.toNat * 8 else s.cap.toNat * 8) := by
  unfold State.ready; decide
theorem witness_ReadBitsCommand_limit :
    let s := { idle [] with pos := 8 }.limited 5
    s.ready ∧ (32 : Word).toNat ≤ 32 ∧ s.status.limitEn = true ∧
      s.pos.toNat + (32 : Word).toNat ≤ (if s.status.limitEn then s.limit.toNat * 8 else s.cap.toNat * 8) := by
  unfold State.ready; decide
theorem witness_BitAccessOverflow :
    let s := { idle [] with pos := 33 }.limited 4
    s.ready ∧ s.cap.toNat * 8 < s.pos.toNat + (32 : Word).toNat ∧
      (if s.status.limitEn then s.limit.toNat * 8 else s.cap.toNat * 8) < s.pos.toNat + (0 : Word).toNat := by
  unfold State.ready; decide
theorem witness_ready : (idle []).ready := by unfold State.ready; decide
theorem witness_ReadMirrorsWrite :
    let s := { idle [] with pos := 61 }
    ∃ t, s.ready ∧ (3 : Word).toNat ≤ 32 ∧ s.cap.toNat ≤ s.params.bufBytes ∧
      s.pos.toNat + (3 : Word).toNat ≤ s.cap.toNat * 8 ∧ exec (.bsWriteBits 5 3) s = .next t ∧
      { t with pos := 61 }.ready ∧ { t with pos := 61 }.pos = s.pos ∧
      s.pos.toNat + (3 : Word).toNat ≤ { t with pos := 61 }.readBound ∧
      ∀ q, s.pos.toNat ≤ q → q < s.pos.toNat + (3 : Word).toNat → { t with pos := 61 }.bufBit q = t.bufBit q := by
  unfold State.ready
  exact ⟨_, by decide, by decide, by decide, by decide, rfl, by decide, rfl, by decide, fun _ _ _ => rfl⟩
theorem witness_PositionOnlyGrows :
    ∃ t, (idle []).registersOk ∧ exec (.bsSetLimit 8) (idle []) = .next t ∧
      (∀ cap start ext, Instr.bsSetLimit 8 ≠ .bsInit cap start ext) ∧ (Instr.bsSetLimit 8).isCommand = true ∧
      (∀ v w, Instr.bsSetLimit 8 ≠ .bsWriteBits v w) ∧ ∀ w, Instr.bsSetLimit 8 ≠ .bsReadBits w :=
  ⟨_, by decide, rfl, by simp, rfl, by simp, by simp⟩

/-- Eight header bytes with the given first two and the tag 0xABCD. -/
def header (version inverse : Byte) : State :=
  { idle [] with buf := cells [version, inverse, 0xAB, 0xCD, 0, 0, 0, 0x28] }

theorem witness_WriteHeaderCommand :
    (idle []).run = none ∧ (idle []).status.fault = false ∧ 8 ≤ (idle []).params.bufBytes := by decide
theorem witness_ReadHeaderCommand_version :
    (header 0x01 0xFF).run = none ∧ (header 0x01 0xFF).status.fault = false ∧
      ((header 0x01 0xFF).bufByte 1).toNat ≠ 255 - ((header 0x01 0xFF).bufByte 0).toNat := by decide
theorem witness_ReadHeaderCommand_tag :
    let s := header 0x02 0xFD
    (s.bufByte 1).toNat = 255 - (s.bufByte 0).toNat ∧
      (s.bufByte 2).toNat * 256 + (s.bufByte 3).toNat ≠ (0xABCE : Half).toNat := by decide
theorem witness_ReadHeaderCommand_found :
    let s := header 0x02 0xFD
    (s.bufByte 1).toNat = 255 - (s.bufByte 0).toNat ∧
      (s.bufByte 2).toNat * 256 + (s.bufByte 3).toNat = (0xABCD : Half).toNat := by decide
theorem witness_HeaderRoundTrip :
    ∃ t, (idle []).run = none ∧ (idle []).status.fault = false ∧ 8 ≤ (idle []).params.bufBytes ∧
      exec (.frWriteHeader 0xFFFFFFFF 0xABCD) (idle []) = .next t ∧ t.run = none ∧ t.status.fault = false ∧
      (∀ a < 8, t.bufByte a = t.bufByte a) ∧ (0xABCE : Half) ≠ 0xABCD :=
  ⟨_, rfl, rfl, by decide, rfl, rfl, rfl, fun _ _ => rfl, by decide⟩
/-- END, FAIL and ALT, with no list open and with one. -/
theorem witness_run :
    (running .encode [] [] []).run = some .encode ∧ (running .encode [] [] []).ls = [] ∧
      { running .decode [] [] [] with ls := [⟨1, 2, 1, 0, 0, 0⟩] }.run = some .decode := by decide

/-- PRES at the last slot of DOC and the last bit of the capacity: the flag 1. -/
theorem witness_PresDescriptor_present :
    let e := { running .encode [0, 0, 0, 0, 0, 0, 0, 1] [] [] with pos := 63 }
    let r := { running .decode [] [0, 0, 0, 0, 0, 0, 0, 1] [] with pos := 63 }
    (e.registersOk ∧ e.base.toNat + (7 : Half).toNat < e.params.docSlots ∧ e.gpc.toNat + 1 < e.params.gtSteps ∧
      e.run = some .encode ∧ (e.docSlot (e.base.toNat + (7 : Half).toNat)).toNat = 1 ∧
      e.pos.toNat + 1 ≤ e.cap.toNat * 8) ∧
    r.registersOk ∧ r.base.toNat + (7 : Half).toNat < r.params.docSlots ∧ r.gpc.toNat + 1 < r.params.gtSteps ∧
      r.run = some .decode ∧ r.bufBit r.pos.toNat = decide (1 = 1) ∧ r.pos.toNat + 1 ≤ r.readBound := by
  dsimp only; constructor <;> decide
/-- PRES with the flag 0 and the farthest skip. -/
theorem witness_PresDescriptor_absent :
    let e := running .encode [] [] []
    let r := running .decode [] [] []
    (e.registersOk ∧ e.jumpOk e.gpc.toNat (e.gpc.toNat + 1 + (6 : Half).toNat) = true ∧ e.run = some .encode ∧
      (e.docSlot (e.base.toNat + (7 : Half).toNat)).toNat = 0 ∧ e.pos.toNat + 1 ≤ e.cap.toNat * 8) ∧
    r.registersOk ∧ r.jumpOk r.gpc.toNat (r.gpc.toNat + 1 + (6 : Half).toNat) = true ∧ r.run = some .decode ∧
      r.bufBit r.pos.toNat = decide (0 = 1) ∧ r.pos.toNat + 1 ≤ r.readBound := by
  dsimp only; constructor <;> decide

/-- V10.7's CHOICE with its three alternatives, over the given DOC and BUF. -/
def choosing (d : Dir) (doc : List Cell64) (buf : List Byte) : State :=
  running d doc buf
    [0x04000000000000030000000000000000, 0x05000000000000040000000000000000, 0x05000000000100040000000000000000,
      0x05000000000200040000000000000000]

/-- Its alternatives as `altsAt` lists them. -/
def threeAlts : List (Half × Half) := [(0, 4), (1, 4), (2, 4)]

theorem witness_altsAt (d : Dir) (doc : List Cell64) (buf : List Byte) :
    (choosing d doc buf).altsAt (choosing d doc buf).gpc.toNat threeAlts := by
  refine ⟨by show 0 + 3 < 8; decide, fun i hi => ?_⟩
  have hi : i < 3 := hi
  match i, hi with
  | 0, _ =>
    exact ⟨by show decodeDescriptor ((choosing .encode [] []).gtWord 1) = .ok (.gwAlt 0 4); decide,
      by show 0 < 8; decide, by show (choosing .encode [] []).jumpOk 3 4 = true; decide⟩
  | 1, _ =>
    exact ⟨by show decodeDescriptor ((choosing .encode [] []).gtWord 2) = .ok (.gwAlt 1 4); decide,
      by show 1 < 8; decide, by show (choosing .encode [] []).jumpOk 3 4 = true; decide⟩
  | 2, _ =>
    exact ⟨by show decodeDescriptor ((choosing .encode [] []).gtWord 3) = .ok (.gwAlt 2 4); decide,
      by show 2 < 8; decide, by show (choosing .encode [] []).jumpOk 3 4 = true; decide⟩
theorem witness_ChoiceSelects_encode :
    let s := choosing .encode [0, 0, 1] []
    2 < threeAlts.length ∧ s.registersOk ∧ threeAlts.length = (3 : Half).toNat ∧ s.run = some .encode ∧
      s.pos.toNat + cl2 (3 : Half).toNat ≤ s.cap.toNat * 8 ∧
      ∀ j (hj : j < threeAlts.length), (s.docSlot (s.base.toNat + threeAlts[j].1.toNat)).toNat = if j = 2 then 1 else 0 := by
  decide
theorem witness_ChoiceSelects_decode :
    let s := choosing .decode [] [0x80]
    2 < threeAlts.length ∧ s.registersOk ∧ threeAlts.length = (3 : Half).toNat ∧ s.run = some .decode ∧
      s.pos.toNat + cl2 (3 : Half).toNat ≤ s.readBound ∧ s.fieldAt s.pos.toNat (cl2 (3 : Half).toNat) 2 := by
  unfold State.fieldAt; decide
theorem witness_ChoiceRejects_none :
    let s := choosing .encode [] []
    s.registersOk ∧ threeAlts.length = (3 : Half).toNat ∧ s.run = some .encode ∧
      ∀ j (hj : j < threeAlts.length), (s.docSlot (s.base.toNat + threeAlts[j].1.toNat)).toNat = 0 := by decide
theorem witness_ChoiceRejects_two :
    let s := choosing .encode [1, 0, 1] []
    s.run = some .encode ∧
      (∀ j (hj : j < threeAlts.length), (s.docSlot (s.base.toNat + threeAlts[j].1.toNat)).toNat ≤ 1) ∧
      ∃ j k, ∃ (hj : j < threeAlts.length) (hk : k < threeAlts.length), j ≠ k ∧
        (s.docSlot (s.base.toNat + threeAlts[j].1.toNat)).toNat = 1 ∧
        (s.docSlot (s.base.toNat + threeAlts[k].1.toNat)).toNat = 1 :=
  ⟨by decide, by decide, 0, 2, by decide, by decide, by decide, by decide, by decide⟩
theorem witness_ChoiceRejects_above :
    let s := choosing .encode [1, 0, 2] []
    s.run = some .encode ∧
      ∃ j, ∃ hj : j < threeAlts.length, 1 < (s.docSlot (s.base.toNat + threeAlts[j].1.toNat)).toNat :=
  ⟨by decide, 2, by decide, by decide⟩
theorem witness_ChoiceRejects_index :
    let s := choosing .decode [] [0xC0]
    s.registersOk ∧ s.run = some .decode ∧ s.pos.toNat + cl2 (3 : Half).toNat ≤ s.readBound ∧
      (3 : Half).toNat ≤ s.bitsValue s.pos.toNat (cl2 (3 : Half).toNat) := by decide

/-- A CHOICE at the last word but one, whose second ALT word is off the table. -/
theorem witness_ChoiceRejects_table :
    let s := { running .encode [] [] [] with
      gpc := 6, gt := cells (List.replicate 7 0 ++ [0x05000000000000040000000000000000]) }
    s.run = some .encode ∧ s.altWords s.gpc.toNat 1 ∧ 1 < (2 : Half).toNat ∧
      s.params.gtSteps ≤ s.gpc.toNat + 1 + 1 := by
  refine ⟨by decide, ⟨by decide, fun j hj => ⟨0, 4, ?_⟩⟩, by decide, by decide⟩
  obtain rfl : j = 0 := by omega
  decide
/-- A CHOICE whose second word behind it is illegal, and one whose second word is END. -/
theorem witness_ChoiceRejects_word :
    let s := running .encode [] [] [0x04000000000000020000000000000000, 0x05000000000000040000000000000000, 0]
    let e := running .encode [] [] [0x04000000000000020000000000000000, 0x05000000000000040000000000000000,
      0x01000000000000000000000000000000]
    (s.run = some .encode ∧ s.altWords s.gpc.toNat 1 ∧ 1 < (2 : Half).toNat ∧
      s.gpc.toNat + 1 + 1 < s.params.gtSteps ∧ legalGW (s.gtWord (s.gpc.toNat + 1 + 1)) = false) ∧
    e.run = some .encode ∧ e.altWords e.gpc.toNat 1 ∧ decodeDescriptor (e.gtWord (e.gpc.toNat + 1 + 1)) = .ok .gwEnd ∧
      ∀ off target, Instr.gwEnd ≠ .gwAlt off target := by
  refine ⟨⟨by decide, ⟨by decide, fun j hj => ⟨0, 4, ?_⟩⟩, by decide, by decide, by decide⟩, by decide,
    ⟨by decide, fun j hj => ⟨0, 4, ?_⟩⟩, by decide, fun _ _ h => nomatch h⟩ <;>
  · obtain rfl : j = 0 := by omega
    decide
/-- A CHOICE whose second target is its own ALT word. -/
theorem witness_ChoiceRejects_target :
    let s := running .encode [] [] [0x04000000000000020000000000000000, 0x05000000000000040000000000000000,
      0x05000000000100020000000000000000]
    s.run = some .encode ∧ s.altWords s.gpc.toNat 2 ∧ 2 = (2 : Half).toNat ∧
      (∃ j < 2, ∃ off target : Half, decodeDescriptor (s.gtWord (s.gpc.toNat + 1 + j)) = .ok (.gwAlt off target) ∧
        s.jumpOk (s.gpc.toNat + (2 : Half).toNat) target.toNat = false) := by
  refine ⟨by decide, ⟨by decide, fun j hj => ?_⟩, by decide, 1, by decide, 1, 2, by decide, by decide⟩
  match j, hj with
  | 0, _ => exact ⟨0, 4, by decide, by decide⟩
  | 1, _ => exact ⟨1, 2, by decide, by decide⟩

/-- V10.14's LIST over the given DOC and BUF: at most two elements of one slot, an empty body. -/
def listing (d : Dir) (doc : List Cell64) (buf : List Byte) : State :=
  running d doc buf [0x06000000000000020001000100010000, 0x07000000000000000000000000000000]

theorem witness_listAt (d : Dir) (doc : List Cell64) (buf : List Byte) :
    (listing d doc buf).listAt 0 2 1 1 1 :=
  ⟨by show 0 < 8; decide, by show 1 < 8; decide,
    by show Decode.topByte ((listing .encode [] []).gtWord 1) = 7#8; decide, fun f h => (by cases h), fun _ => by show 3 ≤ 8; decide,
    by show 0 ≠ 2; decide⟩
theorem witness_ListDescriptor_encode :
    let s := listing .encode [2] []
    s.registersOk ∧ 2 ≤ (2 : Half).toNat ∧ s.run = some .encode ∧
      (s.docSlot (s.base.toNat + (0 : Half).toNat)).toNat = 2 ∧ lenBits .bounded (2 : Half).toNat 2 2 ∧
      lenBits .varuint (2 : Half).toNat 2 8 ∧ s.pos.toNat + 8 ≤ s.cap.toNat * 8 :=
  ⟨by decide, by decide, by decide, by decide, rfl, ⟨1, ⟨by decide, by decide, .inl rfl⟩, rfl⟩, by decide⟩
theorem witness_ListDescriptor_empty :
    let s := listing .encode [0] []
    s.registersOk ∧ s.jumpOk s.gpc.toNat (s.gpc.toNat + 1 + (1 : Half).toNat) = true ∧
      (s.docSlot (s.base.toNat + (0 : Half).toNat)).toNat = 0 ∧ lenBits .bounded (2 : Half).toNat 0 2 :=
  ⟨by decide, by decide, by decide, rfl⟩
theorem witness_ListDescriptor_decode :
    let s := listing .decode [] [0x80]
    s.registersOk ∧ s.run = some .decode ∧ s.lenReadable .bounded (2 : Half).toNat s.pos.toNat 2 2 ∧
      s.pos.toNat + 2 ≤ s.readBound := by
  unfold State.lenReadable State.fieldAt; decide
theorem witness_ListDescriptor_decode_v :
    let s := listing .decode [] [0x82, 0x00]
    s.registersOk ∧ s.run = some .decode ∧ s.lenReadable .varuint (2 : Half).toNat s.pos.toNat 2 16 ∧
      s.pos.toNat + 16 ≤ s.readBound := by
  refine ⟨by decide, by decide, ⟨[0x82, 0x00], ?_, rfl, rfl, by decide⟩, by decide⟩
  unfold State.varuintGroupsAt State.fieldAt; decide
/-- A LIST body of eight words in a GT of eight, one whose last word is zero, one that ends at the enclosing LEND,
and one with both frames in use. -/
theorem witness_ListDescriptor_refused :
    let s := listing .encode [1] []
    let n := { s with ls := [⟨0, 1, 1, 0, 0, 0⟩] }
    let d := { s with ls := [⟨0, 2, 1, 0, 0, 0⟩, ⟨0, 3, 1, 0, 0, 0⟩] }
    (s.run = some .encode ∧ s.base.toNat + (0 : Half).toNat < s.params.docSlots ∧
      s.params.gtSteps ≤ s.gpc.toNat + (8 : Half).toNat ∧
      s.gpc.toNat + (1 : Half).toNat < s.params.gtSteps ∧
      Decode.topByte (s.gtWord (s.gpc.toNat + (0 : Half).toNat)) ≠ 0x07#8 ∧
      Decode.topByte (s.gtWord (s.gpc.toNat + (1 : Half).toNat)) = 0x07#8) ∧
    (n.ls.head? = some ⟨0, 1, 1, 0, 0, 0⟩ ∧ (1 : Half).toNat ≤ n.gpc.toNat + (1 : Half).toNat) ∧
    (∀ f, d.ls.head? = some f → d.gpc.toNat + (1 : Half).toNat < f.stop.toNat) ∧
      (0 < (2 : Half).toNat →
        d.base.toNat + (1 : Half).toNat + (2 : Half).toNat * (1 : Half).toNat ≤ d.params.docSlots) ∧
      d.ls.length = d.params.loopDepth := by
  refine ⟨by decide, by decide, fun f h => ?_, by decide, by decide⟩
  cases h; decide
theorem witness_ListFrame :
    (listing .encode [2] []).registersOk ∧ 1 ≤ (1 : Half).toNat ∧ 1 ≤ 2 ∧ 2 ≤ (2 : Half).toNat := by decide
theorem witness_LendDescriptor_next :
    let s := { running .encode [] [] [] with gpc := 3, ls := [⟨1, 3, 2, 2, 0, 6⟩] }
    let z := { running .encode [] [] [] with gpc := 3, base := 8, ls := [⟨1, 3, 2, 8, 0, 0⟩] }
    s.run = some .encode ∧ Config.legal s.params ∧ s.ls = ⟨1, 3, 2, 2, 0, 6⟩ :: [] ∧ (3 : Half) = s.gpc ∧
      2 ≤ (2 : Half).toNat ∧ (2 : Word).toNat + (6 : Half).toNat ≤ s.params.docSlots ∧
      z.run = some .encode ∧ z.ls = ⟨1, 3, 2, 8, 0, 0⟩ :: [] ∧ (3 : Half) = z.gpc ∧
      (8 : Word).toNat + (0 : Half).toNat ≤ z.params.docSlots := by decide
theorem witness_LendDescriptor_leave :
    let s := { running .encode [] [] [] with gpc := 6, ls := [⟨1, 6, 1, 1, 0, 2⟩] }
    let l := { running .encode [] [] [] with gpc := 7, ls := [⟨1, 7, 1, 1, 0, 2⟩] }
    s.ls = ⟨1, 6, 1, 1, 0, 2⟩ :: [] ∧ (6 : Half) = s.gpc ∧ (1 : Half).toNat = 1 ∧
      s.gpc.toNat + 1 < s.params.gtSteps ∧
      l.ls = ⟨1, 7, 1, 1, 0, 2⟩ :: [] ∧ (7 : Half) = l.gpc ∧ l.params.gtSteps ≤ l.gpc.toNat + 1 := by decide
theorem witness_LendDescriptor_wrong :
    (running .encode [] [] []).ls = [] ∧
      { running .encode [] [] [] with ls := [⟨1, 6, 1, 1, 0, 2⟩] }.ls = ⟨1, 6, 1, 1, 0, 2⟩ :: [] ∧
      (6 : Half) ≠ (running .encode [] [] []).gpc := by decide

theorem witness_EnumDescriptor :
    let e := { running .encode [0, 0, 0, 0, 0, 0, 0, 2] [] [] with pos := 62, gpc := 6 }
    let r := { running .decode [] [0, 0, 0, 0, 0, 0, 0, 2] [] with pos := 62, gpc := 6 }
    (e.registersOk ∧ 2 < (3 : Half).toNat ∧ e.base.toNat + (7 : Half).toNat < e.params.docSlots ∧
      e.gpc.toNat + 1 < e.params.gtSteps ∧ e.run = some .encode ∧
      (e.docSlot (e.base.toNat + (7 : Half).toNat)).toNat = 2 ∧
      e.pos.toNat + cl2 (3 : Half).toNat ≤ e.cap.toNat * 8) ∧
    r.registersOk ∧ r.run = some .decode ∧ r.fieldAt r.pos.toNat (cl2 (3 : Half).toNat) 2 ∧
      r.pos.toNat + cl2 (3 : Half).toNat ≤ r.readBound := by
  unfold State.fieldAt; dsimp only; constructor <;> decide
theorem witness_NbitDescriptor :
    let e := { running .encode [20] [] [] with pos := 59 }
    let r := { running .decode [] [0, 0, 0, 0, 0, 0, 0, 0x13] [] with pos := 59 }
    (e.registersOk ∧ (1 : Half).toNat ≤ 20 ∧ 20 ≤ (20 : Half).toNat ∧
      5 = cl2 ((20 : Half).toNat - (1 : Half).toNat + 1) ∧ e.gpc.toNat + 1 < e.params.gtSteps ∧
      e.run = some .encode ∧ (e.docSlot (e.base.toNat + (0 : Half).toNat)).toNat = 20 ∧
      e.pos.toNat + 5 ≤ e.cap.toNat * 8) ∧
    r.registersOk ∧ r.run = some .decode ∧ r.fieldAt r.pos.toNat 5 (20 - (1 : Half).toNat) ∧
      r.pos.toNat + 5 ≤ r.readBound := by
  unfold State.fieldAt; dsimp only; constructor <;> decide
theorem witness_VaruintDescriptor_encode :
    let s := running .encode [0xFFFFFFFFFF] [] []
    s.registersOk ∧ (64 : Half).toNat ≤ 64 ∧ s.base.toNat + (0 : Half).toNat < s.params.docSlots ∧
      s.gpc.toNat + 1 < s.params.gtSteps ∧ s.run = some .encode ∧
      (s.docSlot (s.base.toNat + (0 : Half).toNat)).toNat = 0xFFFFFFFFFF ∧ 0xFFFFFFFFFF < 2 ^ (64 : Half).toNat ∧
      varuintGroups 0xFFFFFFFFFF 6 ∧ s.pos.toNat + 8 * 6 ≤ s.cap.toNat * 8 := by
  unfold varuintGroups; decide
theorem witness_VaruintDescriptor_decode :
    let s := running .decode [] [0x80, 0x80, 0x00] []
    s.registersOk ∧ (1 : Half).toNat ≤ 64 ∧ s.run = some .decode ∧
      s.varuintGroupsAt s.pos.toNat [0x80, 0x80, 0x00] ∧
      varuintValue [0x80, 0x80, 0x00] < 2 ^ (1 : Half).toNat ∧ s.pos.toNat + 8 * 3 ≤ s.readBound := by
  unfold State.varuintGroupsAt State.fieldAt; decide
theorem witness_StringEncodes :
    let s := running .encode [3, 80, 73, 88] [] []
    s.run = some .encode ∧ s.registersOk ∧ s.base.toNat + (0 : Half).toNat + (7 : Half).toNat < s.params.docSlots ∧
      s.gpc.toNat + 1 < s.params.gtSteps ∧ (s.docSlot (s.base.toNat + (0 : Half).toNat)).toNat = 3 ∧
      3 ≤ (7 : Half).toNat ∧
      (∀ j < 3, (s.docSlot (s.base.toNat + (0 : Half).toNat + 1 + j)).toNat < 2 ^ (8 : Byte).toNat) ∧
      lenBits .bounded (7 : Half).toNat 3 3 ∧ lenBits .varuint (7 : Half).toNat 3 8 ∧
      s.pos.toNat + 8 + 3 * (8 : Byte).toNat ≤ s.cap.toNat * 8 :=
  ⟨by decide, by decide, by decide, by decide, by decide, by decide, by decide, rfl,
    ⟨1, ⟨by decide, by decide, .inl rfl⟩, rfl⟩, by decide⟩
theorem witness_StringDecodes :
    let s := running .decode [] [0x02, 0x30, 0x31] []
    s.run = some .decode ∧ s.registersOk ∧ (8 : Byte).toNat ≤ 8 ∧
      s.base.toNat + (0 : Half).toNat + (7 : Half).toNat < s.params.docSlots ∧ s.gpc.toNat + 1 < s.params.gtSteps ∧
      s.lenReadable .varuint (7 : Half).toNat s.pos.toNat 2 8 ∧
      s.lenReadable .bounded (7 : Half).toNat s.pos.toNat 0 3 ∧ 2 ≤ (7 : Half).toNat ∧
      s.pos.toNat + 8 + 2 * (8 : Byte).toNat ≤ s.readBound := by
  refine ⟨by decide, by decide, by decide, by decide, by decide, ⟨[0x02], ?_, rfl, rfl, by decide⟩, ?_, by decide,
    by decide⟩
  · unfold State.varuintGroupsAt State.fieldAt; decide
  · unfold State.lenReadable State.fieldAt; decide
theorem witness_ValueBounds_encode :
    let s := running .encode [3] [] []
    s.registersOk ∧ s.base.toNat + (0 : Half).toNat < s.params.docSlots ∧ s.run = some .encode ∧
      (s.docSlot (s.base.toNat + (0 : Half).toNat)).toNat = 3 ∧ (3 : Half).toNat ≤ 3 ∧
      ((3 : Nat) < (4 : Half).toNat ∨ (2 : Half).toNat < 3) ∧ 2 ^ (1 : Half).toNat ≤ 3 ∧ 1 < 3 := by decide
theorem witness_ValueBounds_decode :
    let s := running .decode [] [0xC0] []
    s.registersOk ∧ s.run = some .decode ∧ s.pos.toNat + cl2 (3 : Half).toNat ≤ s.readBound ∧
      (3 : Half).toNat ≤ s.bitsValue s.pos.toNat (cl2 (3 : Half).toNat) ∧
      s.pos.toNat + cl2 ((3 : Half).toNat - (1 : Half).toNat + 1) ≤ s.readBound ∧
      (3 : Half).toNat < (1 : Half).toNat +
        s.bitsValue s.pos.toNat (cl2 ((3 : Half).toNat - (1 : Half).toNat + 1)) := by decide
/-- A value above 2^7 at the second group, and ten groups that all announce another. -/
theorem witness_ValueBounds_varuint :
    let s := running .decode [] [0x80, 0x01] []
    let t := { running .decode [] [] [] with
      params := { tiny with bufBytes := 10 }, cap := 10, buf := cells (List.replicate 10 0x80) }
    (s.run = some .decode ∧ s.registersOk ∧ s.base.toNat + (0 : Half).toNat + 0 < s.params.docSlots ∧
      s.octetsAt s.pos.toNat [0x80, 0x01] ∧ s.pos.toNat + 8 * 2 ≤ s.readBound ∧
      varuintValue [0x80] < 2 ^ 7 ∧ 2 ^ 7 ≤ varuintValue [0x80, 0x01]) ∧
    t.run = some .decode ∧ t.registersOk ∧ t.octetsAt t.pos.toNat (List.replicate 10 0x80) ∧
      t.pos.toNat + 8 * 10 ≤ t.readBound ∧ varuintValue (List.replicate 10 0x80) < 2 ^ 32 ∧
      ∀ o ∈ List.replicate 10 0x80, 128 ≤ o := by
  unfold State.octetsAt State.fieldAt; dsimp only; constructor <;> decide
/-- A second character that does not fit four bits. -/
theorem witness_ValueBounds_chars :
    let s := running .encode [2, 9, 16] [] []
    charsForm (.gwStringN 0 7 4) .bounded 0 7 4 ∧ s.run = some .encode ∧ s.registersOk ∧
      s.base.toNat + (0 : Half).toNat + (7 : Half).toNat < s.params.docSlots ∧
      (s.docSlot (s.base.toNat + (0 : Half).toNat)).toNat = 2 ∧ 2 ≤ (7 : Half).toNat ∧
      lenBits .bounded (7 : Half).toNat 2 3 ∧ 1 < 2 ∧
      (∀ l < 1, (s.docSlot (s.base.toNat + (0 : Half).toNat + 1 + l)).toNat < 2 ^ (4 : Byte).toNat) ∧
      2 ^ (4 : Byte).toNat ≤ (s.docSlot (s.base.toNat + (0 : Half).toNat + 1 + 1)).toNat ∧
      s.pos.toNat + 3 + 1 * (4 : Byte).toNat ≤ s.cap.toNat * 8 :=
  ⟨.inl ⟨rfl, rfl⟩, by decide, by decide, by decide, by decide, by decide, rfl, by decide, by decide, by decide,
    by decide⟩
/-- One bit of room is missing: POS stands behind the last bit that may be written, or read. -/
theorem witness_BitAccessOverflow_first :
    let e := { running .encode [1, 0, 0, 0, 0, 0, 0, 0] [] [] with pos := 64 }
    let r := { running .decode [] [] [] with pos := 32, limit := 4, status := { (idle []).status with limitEn := true } }
    (e.run = some .encode ∧ e.firstAccess .encode (.gwPres 0 0) 1 ∧ e.firstAccess .encode (.gwEnum 0 2) 1 ∧
      e.firstAccess .encode (.gwNbit 0 1 2) 1 ∧ e.firstAccess .encode (.gwVaruint 0 64) 8 ∧
      e.firstAccess .encode (.gwStringN 0 1 8) 1 ∧ e.cap.toNat * 8 < e.pos.toNat + 1) ∧
    r.run = some .decode ∧ r.firstAccess .decode (.gwPres 0 0) 1 ∧ r.firstAccess .decode (.gwBytesV 0 1) 8 ∧
      (if r.status.limitEn then r.limit.toNat * 8 else r.cap.toNat * 8) < r.pos.toNat + 1 :=
  ⟨⟨by decide, .inl ⟨0, 0, rfl, by decide, rfl, fun _ => by decide⟩,
      .inr (.inr (.inl ⟨0, 2, rfl, by decide, by decide, fun _ => by decide⟩)),
      .inr (.inr (.inr (.inl ⟨0, 1, 2, rfl, by decide, by decide, fun _ => by decide⟩))),
      .inr (.inr (.inr (.inr (.inl ⟨0, 64, rfl, by decide, rfl, fun _ => by decide⟩)))),
      .inr (.inr (.inr (.inr (.inr (.inl
        ⟨.bounded, 0, 1, 8, .inl ⟨rfl, rfl⟩, by decide, by decide, fun _ => by decide⟩))))), by decide⟩,
    by decide, .inl ⟨0, 0, rfl, by decide, rfl, fun h => nomatch h⟩,
    .inr (.inr (.inr (.inr (.inr (.inl
      ⟨.varuint, 0, 1, 8, .inr (.inr (.inr ⟨rfl, rfl, rfl⟩)), by decide, rfl, fun h => nomatch h⟩))))), by decide⟩
/-- The same for CHOICE and LIST, whose ALT words and LEND stand behind them. -/
theorem witness_BitAccessOverflow_control :
    let c := { choosing .encode [0, 0, 1] [] with pos := 63 }
    let l := { listing .encode [2] [] with pos := 63 }
    c.run = some .encode ∧ c.firstAccess .encode (.gwChoice 3) 2 ∧ c.cap.toNat * 8 < c.pos.toNat + 2 ∧
      l.run = some .encode ∧ l.firstAccess .encode (.gwListN 0 2 1 1 1) 2 ∧ l.cap.toNat * 8 < l.pos.toNat + 2 :=
  ⟨by decide, .inr (.inl ⟨3, threeAlts, rfl, rfl, witness_altsAt .encode [0, 0, 1] [], by decide,
      fun _ => ⟨2, by decide, by decide⟩⟩), by decide, by decide, .inr (.inr (.inr (.inr (.inr (.inr
      ⟨.bounded, 0, 2, 1, 1, 1, .inl ⟨rfl, rfl⟩, witness_listAt .encode [2] [], by decide, fun _ => by decide⟩))))),
    by decide⟩
/-- V6.20: a group that announces another at the end of the capacity; and the same on encode. -/
theorem witness_BitAccessOverflow_varuint :
    let r := { running .decode [] [0x80] [] with cap := 1 }
    let e := { running .encode [300] [] [] with cap := 1 }
    (r.run = some .decode ∧ r.registersOk ∧ r.octetsAt r.pos.toNat [0x80] ∧ (∀ o ∈ [0x80], 128 ≤ o) ∧
      varuintValue [0x80] < 2 ^ 64 ∧ r.pos.toNat + 8 * 1 ≤ r.readBound ∧ r.readBound < r.pos.toNat + 8 * (1 + 1)) ∧
    e.run = some .encode ∧ e.registersOk ∧ (e.docSlot (e.base.toNat + (0 : Half).toNat)).toNat = 300 ∧
      300 ≤ 2 ^ (64 : Half).toNat - 1 ∧ varuintGroups 300 2 ∧ e.pos.toNat + 8 * 1 ≤ e.cap.toNat * 8 ∧
      e.cap.toNat * 8 < e.pos.toNat + 8 * (1 + 1) := by
  unfold State.octetsAt State.fieldAt varuintGroups; dsimp only; constructor <;> decide
theorem witness_BitAccessOverflow_moves :
    (running .decode [] [] []).movesVaruint (.gwVaruint 0 64) 0 64 (2 ^ (64 : Half).toNat - 1) ∧
      (running .decode [] [] []).movesVaruint (.gwStringV 0 7 4) 0 32 7 ∧
      (listing .decode [] []).movesVaruint (.gwListV 0 2 1 1 1) 0 32 2 :=
  ⟨.inl ⟨64, rfl, by decide, rfl, rfl⟩, .inr (.inl ⟨7, 4, .inr (.inl ⟨rfl, rfl⟩), by decide, rfl, rfl⟩),
    .inr (.inr ⟨2, 1, 1, 1, .inr ⟨rfl, rfl⟩, witness_listAt .decode _ _, rfl, rfl⟩)⟩
/-- V9.4: two bytes announced, one and a half there; and the same on encode. -/
theorem witness_BitAccessOverflow_chars :
    let r := { running .decode [] [0x23, 0x03] [] with cap := 2, params := { tiny with docSlots := 9 } }
    let e := { running .encode [2, 0x30, 0x31] [] [] with cap := 2 }
    (charsForm (.gwBytesN 0 8) .bounded 0 8 8 ∧ r.run = some .decode ∧ r.registersOk ∧
      r.base.toNat + (0 : Half).toNat + (8 : Half).toNat < r.params.docSlots ∧ 2 ≤ (8 : Half).toNat ∧ 1 < 2 ∧
      r.lenReadable .bounded (8 : Half).toNat r.pos.toNat 2 4 ∧ r.pos.toNat + 4 + 1 * (8 : Byte).toNat ≤ r.readBound ∧
      r.readBound < r.pos.toNat + 4 + (1 + 1) * (8 : Byte).toNat) ∧
    e.run = some .encode ∧ e.registersOk ∧ e.base.toNat + (0 : Half).toNat + (7 : Half).toNat < e.params.docSlots ∧
      (e.docSlot (e.base.toNat + (0 : Half).toNat)).toNat = 2 ∧ lenBits .bounded (7 : Half).toNat 2 3 ∧
      (∀ l ≤ 1, (e.docSlot (e.base.toNat + (0 : Half).toNat + 1 + l)).toNat < 2 ^ (8 : Byte).toNat) ∧
      e.pos.toNat + 3 + 1 * (8 : Byte).toNat ≤ e.cap.toNat * 8 ∧
      e.cap.toNat * 8 < e.pos.toNat + 3 + (1 + 1) * (8 : Byte).toNat := by
  refine ⟨⟨.inr (.inr (.inl ⟨rfl, rfl, rfl⟩)), by decide, by decide, by decide, by decide, by decide, ?_, by decide,
    by decide⟩, by decide, by decide, by decide, by decide, rfl, by decide, by decide, by decide⟩
  unfold State.lenReadable State.fieldAt; decide
/-- A decode step at the read bound. -/
theorem witness_BitAccessOverflow_bound :
    let s := { choosing .decode [] [] with pos := 64 }
    s.run = some .decode ∧ s.noReset ∧ s.registersOk ∧ ∃ t, step s = .next t :=
  ⟨rfl, by unfold State.noReset; decide, by decide, ⟨_, rfl⟩⟩
theorem witness_CountBounds_encode :
    let s := running .encode [3] [] []
    s.registersOk ∧ s.base.toNat + (0 : Half).toNat + (2 : Half).toNat < s.params.docSlots ∧
      s.run = some .encode ∧ (2 : Half).toNat < (s.docSlot (s.base.toNat + (0 : Half).toNat)).toNat := by decide
theorem witness_CountBounds_decode :
    let s := listing .decode [] [0xC0]
    s.registersOk ∧ s.base.toNat + (0 : Half).toNat + 0 < s.params.docSlots ∧ s.run = some .decode ∧
      s.lenReadable .bounded (2 : Half).toNat s.pos.toNat 3 2 ∧ s.pos.toNat + 2 ≤ s.readBound ∧
      (2 : Half).toNat < 3 := by
  unfold State.lenReadable State.fieldAt; decide
theorem witness_SlotRange :
    let s := running .decode [] [] []
    s.run = some .decode ∧ s.params.docSlots ≤ s.base.toNat + (8 : Half).toNat + 0 ∧
      s.params.docSlots ≤ s.base.toNat + (0 : Half).toNat + (8 : Half).toNat := by decide
/-- A CHOICE whose second ALT word names slot 8 of 8. -/
theorem witness_SlotRange_choice :
    let s := running .decode [] [] [0x04000000000000030000000000000000, 0x05000000000000040000000000000000,
      0x05000000000800040000000000000000, 0x05000000000200040000000000000000]
    s.run = some .decode ∧ 1 < (3 : Half).toNat ∧ s.altWords s.gpc.toNat 1 ∧
      s.gpc.toNat + 1 + 1 < s.params.gtSteps ∧
      decodeDescriptor (s.gtWord (s.gpc.toNat + 1 + 1)) = .ok (.gwAlt 8 4) ∧
      s.params.docSlots ≤ s.base.toNat + (8 : Half).toNat := by
  refine ⟨by decide, by decide, ⟨by decide, fun j hj => ⟨0, 4, ?_⟩⟩, by decide, by decide, by decide⟩
  obtain rfl : j = 0 := by omega
  decide
/-- Two elements of four slots from slot 1 on end one slot outside DOC. -/
theorem witness_SlotRange_elements :
    let s := listing .decode [] []
    listForm (.gwListV 0 2 1 1 4) .varuint 0 2 1 1 4 ∧ s.run = some .decode ∧
      s.base.toNat + (0 : Half).toNat < s.params.docSlots ∧ s.gpc.toNat + (1 : Half).toNat < s.params.gtSteps ∧
      Decode.topByte (s.gtWord (s.gpc.toNat + (1 : Half).toNat)) = 0x07#8 ∧
      (∀ f, s.ls.head? = some f → s.gpc.toNat + (1 : Half).toNat < f.stop.toNat) ∧ 0 < (2 : Half).toNat ∧
      s.params.docSlots < s.base.toNat + (1 : Half).toNat + (2 : Half).toNat * (4 : Half).toNat :=
  ⟨.inr ⟨rfl, rfl⟩, by decide, by decide, by decide, by decide, fun f h => (by cases h), by decide, by decide⟩
theorem witness_SequencingCheckComesLast_fixed :
    let e := { running .encode [2] [] [] with gpc := 7 }
    let r := { running .decode [] [0x80] [] with gpc := 7 }
    (e.run = some .encode ∧ e.registersOk ∧ carries (.gwEnum 0 3) 0 2 2 2 ∧ carries (.gwNbit 0 1 4) 0 2 1 2 ∧
      e.base.toNat + (0 : Half).toNat < e.params.docSlots ∧ e.params.gtSteps ≤ e.gpc.toNat + 1 ∧
      (e.docSlot (e.base.toNat + (0 : Half).toNat)).toNat = 2 ∧ e.pos.toNat + 2 ≤ e.cap.toNat * 8) ∧
    r.run = some .decode ∧ r.registersOk ∧ r.params.gtSteps ≤ r.gpc.toNat + 1 ∧ r.fieldAt r.pos.toNat 2 2 ∧
      r.pos.toNat + 2 ≤ r.readBound :=
  ⟨⟨by decide, by decide, .inl ⟨3, rfl, by decide, rfl, by decide⟩,
      .inr ⟨1, 4, rfl, by decide, by decide, by decide, by decide⟩, by decide, by decide, by decide, by decide⟩,
    by decide, by decide, by decide, by unfold State.fieldAt; decide, by decide⟩
theorem witness_SequencingCheckComesLast_varuint :
    let e := { running .encode [300] [] [] with gpc := 7 }
    let r := { running .decode [] [0xAC, 0x02] [] with gpc := 7 }
    (e.run = some .encode ∧ e.registersOk ∧ (e.docSlot (e.base.toNat + (0 : Half).toNat)).toNat = 300 ∧
      300 < 2 ^ (9 : Half).toNat ∧ varuintGroups 300 2 ∧ e.pos.toNat + 8 * 2 ≤ e.cap.toNat * 8) ∧
    r.run = some .decode ∧ r.registersOk ∧ r.varuintGroupsAt r.pos.toNat [0xAC, 0x02] ∧
      varuintValue [0xAC, 0x02] < 2 ^ (9 : Half).toNat ∧ r.pos.toNat + 8 * 2 ≤ r.readBound := by
  unfold varuintGroups State.varuintGroupsAt State.fieldAt; dsimp only; constructor <;> decide
theorem witness_SequencingCheckComesLast_chars :
    let e := { running .encode [1, 9] [] [] with gpc := 7 }
    let r := { running .decode [] [0x01, 0x90] [] with gpc := 7 }
    charsForm (.gwStringV 0 7 4) .varuint 0 7 4 ∧
    (e.run = some .encode ∧ e.registersOk ∧ e.base.toNat + (0 : Half).toNat + (7 : Half).toNat < e.params.docSlots ∧
      (e.docSlot (e.base.toNat + (0 : Half).toNat)).toNat = 1 ∧ 1 ≤ (7 : Half).toNat ∧
      (∀ j < 1, (e.docSlot (e.base.toNat + (0 : Half).toNat + 1 + j)).toNat < 2 ^ (4 : Byte).toNat) ∧
      lenBits .varuint (7 : Half).toNat 1 8 ∧ e.pos.toNat + 8 + 1 * (4 : Byte).toNat ≤ e.cap.toNat * 8) ∧
    r.run = some .decode ∧ r.registersOk ∧ (4 : Byte).toNat ≤ 8 ∧
      r.lenReadable .varuint (7 : Half).toNat r.pos.toNat 1 8 ∧
      r.pos.toNat + 8 + 1 * (4 : Byte).toNat ≤ r.readBound := by
  refine ⟨.inr (.inl ⟨rfl, rfl⟩), ⟨by decide, by decide, by decide, by decide, by decide, by decide,
    ⟨1, ⟨by decide, by decide, .inl rfl⟩, rfl⟩, by decide⟩, by decide, by decide, by decide,
    ⟨[0x01], ?_, rfl, rfl, by decide⟩, by decide⟩
  unfold State.varuintGroupsAt State.fieldAt; decide
/-- PRES with the flag 1 at the last word, and with the flag 0 and a skip that leaves GT. -/
theorem witness_SequencingCheckComesLast_pres :
    let e := { running .encode [1, 0] [] [] with gpc := 7 }
    let r := { running .decode [] [0x40] [] with gpc := 7 }
    (e.run = some .encode ∧ e.registersOk ∧ e.params.gtSteps ≤ e.gpc.toNat + 1 ∧
      (e.docSlot (e.base.toNat + (0 : Half).toNat)).toNat = 1 ∧
      e.jumpOk e.gpc.toNat (e.gpc.toNat + 1 + (0 : Half).toNat) = false ∧
      (e.docSlot (e.base.toNat + (1 : Half).toNat)).toNat = 0 ∧ e.pos.toNat + 1 ≤ e.cap.toNat * 8) ∧
    r.run = some .decode ∧ r.registersOk ∧ r.bufBit r.pos.toNat = decide (0 = 1) ∧
      { r with pos := 1 }.bufBit 1 = decide (1 = 1) ∧ r.pos.toNat + 1 ≤ r.readBound := by
  dsimp only; constructor <;> decide
/-- An empty LIST whose LEND is the last word of GT. -/
theorem witness_SequencingCheckComesLast_list :
    let e := { listing .encode [0] [] with
      gpc := 6, gt := cells (List.replicate 7 0 ++ [0x07000000000000000000000000000000]) }
    let r := { e with run := some .decode }
    listForm (.gwListN 0 2 1 1 1) .bounded 0 2 1 1 1 ∧ e.run = some .encode ∧ e.registersOk ∧
      e.listAt 0 2 1 1 1 ∧ e.jumpOk e.gpc.toNat (e.gpc.toNat + 1 + (1 : Half).toNat) = false ∧
      (e.docSlot (e.base.toNat + (0 : Half).toNat)).toNat = 0 ∧ lenBits .bounded (2 : Half).toNat 0 2 ∧
      e.pos.toNat + 2 ≤ e.cap.toNat * 8 ∧ r.run = some .decode ∧
      r.lenReadable .bounded (2 : Half).toNat r.pos.toNat 0 2 ∧ r.pos.toNat + 2 ≤ r.readBound := by
  refine ⟨.inl ⟨rfl, rfl⟩, by decide, by decide, ⟨by decide, by decide, by decide, fun f h => (by cases h),
    fun _ => by decide, by decide⟩, by decide, by decide, rfl, by decide, by decide, ?_, by decide⟩
  unfold State.lenReadable State.fieldAt; decide

/-! Witnesses of the statements about every step and about whole commands: P3's program and its run 1 -/

/-- P3's instance, BUF zero, with P3's grammar, after `BS_INIT 16, 0, 0`. -/
def p3 (doc : List Cell64) : State :=
  { State.resetWith { bufBytes := 16, docSlots := 8, gtSteps := 9, loopDepth := 1 } with
    status := { Status.reset with inited := true }, cap := 16, buf := zeros 8 16, doc := cells doc,
    gt := cells [0x04000000000000020000000000000000, 0x05000000000000030000000000000000,
      0x05000000000100070000000000000000, 0x10000000000200030000000000000000, 0x03000000000300010000000000000000,
      0x110000000004000000FF000000000000, 0x01000000000000000000000000000000, 0x11000000000500010014000000000000,
      0x01000000000000000000000000000000] }

/-- P3 run 1's document. -/
def p3Doc : State := p3 [1, 0, 2, 1, 0xA5, 0, 0, 0]

/-- P3 run 1 after its seven steps (the command and five descriptors): bits 5A 50, POS = 12, GPC = 6. -/
theorem test_p3_encode :
    got (core.run 6 { p3Doc with inbox := [.command 0x20000000000000000000000000000000] }) (fun t =>
      t.bufByte 0 = 0x5A && t.bufByte 1 = 0x50 && t.pos = 12 && t.gpc = 6 && t.run = none && t.rc = 0) = true := by
  decide
theorem witness_invariants :
    p3Doc.memoryOk ∧ p3Doc.registersOk ∧ p3Doc.loopsOk ∧ (∃ t, step p3Doc = .next t) ∧
      p3Doc.status.inited = true ∧ p3Doc.status.fault = false ∧ p3Doc.run = none :=
  ⟨by decide, by decide, by decide, ⟨_, rfl⟩, rfl, rfl, rfl⟩
/-- A state inside a list body meets the loop invariant. -/
theorem witness_LoopInvariant :
    let s := { listing .encode [2] [] with gpc := 1, base := 1, ls := [⟨1, 1, 2, 1, 0, 1⟩] }
    Config.legal s.params ∧ s.run ≠ none ∧ s.loopsOk ∧ ∃ t, step s = .next t :=
  ⟨by decide, by decide, by decide, ⟨_, rfl⟩⟩
theorem witness_InvariantsHoldAtReset : Config.legal tiny := by decide
theorem witness_RunWritesOnly :
    let s := p3Doc.startRun 3 .encode
    s.run = some .encode ∧ s.noReset ∧ s.registersOk ∧ ∃ t, step s = .next t :=
  ⟨rfl, by unfold State.noReset; decide, by decide, ⟨_, rfl⟩⟩
theorem witness_ExternalStateHasNoEffect :
    (∃ t, step p3Doc = .next t) ∧ ∀ rest, p3Doc.inbox ≠ .regRead 4 :: rest := ⟨⟨_, rfl⟩, by simp [p3Doc, p3, State.resetWith]⟩
theorem witness_CodecIsDeterministic :
    let t := { p3Doc with ext := 7, res := 9, resets := 3 }
    p3Doc.ready ∧ t.ready ∧ p3Doc.codecAgree t := by
  refine ⟨by unfold State.ready; decide, by unfold State.ready; decide, rfl, fun g => ?_, fun a => ?_, fun a => ?_,
    rfl, rfl, rfl, rfl⟩
  · by_cases h : g < 9
    · have : ∀ g < 9, p3Doc.gtWord g = { p3Doc with ext := 7, res := 9, resets := 3 }.gtWord g := by decide
      exact this g h
    · exact (if_neg h).trans (if_neg h).symm
  · by_cases h : a < 8
    · have : ∀ a < 8, p3Doc.docSlot a = { p3Doc with ext := 7, res := 9, resets := 3 }.docSlot a := by decide
      exact this a h
    · exact (if_neg h).trans (if_neg h).symm
  · by_cases h : a < 16
    · have : ∀ a < 16, p3Doc.bufByte a = { p3Doc with ext := 7, res := 9, resets := 3 }.bufByte a := by decide
      exact this a h
    · exact (if_neg h).trans (if_neg h).symm
theorem witness_CommandIsItsSteps :
    (waiting (.command 0)).run = none ∧ (waiting (.command 0)).inbox = .command 0 :: [] ∧
      ∀ op ∈ ([] : List HostOp), op ≠ .reset := by decide
theorem witness_CommandsEnd : Config.legal p3Doc.params ∧ p3Doc.run = none := by decide
/-- The one-word program `FAIL 5`: well formed, and it raises IllegalGrammar(0), the case the statement allows. -/
theorem witness_WellFormedProgramsRun :
    let s := idle [0x02000000000000050000000000000000]
    s.ready ∧ s.registersOk ∧ s.programOk (0 : Half).toNat = true ∧
      (s.commandWhole (encode (.cdEncode 0))).status.code = 5 := by
  unfold State.ready; decide
/-- P3's program is well formed (R198). -/
theorem test_p3_programOk : p3Doc.programOk 0 = true := by decide
/-- P5b's program needs two loop frames (R198, V10.15). -/
theorem test_p5b_programOk :
    programOk { tiny with docSlots := 9 } (fun g => ([0x06000000000000020004000100040000,
        0x06000000000000020002000100010000, 0x1100000000000000000F000000000000, 0x07000000000000000000000000000000,
        0x07000000000000000000000000000000, 0x01000000000000000000000000000000] : List Wide).getD g 0) 8 0 0 [] = true ∧
      programOk { tiny with docSlots := 9, loopDepth := 1 } (fun g => ([0x06000000000000020004000100040000,
        0x06000000000000020002000100010000, 0x1100000000000000000F000000000000, 0x07000000000000000000000000000000,
        0x07000000000000000000000000000000, 0x01000000000000000000000000000000] : List Wide).getD g 0) 8 0 0 [] =
        false := by decide

/-- The receiving side of P3 run 2: run 1's bits in BUF, DOC zeroed. -/
def p3Receiver : State := { p3 [0, 0, 0, 0, 0, 0, 0, 0] with buf := cells ([0x5A, 0x50] ++ List.replicate 14 0) }

theorem witness_MessageRoundTrip_encode :
    p3Doc.ready ∧ p3Doc.registersOk ∧ (p3Doc.commandWhole (encode (.cdEncode 0))).rc = 0 ∧
      (p3Doc.commandWhole (encode (.cdEncode 0))).status.fault = false ∧
      (p3Doc.commandWhole (encode (.cdEncode 0))).pos.toNat ≤ p3Receiver.readBound ∧
      ∀ q < 12, p3Receiver.bufBit q = (p3Doc.commandWhole (encode (.cdEncode 0))).bufBit q := by
  unfold State.ready; decide
theorem witness_MessageRoundTrip_decode :
    p3Receiver.ready ∧ p3Receiver.registersOk ∧ p3Receiver.params = p3Doc.params ∧
      (∀ g, p3Receiver.gtWord g = p3Doc.gtWord g) ∧ p3Receiver.pos = p3Doc.pos ∧
      (∀ a, p3Receiver.docSlot a = 0) := by
  refine ⟨by unfold State.ready; decide, by decide, by decide, fun g => rfl, by decide, fun a => ?_⟩
  by_cases h : a < 8
  · have h8 : ∀ a < 8, p3Receiver.docSlot a = 0 := by decide
    exact h8 a h
  · exact if_neg h
/-- The re-encoding side: BUF zero again, the document that the receiver decoded. -/
theorem witness_MessageRoundTrip_again :
    p3Doc.cap.toNat ≤ p3Doc.cap.toNat ∧
      ∀ a < 8, p3Doc.docSlot a = (p3Receiver.commandWhole (encode (.cdDecode 0))).docSlot a := by decide

end Sys2Proof.Tests
end

section
/-! Proofs for 00_scope.md: a command as one transition is the steps of the machine (O58). The steps of a command
leave the host's queue alone, so no reset comes between them and each of them is a step of the run in progress. -/

namespace Sys2Proof

open Decode

/-- The command decoder answers level 1 instructions only (R91). -/
theorem decodeCommand_isCommand {w : Wide} {i : Instr} (h : decodeCommand w = .ok i) : i.isCommand = true := by
  obtain ⟨-, h⟩ := require_eq_ok.1 h
  split at h <;> simp only [require_eq_ok, Except.ok.injEq, reduceCtorEq] at h
  case h_1 => subst h; rfl
  case h_4 | h_5 => obtain ⟨-, rfl⟩ := h; rfl
  case h_2 | h_3 | h_6 | h_7 | h_8 | h_9 => obtain ⟨-, -, rfl⟩ := h; rfl

/-- The two readings of a word with a length mode (R100): `.N` under a bound, or `.V`. -/
theorem byMode_eq_ok {w : Wide} {c : Bool} {why : Reject} {n v i : Instr}
    (h : byMode w (require c why (.ok n)) (.ok v) = .ok i) : n = i ∨ v = i := by
  unfold byMode at h
  split at h
  · exact .inl (Except.ok.inj (require_eq_ok.1 h).2)
  · exact .inr (Except.ok.inj h)
  · cases h

/-- The descriptor decoder answers no command (R101). -/
theorem decodeDescriptor_isCommand {w : Wide} {i : Instr} (h : decodeDescriptor w = .ok i) :
    i.isCommand = false := by
  obtain ⟨-, h⟩ := require_eq_ok.1 h
  split at h <;> simp only [require_eq_ok, Except.ok.injEq, reduceCtorEq] at h
  case h_1 | h_3 | h_5 | h_7 => obtain ⟨-, rfl⟩ := h; rfl
  case h_4 | h_8 | h_9 | h_10 => obtain ⟨-, -, rfl⟩ := h; rfl
  case h_2 =>
    obtain ⟨-, h⟩ := h
    split at h
    · cases h; rfl
    · cases h
  case h_6 | h_11 => obtain ⟨-, -, h⟩ := h; obtain rfl | rfl := byMode_eq_ok h <;> rfl
  case h_12 => obtain ⟨-, h⟩ := h; obtain rfl | rfl := byMode_eq_ok h <;> rfl

end Sys2Proof

namespace Sys2Proof.Machine

variable {s t u : State} {d : Dir}

/-! What a step of a command leaves of the host's queue -/

/-- No move of the walk touches the host's queue. -/
theorem Move.inbox {i : Instr} (h : Move i s u t) : t.inbox = u.inbox := by cases h <;> rfl

/-- A step of a codec run leaves the host's queue alone. -/
theorem stepRun_inbox (hd : s.run = some d) (h : stepRun s = .next t) : t.inbox = s.inbox := by
  obtain ⟨e, -, rfl⟩ | ⟨i, hf, hi⟩ := stepRun_cases h
  · rfl
  · obtain ⟨u, hu, hm⟩ := exec_did (decodeDescriptor_isCommand (fetch_eq_ok hf).2) hd hi
    rw [hm.inbox, hu.frame]

theorem CommandEffect.inbox (h : CommandEffect s t) : t.inbox = s.inbox := by
  cases h <;> simp [State.putHeader]

/-- The rule of a command leaves the host's queue alone. -/
theorem exec_command_inbox {i : Instr} (hi : i.isCommand = true) (h : exec i s = .next t) : t.inbox = s.inbox := by
  obtain ⟨cap, start, ext, -, ⟨-, rfl⟩ | ⟨-, -, rfl⟩ | ⟨-, -, rfl⟩⟩ | ⟨-, rfl⟩ | ⟨-, ⟨e, rfl⟩ | he⟩ :=
    exec_command hi h
  case inr.inr.inr => exact he.inbox
  all_goals rfl

theorem illegalCommand_inbox : (illegalCommand s).inbox = s.inbox := by
  unfold illegalCommand
  split <;> rfl

/-- A command word leaves the rest of the host's queue alone. -/
theorem stepCommand_inbox {w : Wide} (h : stepCommand w s = .next t) : t.inbox = s.inbox := by
  unfold stepCommand at h
  split at h
  next i hi => exact (exec_command_inbox (decodeCommand_isCommand hi) h).trans (State.present_inbox s w)
  next e he => cases h; exact illegalCommand_inbox

/-! Every command is answered -/

/-- The rule of a command answers a next state in every state. -/
theorem exec_command_answers {i : Instr} (hi : i.isCommand = true) (s : State) : ∃ t, exec i s = .next t := by
  cases i
  case bsInit | bsWriteBits | bsReadBits | bsGetLength | bsSetLimit | frWriteHeader | frReadHeader | cdEncode |
    cdDecode => exact ⟨_, rfl⟩
  all_goals cases hi

/-- A word on the command port, legal or not, is answered with a next state. -/
theorem stepCommand_answers (w : Wide) (s : State) : ∃ t, stepCommand w s = .next t := by
  unfold stepCommand
  split
  next i hi => exact exec_command_answers (decodeCommand_isCommand hi) _
  next e he => exact ⟨_, rfl⟩

/-! The steps of the machine behind a command -/

/-- With no reset waiting, a step in a codec run is a step of the run (R182, R290). -/
theorem step_eq_stepRun (hd : s.run = some d) (hn : s.noReset) : step s = stepRun s := by
  unfold step
  split
  next rest hi => exact absurd (by rw [hi]; rfl) hn
  next => rfl
  all_goals next hr => cases hd.symm.trans hr

/-- With no run in progress, a command word at the head of the queue is what the step serves. -/
theorem step_eq_stepCommand {w : Wide} {rest : List HostOp} (hr : s.run = none) (hi : s.inbox = .command w :: rest) :
    step s = stepCommand w (s.served rest) := by
  simp [step, hr, hi]

/-- A machine that takes a first step goes on from where that step leaves it. -/
theorem run_succ_of_step {k : Nat} (h : step s = .next t) : Host.Core.run core (k + 1) s = Host.Core.run core k t := by
  simp [Host.Core.run, core, h]

/-- The rest of a codec run is some number of steps of the machine, when no reset waits. -/
theorem run_finishRun (n : Nat) : ∀ s : State, s.noReset → ∃ k, Host.Core.run core k s = .next (s.finishRun n) := by
  induction n with
  | zero => exact fun s _ => ⟨0, rfl⟩
  | succ n ih =>
    intro s hn
    unfold State.finishRun
    split
    next => exact ⟨0, rfl⟩
    next d hd =>
      split
      next t ht =>
        have hnt : t.noReset := by rw [State.noReset, stepRun_inbox hd ht]; exact hn
        obtain ⟨k, hk⟩ := ih t hnt
        exact ⟨k + 1, by rw [run_succ_of_step ((step_eq_stepRun hd hn).trans ht), hk]⟩
      next => exact ⟨0, rfl⟩

/-- The whole of a command is the run that its word's step may have started (R7). -/
theorem commandWhole_eq_finishRun {w : Wide} (h : stepCommand w s = .next t) :
    s.commandWhole w = t.finishRun (runBound s.params) := by
  rw [State.commandWhole, h]

end Sys2Proof.Machine

namespace Sys2Proof

open Machine

/-- Settles O58: the step that accepts the word, and then the steps of the run it may have started. -/
theorem commandIsItsSteps : Obligations.CommandIsItsSteps := by
  intro s w rest hr hi hrest
  obtain ⟨t, ht⟩ := stepCommand_answers w (s.served rest)
  have hn : t.noReset := by
    rw [State.noReset, stepCommand_inbox ht, State.served_inbox]
    exact fun h => hrest _ (List.mem_of_head? h) rfl
  obtain ⟨k, hk⟩ := run_finishRun (runBound s.params) t hn
  exact ⟨k + 1, calc
    Host.Core.run core (k + 1) s = Host.Core.run core k t :=
      run_succ_of_step ((step_eq_stepCommand hr hi).trans ht)
    _ = .next (t.finishRun (runBound s.params)) := hk
    _ = .next ((s.served rest).commandWhole w) := by rw [commandWhole_eq_finishRun ht]; rfl⟩

end Sys2Proof
end

section
/-! Proofs for 10_state.md: the invariants of the memories, the registers and the loop stack hold after reset and
are kept by every step (O49 to O52), the register port and the values after reset (O15, O17), and EXT has no effect
(O56). -/

namespace Sys2Proof

open Decode

/-! What an accepted descriptor word says about its instruction -/

/-- A word of KIND 07 that is a legal descriptor is LEND (R101). -/
theorem decodeDescriptor_lend {w : Wide} {i : Instr} (h : decodeDescriptor w = .ok i) (hk : topByte w = 0x07#8) :
    i = .gwLend := by
  obtain ⟨-, h⟩ := require_eq_ok.1 h
  simp only [hk, BitVec.reduceToNat] at h
  exact (Except.ok.inj (require_eq_ok.1 h).2).symm

/-- What the descriptor decoder accepts has operands in range (R103 (e) to (l)). -/
theorem decodeDescriptor_wf {w : Wide} {i : Instr} (h : decodeDescriptor w = .ok i) : i.wf = true := by
  obtain ⟨-, h⟩ := require_eq_ok.1 h
  split at h <;> simp only [require_eq_ok, Except.ok.injEq, reduceCtorEq] at h
  case h_1 | h_3 | h_5 | h_7 => obtain ⟨-, rfl⟩ := h; rfl
  case h_4 | h_8 | h_9 | h_10 => obtain ⟨-, hr, rfl⟩ := h; exact hr
  case h_2 =>
    obtain ⟨-, h⟩ := h
    split at h
    · cases h; rfl
    · cases h
  case h_6 | h_11 =>
    obtain ⟨-, hr, h⟩ := h
    unfold byMode at h
    split at h <;> simp only [require_eq_ok, Except.ok.injEq, reduceCtorEq] at h
    · obtain ⟨hc, rfl⟩ := h
      simpa [Instr.wf] using ⟨by simpa using hr, by simpa using hc⟩
    · subst h; exact hr
  case h_12 =>
    obtain ⟨-, h⟩ := h
    unfold byMode at h
    split at h <;> simp only [require_eq_ok, Except.ok.injEq, reduceCtorEq] at h
    · obtain ⟨hc, rfl⟩ := h; exact hc
    · subst h; rfl

end Sys2Proof

namespace Sys2Proof.Machine

variable {s t u : State} {d : Dir}

/-! What a step of a run, a word on the command port and a port operation leave -/

/-- What a step of a run can do (R182): the fault of the fetch, or what the fetched descriptor does. -/
theorem stepRun_did (hd : s.run = some d) (h : stepRun s = .next t) :
    (∃ e, t = s.takeFault e) ∨ ∃ i, s.fetch = .ok i ∧ Did d i s t := by
  obtain ⟨e, -, rfl⟩ | ⟨i, hf, hi⟩ := stepRun_cases h
  · exact .inl ⟨e, rfl⟩
  · exact .inr ⟨i, hf, exec_did (decodeDescriptor_isCommand (fetch_eq_ok hf).2) hd hi⟩

/-- What a word on the command port leaves. -/
inductive Answer (s : State) : State → Prop where
  /-- BS_INIT out of range (R130). -/
  | reject (e : Raise) : Answer s (s.leaveFault.unbound.takeFault e)
  /-- BS_INIT in range (R130). -/
  | bound (cap start ext : Word) (hc : cap.toNat ≤ s.params.bufBytes) (hs : start.toNat ≤ cap.toNat * 8) :
      Answer s (s.leaveFault.bound cap start ext).done
  /-- Any other word in the fault state (R257). -/
  | refuse (hf : s.status.fault = true) : Answer s s.refuse
  /-- A fault with nothing else changed (R252, R256). -/
  | fault (e : Raise) : Answer s (s.takeFault e)
  /-- The effect of a command accepted. -/
  | effect (hf : s.status.fault = false) {t : State} (he : CommandEffect s t) : Answer s t

/-- The nine commands leave nothing else. -/
theorem exec_answer {i : Instr} (hi : i.isCommand = true) (h : exec i s = .next t) : Answer s t := by
  obtain ⟨cap, start, ext, -, ⟨-, rfl⟩ | ⟨-, -, rfl⟩ | ⟨hc, hs, rfl⟩⟩ | ⟨hf, rfl⟩ | ⟨hf, ⟨e, rfl⟩ | he⟩ :=
    exec_command hi h
  · exact .reject _
  · exact .reject _
  · exact .bound cap start ext hc hs
  · exact .refuse hf
  · exact .fault e
  · exact .effect hf he

/-- A word on the command port, legal or not (R252). -/
theorem stepCommand_answer {w : Wide} (h : stepCommand w s = .next t) : Answer (s.present w) t := by
  unfold stepCommand at h
  split at h
  next i hi => exact exec_answer (decodeCommand_isCommand hi) h
  next e he =>
    cases h
    unfold illegalCommand
    split
    next hf => exact .refuse hf
    next => exact .fault _

/-- A port operation other than reset touches the memories and the read data alone (R42, R77). -/
theorem portOp_frame {op : HostOp} (ho : op ≠ .reset) :
    ∃ b x g v, s.portOp op = { s with buf := b, doc := x, gt := g, hostData := v } := by
  cases op
  case reset => exact absurd rfl ho
  all_goals exact ⟨_, _, _, _, rfl⟩

/-! The memories: each operation on a cell keeps the canonical form, and nothing else touches a memory -/

/-- After reset no cell has been written. -/
theorem State.memory_resetWith (p : Params) : (State.resetWith p).memoryOk := by
  simp [State.memoryOk, State.resetWith]

theorem Effect.memoryOk (h : Effect d s t) (hs : s.memoryOk) : t.memoryOk := by
  cases h
  case write v w _ _ => exact s.memory_putBits s.pos.toNat v w hs
  case read => exact hs
  case doc a v _ => exact s.memory_setDocSlot a _ hs

theorem Effects.memoryOk (h : Effects d s t) (hs : s.memoryOk) : t.memoryOk := by
  induction h with
  | refl => exact hs
  | tail _ h ih => exact h.memoryOk ih

/-- The walk touches no memory. -/
theorem Move.memoryOk {i : Instr} (h : Move i s u t) (hu : u.memoryOk) : t.memoryOk := by
  cases h <;> exact hu

theorem State.memory_putHeader (length : Word) (tag : Half) (hs : s.memoryOk) : (s.putHeader length tag).memoryOk :=
  State.memory_memWrite _ _ _ _ <| State.memory_memWrite _ _ _ _ <| State.memory_memWrite _ _ _ _ <|
    State.memory_memWrite _ _ _ _ hs

theorem State.memory_done (hs : s.memoryOk) : s.done.memoryOk := hs

theorem CommandEffect.memoryOk (h : CommandEffect s t) (hs : s.memoryOk) : t.memoryOk := by
  cases h
  case write v w _ => exact s.memory_putBits s.pos.toNat v w hs
  case header length tag => exact State.memory_done (State.memory_putHeader length tag hs)
  case read | length | limit | payload | start => exact hs

theorem Answer.memoryOk (h : Answer s t) (hs : s.memoryOk) : t.memoryOk := by
  cases h
  case effect he => exact he.memoryOk hs
  case reject | bound | refuse | fault => exact hs

theorem State.memory_portOp (op : HostOp) (hs : s.memoryOk) : (s.portOp op).memoryOk := by
  cases op
  case writeBuf a v => exact s.memory_setBufByte a v hs
  case writeDoc i v => exact s.memory_setDocSlot i v hs
  case writeGt g v => exact s.memory_setGtWord g v hs
  case reset => exact State.memory_resetWith s.params
  case command | regRead | readBuf | readDoc | readGt => exact hs

/-- The canonical form of the memories is kept by every step (R30 to R32). -/
theorem step_memoryOk (h : step s = .next t) (hs : s.memoryOk) : t.memoryOk := by
  obtain ⟨rest, -, rfl⟩ | ⟨-, ⟨d, hd⟩, h⟩ |
    ⟨-, -, ⟨-, rfl⟩ | ⟨w, rest, -, h⟩ | ⟨op, rest, -, -, -, rfl⟩⟩ := step_cases h
  · exact State.memory_resetWith s.params
  · obtain ⟨e, rfl⟩ | ⟨i, -, u, hu, hm⟩ := stepRun_did hd h
    · exact hs
    · exact hm.memoryOk (hu.memoryOk hs)
  · exact hs
  · exact (stepCommand_answer h).memoryOk hs
  · exact State.memory_portOp (s := s.served rest) op hs

/-! The register invariants (R40) -/

/-- After reset they hold for all parameters that R6 allows (R43). -/
theorem State.registers_resetWith {p : Params} (hp : Config.legal p) : (State.resetWith p).registersOk :=
  ⟨hp, by simp [State.resetWith, Status.reset]⟩

theorem State.registers_resetEvent (h : s.registersOk) : s.resetEvent.registersOk := by
  obtain ⟨hp, -⟩ := h
  exact State.registers_resetWith hp

/-- The codes of the six kinds (R250). -/
theorem faultCode_range (k : FaultKind) : 1 ≤ (faultCode k).toNat ∧ (faultCode k).toNat ≤ 6 := by
  cases k <;> decide

/-- A fault keeps them (R256). -/
theorem State.registersOk.takeFault (h : s.registersOk) (e : Raise) : (s.takeFault e).registersOk := by
  obtain ⟨hp, hcap, hpos, hlim, -, -, -, -, -, -⟩ := h
  obtain ⟨h1, h6⟩ := faultCode_range e.kind
  exact ⟨hp, hcap, hpos, hlim, nofun, fun _ => ⟨h1, rfl⟩, h6, h6, fun hr => absurd rfl hr, nofun⟩

/-- The end of a command keeps them where no list is left open without a fault (R255). -/
theorem State.registersOk.done (h : s.registersOk) (hl : s.status.fault = false → s.ls = []) :
    s.done.registersOk := by
  obtain ⟨hp, hcap, hpos, hlim, hclear, hfault, hcode, -, -, -⟩ := h
  exact ⟨hp, hcap, hpos, hlim, hclear, fun hf => ⟨(hfault hf).1, rfl⟩, hcode, by simp, fun hr => absurd rfl hr,
    fun _ => hl⟩

/-- RES is in none of them. -/
theorem State.registersOk.doneWith (h : s.registersOk) (hl : s.status.fault = false → s.ls = []) (v : Nat) :
    (s.doneWith v).registersOk := h.done hl

/-- A move of POS up to CAP keeps them (R23). -/
theorem State.registersOk.withPos (h : s.registersOk) {p : Nat} (hb : p ≤ s.cap.toNat * 8) :
    (s.withPos p).registersOk := by
  obtain ⟨hp, hcap, -, hrest⟩ := h
  refine ⟨hp, hcap, ?_, hrest⟩
  rw [State.withPos_pos, BitVec.toNat_ofNat]
  exact (Nat.mod_le _ _).trans hb

/-- The contents of the memories are in none of them. -/
theorem State.registersOk.withMemories (h : s.registersOk) (b : Memory 8) (x : Memory 64) (g : Memory 128) :
    State.registersOk { s with buf := b, doc := x, gt := g } := h

theorem State.registersOk.putBits (h : s.registersOk) (p v w : Nat) : (s.putBits p v w).registersOk := by
  rw [State.putBits_eq]; exact h.withMemories _ _ _

theorem State.registersOk.setDocSlot (h : s.registersOk) (a : Nat) (v : Cell64) : (s.setDocSlot a v).registersOk :=
  h.withMemories _ _ _

theorem State.registersOk.putHeader (h : s.registersOk) (length : Word) (tag : Half) :
    (s.putHeader length tag).registersOk := by
  unfold State.putHeader
  iterate 4 rw [State.memWrite_eq]
  exact h.withMemories _ _ _

/-- The read bound is never above the capacity (R132). -/
theorem State.registersOk.readBound_le (h : s.registersOk) : s.readBound ≤ s.cap.toNat * 8 := by
  obtain ⟨-, -, -, hlim, -⟩ := h
  unfold State.readBound
  split
  next he => have := hlim he; omega
  next => exact le_rfl

theorem Effect.registersOk (h : Effect d s t) (hs : s.registersOk) : t.registersOk := by
  cases h
  case write v w _ hr => exact (hs.putBits s.pos.toNat v w).withPos (by rwa [State.putBits_cap])
  case read w _ hr => exact hs.withPos (hr.trans hs.readBound_le)
  case doc a v _ => exact hs.setDocSlot a _

/-- A chain of accesses ends with POS still within CAP. -/
theorem Effects.registersOk (h : Effects d s t) (hs : s.registersOk) : t.registersOk := by
  induction h with
  | refl => exact hs
  | tail _ h ih => exact h.registersOk ih

/-- During a run the walk is free to move GPC, BASE and the loop stack. -/
theorem State.registersOk.walked (h : s.registersOk) (hd : s.run = some d) (ls : List Frame) (base : Word)
    (gpc : Half) : State.registersOk { s with ls := ls, base := base, gpc := gpc } := by
  obtain ⟨hp, hcap, hpos, hlim, hclear, hfault, hcode, hrc, hrun, -⟩ := h
  exact ⟨hp, hcap, hpos, hlim, hclear, hfault, hcode, hrc, hrun, fun hn => nomatch hd.symm.trans hn⟩

/-- The last move of a descriptor: a raise, the end of the run with no list open, or a move of the walk. -/
theorem Move.registersOk {i : Instr} (h : Move i s u t) (hu : u.registersOk) (hd : u.run = some d)
    (hl : u.ls = s.ls) : t.registersOk := by
  cases h
  case fault e => exact hu.takeFault e
  case done hs _ => exact hu.done fun _ => hl.trans hs
  case leaveFault f outer _ _ _ => exact (hu.walked hd outer f.saved u.gpc).takeFault _
  case next | jump | enter | element | leave => exact hu.walked hd _ _ _

theorem stepRun_registersOk (hd : s.run = some d) (h : stepRun s = .next t) (hs : s.registersOk) : t.registersOk := by
  obtain ⟨e, rfl⟩ | ⟨i, -, u, hu, hm⟩ := stepRun_did hd h
  · exact hs.takeFault e
  · exact hm.registersOk (hu.registersOk hs) (by rw [hu.frame]; exact hd) (by rw [hu.frame])

/-- Between commands with no fault no list is open (R40 (d)). -/
theorem State.registersOk.ls_eq_nil (h : s.registersOk) (hr : s.run = none) (hf : s.status.fault = false) :
    s.ls = [] := by
  obtain ⟨-, -, -, -, -, -, -, -, -, hls⟩ := h
  exact hls hr hf

/-- A codec command starts with its loop stack empty, and only after a BS_INIT (R182, R252). -/
theorem State.registersOk.startRun (h : s.registersOk) (hf : s.status.fault = false) (hi : s.status.inited = true)
    (entry : Half) (d : Dir) : (s.startRun entry d).registersOk := by
  obtain ⟨hp, hcap, hpos, hlim, hclear, -, hcode, hrc, -, -⟩ := h
  exact ⟨hp, hcap, hpos, hlim, hclear, fun ht => absurd (hf.symm.trans ht) nofun, hcode, hrc, fun _ => hi,
    fun _ _ => rfl⟩

/-- A limit within the capacity (R136). -/
theorem State.registersOk.limited (h : s.registersOk) {bytes : Word} (hb : bytes.toNat ≤ s.cap.toNat) :
    (s.limited bytes).registersOk := by
  obtain ⟨hp, hcap, hpos, -, hrest⟩ := h
  exact ⟨hp, hcap, hpos, fun _ => hb, hrest⟩

/-- The effect of a command accepted between commands. -/
theorem CommandEffect.registersOk (h : CommandEffect s t) (hs : s.registersOk) (hr : s.run = none)
    (hf : s.status.fault = false) : t.registersOk := by
  have hl := hs.ls_eq_nil hr hf
  cases h
  case write v w hw =>
    exact ((hs.putBits s.pos.toNat v w).withPos (by rwa [State.putBits_cap])).done fun _ => by simpa using hl
  case read w hw => exact (hs.withPos (hw.trans hs.readBound_le)).doneWith (fun _ => hl) _
  case length | payload => exact hs.doneWith (fun _ => hl) _
  case limit bytes hb => exact (hs.limited hb).done fun _ => hl
  case header length tag => exact (hs.putHeader length tag).done fun _ => by simpa [State.putHeader] using hl
  case start entry d hi => exact hs.startRun hf hi entry d

/-- A rejected BS_INIT, which has cleared INITED (R130). -/
theorem State.registersOk.reject (h : s.registersOk) (e : Raise) :
    (s.leaveFault.unbound.takeFault e).registersOk := by
  obtain ⟨hp, hcap, hpos, hlim, -⟩ := h
  obtain ⟨h1, h6⟩ := faultCode_range e.kind
  exact ⟨hp, hcap, hpos, hlim, nofun, fun _ => ⟨h1, rfl⟩, h6, h6, fun hr => absurd rfl hr, nofun⟩

/-- A successful BS_INIT sets each register anew (R130). -/
theorem State.registersOk.bound (h : s.registersOk) {cap start : Word} (hc : cap.toNat ≤ s.params.bufBytes)
    (hs : start.toNat ≤ cap.toNat * 8) (ext : Word) : (s.leaveFault.bound cap start ext).done.registersOk := by
  obtain ⟨hp, -⟩ := h
  exact ⟨hp, hc, hs, nofun, fun _ => ⟨rfl, rfl⟩, nofun, by simp [Status.clear], by simp, fun _ => rfl,
    fun _ _ => rfl⟩

/-- A refusal copies CODE into RC (R257). -/
theorem State.registersOk.refuse (h : s.registersOk) : s.refuse.registersOk := by
  obtain ⟨hp, hcap, hpos, hlim, hclear, hfault, hcode, -, hrest⟩ := h
  exact ⟨hp, hcap, hpos, hlim, hclear, hfault, hcode, hcode, hrest⟩

theorem Answer.registersOk (h : Answer s t) (hs : s.registersOk) (hr : s.run = none) : t.registersOk := by
  cases h
  case reject e => exact hs.reject e
  case bound cap start ext hc hst => exact hs.bound hc hst ext
  case refuse => exact hs.refuse
  case fault e => exact hs.takeFault e
  case effect hf he => exact he.registersOk hs hr hf

/-- Every step keeps the register invariants. -/
theorem step_registersOk (h : step s = .next t) (hs : s.registersOk) : t.registersOk := by
  obtain ⟨rest, -, rfl⟩ | ⟨-, ⟨d, hd⟩, h⟩ |
    ⟨-, hr, ⟨-, rfl⟩ | ⟨w, rest, -, h⟩ | ⟨op, rest, -, -, ho, rfl⟩⟩ := step_cases h
  · exact State.registers_resetEvent (s := s.served rest) hs
  · exact stepRun_registersOk hd h hs
  · exact hs
  · exact (stepCommand_answer h).registersOk hs hr
  · obtain ⟨b, x, g, v, hv⟩ := portOp_frame (s := s.served rest) ho
    rw [hv]; exact hs

/-! The loop invariant by its frames (R39, R195) -/

/-- An open list as the loop invariant asks: GPC inside its body, BASE at its current element, the elements still to
come inside DOC, and the list inside the one around it (R39, R193 to R195). -/
structure FrameOpen (p : Params) (word : Nat → Wide) (g base : Nat) (f : Frame) (outer : List Frame) : Prop where
  entered : 1 ≤ f.start.toNat
  above : f.start.toNat ≤ g
  below : g ≤ f.stop.toNat
  inside : f.stop.toNat < p.gtSteps
  closed : Decode.topByte (word f.stop.toNat) = 0x07#8
  left : 1 ≤ f.rem.toNat
  current : base = f.cur.toNat
  room : f.cur.toNat + f.rem.toNat * f.stride.toNat ≤ p.docSlots
  nested : ∀ o, outer.head? = some o → f.stop.toNat < o.stop.toNat
  around : framesOk p word (f.start.toNat - 1) f.saved.toNat outer = true

section
variable {p : Params} {word : Nat → Wide} {g base : Nat} {ls : List Frame}

/-- With no list open BASE is 0. -/
theorem framesOk_nil : framesOk p word g base [] = true ↔ base = 0 := by simp [framesOk]

/-- The invariant of the innermost list, by its parts. -/
theorem framesOk_cons {f : Frame} {outer : List Frame} :
    framesOk p word g base (f :: outer) = true ↔ FrameOpen p word g base f outer := by
  simp only [framesOk, Bool.and_eq_true, decide_eq_true_eq, Option.all_eq_true]
  constructor
  · rintro ⟨⟨⟨⟨⟨⟨⟨⟨⟨h1, h2⟩, h3⟩, h4⟩, h5⟩, h6⟩, h7⟩, h8⟩, h9⟩, h10⟩
    exact ⟨h1, h2, h3, h4, h5, h6, h7, h8, h9, h10⟩
  · rintro ⟨h1, h2, h3, h4, h5, h6, h7, h8, h9, h10⟩
    exact ⟨⟨⟨⟨⟨⟨⟨⟨⟨h1, h2⟩, h3⟩, h4⟩, h5⟩, h6⟩, h7⟩, h8⟩, h9⟩, h10⟩

/-- The walk may go forward up to the LEND of the innermost list. -/
theorem framesOk_forward (h : framesOk p word g base ls = true) {g' : Nat} (hg : g ≤ g')
    (hs : ∀ f, ls.head? = some f → g' ≤ f.stop.toNat) : framesOk p word g' base ls = true := by
  cases ls with
  | nil => exact framesOk_nil.2 (framesOk_nil.1 h)
  | cons f outer =>
    have ho := framesOk_cons.1 h
    exact framesOk_cons.2 { ho with above := ho.above.trans hg, below := hs f rfl }

end

/-! The loop invariant: the moves of the walk -/

/-- A number below 65536 fits GPC and the 16-bit fields of a frame. -/
theorem toNat_ofNat_half {n : Nat} (h : n < 65536) : (BitVec.ofNat 16 n).toNat = n := by
  rw [BitVec.toNat_ofNat]; exact Nat.mod_eq_of_lt h

/-- A slot number up to 65536 fits BASE and the 32-bit fields of a frame. -/
theorem toNat_ofNat_word {n : Nat} (h : n ≤ 65536) : (BitVec.ofNat 32 n).toNat = n := by
  rw [BitVec.toNat_ofNat]; exact Nat.mod_eq_of_lt (by omega)

/-- In a run the invariant is about its frames. -/
theorem State.loopsOk.frames (h : s.loopsOk) (hd : s.run = some d) :
    s.ls.length ≤ s.params.loopDepth ∧ framesOk s.params s.gtWord s.gpc.toNat s.base.toNat s.ls = true :=
  h (by rw [hd]; exact nofun)

/-- Outside a run there is nothing to hold. -/
theorem State.loopsOk_of_run_none (h : s.run = none) : s.loopsOk := fun hn => absurd h hn

/-- The accesses of a descriptor touch nothing the invariant reads. -/
theorem Effects.loopsOk (h : Effects d s t) (hs : s.loopsOk) : t.loopsOk := by
  rw [h.frame]; exact hs

/-- A forward move of GPC up to the LEND of the innermost list (R183, R184). -/
theorem State.loopsOk.withGpc (h : s.loopsOk) (hp : Config.legal s.params) (hd : s.run = some d) {k : Nat}
    (hg : s.gpc.toNat ≤ k) (hk : k < s.params.gtSteps) (hl : ∀ f, s.ls.head? = some f → k ≤ f.stop.toNat) :
    (s.withGpc k).loopsOk := by
  obtain ⟨hlen, hf⟩ := h.frames hd
  refine fun _ => ⟨hlen, ?_⟩
  rw [State.withGpc_gpc, toNat_ofNat_half (by omega)]
  exact framesOk_forward hf hg hl

/-- A LIST opens a body of at least one word inside the body around it (R193). -/
theorem State.loopsOk.enterList (h : s.loopsOk) (hp : Config.legal s.params) (hd : s.run = some d)
    {off max body elem stride : Half} {n : Nat} (hl : s.listAt off max body elem stride) (hb : 1 ≤ body.toNat)
    (h1 : 1 ≤ n) (hn : n ≤ max.toNat) : (s.enterList s.gpc.toNat n body elem stride).loopsOk := by
  obtain ⟨hlen, hf⟩ := h.frames hd
  obtain ⟨-, hg, hk, hs, hr, hdep⟩ := hl
  have hr := hr (by omega)
  have hroom : n * stride.toNat ≤ max.toNat * stride.toNat := Nat.mul_le_mul_right _ hn
  have hstart : (BitVec.ofNat 16 (s.gpc.toNat + 1)).toNat = s.gpc.toNat + 1 := toNat_ofNat_half (by omega)
  have hstop : (BitVec.ofNat 16 (s.gpc.toNat + body.toNat)).toNat = s.gpc.toNat + body.toNat :=
    toNat_ofNat_half (by omega)
  have hrem : (BitVec.ofNat 16 n).toNat = n := toNat_ofNat_half (by omega)
  have hcur : (BitVec.ofNat 32 (s.base.toNat + elem.toNat)).toNat = s.base.toNat + elem.toNat :=
    toNat_ofNat_word (by omega)
  refine fun _ => ⟨by simpa using Nat.lt_of_le_of_ne hlen hdep, ?_⟩
  simp only [State.enterList_ls, State.enterList_gpc, State.enterList_base, State.enterList_params]
  refine framesOk_cons.2 ?_
  constructor <;> simp only [hstart, hstop, hrem, hcur, State.enterList_gtWord]
  case entered | above | below => omega
  case inside => exact hg
  case closed => exact hk
  case left => exact h1
  case room => omega
  case nested => exact hs
  case around => exact hf

/-- LEND starts the next element inside the element area (R194). -/
theorem State.loopsOk.nextElement (h : s.loopsOk) (hp : Config.legal s.params) (hd : s.run = some d) {f : Frame}
    {outer : List Frame} (hl : s.ls = f :: outer) (hr : 2 ≤ f.rem.toNat) :
    (s.nextElement f (f.rem.toNat - 1) outer).loopsOk := by
  obtain ⟨hlen, hf⟩ := h.frames hd
  rw [hl] at hlen hf
  have ho := framesOk_cons.1 hf
  obtain ⟨r, hr⟩ : ∃ r, f.rem.toNat = r + 2 := ⟨f.rem.toNat - 2, by omega⟩
  have hroom : f.cur.toNat + f.stride.toNat + (r + 1) * f.stride.toNat ≤ s.params.docSlots := by
    calc f.cur.toNat + f.stride.toNat + (r + 1) * f.stride.toNat = f.cur.toNat + f.rem.toNat * f.stride.toNat := by
          rw [hr]; ring
      _ ≤ s.params.docSlots := ho.room
  have hrem : (BitVec.ofNat 16 (f.rem.toNat - 1)).toNat = r + 1 := by
    rw [toNat_ofNat_half (by omega)]; omega
  have hcur : (BitVec.ofNat 32 (f.cur.toNat + f.stride.toNat)).toNat = f.cur.toNat + f.stride.toNat :=
    toNat_ofNat_word (by omega)
  refine fun _ => ⟨hlen, ?_⟩
  simp only [State.nextElement_ls, State.nextElement_gpc, State.nextElement_base, State.nextElement_params]
  refine framesOk_cons.2 ?_
  constructor <;> simp only [hrem, hcur, State.nextElement_gtWord]
  case entered => exact ho.entered
  case above => exact le_rfl
  case below => exact ho.above.trans ho.below
  case inside => exact ho.inside
  case closed => exact ho.closed
  case left => omega
  case room => exact hroom
  case nested => exact ho.nested
  case around => exact ho.around

/-- LEND leaves the list for the word behind it, inside the body around it (R194). -/
theorem State.loopsOk.leaveList (h : s.loopsOk) (hp : Config.legal s.params) (hd : s.run = some d) {f : Frame}
    {outer : List Frame} (hl : s.ls = f :: outer) (hs : f.stop.toNat = s.gpc.toNat)
    (hg : s.gpc.toNat + 1 < s.params.gtSteps) : ((s.leaveList f outer).withGpc (s.gpc.toNat + 1)).loopsOk := by
  obtain ⟨hlen, hf⟩ := h.frames hd
  rw [hl] at hlen hf
  have ho := framesOk_cons.1 hf
  refine fun _ => ⟨Nat.le_of_succ_le hlen, ?_⟩
  rw [State.withGpc_gpc, toNat_ofNat_half (by omega)]
  refine framesOk_forward ho.around ?_ fun o hh => ?_
  · have := ho.above; omega
  · have := ho.nested o hh; omega

/-- A word that is not LEND does not end a list's body, so the word behind it is inside too. -/
theorem State.loopsOk.gpc_lt_stop (h : s.loopsOk) (hd : s.run = some d) {i : Instr} (hi : s.fetch = .ok i)
    (hn : i ≠ .gwLend) {f : Frame} (hl : s.ls.head? = some f) : s.gpc.toNat < f.stop.toNat := by
  obtain ⟨-, hf⟩ := h.frames hd
  obtain ⟨outer, hl⟩ := List.head?_eq_some_iff.1 hl
  rw [hl] at hf
  have ho := framesOk_cons.1 hf
  refine Nat.lt_of_le_of_ne ho.below fun hs => hn ?_
  have hk := ho.closed
  rw [← hs] at hk
  exact decodeDescriptor_lend (fetch_eq_ok hi).2 hk

/-- A LIST that was fetched has a body (R103 (f)). -/
theorem fetch_list_body {off max body elem stride : Half} {i : Instr} (h : s.fetch = .ok i)
    (hi : i = .gwListN off max body elem stride ∨ i = .gwListV off max body elem stride) : 1 ≤ body.toNat := by
  have hw := decodeDescriptor_wf (fetch_eq_ok h).2
  obtain rfl | rfl := hi
  · simp only [Instr.wf, Bool.and_eq_true, decide_eq_true_eq] at hw; exact hw.1
  · simpa [Instr.wf] using hw

/-- What a descriptor does keeps the lists well nested. -/
theorem Did.loopsOk {i : Instr} (h : Did d i s t) (hi : s.fetch = .ok i) (hp : Config.legal s.params)
    (hd : s.run = some d) (hs : s.loopsOk) : t.loopsOk := by
  obtain ⟨u, hu, hm⟩ := h
  have hul := hu.loopsOk hs
  obtain ⟨b, x, p, rfl⟩ : ∃ b x p, u = { s with buf := b, doc := x, pos := p } := ⟨_, _, _, hu.frame⟩
  cases hm
  case fault | done | leaveFault => exact State.loopsOk_of_run_none rfl
  case next hg hn =>
    exact hul.withGpc hp hd (Nat.le_succ _) hg fun f hf => hs.gpc_lt_stop hd hi hn hf
  case jump k hk hg hl => exact hul.withGpc hp hd hk.le hg hl
  case enter off max body elem stride n hform hl h1 hn =>
    exact hul.enterList hp hd hl (fetch_list_body hi hform) h1 hn
  case element f outer hl _ hr => exact hul.nextElement hp hd hl hr
  case leave f outer hl hst _ hg => exact hul.leaveList hp hd hl hst hg

/-- A command leaves no run in progress, or one with no list open. -/
theorem Answer.loopsOk (h : Answer s t) (hr : s.run = none) : t.loopsOk := by
  cases h
  case reject | bound | fault => exact State.loopsOk_of_run_none rfl
  case refuse => exact State.loopsOk_of_run_none hr
  case effect he =>
    cases he
    case start entry d _ => exact fun _ => ⟨Nat.zero_le _, framesOk_nil.2 rfl⟩
    case write | read | length | limit | header | payload => exact State.loopsOk_of_run_none rfl

/-- Every step keeps the lists well nested. -/
theorem step_loopsOk (h : step s = .next t) (hp : Config.legal s.params) (hs : s.loopsOk) : t.loopsOk := by
  obtain ⟨rest, -, rfl⟩ | ⟨-, ⟨d, hd⟩, h⟩ |
    ⟨-, hr, ⟨-, rfl⟩ | ⟨w, rest, -, h⟩ | ⟨op, rest, -, -, ho, rfl⟩⟩ := step_cases h
  · exact State.loopsOk_of_run_none rfl
  · obtain ⟨e, rfl⟩ | ⟨i, hi, hm⟩ := stepRun_did hd h
    · exact State.loopsOk_of_run_none rfl
    · exact hm.loopsOk hi hp hd hs
  · exact hs
  · exact (stepCommand_answer h).loopsOk hr
  · obtain ⟨b, x, g, v, hv⟩ := portOp_frame (s := s.served rest) ho
    rw [hv]; exact State.loopsOk_of_run_none hr

/-! Reset and the register port -/

theorem Status.reset_toWord : Status.reset.toWord = 0 := by decide

/-- Every numbered register reads 0 after reset (R43). -/
theorem hostRegRead_resetWith (p : Params) (n : Nat) : (State.resetWith p).hostRegRead n = 0 := by
  unfold State.hostRegRead
  split
  case h_1 => exact Status.reset_toWord
  all_goals rfl

theorem State.loops_resetWith (p : Params) : (State.resetWith p).loopsOk := State.loopsOk_of_run_none rfl

/-- STATUS as a word has each field at its bits, and 0 in the others (R22). -/
theorem Status.toWord_fields (x : Status) :
    x.toWord.getLsbD 0 = x.inited ∧ x.toWord.getLsbD 1 = x.fault ∧ x.toWord.getLsbD 2 = x.limitEn ∧
      x.toWord.extractLsb' 3 5 = 0 ∧ x.toWord.extractLsb' 8 8 = x.code ∧ x.toWord.extractLsb' 16 4 = x.sub ∧
      x.toWord.extractLsb' 20 12 = 0 := by
  refine ⟨?_, ?_, ?_, ?_, ?_, ?_, ?_⟩
  · rw [Status.toWord]; iterate 6 rw [BitVec.getLsbD_append]
    simp
  · rw [Status.toWord]; iterate 6 rw [BitVec.getLsbD_append]
    simp
  · rw [Status.toWord]; iterate 5 rw [BitVec.getLsbD_append]
    simp
  · rw [Status.toWord, Decode.field_low _ _ (by decide), Decode.field_low _ _ (by decide),
      Decode.field_low _ _ (by decide), Decode.field_high _ _ (by decide)]
    exact BitVec.extractLsb'_eq_self
  · rw [Status.toWord, Decode.field_low _ _ (by decide), Decode.field_low _ _ (by decide),
      Decode.field_high _ _ (by decide)]
    exact BitVec.extractLsb'_eq_self
  · rw [Status.toWord, Decode.field_low _ _ (by decide), Decode.field_high _ _ (by decide)]
    exact BitVec.extractLsb'_eq_self
  · rw [Status.toWord, Decode.field_high _ _ (by decide)]
    exact BitVec.extractLsb'_eq_self

/-- With no run, an operation at the head of the queue that is no command is what the step serves (R78). -/
theorem step_eq_portOp {op : HostOp} {rest : List HostOp} (hr : s.run = none) (hi : s.inbox = op :: rest)
    (hw : ∀ w, op ≠ .command w) : step s = .next ((s.served rest).portOp op) := by
  cases op
  case command w => exact absurd rfl (hw w)
  all_goals simp [step, hr, hi, State.portOp]

/-- No register is numbered above 8 (R42). -/
theorem hostRegRead_of_gt {n : Nat} (h : 8 < n) : s.hostRegRead n = 0 := by
  unfold State.hostRegRead
  split
  case h_10 => rfl
  all_goals omega

end Sys2Proof.Machine

namespace Sys2Proof

open Machine

/-- Settles O49: every cell write keeps the canonical form, and a step is made of them (R30 to R32). -/
theorem memoryInvariant : Obligations.MemoryInvariant := fun _ _ hs h => step_memoryOk h hs

/-- Settles O50: R40's (a) to (e) are parts of the invariant, with LSP the number of frames of an empty stack. -/
theorem registerInvariant : Obligations.RegisterInvariant := by
  refine ⟨fun _ _ hs h => step_registersOk h hs, fun s hs hr _ hf => ?_⟩
  have hl := hs.ls_eq_nil hr hf
  obtain ⟨-, hcap, hpos, hlim, hclear, -⟩ := hs
  exact ⟨hcap, hpos, hlim, by rw [State.lsp, hl]; rfl, hclear hf⟩

/-- Settles O52: the one move that could leave a body is the one past its LEND, which pops the frame (R194). -/
theorem loopInvariant : Obligations.LoopInvariant := fun _ _ hp hs h => step_loopsOk h hp hs

/-- Settles O17: the step serves the port, and each register number is one case of the port (R42). -/
theorem registerPort : Obligations.RegisterPort := by
  intro s n rest hr hi
  refine ⟨s.hostRegRead n, (step_eq_portOp hr hi nofun).trans rfl, ?status, ?_, ?_, ?_, ?_, ?_, ?gpc, ?_, ?_,
    hostRegRead_of_gt⟩
  case status => rintro rfl; exact s.status.toWord_fields
  case gpc => rintro rfl; exact (BitVec.toNat_setWidth 32 _).trans (Nat.mod_eq_of_lt (by omega))
  all_goals rintro rfl; rfl

/-- Settles O15: a reset state's registers are 0 by definition, STATUS as a word too (R43). -/
theorem resetValues : Obligations.ResetValues := fun p n => ⟨hostRegRead_resetWith p n, rfl, rfl, rfl⟩

/-- Settles O51: State.reset is one of the states that the second half is about. -/
theorem invariantsHoldAtReset : Obligations.InvariantsHoldAtReset := by
  have holds : ∀ p, Config.legal p →
      (State.resetWith p).memoryOk ∧ (State.resetWith p).registersOk ∧ (State.resetWith p).loopsOk := fun p hp =>
    ⟨State.memory_resetWith p, State.registers_resetWith hp, State.loops_resetWith p⟩
  exact ⟨holds Config.largest (by decide), holds⟩

end Sys2Proof

namespace Sys2Proof.Machine

/-! Two states that the codec cannot tell apart: a run does the same from both -/

/-- A relation of states under which a descriptor runs alike from both: the two agree on all that a descriptor reads,
and every operation of a descriptor keeps the relation. -/
structure CodecTwins (R : State → State → Prop) : Prop where
  params : ∀ {s t}, R s t → t.params = s.params
  pos : ∀ {s t}, R s t → t.pos = s.pos
  cap : ∀ {s t}, R s t → t.cap = s.cap
  readBound : ∀ {s t}, R s t → t.readBound = s.readBound
  gpc : ∀ {s t}, R s t → t.gpc = s.gpc
  base : ∀ {s t}, R s t → t.base = s.base
  ls : ∀ {s t}, R s t → t.ls = s.ls
  run : ∀ {s t}, R s t → t.run = s.run
  bufByte : ∀ {s t}, R s t → ∀ a, t.bufByte a = s.bufByte a
  docSlot : ∀ {s t}, R s t → t.docSlot = s.docSlot
  gtWord : ∀ {s t}, R s t → t.gtWord = s.gtWord
  setBufByte : ∀ {s t}, R s t → ∀ a v, R (s.setBufByte a v) (t.setBufByte a v)
  setDocSlot : ∀ {s t}, R s t → ∀ a v, R (s.setDocSlot a v) (t.setDocSlot a v)
  withPos : ∀ {s t}, R s t → ∀ p, R (s.withPos p) (t.withPos p)
  withGpc : ∀ {s t}, R s t → ∀ g, R (s.withGpc g) (t.withGpc g)
  enterList : ∀ {s t}, R s t → ∀ g n body elem stride,
    R (s.enterList g n body elem stride) (t.enterList g n body elem stride)
  nextElement : ∀ {s t}, R s t → ∀ f rem outer, R (s.nextElement f rem outer) (t.nextElement f rem outer)
  leaveList : ∀ {s t}, R s t → ∀ f outer, R (s.leaveList f outer) (t.leaveList f outer)
  done : ∀ {s t}, R s t → R s.done t.done
  takeFault : ∀ {s t}, R s t → ∀ e, R (s.takeFault e) (t.takeFault e)

/-- Two results of a piece of pseudocode with the same value or raise, in related states. -/
inductive Act.Alike {α : Type} (R : State → State → Prop) :
    EStateM.Result Raise State α → EStateM.Result Raise State α → Prop where
  | ok {s t : State} (a : α) (h : R s t) : Act.Alike R (.ok a s) (.ok a t)
  | error {s t : State} (e : Raise) (h : R s t) : Act.Alike R (.error e s) (.error e t)

/-- A piece of pseudocode runs alike from related states. -/
def Act.same {α : Type} (R : State → State → Prop) (m : Act α) : Prop := ∀ s t, R s t → Act.Alike R (m s) (m t)

section
variable {α β : Type} {R : State → State → Prop}

theorem Act.same_bind {m : Act α} {f : α → Act β} (hm : Act.same R m) (hf : ∀ a, Act.same R (f a)) :
    Act.same R (m >>= f) := by
  intro s t h
  have h1 := hm s t h
  generalize hs : m s = x at h1
  generalize ht : m t = y at h1
  cases h1 with
  | ok a h => rw [Act.bind_ok hs, Act.bind_ok ht]; exact hf a _ _ h
  | error e h => rw [Act.bind_error hs, Act.bind_error ht]; exact .error e h

theorem Act.same_pure (a : α) : Act.same R (pure a : Act α) := fun _ _ h => .ok a h
theorem Act.same_raise (k : FaultKind) (n : Nat) : Act.same R (raise k n : Act α) := fun _ _ h => .error _ h
theorem Act.same_raiseIf (c : Bool) (k : FaultKind) (n : Nat) : Act.same R (raiseIf c k n) := by
  intro s t h
  rw [raiseIf_run, raiseIf_run]
  split
  · exact .error _ h
  · exact .ok () h
theorem Act.same_effect {f : State → State} (hf : ∀ s t, R s t → R (f s) (f t)) : Act.same R (effect f) :=
  fun s t h => .ok () (hf s t h)
theorem Act.same_ite {c : Prop} [Decidable c] {m n : Act α} (hm : Act.same R m) (hn : Act.same R n) :
    Act.same R (if c then m else n) := by split <;> assumption

/-- A rule that looks at the state: what it does next depends only on what related states have in common. -/
theorem Act.same_current {f : State → Act β} (hc : ∀ s t, R s t → f t = f s) (hf : ∀ s, Act.same R (f s)) :
    Act.same R (current >>= f) := by
  intro s t h
  rw [bind_current, bind_current, hc s t h]
  exact hf s s t h

end

section
variable {R : State → State → Prop} (H : CodecTwins R)
include H

/-- Related states have the same stream bits (R11). -/
theorem CodecTwins.bufBit {s t : State} (h : R s t) (q : Nat) : t.bufBit q = s.bufBit q := by
  rw [State.bufBit, H.bufByte h]; rfl

/-- The write loop of R131 is a chain of byte writes. -/
theorem CodecTwins.putBits (p v w : Nat) {s t : State} (h : R s t) : R (s.putBits p v w) (t.putBits p v w) := by
  induction w generalizing s t p with
  | zero => exact h
  | succ w ih =>
    simp only [State.putBits, State.setBufBit, H.bufByte h]
    exact ih (p + 1) (H.setBufByte h _ _)

theorem CodecTwins.jumpOk {s t : State} (h : R s t) (g k : Nat) : t.jumpOk g k = s.jumpOk g k := by
  rw [State.jumpOk, State.jumpOk, H.params h, H.ls h]

theorem CodecTwins.fetch {s t : State} (h : R s t) : t.fetch = s.fetch := by
  rw [State.fetch, State.fetch, H.params h, H.gpc h, H.gtWord h]

theorem CodecTwins.writeBits (v w : Nat) : Act.same R (writeBits v w) := by
  intro s t h
  rw [writeBits_run, writeBits_run, H.cap h, H.pos h]
  split
  · exact .error _ h
  · exact .ok () (H.withPos (H.putBits _ _ _ h) _)

theorem CodecTwins.readBits (w : Nat) : Act.same R (readBits w) := by
  intro s t h
  rw [readBits_run, readBits_run, H.readBound h, H.pos h, State.bitsValue_congr s t _ _ fun q _ _ => H.bufBit h q]
  split
  · exact .error _ h
  · exact .ok _ (H.withPos h _)

theorem CodecTwins.slot (off : Half) (extra : Nat) : Act.same R (slot off extra) := by
  intro s t h
  rw [slot_run, slot_run, H.params h, H.base h]
  split
  · exact .error _ h
  · exact .ok _ h

theorem CodecTwins.goNext (g : Nat) : Act.same R (goNext g) := by
  intro s t h
  rw [goNext_run, goNext_run, H.params h]
  split
  · exact .error _ h
  · exact .ok () (H.withGpc h _)

theorem CodecTwins.goJump (g k : Nat) : Act.same R (goJump g k) := by
  intro s t h
  rw [goJump_run, goJump_run, H.jumpOk h]
  split
  · exact .ok () (H.withGpc h _)
  · exact .error _ h

theorem CodecTwins.setGpc (k : Nat) : Act.same R (setGpc k) := Act.same_effect fun _ _ h => H.withGpc h k

theorem CodecTwins.readDoc (a : Nat) : Act.same R (readDoc a) :=
  Act.same_current (fun s t h => by rw [H.docSlot h]) fun _ => Act.same_pure _

theorem CodecTwins.writeDoc (a v : Nat) : Act.same R (writeDoc a v) := Act.same_effect fun _ _ h => H.setDocSlot h a _

theorem CodecTwins.writeVarGroups (n v : Nat) : Act.same R (writeVarGroups n v) := by
  induction n generalizing v with
  | zero => exact Act.same_pure ()
  | succ n ih => exact Act.same_ite (Act.same_bind (H.writeBits _ _) fun _ => ih _) (H.writeBits _ _)

theorem CodecTwins.readVarGroups (vb n k acc : Nat) : Act.same R (readVarGroups vb n k acc) := by
  induction n generalizing k acc with
  | zero => exact Act.same_raise _ _
  | succ n ih =>
    exact Act.same_bind (H.readBits _) fun _ => Act.same_bind (Act.same_raiseIf _ _ _) fun _ =>
      Act.same_ite (Act.same_pure _) (ih _ _)

theorem CodecTwins.writeLen (m : LenMode) (cap n : Nat) : Act.same R (writeLen m cap n) := by
  cases m
  · exact H.writeBits _ _
  · exact H.writeVarGroups _ _

theorem CodecTwins.readLen (m : LenMode) (cap : Nat) : Act.same R (readLen m cap) := by
  cases m
  · exact H.readBits _
  · exact H.readVarGroups _ _ _ _

theorem CodecTwins.writeChars (chw a n : Nat) : Act.same R (writeChars chw a n) := by
  induction n generalizing a with
  | zero => exact Act.same_pure ()
  | succ n ih =>
    exact Act.same_bind (H.readDoc _) fun _ => Act.same_bind (Act.same_raiseIf _ _ _) fun _ =>
      Act.same_bind (H.writeBits _ _) fun _ => ih _

theorem CodecTwins.readChars (chw a n : Nat) : Act.same R (readChars chw a n) := by
  induction n generalizing a with
  | zero => exact Act.same_pure ()
  | succ n ih => exact Act.same_bind (H.readBits _) fun _ => Act.same_bind (H.writeDoc _ _) fun _ => ih _

theorem CodecTwins.presBit (a : Nat) (d : Dir) : Act.same R (presBit a d) := by
  cases d
  · exact Act.same_bind (H.readDoc _) fun _ => Act.same_bind (Act.same_raiseIf _ _ _) fun _ =>
      Act.same_bind (H.writeBits _ _) fun _ => Act.same_pure _
  · exact Act.same_bind (H.readBits _) fun _ => Act.same_bind (H.writeDoc _ _) fun _ => Act.same_pure _

theorem CodecTwins.readAlts (g n : Nat) : Act.same R (readAlts g n) := by
  induction n generalizing g with
  | zero => exact Act.same_pure _
  | succ n ih =>
    refine Act.same_current (fun s t h => by rw [H.params h, H.gtWord h]) fun s =>
      Act.same_bind (Act.same_raiseIf _ _ _) fun _ => ?_
    split
    · exact Act.same_raise _ _
    · exact Act.same_bind (H.slot _ _) fun _ => Act.same_bind (ih _) fun _ => Act.same_pure _
    · exact Act.same_raise _ _

theorem CodecTwins.selectAlt (alts : List Alt) (w : Nat) (d : Dir) : Act.same R (selectAlt alts w d) := by
  cases d
  · refine Act.same_current (fun s t h => by rw [State.flagged, State.flagged, H.docSlot h]) fun s =>
      Act.same_bind (Act.same_raiseIf _ _ _) fun _ => ?_
    split
    · exact Act.same_raise _ _
    · exact Act.same_bind (H.writeBits _ _) fun _ => Act.same_pure _
    · exact Act.same_raise _ _
  · refine Act.same_bind (H.readBits _) fun k => ?_
    split
    · exact Act.same_raise _ _
    · exact Act.same_bind (H.writeDoc _ _) fun _ => Act.same_pure _

theorem CodecTwins.listChecks (g : Nat) (max body elem stride : Half) :
    Act.same R (listChecks g max body elem stride) :=
  Act.same_current (fun s t h => by rw [H.params h, H.gtWord h, H.ls h, H.base h]) fun _ =>
    Act.same_bind (Act.same_raiseIf _ _ _) fun _ => Act.same_bind (Act.same_raiseIf _ _ _) fun _ =>
      Act.same_bind (Act.same_raiseIf _ _ _) fun _ => Act.same_bind (Act.same_raiseIf _ _ _) fun _ =>
        Act.same_raiseIf _ _ _

theorem CodecTwins.countField (m : LenMode) (max a : Nat) (d : Dir) : Act.same R (countField m max a d) := by
  cases d
  · exact Act.same_bind (H.readDoc _) fun _ => Act.same_bind (Act.same_raiseIf _ _ _) fun _ =>
      Act.same_bind (H.writeLen _ _ _) fun _ => Act.same_pure _
  · exact Act.same_bind (H.readLen _ _) fun _ => Act.same_bind (Act.same_raiseIf _ _ _) fun _ =>
      Act.same_bind (H.writeDoc _ _) fun _ => Act.same_pure _

theorem CodecTwins.enumField (n a : Nat) (d : Dir) : Act.same R (enumField n a d) := by
  cases d
  · exact Act.same_bind (H.readDoc _) fun _ => Act.same_bind (Act.same_raiseIf _ _ _) fun _ => H.writeBits _ _
  · exact Act.same_bind (H.readBits _) fun _ => Act.same_bind (Act.same_raiseIf _ _ _) fun _ => H.writeDoc _ _

theorem CodecTwins.nbitField (min max a : Nat) (d : Dir) : Act.same R (nbitField min max a d) := by
  cases d
  · exact Act.same_bind (H.readDoc _) fun _ => Act.same_bind (Act.same_raiseIf _ _ _) fun _ => H.writeBits _ _
  · exact Act.same_bind (H.readBits _) fun _ => Act.same_bind (Act.same_raiseIf _ _ _) fun _ => H.writeDoc _ _

theorem CodecTwins.varuintField (vb a : Nat) (d : Dir) : Act.same R (varuintField vb a d) := by
  cases d
  · exact Act.same_bind (H.readDoc _) fun _ => Act.same_bind (Act.same_raiseIf _ _ _) fun _ => H.writeVarGroups _ _
  · exact Act.same_bind (H.readVarGroups _ _ _ _) fun _ => H.writeDoc _ _

theorem CodecTwins.charsField (chw a n : Nat) (d : Dir) : Act.same R (charsField chw a n d) := by
  cases d
  · exact H.writeChars _ _ _
  · exact H.readChars _ _ _

theorem CodecTwins.listRule (m : LenMode) (off max body elem stride : Half) (d : Dir) (g : Nat) :
    Act.same R (listRule m off max body elem stride d g) :=
  Act.same_bind (H.slot _ _) fun _ => Act.same_bind (H.listChecks _ _ _ _ _) fun _ =>
    Act.same_bind (H.countField _ _ _ _) fun _ =>
      Act.same_ite (H.goJump _ _) (Act.same_effect fun _ _ h => H.enterList h _ _ _ _ _)

theorem CodecTwins.stringRule (m : LenMode) (off cap : Half) (chw : Nat) (d : Dir) (g : Nat) :
    Act.same R (stringRule m off cap chw d g) :=
  Act.same_bind (H.slot _ _) fun _ => Act.same_bind (H.countField _ _ _ _) fun _ =>
    Act.same_bind (H.charsField _ _ _ _) fun _ => H.goNext _

/-- A field between its slot check and `Next` (R221, R222, R224). -/
theorem CodecTwins.field {off : Half} {f : Nat → Act Unit} {g : Nat} (hf : ∀ a, Act.same R (f a)) :
    Act.same R (do let a ← Machine.slot off 0; f a; Machine.goNext g) :=
  Act.same_bind (H.slot _ _) fun _ => Act.same_bind (hf _) fun _ => H.goNext _

theorem CodecTwins.settled {x y : EStateM.Result Raise State Unit} (h : Act.Alike R x y) :
    R (settled x) (settled y) := by
  cases h with
  | ok _ h => exact h
  | error e h => exact H.takeFault h e

/-- A descriptor whose rule runs alike steps related states to related states. -/
theorem CodecTwins.descriptor {s t s' : State} {body : Dir → Nat → Act Unit} (hb : ∀ d g, Act.same R (body d g))
    (h : R s t) (hs : descriptor body s = .next s') : ∃ t', descriptor body t = .next t' ∧ R s' t' := by
  cases hd : s.run with
  | none => rw [descriptor_noRun s body hd] at hs; cases hs
  | some d =>
    rw [descriptor_run s body d hd] at hs
    cases hs
    exact ⟨_, descriptor_run t body d ((H.run h).trans hd), by rw [H.gpc h]; exact H.settled (hb d _ s t h)⟩

/-- Every descriptor steps related states to related states. -/
theorem CodecTwins.exec {i : Instr} (hi : i.isCommand = false) {s t s' : State} (h : R s t)
    (hs : exec i s = .next s') : ∃ t', exec i t = .next t' ∧ R s' t' := by
  cases i
  case gwEnd =>
    rw [Machine.exec, execGwEnd] at hs ⊢
    exact H.descriptor (fun _ _ => Act.same_current (fun s t h => by rw [H.ls h]) fun _ =>
      Act.same_bind (Act.same_raiseIf _ _ _) fun _ => Act.same_effect fun _ _ h => H.done h) h hs
  case gwFail code =>
    rw [Machine.exec, execGwFail] at hs ⊢
    exact H.descriptor (fun _ _ => Act.same_raise _ _) h hs
  case gwPres off skip =>
    rw [Machine.exec, execGwPres] at hs ⊢
    exact H.descriptor (fun _ _ => Act.same_bind (H.slot _ _) fun _ => Act.same_bind (H.presBit _ _) fun _ =>
      Act.same_ite (H.goNext _) (H.goJump _ _)) h hs
  case gwChoice nalt =>
    rw [Machine.exec, execGwChoice] at hs ⊢
    exact H.descriptor (fun _ _ => Act.same_bind (H.readAlts _ _) fun _ =>
      Act.same_current (fun s t h => by simp only [H.jumpOk h]) fun _ =>
        Act.same_bind (Act.same_raiseIf _ _ _) fun _ => Act.same_bind (H.selectAlt _ _ _) fun _ => H.setGpc _) h hs
  case gwAlt off target =>
    rw [Machine.exec, execGwAlt] at hs ⊢
    exact H.descriptor (fun _ _ => Act.same_raise _ _) h hs
  case gwListN off max body elem stride =>
    rw [Machine.exec, execGwListN] at hs ⊢
    exact H.descriptor (fun d g => H.listRule _ _ _ _ _ _ d g) h hs
  case gwListV off max body elem stride =>
    rw [Machine.exec, execGwListV] at hs ⊢
    exact H.descriptor (fun d g => H.listRule _ _ _ _ _ _ d g) h hs
  case gwLend =>
    rw [Machine.exec, execGwLend] at hs ⊢
    refine H.descriptor (fun _ g => ?_) h hs
    refine Act.same_current (fun s t h => by rw [H.ls h]) fun s => ?_
    split
    · exact Act.same_raise _ _
    · refine Act.same_bind (Act.same_raiseIf _ _ _) fun _ => Act.same_ite ?_ ?_
      · exact Act.same_effect fun _ _ h => H.nextElement h _ _ _
      · exact Act.same_bind (Act.same_effect fun _ _ h => H.leaveList h _ _) fun _ => H.goNext _
  case gwEnum off n =>
    rw [Machine.exec, execGwEnum] at hs ⊢
    exact H.descriptor (fun d g => H.field fun _ => H.enumField _ _ d) h hs
  case gwNbit off min max =>
    rw [Machine.exec, execGwNbit] at hs ⊢
    exact H.descriptor (fun d g => H.field fun _ => H.nbitField _ _ _ d) h hs
  case gwVaruint off vb =>
    rw [Machine.exec, execGwVaruint] at hs ⊢
    exact H.descriptor (fun d g => H.field fun _ => H.varuintField _ _ d) h hs
  case gwStringN off cap chw =>
    rw [Machine.exec, execGwStringN] at hs ⊢
    exact H.descriptor (fun d g => H.stringRule _ _ _ _ d g) h hs
  case gwStringV off cap chw =>
    rw [Machine.exec, execGwStringV] at hs ⊢
    exact H.descriptor (fun d g => H.stringRule _ _ _ _ d g) h hs
  case gwBytesN off cap =>
    rw [Machine.exec, execGwBytesN] at hs ⊢
    exact H.descriptor (fun d g => H.stringRule _ _ _ _ d g) h hs
  case gwBytesV off cap =>
    rw [Machine.exec, execGwBytesV] at hs ⊢
    exact H.descriptor (fun d g => H.stringRule _ _ _ _ d g) h hs
  all_goals cases hi

/-- A step of the codec run takes related states to related states (R182). -/
theorem CodecTwins.stepRun {s t s' : State} (h : R s t) (hs : stepRun s = .next s') :
    ∃ t', stepRun t = .next t' ∧ R s' t' := by
  unfold Machine.stepRun at hs ⊢
  rw [H.fetch h]
  cases hf : s.fetch with
  | error e => rw [hf] at hs; cases hs; exact ⟨_, rfl, H.takeFault h e⟩
  | ok i =>
    rw [hf] at hs
    exact H.exec (decodeDescriptor_isCommand (fetch_eq_ok hf).2) h hs

end

/-! EXT: states that differ in nothing else -/

variable {s t : State}

/-- `s` with another value in EXT. -/
def State.withExt (s : State) (e : Word) : State := { s with ext := e }

/-- The states that differ from each other at most in EXT, the second with `e` there. -/
def ExtTwin (e : Word) (s t : State) : Prop := t = s.withExt e

/-- No descriptor reads or writes EXT. -/
theorem codecTwins_extTwin (e : Word) : CodecTwins (ExtTwin e) := by
  constructor
  all_goals rintro s _ rfl; intros; rfl

/-- A byte sequence written to BUF (R62). -/
theorem ExtTwin.memWrite {e : Word} (a v n : Nat) (h : ExtTwin e s t) :
    ExtTwin e (s.memWrite a v n) (t.memWrite a v n) := by
  induction n generalizing s t a with
  | zero => exact h
  | succ n ih => exact ih (a + 1) ((codecTwins_extTwin e).setBufByte h _ _)

theorem State.memRead_withExt (s : State) (e : Word) (a n : Nat) : (s.withExt e).memRead a n = s.memRead a n := by
  induction n generalizing a with
  | zero => rfl
  | succ n ih => rw [State.memRead, ih]; rfl

/-- The acceptance of a command does not look at EXT (R252). -/
theorem ExtTwin.command {e : Word} {needs : Bool} {body : Act Unit} (hb : Act.same (ExtTwin e) body) :
    ExtTwin e (command needs body s) (command needs body (s.withExt e)) := by
  cases hf : s.status.fault with
  | true =>
    rw [command_refused s needs body hf, command_refused (s.withExt e) needs body hf]
    exact rfl
  | false =>
    by_cases hn : needs = true → s.status.inited = true
    · rw [command_run s needs body hf hn, command_run (s.withExt e) needs body hf hn]
      exact (codecTwins_extTwin e).settled (hb _ _ rfl)
    · simp only [Classical.not_imp, Bool.not_eq_true] at hn
      obtain ⟨rfl, hi⟩ := hn
      rw [command_uninited s body hf hi, command_uninited (s.withExt e) body hf hi]
      exact rfl

theorem ExtTwin.putHeader {e : Word} (length : Word) (tag : Half) (h : ExtTwin e s t) :
    ExtTwin e (s.putHeader length tag) (t.putHeader length tag) :=
  .memWrite _ _ _ <| .memWrite _ _ _ <| .memWrite _ _ _ <| .memWrite _ _ _ h

/-- BS_INIT from every state (R130). -/
theorem exec_bsInit (s : State) (cap start ext : Word) :
    exec (.bsInit cap start ext) s = .next (
      if s.params.bufBytes < cap.toNat then s.leaveFault.unbound.takeFault ⟨.bufferOverflow, 1⟩
      else if cap.toNat * 8 < start.toNat then s.leaveFault.unbound.takeFault ⟨.bufferOverflow, 2⟩
      else (s.leaveFault.bound cap start ext).done) := by
  show Host.Outcome.next (Machine.settled (bsInit cap start ext s)) = _
  simp only [bsInit, bind_effect, bind_current, bind_rejectInit, decide_eq_true_eq]
  by_cases h1 : s.params.bufBytes < cap.toNat
  · rw [if_pos (by exact h1), if_pos h1]; rfl
  · rw [if_neg (by exact h1), if_neg h1]
    split <;> rfl

/-- What the next state `t` of `s` under `f` owes to EXT: it carries EXT along, or it does not depend on EXT. -/
def ExtBlind (f : State → Host.Outcome State Fault Refusal) (s t : State) : Prop :=
  (∀ e, f (s.withExt e) = .next (t.withExt e)) ∨ ∀ e, f (s.withExt e) = .next t

/-- No command but BS_INIT touches EXT, and that one sets it (R26, R130). -/
theorem exec_extBlind {i : Instr} (hi : i.isCommand = true) (h : exec i s = .next t) : ExtBlind (exec i) s t := by
  have key : ∀ needs body, (∀ e, Act.same (ExtTwin e) body) →
      (∀ x, exec i x = .next (command needs body x)) → ExtBlind (exec i) s t := fun needs body hb hx =>
    .inl fun e => by
      have ht := Host.Outcome.next.inj ((hx s).symm.trans h)
      rw [hx, ← ht]; exact congrArg _ (ExtTwin.command (hb e))
  cases i
  case bsInit cap start ext =>
    rw [exec_bsInit] at h
    by_cases h1 : s.params.bufBytes < cap.toNat
    · rw [if_pos h1] at h; cases h
      exact .inl fun e => (exec_bsInit _ _ _ _).trans (congrArg _ (if_pos h1))
    · rw [if_neg h1] at h
      by_cases h2 : cap.toNat * 8 < start.toNat
      · rw [if_pos h2] at h; cases h
        exact .inl fun e => (exec_bsInit _ _ _ _).trans (congrArg _ ((if_neg h1).trans (if_pos h2)))
      · rw [if_neg h2] at h; cases h
        exact .inr fun e => (exec_bsInit _ _ _ _).trans (congrArg _ ((if_neg h1).trans (if_neg h2)))
  case bsWriteBits value width =>
    exact key true _ (fun e => Act.same_bind ((codecTwins_extTwin e).writeBits _ _) fun _ =>
      Act.same_effect fun _ _ h => (codecTwins_extTwin e).done h) fun _ => rfl
  case bsReadBits width =>
    exact key true _ (fun e => Act.same_bind ((codecTwins_extTwin e).readBits _) fun r =>
      Act.same_effect (by rintro s _ rfl; exact rfl)) fun _ => rfl
  case bsGetLength => exact key true _ (fun e => Act.same_effect (by rintro s _ rfl; exact rfl)) fun _ => rfl
  case bsSetLimit bytes =>
    exact key true _ (fun e => Act.same_current (by rintro s _ rfl; rfl) fun _ =>
      Act.same_bind (Act.same_raiseIf _ _ _) fun _ => Act.same_bind (Act.same_effect (by rintro s _ rfl; exact rfl))
        fun _ => Act.same_effect fun _ _ h => (codecTwins_extTwin e).done h) fun _ => rfl
  case frWriteHeader length tag =>
    exact key false _ (fun e => Act.same_bind (Act.same_effect fun _ _ h => h.putHeader length tag) fun _ =>
      Act.same_effect fun _ _ h => (codecTwins_extTwin e).done h) fun _ => rfl
  case frReadHeader tag =>
    refine key false _ (fun e => Act.same_current ?_ fun _ => Act.same_bind (Act.same_raiseIf _ _ _) fun _ =>
      Act.same_bind (Act.same_raiseIf _ _ _) fun _ => Act.same_effect ?_) fun _ => rfl
    · rintro s _ rfl; simp only [State.memRead_withExt]
    · rintro s _ rfl; beta_reduce; rw [State.memRead_withExt]; exact rfl
  case cdEncode entry => exact key true _ (fun e => Act.same_effect (by rintro s _ rfl; exact rfl)) fun _ => rfl
  case cdDecode entry => exact key true _ (fun e => Act.same_effect (by rintro s _ rfl; exact rfl)) fun _ => rfl
  all_goals cases hi

theorem illegalCommand_withExt (s : State) (e : Word) :
    illegalCommand (s.withExt e) = (illegalCommand s).withExt e := by
  unfold illegalCommand
  split
  next hf => rw [if_pos (by exact hf)]; rfl
  next hf => rw [if_neg (by exact hf)]; rfl

theorem stepCommand_extBlind {w : Wide} (h : stepCommand w s = .next t) : ExtBlind (stepCommand w) s t := by
  unfold ExtBlind stepCommand at *
  split at h
  next i hi => exact exec_extBlind (decodeCommand_isCommand hi) h
  next e he => cases h; exact .inl fun e => congrArg _ (illegalCommand_withExt (s.present w) e)

/-- No step of a codec run looks at EXT. -/
theorem stepRun_extBlind (h : stepRun s = .next t) : ExtBlind stepRun s t := .inl fun e => by
  obtain ⟨t', ht, rfl⟩ := (codecTwins_extTwin e).stepRun (rfl : ExtTwin e s (s.withExt e)) h
  exact ht

/-- A read of any register but EXT, and every other port operation. -/
theorem portOp_extBlind {op : HostOp} (h : op ≠ .regRead 4) :
    (∀ e, (s.withExt e).portOp op = (s.portOp op).withExt e) ∨ ∀ e, (s.withExt e).portOp op = s.portOp op := by
  cases op
  case reset => exact .inr fun e => rfl
  case regRead n =>
    refine .inl fun e => ?_
    have hn : (s.withExt e).hostRegRead n = s.hostRegRead n := by
      unfold State.hostRegRead
      split
      case h_5 => exact absurd rfl h
      all_goals rfl
    simp only [State.portOp, hn]
    rfl
  all_goals exact .inl fun e => rfl

/-- A reset at the head of the queue is served at once (R290). -/
theorem step_eq_resetEvent {rest : List HostOp} (hi : s.inbox = .reset :: rest) :
    step s = .next (s.served rest).resetEvent := by
  simp [step, hi]

/-- With no run and nothing on its ports the block does nothing (R290). -/
theorem step_eq_self (hr : s.run = none) (hi : s.inbox = []) : step s = .next s := by
  simp [step, hr, hi]

/-- A step that is no read of register 4 carries EXT along, or does not depend on it (R26). -/
theorem step_extBlind (h : step s = .next t) :
    ExtBlind step s t ∨ ∃ rest, s.run = none ∧ s.inbox = .regRead 4 :: rest := by
  obtain ⟨rest, hi, rfl⟩ | ⟨hn, ⟨d, hd⟩, h⟩ |
    ⟨-, hr, ⟨hi, rfl⟩ | ⟨w, rest, hi, h⟩ | ⟨op, rest, hi, hw, -, rfl⟩⟩ := step_cases h
  · exact .inl (.inr fun e => step_eq_resetEvent (s := s.withExt e) hi)
  · have hx : ∀ e, step (s.withExt e) = stepRun (s.withExt e) := fun e =>
      step_eq_stepRun (s := s.withExt e) hd hn
    exact .inl ((stepRun_extBlind h).imp (fun h e => (hx e).trans (h e)) fun h e => (hx e).trans (h e))
  · exact .inl (.inl fun e => step_eq_self (s := State.withExt _ e) hr hi)
  · have hx : ∀ e, step (s.withExt e) = stepCommand w ((s.served rest).withExt e) := fun e =>
      step_eq_stepCommand (s := s.withExt e) hr hi
    exact .inl ((stepCommand_extBlind h).imp (fun h e => (hx e).trans (h e)) fun h e => (hx e).trans (h e))
  · have hx : ∀ e, step (s.withExt e) = .next (((s.served rest).withExt e).portOp op) := fun e =>
      step_eq_portOp (s := s.withExt e) hr hi hw
    by_cases h4 : op = .regRead 4
    · exact .inr ⟨rest, hr, by rw [hi, h4]⟩
    · exact .inl ((portOp_extBlind h4).imp (fun h e => (hx e).trans (congrArg _ (h e)))
        fun h e => (hx e).trans (congrArg _ (h e)))

/-- A step that carries every value of EXT along keeps EXT: it carries the state's own value. -/
theorem ext_eq_of_step_withExt (h : step s = .next t) (hx : ∀ e, step (s.withExt e) = .next (t.withExt e)) :
    t.ext = s.ext := by
  have ht : t = t.withExt s.ext := Host.Outcome.next.inj (h.symm.trans (hx s.ext))
  rw [ht]; rfl

end Sys2Proof.Machine

namespace Sys2Proof

open Machine

/-- Settles O56: a step carries EXT along, or does not depend on it, or is the read of register 4. -/
theorem externalStateHasNoEffect : Obligations.ExternalStateHasNoEffect := by
  intro s t e h
  obtain (hx | hx) | ⟨rest, hr, hi⟩ := step_extBlind h
  · exact ⟨_, hx e, rfl, .inr ⟨ext_eq_of_step_withExt h hx, rfl⟩, fun _ => rfl⟩
  · exact ⟨t, hx e, rfl, .inl rfl, fun _ => rfl⟩
  · have ht := Host.Outcome.next.inj (h.symm.trans (step_eq_portOp hr hi nofun))
    subst ht
    exact ⟨_, step_eq_portOp (s := s.withExt e) hr hi nofun, rfl, .inr ⟨rfl, rfl⟩, fun h4 => absurd hi (h4 rest)⟩

end Sys2Proof
end

section
/-! Proofs for 20_memory.md: the memory port (O18). -/

namespace Sys2Proof.Machine

variable {s : State}

/-! The cells of the three memories, read after a write, and outside the memory (R77) -/

theorem State.setDocSlot_outside {i : Nat} (v : Cell64) (h : s.params.docSlots ≤ i) : s.setDocSlot i v = s := by
  rw [State.setDocSlot, if_neg (Nat.not_lt.2 h)]

theorem State.setGtWord_outside {g : Nat} (v : Wide) (h : s.params.gtSteps ≤ g) : s.setGtWord g v = s := by
  rw [State.setGtWord, if_neg (Nat.not_lt.2 h)]

theorem State.bufByte_outside {a : Nat} (h : s.params.bufBytes ≤ a) : s.bufByte a = 0 := if_neg (Nat.not_lt.2 h)

theorem State.docSlot_outside {i : Nat} (h : s.params.docSlots ≤ i) : s.docSlot i = 0 := if_neg (Nat.not_lt.2 h)

theorem State.gtWord_outside {g : Nat} (h : s.params.gtSteps ≤ g) : s.gtWord g = 0 := if_neg (Nat.not_lt.2 h)

/-- A byte write inside BUF or not: it is seen at its own address if that is inside, and nowhere else. -/
theorem State.bufByte_setBufByte_ite (a b : Nat) (v : Byte) :
    (s.setBufByte a v).bufByte b = if b = a ∧ a < s.params.bufBytes then v else s.bufByte b := by
  by_cases ha : a < s.params.bufBytes
  · simp only [s.bufByte_setBufByte a b v ha, ha, and_true]
  · rw [s.setBufByte_outside a v (Nat.not_lt.1 ha), if_neg fun h => ha h.2]

theorem State.docSlot_setDocSlot_ite (i j : Nat) (v : Cell64) :
    (s.setDocSlot i v).docSlot j = if j = i ∧ i < s.params.docSlots then v else s.docSlot j := by
  by_cases hi : i < s.params.docSlots
  · simp only [s.docSlot_setDocSlot i j v hi, hi, and_true]
  · rw [State.setDocSlot_outside v (Nat.not_lt.1 hi), if_neg fun h => hi h.2]

theorem State.gtWord_setGtWord_ite (g h : Nat) (v : Wide) :
    (s.setGtWord g v).gtWord h = if h = g ∧ g < s.params.gtSteps then v else s.gtWord h := by
  by_cases hg : g < s.params.gtSteps
  · simp only [s.gtWord_setGtWord g h v hg, hg, and_true]
  · rw [State.setGtWord_outside v (Nat.not_lt.1 hg), if_neg fun hh => hg hh.2]

end Sys2Proof.Machine

namespace Sys2Proof

open Machine

/-- Settles O18: a port write is the write of one cell, a port read gives one cell to the host, and a step with no
run serves the head of the queue (R77, R78). -/
theorem memoryPort : Obligations.MemoryPort := by
  intro s
  refine ⟨?writeBuf, ?writeDoc, ?writeGt, ?readBuf, ?readDoc, ?readGt, ?_, ?_, ?_, ?served⟩
  case writeBuf => exact fun a v b => ⟨rfl, State.bufByte_setBufByte_ite a b v⟩
  case writeDoc => exact fun i v j => ⟨rfl, State.docSlot_setDocSlot_ite i j v⟩
  case writeGt => exact fun g v h => ⟨rfl, State.gtWord_setGtWord_ite g h v⟩
  case readBuf | readDoc | readGt => exact fun _ => rfl
  case served => exact fun _ _ hr hi hw => .inr (step_eq_portOp hr hi hw)
  · exact fun _ => State.bufByte_outside
  · exact fun _ => State.docSlot_outside
  · exact fun _ => State.gtWord_outside

end Sys2Proof
end

section
/-! Proofs for 30_encoding.md: the two decoders, the encoder, and R93's `LegalCmd` and R103's `LegalGW` agree
(O1 to O6). -/

namespace Sys2Proof.Decode

variable {w : Wide}

/-! A word from the fields that its format leaves in use -/

/-- A legal command word is the word of its opcode and operands (R90). -/
theorem cmdWord_eq {opc : Nat} {a0 a1 a2 : Word} (hr : decide (reserved w = 0) = true)
    (ho : (topByte w).toNat = opc) (h0 : arg0 w = a0) (h1 : arg1 w = a1) (h2 : arg2 w = a2) :
    cmdWord (BitVec.ofNat 8 opc) a0 a1 a2 = w := by
  subst ho h0 h1 h2
  rw [BitVec.ofNat_toNat, BitVec.setWidth_eq]
  exact cmdWord_fields w (of_decide_eq_true hr)

/-- A 32-bit operand within 16 bits is its own low half, widened again (R92). -/
theorem setWidth_setWidth_of_le {a : Word} (h : a.toNat ≤ 0xFFFF) : a = (a.setWidth 16).setWidth 32 := by
  refine BitVec.eq_of_toNat_eq ?_
  rw [BitVec.toNat_setWidth, BitVec.toNat_setWidth]
  omega

/-- A field that is in use or 0 is the field, or 0 in its place. -/
theorem cond_eq_of_unused {n : Nat} {used : Bool} {x : BitVec n} (h : (used || decide (x = 0)) = true) :
    cond used x 0 = x := by
  cases used
  · exact (of_decide_eq_true h).symm
  · rfl

/-- A descriptor word whose unused fields are 0 is the word of its kind and of the fields in use (R100, R102). -/
theorem gwWord_eq {kind : Nat} {useLm useChw useOff useA useB useCD : Bool}
    (hr : (decide (reservedHigh w = 0) && decide (reservedMid w = 0) && decide (reservedLow w = 0)) = true)
    (hk : (topByte w).toNat = kind) (hu : unused w useLm useChw useOff useA useB useCD = true) :
    gwWord (BitVec.ofNat 8 kind) (cond useLm (lm w) 0) (cond useChw (chw w) 0) (cond useOff (off w) 0)
      (cond useA (fieldA w) 0) (cond useB (fieldB w) 0) (cond useCD (fieldC w) 0) (cond useCD (fieldD w) 0) = w := by
  simp only [Bool.and_eq_true, decide_eq_true_eq] at hr
  obtain ⟨⟨hhigh, hmid⟩, hlow⟩ := hr
  simp only [unused, Bool.or_and_distrib_left, Bool.and_eq_true] at hu
  obtain ⟨⟨⟨⟨⟨hlm, hchw⟩, hoff⟩, ha⟩, hb⟩, hc, hd⟩ := hu
  rw [cond_eq_of_unused hlm, cond_eq_of_unused hchw, cond_eq_of_unused hoff, cond_eq_of_unused ha,
    cond_eq_of_unused hb, cond_eq_of_unused hc, cond_eq_of_unused hd, ← hk, BitVec.ofNat_toNat, BitVec.setWidth_eq]
  exact gwWord_fields w hhigh hmid hlow

/-! The two choices inside the descriptor decoder: the length mode and the code of FAIL -/

/-- Which reading a length mode selects; the other fourteen values of LM select none (R100, R103 (d)). -/
theorem byMode_ok_iff {n v : Except Reject Instr} {i : Instr} :
    byMode w n v = .ok i ↔ lm w = 0 ∧ n = .ok i ∨ lm w = 1 ∧ v = .ok i := by
  unfold byMode
  split
  next h => simp [BitVec.eq_of_toNat_eq (y := 0#4) h]
  next h => simp [BitVec.eq_of_toNat_eq (y := 1#4) h]
  next h0 h1 =>
    have hn0 : lm w ≠ 0#4 := fun h => h0 (by rw [h]; rfl)
    have hn1 : lm w ≠ 1#4 := fun h => h1 (by rw [h]; rfl)
    simp [hn0, hn1]

/-- R103 (d): LM is one of the two modes. -/
theorem lm_le_one_iff : (lm w).toNat ≤ 1 ↔ lm w = 0 ∨ lm w = 1 := by
  rw [← BitVec.toNat_inj, ← BitVec.toNat_inj]
  exact Nat.le_one_iff_eq_zero_or_eq_one

/-- With a bound on the `.N` reading alone, a word is read for LM 0 or 1, and for LM 0 within the bound (R103). -/
theorem exists_byMode_iff {c : Bool} {why : Reject} {n v : Instr} :
    (∃ i, byMode w (require c why (.ok n)) (.ok v) = .ok i) ↔ (lm w).toNat ≤ 1 ∧ (lm w = 0 → c = true) := by
  simp only [byMode_ok_iff, require_eq_ok, Except.ok.injEq, exists_or, exists_and_left, exists_eq', and_true,
    lm_le_one_iff]
  constructor
  · rintro (⟨h0, hc⟩ | h1)
    · exact ⟨.inl h0, fun _ => hc⟩
    · exact ⟨.inr h1, fun h0 => absurd (h0.symm.trans h1) (by decide)⟩
  · rintro ⟨h0 | h1, hc⟩
    · exact .inl ⟨h0, hc h0⟩
    · exact .inr h1

/-- The code of a fault kind names that kind (R250). -/
theorem faultKind_codeField (k : FaultKind) : faultKind (codeField k).toNat = some k := by
  cases k <;> rfl

/-- A code has one fault kind only, so the field of FAIL can be had back from the kind (R250). -/
theorem codeField_of_faultKind {a : Half} {k : FaultKind} (h : faultKind a.toNat = some k) : codeField k = a := by
  refine BitVec.eq_of_toNat_eq ?_
  unfold faultKind at h
  split at h
  case h_7 => cases h
  all_goals next ha => cases h; exact ha.symm

/-- A code that names a fault kind is one of 1 to 6 (R250, R103 (e)). -/
theorem exists_faultKind_iff {n : Nat} : (∃ k, faultKind n = some k) ↔ 1 ≤ n ∧ n ≤ 6 := by
  unfold faultKind
  split
  case h_7 => simp only [imp_false, reduceCtorEq, exists_false, false_iff] at *; omega
  all_goals simp

end Sys2Proof.Decode

namespace Sys2Proof

open Decode

/-! An accepted word is the word of its answer -/

/-- What the command decoder accepts has a width within R93 (d). -/
theorem decodeCommand_wf {w : Wide} {i : Instr} (h : decodeCommand w = .ok i) : i.wf = true := by
  obtain ⟨-, h⟩ := require_eq_ok.1 h
  split at h <;> simp only [require_eq_ok, Except.ok.injEq, reduceCtorEq] at h
  case h_1 => subst h; rfl
  case h_4 | h_5 => obtain ⟨-, rfl⟩ := h; rfl
  case h_2 | h_3 => obtain ⟨-, hwidth, rfl⟩ := h; exact hwidth
  case h_6 | h_7 | h_8 | h_9 => obtain ⟨-, -, rfl⟩ := h; rfl

/-- No bit of an accepted command word is ignored: each is in an operand, or checked to be 0 (R93 (a) to (f)). -/
theorem encode_of_decodeCommand {w : Wide} {i : Instr} (h : decodeCommand w = .ok i) : encode i = w := by
  obtain ⟨hr, h⟩ := require_eq_ok.1 h
  split at h <;>
    simp only [require_eq_ok, Except.ok.injEq, reduceCtorEq, Bool.and_eq_true, decide_eq_true_eq] at h
  case h_1 ho => subst h; exact cmdWord_eq hr ho rfl rfl rfl
  case h_2 ho => obtain ⟨h2, -, rfl⟩ := h; exact cmdWord_eq hr ho rfl rfl h2
  case h_3 ho => obtain ⟨⟨h2, h0⟩, -, rfl⟩ := h; exact cmdWord_eq hr ho h0 rfl h2
  case h_4 ho => obtain ⟨⟨⟨h2, h1⟩, h0⟩, rfl⟩ := h; exact cmdWord_eq hr ho h0 h1 h2
  case h_5 ho => obtain ⟨⟨h2, h1⟩, rfl⟩ := h; exact cmdWord_eq hr ho rfl h1 h2
  case h_6 ho => obtain ⟨h2, ht, rfl⟩ := h; exact cmdWord_eq hr ho rfl (setWidth_setWidth_of_le ht) h2
  case h_7 ho => obtain ⟨⟨h2, h0⟩, ht, rfl⟩ := h; exact cmdWord_eq hr ho h0 (setWidth_setWidth_of_le ht) h2
  case h_8 ho | h_9 ho =>
    obtain ⟨⟨h2, h1⟩, he, rfl⟩ := h
    exact cmdWord_eq hr ho (setWidth_setWidth_of_le he) h1 h2

/-- No bit of an accepted descriptor word is ignored: each is in a field in use, or checked to be 0 (R103). -/
theorem encode_of_decodeDescriptor {w : Wide} {i : Instr} (h : decodeDescriptor w = .ok i) : encode i = w := by
  obtain ⟨hr, h⟩ := require_eq_ok.1 h
  split at h <;> simp only [require_eq_ok, byMode_ok_iff, Except.ok.injEq, reduceCtorEq] at h
  case h_1 hk | h_3 hk | h_5 hk | h_7 hk => obtain ⟨hu, rfl⟩ := h; exact (gwWord_eq hr hk hu :)
  case h_4 hk | h_8 hk | h_9 hk | h_10 hk => obtain ⟨hu, -, rfl⟩ := h; exact (gwWord_eq hr hk hu :)
  case h_2 hk =>
    obtain ⟨hu, h⟩ := h
    split at h
    next hcode =>
      cases h
      rw [encode, codeField_of_faultKind hcode]
      exact (gwWord_eq hr hk hu :)
    next => cases h
  case h_6 hk | h_11 hk =>
    obtain ⟨hu, -, ⟨hm, -, rfl⟩ | ⟨hm, rfl⟩⟩ := h <;> rw [encode, ← hm] <;> exact (gwWord_eq hr hk hu :)
  case h_12 hk =>
    obtain ⟨hu, ⟨hm, -, rfl⟩ | ⟨hm, rfl⟩⟩ := h <;> rw [encode, ← hm] <;> exact (gwWord_eq hr hk hu :)

/-! The legal words are the accepted ones -/

/-- R93's conditions are the command decoder's checks, opcode by opcode. -/
theorem decodeCommand_accepts_iff {w : Wide} : (∃ i, decodeCommand w = .ok i) ↔ legalCmd w = true := by
  simp only [decodeCommand, require_eq_ok, exists_and_left]
  split
  case h_10 => simp only [imp_false] at *; simp [legalCmd, *]
  all_goals next ho => simp [legalCmd, ho, require_eq_ok, and_assoc]

/-- R103's conditions are the descriptor decoder's checks, kind by kind. A kind without a length mode asks for LM = 0,
where R103 (d) says nothing more; a kind with one asks for (d) itself, and for (l) at LM = 0. -/
theorem decodeDescriptor_accepts_iff {w : Wide} : (∃ i, decodeDescriptor w = .ok i) ↔ legalGW w = true := by
  simp only [decodeDescriptor, require_eq_ok, exists_and_left]
  split
  case h_13 => simp only [imp_false] at *; simp [legalGW, *]
  case h_2 hk =>
    by_cases hm : lm w = 0#4 <;> cases hf : faultKind (fieldA w).toNat <;>
      simp [legalGW, hk, hm, require_eq_ok, unused, and_assoc, ← exists_faultKind_iff, hf]
  case h_6 hk | h_11 hk | h_12 hk =>
    by_cases hd : (lm w).toNat ≤ 1 <;>
      simp [legalGW, hk, hd, require_eq_ok, exists_byMode_iff, unused, and_assoc, imp_iff_not_or]
  all_goals next hk =>
    by_cases hm : lm w = 0#4 <;> simp [legalGW, hk, hm, require_eq_ok, unused, and_assoc]

/-! Decoding what the encoder wrote: every check passes, and each operand is read from the field that holds it -/

/-- Settles O1: the width is in range by R93 (d), a tag or an entry by its 16 bits. -/
theorem commandDecodeEncode : Obligations.CommandDecodeEncode := by
  intro i hc hw
  cases i <;> simp only [Instr.isCommand, Bool.false_eq_true] at hc
  case bsWriteBits | bsReadBits => simpa [encode, decodeCommand, require_eq_ok] using of_decide_eq_true hw
  case frWriteHeader | frReadHeader | cdEncode | cdDecode => simp [encode, decodeCommand, require_eq_ok]; omega
  case bsInit | bsGetLength | bsSetLimit => simp [encode, decodeCommand, require_eq_ok]

/-- Settles O2: nine of the fifteen have a condition on their operands, and there well-formedness is the check. -/
theorem descriptorDecodeEncode : Obligations.DescriptorDecodeEncode := by
  intro i hc hw
  cases i <;> simp only [Instr.isCommand, Bool.true_eq_false] at hc
  case gwFail => simp [encode, decodeDescriptor, require_eq_ok, unused, faultKind_codeField]
  case gwEnd | gwPres | gwAlt | gwLend | gwBytesV =>
    simp [encode, decodeDescriptor, require_eq_ok, unused, byMode_ok_iff]
  case gwChoice | gwListN | gwListV | gwEnum | gwNbit | gwVaruint | gwStringN | gwStringV | gwBytesN =>
    simpa [encode, decodeDescriptor, require_eq_ok, unused, byMode_ok_iff, Instr.wf] using hw

/-- Settles O3: no bit is ignored, no operand is out of range, and each decoder keeps to its level. -/
theorem acceptedWordsAreCanonical : Obligations.AcceptedWordsAreCanonical := fun _ _ =>
  ⟨fun h => ⟨encode_of_decodeCommand h, decodeCommand_wf h, decodeCommand_isCommand h⟩,
    fun h => ⟨encode_of_decodeDescriptor h, decodeDescriptor_wf h, decodeDescriptor_isCommand h⟩⟩

/-- Settles O5: each kind of the map has the conditions that the decoder checks for it. -/
theorem legalDescriptorWords : Obligations.LegalDescriptorWords := fun _ => decodeDescriptor_accepts_iff

/-- Settles O6: the decoders run on the eight words. -/
theorem sampleWordsDecode : Obligations.SampleWordsDecode := by
  unfold Obligations.SampleWordsDecode
  decide

end Sys2Proof

namespace Sys2Proof.Machine

variable {s : State}

/-- A fault with no run in progress writes STATUS and RC and nothing else (R256). -/
theorem State.takeFault_of_no_run (h : s.run = none) (e : Raise) :
    s.takeFault e = { s with status := s.status.latch e.kind e.sub, rc := faultCode e.kind } := by
  rw [State.takeFault, ← h]

/-- A word that the decoder rejects raises IllegalCommand(1) (R93, R252 test 4). -/
theorem stepCommand_of_rejected {w : Wide} (hw : ¬ ∃ i, decodeCommand w = .ok i) (hf : s.status.fault = false) :
    stepCommand w s = .next ((s.present w).takeFault ⟨.illegalCommand, 1⟩) := by
  unfold stepCommand
  split
  next i hi => exact absurd ⟨i, hi⟩ hw
  next => rw [illegalCommand, State.present_status, hf]; rfl

end Sys2Proof.Machine

namespace Sys2Proof

open Machine

/-- Settles O4: a word that is not legal is rejected, and its fault is the only thing that its step does. -/
theorem legalCommandWords : Obligations.LegalCommandWords := by
  refine fun w => ⟨decodeCommand_accepts_iff, fun s hw hf hr => ?_⟩
  have hrej : ¬ ∃ i, decodeCommand w = .ok i := by
    rw [decodeCommand_accepts_iff, hw]
    exact Bool.false_ne_true
  rw [stepCommand_of_rejected hrej hf, State.takeFault_of_no_run (s := s.present w) hr]
  rfl

end Sys2Proof
end

section
/-! Proofs for 40_bitstream_cursor.md: the five cursor commands (O19 to O21, O23 to O25), the raises of an access
without room (O22), and where POS and the bits of BUF can go in a step (O26, O55). -/

namespace Sys2Proof.Machine

variable {s t u : State} {d : Dir}

/-! Each cursor command from a block that is ready -/

/-- The end of a command with no run in progress writes RC and nothing else (R255). -/
theorem State.done_of_no_run (h : s.run = none) : s.done = { s with rc := 0 } := by
  rw [State.done, ← h]

/-- The end of a command that answers a value writes RES and RC and nothing else (R255). -/
theorem State.doneWith_of_no_run (h : s.run = none) (v : Nat) :
    s.doneWith v = { s with res := BitVec.ofNat 32 v, rc := 0 } := by
  rw [State.doneWith, ← h]

/-- A ready block has no codec run in progress. -/
theorem State.ready.run_eq (h : s.ready) : s.run = none := by
  obtain ⟨hr, -, -⟩ := h
  exact hr

/-- A ready block accepts every command and runs its rule (R252 test 4). -/
theorem State.ready.command_run (h : s.ready) (needs : Bool) (body : Act Unit) :
    command needs body s = settled (body s) := by
  obtain ⟨-, hf, hi⟩ := h
  exact Machine.command_run s needs body hf fun _ => hi

/-- BS_WRITE_BITS (R133). -/
theorem exec_bsWriteBits (h : s.ready) (value width : Word) :
    exec (.bsWriteBits value width) s = .next (
      if s.cap.toNat * 8 < s.pos.toNat + width.toNat then s.takeFault ⟨.bufferOverflow, 3⟩
      else ((s.putBits s.pos.toNat value.toNat width.toNat).withPos (s.pos.toNat + width.toNat)).done) := by
  rw [exec, execBsWriteBits, h.command_run, bind_writeBits]
  split <;> rfl

/-- BS_READ_BITS (R135). -/
theorem exec_bsReadBits (h : s.ready) (width : Word) :
    exec (.bsReadBits width) s = .next (
      if s.readBound < s.pos.toNat + width.toNat then s.takeFault ⟨.bufferOverflow, 4⟩
      else (s.withPos (s.pos.toNat + width.toNat)).doneWith (s.bitsValue s.pos.toNat width.toNat)) := by
  rw [exec, execBsReadBits, h.command_run, bind_readBits]
  split <;> rfl

/-- BS_GET_LENGTH (R134). -/
theorem exec_bsGetLength (h : s.ready) : exec .bsGetLength s = .next (s.doneWith ((s.pos.toNat + 7) / 8)) := by
  rw [exec, execBsGetLength, h.command_run]
  rfl

/-- BS_SET_LIMIT (R136). -/
theorem exec_bsSetLimit (h : s.ready) (bytes : Word) :
    exec (.bsSetLimit bytes) s = .next (
      if s.cap.toNat < bytes.toNat then s.takeFault ⟨.bufferOverflow, 5⟩ else (s.limited bytes).done) := by
  rw [exec, execBsSetLimit, h.command_run, bind_current, bind_raiseIf]
  simp only [decide_eq_true_eq]
  split <;> rfl

/-- BS_WRITE_BITS with room (R133). -/
theorem exec_bsWriteBits_room (h : s.ready) {value width : Word}
    (hr : s.pos.toNat + width.toNat ≤ s.cap.toNat * 8) :
    exec (.bsWriteBits value width) s =
      .next ((s.putBits s.pos.toNat value.toNat width.toNat).withPos (s.pos.toNat + width.toNat)).done := by
  rw [exec_bsWriteBits h, if_neg (Nat.not_lt.2 hr)]

/-- BS_READ_BITS with room (R135). -/
theorem exec_bsReadBits_room (h : s.ready) {width : Word} (hr : s.pos.toNat + width.toNat ≤ s.readBound) :
    exec (.bsReadBits width) s = .next
      { s with rc := 0, res := BitVec.ofNat 32 (s.bitsValue s.pos.toNat width.toNat),
               pos := BitVec.ofNat 32 (s.pos.toNat + width.toNat) } := by
  rw [exec_bsReadBits h, if_neg (Nat.not_lt.2 hr), State.doneWith_of_no_run (s := s.withPos _) h.run_eq]
  rfl

end Sys2Proof.Machine

namespace Sys2Proof

open Machine

/-- Settles O19: the two rejections and the success of R130, and no run that the end of the command could end. -/
theorem initCommand : Obligations.InitCommand := by
  intro cap start ext s hr
  rw [exec_bsInit, State.takeFault_of_no_run (s := s.leaveFault.unbound) hr,
    State.takeFault_of_no_run (s := s.leaveFault.unbound) hr,
    State.done_of_no_run (s := s.leaveFault.bound cap start ext) hr]
  rfl

/-- Settles O23: a position has 32 bits, so its bytes fit RES. -/
theorem getLengthCommand : Obligations.GetLengthCommand := by
  intro s h
  refine ⟨BitVec.ofNat 32 ((s.pos.toNat + 7) / 8), ?_, ?_⟩
  · rw [exec_bsGetLength h, State.doneWith_of_no_run h.run_eq]
  · rw [BitVec.toNat_ofNat]
    omega

/-- Settles O24: the two ends of R136 with no run in progress. -/
theorem setLimitCommand : Obligations.SetLimitCommand := by
  intro bytes s h
  rw [exec_bsSetLimit h, State.takeFault_of_no_run h.run_eq, State.done_of_no_run (s := s.limited bytes) h.run_eq]
  rfl

/-- Settles O20: what the loop of R131 leaves, with BUF alone changed by it. -/
theorem writeBitsCommand : Obligations.WriteBitsCommand := by
  intro value width s h hc hr
  have hb : s.pos.toNat + width.toNat ≤ s.params.bufBytes * 8 := by omega
  refine ⟨_, exec_bsWriteBits_room h hr, ?_, s.fieldAt_putBits _ _ _ hb, s.changedBits_putBits _ _ _ hb⟩
  rw [State.done_of_no_run (by rw [State.withPos_run, State.putBits_run, h.run_eq]), State.putBits_eq]
  rfl

/-- Settles O21: the sum of R132 has its bits on the stream, and at most 32 of them fit RES. -/
theorem readBitsCommand : Obligations.ReadBitsCommand := by
  intro width s h hw hr
  have hlt := s.bitsValue_lt s.pos.toNat width.toNat
  have h32 : 2 ^ width.toNat ≤ 2 ^ 32 := Nat.pow_le_pow_right (by decide) hw
  have hval : (BitVec.ofNat 32 (s.bitsValue s.pos.toNat width.toNat)).toNat = s.bitsValue s.pos.toNat width.toNat := by
    rw [BitVec.toNat_ofNat, Nat.mod_eq_of_lt (by omega)]
  refine ⟨_, exec_bsReadBits_room h hr, ?_, ?_⟩ <;> rw [hval]
  · exact hlt
  · exact s.fieldAt_bitsValue _ _

/-- Settles O25: the read sums the bits that the write put there, and the value had 32 bits to begin with. -/
theorem readMirrorsWrite : Obligations.ReadMirrorsWrite := by
  intro value width s t r h hw hc hr ht hready hpos hbound hbits
  obtain rfl := Host.Outcome.next.inj ((exec_bsWriteBits_room h hr).symm.trans ht)
  have hsum : r.bitsValue s.pos.toNat width.toNat = value.toNat % 2 ^ width.toNat :=
    (State.bitsValue_congr (s.putBits s.pos.toNat value.toNat width.toNat) r _ _ hbits).trans
      (s.bitsValue_putBits _ _ _ (by omega))
  refine ⟨BitVec.ofNat 32 (value.toNat % 2 ^ width.toNat), ?_, ?_⟩
  · rw [exec_bsReadBits_room hready (by rwa [hpos]), hpos, hsum]
  · rw [BitVec.toNat_ofNat]
    exact Nat.mod_eq_of_lt ((Nat.mod_le _ _).trans_lt value.isLt)

end Sys2Proof

namespace Sys2Proof.Machine

variable {s t u : State} {d : Dir}

/-! Where POS can go -/

/-- The bound of a stream access in direction `d`: CAP for a write, the read bound for a read (R131, R132). -/
def State.accessBound (s : State) : Dir → Nat
  | .encode => s.cap.toNat * 8
  | .decode => s.readBound

/-- No access is allowed past the capacity, whatever the direction (R136 keeps LIMIT within CAP). -/
theorem State.registersOk.accessBound_le (h : s.registersOk) (d : Dir) : s.accessBound d ≤ s.cap.toNat * 8 := by
  cases d
  · exact le_rfl
  · exact h.readBound_le

/-- An index of the stream fits POS (R23). -/
theorem State.registersOk.toNat_streamIndex (h : s.registersOk) {p : Nat} (hp : p ≤ s.cap.toNat * 8) :
    (BitVec.ofNat 32 p).toNat = p := by
  obtain ⟨hc, hb⟩ := h.capOk
  rw [BitVec.toNat_ofNat]
  omega

/-- The accesses of a descriptor do not move the bound that holds for them. -/
theorem Effects.accessBound (h : Effects d s t) (e : Dir) : t.accessBound e = s.accessBound e := by
  rw [h.frame]
  rfl

/-- One access leaves POS alone or moves it forward within its bound. -/
theorem Effect.pos (h : Effect d s t) (hs : s.registersOk) :
    t.pos = s.pos ∨ s.pos.toNat ≤ t.pos.toNat ∧ t.pos.toNat ≤ s.accessBound d := by
  have moved : ∀ w, s.pos.toNat + w ≤ s.accessBound d →
      s.pos.toNat ≤ (BitVec.ofNat 32 (s.pos.toNat + w)).toNat ∧
        (BitVec.ofNat 32 (s.pos.toNat + w)).toNat ≤ s.accessBound d := fun w hw => by
    rw [hs.toNat_streamIndex (hw.trans (hs.accessBound_le d))]
    exact ⟨Nat.le_add_right _ _, hw⟩
  cases h with
  | write v w hd hw => subst hd; exact .inr (moved w hw)
  | read w hd hw => subst hd; exact .inr (moved w hw)
  | doc a v => exact .inl rfl

/-- A chain of accesses leaves POS alone or moves it forward within its bound. -/
theorem Effects.pos (h : Effects d s t) (hs : s.registersOk) :
    t.pos = s.pos ∨ s.pos.toNat ≤ t.pos.toNat ∧ t.pos.toNat ≤ s.accessBound d := by
  induction h with
  | refl => exact .inl rfl
  | tail hu ht ih =>
    have hlast := ht.pos (Effects.registersOk hu hs)
    rw [Effects.accessBound hu] at hlast
    obtain hlast | ⟨hge, hle⟩ := hlast
    · rwa [hlast]
    · obtain hfirst | ⟨hge', -⟩ := ih
      · rw [hfirst] at hge
        exact .inr ⟨hge, hle⟩
      · exact .inr ⟨hge'.trans hge, hle⟩

/-- The last move of a descriptor does not touch the stream. -/
theorem Move.pos {i : Instr} (h : Move i s u t) : t.pos = u.pos := by cases h <;> rfl

theorem Move.bufByte {i : Instr} (h : Move i s u t) (a : Nat) : t.bufByte a = u.bufByte a := by cases h <;> rfl

/-- A step of a run does to the stream what a chain of accesses does (R182). -/
theorem stepRun_effects (hd : s.run = some d) (h : stepRun s = .next t) :
    ∃ u, Effects d s u ∧ t.pos = u.pos ∧ ∀ a, t.bufByte a = u.bufByte a := by
  obtain ⟨e, rfl⟩ | ⟨i, -, u, hu, hm⟩ := stepRun_did hd h
  · exact ⟨s, .refl, rfl, fun _ => rfl⟩
  · exact ⟨u, hu, hm.pos, hm.bufByte⟩

/-- A descriptor has no effect outside a run (log 10). -/
theorem exec_of_no_run {i : Instr} (hi : i.isCommand = false) (hr : s.run = none) : exec i s = .fault .noRun := by
  have noRun := fun body => descriptor_noRun s body hr
  cases i
  case gwEnd | gwFail | gwPres | gwChoice | gwAlt | gwLend =>
    simp only [exec, execGwEnd, execGwFail, execGwPres, execGwChoice, execGwAlt, execGwLend, noRun]
  case gwEnum | gwNbit | gwVaruint => simp only [exec, execGwEnum, execGwNbit, execGwVaruint, noRun]
  case gwListN | gwListV | gwStringN | gwStringV | gwBytesN | gwBytesV => exact noRun _
  all_goals cases hi

/-- A command that was accepted does not move POS back (R137). -/
theorem CommandEffect.pos_le (h : CommandEffect s t) (hs : s.registersOk) : s.pos.toNat ≤ t.pos.toNat := by
  cases h
  case write v w hw =>
    rw [State.done_pos, State.withPos_pos, hs.toNat_streamIndex hw]
    exact Nat.le_add_right _ _
  case read w hw =>
    rw [State.doneWith_pos, State.withPos_pos, hs.toNat_streamIndex (hw.trans hs.readBound_le)]
    exact Nat.le_add_right _ _
  case header length tag =>
    exact le_of_eq (congrArg BitVec.toNat (by simp only [State.done_pos, State.putHeader, State.memWrite_pos]))
  case length | limit | payload | start => exact le_rfl

/-- No instruction but BS_INIT moves POS back (R137). -/
theorem exec_pos_le {i : Instr} (hs : s.registersOk) (h : exec i s = .next t)
    (hi : ∀ cap start ext, i ≠ .bsInit cap start ext) : s.pos.toNat ≤ t.pos.toNat := by
  cases hc : i.isCommand with
  | true =>
    obtain ⟨cap, start, ext, rfl, -⟩ | ⟨-, rfl⟩ | ⟨-, ⟨e, rfl⟩ | he⟩ := exec_command hc h
    · exact absurd rfl (hi cap start ext)
    · exact le_rfl
    · exact le_rfl
    · exact he.pos_le hs
  | false =>
    cases hd : s.run with
    | none => rw [exec_of_no_run hc hd] at h; cases h
    | some d =>
      obtain ⟨u, hu, hm⟩ := exec_did hc hd h
      rw [hm.pos]
      obtain hp | ⟨hp, -⟩ := hu.pos hs
      · rw [hp]
      · exact hp

/-- A command whose rule leaves POS alone leaves it alone: a refusal and the faults of acceptance do too (R252). -/
theorem command_pos {body : Act Unit} (needs : Bool) (hb : (settled (body s)).pos = s.pos) :
    (command needs body s).pos = s.pos := by
  unfold command
  split
  · rfl
  · split
    · rfl
    · exact hb

/-- A check at the head of a rule leaves POS alone, whether it raises or not. -/
theorem settled_raiseIf_pos {c : Bool} {k : FaultKind} {n : Nat} {f : Unit → Act Unit}
    (hf : (settled (f () s)).pos = s.pos) : (settled ((raiseIf c k n >>= f) s)).pos = s.pos := by
  rw [bind_raiseIf]
  split
  · rfl
  · exact hf

/-- The commands that move POS in their own step are BS_INIT and the two bit accesses (R137). -/
theorem exec_pos_eq {i : Instr} (h : exec i s = .next t) (hc : i.isCommand = true)
    (hi : ∀ cap start ext, i ≠ .bsInit cap start ext) (hw : ∀ v w, i ≠ .bsWriteBits v w)
    (hr : ∀ w, i ≠ .bsReadBits w) : t.pos = s.pos := by
  cases i
  case bsInit cap start ext => exact absurd rfl (hi cap start ext)
  case bsWriteBits v w => exact absurd rfl (hw v w)
  case bsReadBits w => exact absurd rfl (hr w)
  case bsGetLength => cases h; exact command_pos true rfl
  case bsSetLimit bytes => cases h; exact command_pos true (settled_raiseIf_pos rfl)
  case frWriteHeader length tag =>
    cases h
    refine command_pos false ?_
    simp only [bind_effect, effect_run, settled_ok, State.done_pos, State.putHeader, State.memWrite_pos]
  case frReadHeader tag => cases h; exact command_pos false (settled_raiseIf_pos (settled_raiseIf_pos rfl))
  case cdEncode entry => cases h; exact command_pos true rfl
  case cdDecode entry => cases h; exact command_pos true rfl
  all_goals cases hc

/-! Which bits of BUF an encode can change -/

/-- A chain of accesses of an encode is one write of the bits that POS moved over (R131). -/
theorem Effects.wrote (h : Effects .encode s t) (hs : s.registersOk) :
    ∃ w, s.pos.toNat + w ≤ s.cap.toNat * 8 ∧ Wrote s t w := by
  induction h with
  | refl =>
    obtain ⟨-, -, hpos, -⟩ := hs
    exact ⟨0, hpos, .refl s⟩
  | @tail u x hu hx ih =>
    obtain ⟨w, hw, hsu⟩ := ih
    have hup := hsu.pos hs.capOk hw
    cases hx with
    | write v n _ hn =>
      obtain ⟨x, hrun, hux, -⟩ := writeBits_wrote u v n (hsu.capOk hs.capOk) hn
      rw [writeBits_run, if_neg (Nat.not_lt.2 hn)] at hrun
      cases hrun
      rw [hup, hsu.cap, Nat.add_assoc] at hn
      exact ⟨w + n, hn, hsu.trans hux hs.capOk hw⟩
    | read _ hd => cases hd
    | doc _ _ hd => cases hd

/-- The frame of a write depends on the bytes it leaves alone. -/
theorem State.changedBits_congr {p w : Nat} (h : ∀ a, t.bufByte a = u.bufByte a) (hu : s.changedBits u p w) :
    s.changedBits t p w := by
  obtain ⟨hbit, hbyte⟩ := hu
  refine ⟨fun q hq => ?_, fun a ha => (h a).trans (hbyte a ha)⟩
  rw [← hbit q hq, State.bufBit, h]
  rfl

end Sys2Proof.Machine

namespace Sys2Proof

open Machine

/-- Settles O26: every access is checked against a bound within CAP, so POS never wraps. -/
theorem positionOnlyGrows : Obligations.PositionOnlyGrows := fun _ _ _ hs h hi =>
  ⟨exec_pos_le hs h hi, fun hc hw hr => exec_pos_eq h hc hi hw hr⟩

/-- Settles O55: the writes of a step add up to one write from the old POS to the new. -/
theorem encodeWritesItsBits : Obligations.EncodeWritesItsBits := by
  intro s t hd hn hs h
  rw [step_eq_stepRun hd hn] at h
  obtain ⟨u, hu, hpos, hbyte⟩ := stepRun_effects hd h
  obtain ⟨w, hw, hsu⟩ := hu.wrote hs
  have hup := hsu.pos hs.capOk hw
  rw [hpos, hup, Nat.add_sub_cancel_left]
  obtain ⟨-, hchanged⟩ := hsu
  exact ⟨State.changedBits_congr hbyte hchanged, hw⟩

end Sys2Proof

namespace Sys2Proof.Machine

variable {s t u : State} {d : Dir} {i : Instr}

/-! An access without room: the raise, and the rules that stop at it -/

/-- The raise of an access in direction `d` that does not fit its bound (R131, R132). -/
def noRoom : Dir → Raise
  | .encode => ⟨.bufferOverflow, 3⟩
  | .decode => ⟨.bufferOverflow, 4⟩

theorem writeBits_noRoom {v w : Nat} (h : s.accessBound .encode < s.pos.toNat + w) :
    writeBits v w s = .error (noRoom .encode) s := by
  rw [writeBits_run]
  exact if_pos h

theorem readBits_noRoom {w : Nat} (h : s.accessBound .decode < s.pos.toNat + w) :
    readBits w s = .error (noRoom .decode) s := by
  rw [readBits_run]
  exact if_pos h

/-- BS_WRITE_BITS without room writes the fault and nothing else (R131, R256). -/
theorem exec_bsWriteBits_noRoom (h : s.ready) {value width : Word}
    (hr : s.accessBound .encode < s.pos.toNat + width.toNat) :
    exec (.bsWriteBits value width) s = .next
      { s with rc := 1, status := { s.status with fault := true, code := 1, sub := 3 } } := by
  rw [exec_bsWriteBits h, if_pos (by exact hr), State.takeFault_of_no_run h.run_eq]
  rfl

/-- BS_READ_BITS without room writes the fault and nothing else (R132, R256). -/
theorem exec_bsReadBits_noRoom (h : s.ready) {width : Word}
    (hr : s.accessBound .decode < s.pos.toNat + width.toNat) :
    exec (.bsReadBits width) s = .next
      { s with rc := 1, status := { s.status with fault := true, code := 1, sub := 4 } } := by
  rw [exec_bsReadBits h, if_pos (by exact hr), State.takeFault_of_no_run h.run_eq]
  rfl

/-- `WriteVar` without room for its first group (R223). -/
theorem writeVarGroups_noRoom {left v : Nat} (h : s.accessBound .encode < s.pos.toNat + 8) :
    writeVarGroups (left + 1) v s = .error (noRoom .encode) s := by
  rw [writeVarGroups]
  split
  · exact Act.bind_error (writeBits_noRoom h)
  · exact writeBits_noRoom h

/-- `ReadVar` without room for its first group (R223). -/
theorem readVarGroups_noRoom {vb left k acc : Nat} (h : s.accessBound .decode < s.pos.toNat + 8) :
    readVarGroups vb (left + 1) k acc s = .error (noRoom .decode) s :=
  Act.bind_error (readBits_noRoom h)

theorem writeLen_noRoom {m : LenMode} {cap n : Nat}
    (h : s.accessBound .encode < s.pos.toNat + firstPrefixBits m cap) :
    writeLen m cap n s = .error (noRoom .encode) s := by
  cases m with
  | bounded => exact writeBits_noRoom h
  | varuint => exact writeVarGroups_noRoom h

theorem readLen_noRoom {m : LenMode} {cap : Nat}
    (h : s.accessBound .decode < s.pos.toNat + firstPrefixBits m cap) :
    readLen m cap s = .error (noRoom .decode) s := by
  cases m with
  | bounded => exact readBits_noRoom h
  | varuint => exact readVarGroups_noRoom h

/-- `Slot` inside DOC (R185). -/
theorem slot_inside {off : Half} {extra : Nat} (h : s.base.toNat + off.toNat + extra < s.params.docSlots) :
    slot off extra s = .ok (s.base.toNat + off.toNat) s := by
  rw [slot_run, if_neg (Nat.not_le.2 h)]

/-- A descriptor that begins with `Slot` inside DOC and then raises (R185, R256). -/
theorem descriptor_raised_behind_slot {off : Half} {extra : Nat} {f : Dir → Nat → Nat → Act Unit} {e : Raise}
    (hd : s.run = some d) (hslot : s.base.toNat + off.toNat + extra < s.params.docSlots)
    (h : f d s.gpc.toNat (s.base.toNat + off.toNat) s = .error e t) :
    descriptor (fun d g => slot off extra >>= f d g) s = .next (t.takeFault e) :=
  descriptor_raised hd ((Act.bind_ok (slot_inside hslot)).trans h)

/-- A check on a value read from DOC that passes: the rest of the rule goes on from the same state. -/
theorem readDoc_checked {α : Type} {a : Nat} {c : Nat → Bool} {k : FaultKind} {n : Nat} {f : Nat → Act α}
    (h : c (s.docSlot a).toNat = false) :
    (readDoc a >>= fun v => raiseIf (c v) k n >>= fun _ => f v) s = f (s.docSlot a).toNat s := by
  rw [bind_readDoc, bind_raiseIf, h]
  rfl

theorem presBit_noRoom {a : Nat} (h : s.accessBound d < s.pos.toNat + 1)
    (hv : d = .encode → (s.docSlot a).toNat ≤ 1) : presBit a d s = .error (noRoom d) s := by
  cases d with
  | encode =>
    exact (readDoc_checked (decide_eq_false (Nat.not_lt.2 (hv rfl)))).trans (Act.bind_error (writeBits_noRoom h))
  | decode => exact Act.bind_error (readBits_noRoom h)

theorem enumField_noRoom {n a : Nat} (h : s.accessBound d < s.pos.toNat + cl2 n)
    (hv : d = .encode → (s.docSlot a).toNat < n) : enumField n a d s = .error (noRoom d) s := by
  cases d with
  | encode => exact (readDoc_checked (decide_eq_false (Nat.not_le.2 (hv rfl)))).trans (writeBits_noRoom h)
  | decode => exact Act.bind_error (readBits_noRoom h)

theorem nbitField_noRoom {min max a : Nat} (h : s.accessBound d < s.pos.toNat + cl2 (max - min + 1))
    (hv : d = .encode → min ≤ (s.docSlot a).toNat ∧ (s.docSlot a).toNat ≤ max) :
    nbitField min max a d s = .error (noRoom d) s := by
  cases d with
  | encode =>
    exact (readDoc_checked (c := fun v => decide (v < min) || decide (max < v))
      (by simpa using hv rfl)).trans (writeBits_noRoom h)
  | decode => exact Act.bind_error (readBits_noRoom h)

/-- VARUINT on encode stops where `WriteVar` does (R224). -/
theorem varuintField_encode_error {vb a : Nat} {e : Raise} (hv : (s.docSlot a).toNat < 2 ^ vb)
    (hw : writeVar (s.docSlot a).toNat s = .error e t) : varuintField vb a .encode s = .error e t :=
  (readDoc_checked (decide_eq_false (Nat.not_le.2 hv))).trans hw

/-- VARUINT on decode stops where `ReadVar` does (R224). -/
theorem varuintField_decode_error {vb a : Nat} {e : Raise} (hr : readVar vb s = .error e t) :
    varuintField vb a .decode s = .error e t := Act.bind_error hr

theorem varuintField_noRoom {vb a : Nat} (h : s.accessBound d < s.pos.toNat + 8)
    (hv : d = .encode → (s.docSlot a).toNat < 2 ^ vb) : varuintField vb a d s = .error (noRoom d) s := by
  cases d with
  | encode => exact varuintField_encode_error (hv rfl) (writeVarGroups_noRoom h)
  | decode => exact varuintField_decode_error (readVarGroups_noRoom h)

/-- A count on encode stops where `WriteLen` does (R225). -/
theorem countField_encode_error {m : LenMode} {max a : Nat} {e : Raise} (hv : (s.docSlot a).toNat ≤ max)
    (hw : writeLen m max (s.docSlot a).toNat s = .error e t) : countField m max a .encode s = .error e t :=
  (readDoc_checked (decide_eq_false (Nat.not_lt.2 hv))).trans (Act.bind_error hw)

/-- A count on decode stops where `ReadLen` does (R225). -/
theorem countField_decode_error {m : LenMode} {max a : Nat} {e : Raise} (hr : readLen m max s = .error e t) :
    countField m max a .decode s = .error e t := Act.bind_error hr

theorem countField_noRoom {m : LenMode} {max a : Nat}
    (h : s.accessBound d < s.pos.toNat + firstPrefixBits m max)
    (hv : d = .encode → (s.docSlot a).toNat ≤ max) : countField m max a d s = .error (noRoom d) s := by
  cases d with
  | encode => exact countField_encode_error (hv rfl) (writeLen_noRoom h)
  | decode => exact countField_decode_error (readLen_noRoom h)

/-- The selection of a CHOICE (R191): on encode with one flag set and the others 0. -/
theorem selectAlt_noRoom {alts : List Alt} {w : Nat} (h : s.accessBound d < s.pos.toNat + w)
    (hv : d = .encode → ∃ k < alts.length, ∀ j (hj : j < alts.length),
      (s.docSlot alts[j].slot).toNat = if j = k then 1 else 0) : selectAlt alts w d s = .error (noRoom d) s := by
  cases d with
  | encode =>
    obtain ⟨k, hk, hflags⟩ := hv rfl
    have hany : (alts.any fun x => decide (1 < (s.docSlot x.slot).toNat)) = false := by
      rw [List.any_eq_false]
      intro x hx
      obtain ⟨j, hj, rfl⟩ := List.getElem_of_mem hx
      rw [hflags j hj]
      split <;> decide
    rw [selectAlt, bind_current, bind_raiseIf, hany, s.flagged_one k alts hk hflags]
    exact Act.bind_error (writeBits_noRoom h)
  | decode => exact Act.bind_error (readBits_noRoom h)

/-- The structural checks of a CHOICE pass where `altsAt` says so (R191): what is left is the selection. -/
theorem exec_gwChoice_raised {nalt : Half} {alts : List (Half × Half)} {e : Raise} (hd : s.run = some d)
    (hn : alts.length = nalt.toNat) (ha : s.altsAt s.gpc.toNat alts)
    (h : selectAlt (alts.map fun x => ⟨s.base.toNat + x.1.toNat, x.2⟩) (cl2 nalt.toNat) d s = .error e t) :
    exec (.gwChoice nalt) s = .next (t.takeFault e) := by
  obtain ⟨hg, halt⟩ := ha
  have hread := readAlts_run s alts (s.gpc.toNat + 1) (by omega) fun j hj =>
    have ⟨hword, hslot, _⟩ := halt j hj
    ⟨hword, hslot⟩
  have hjump : ((alts.map fun x => (⟨s.base.toNat + x.1.toNat, x.2⟩ : Alt)).any fun x =>
      !s.jumpOk (s.gpc.toNat + alts.length) x.target.toNat) = false := by
    rw [List.any_map, List.any_eq_false]
    intro x hx
    obtain ⟨j, hj, rfl⟩ := List.getElem_of_mem hx
    obtain ⟨-, -, hok⟩ := halt j hj
    simpa using hok
  rw [hn] at hread hjump
  rw [exec, execGwChoice]
  refine descriptor_raised hd ((Act.bind_ok hread).trans ?_)
  rw [bind_current, bind_raiseIf, hjump]
  exact Act.bind_error h

/-- The structural checks of a LIST pass where `listAt` says so (R193): what is left begins with the count. -/
theorem exec_listForm_raised {m : LenMode} {off max body elem stride : Half} {e : Raise}
    (hi : listForm i m off max body elem stride) (hd : s.run = some d) (hl : s.listAt off max body elem stride)
    (h : countField m max.toNat (s.base.toNat + off.toNat) d s = .error e t) :
    exec i s = .next (t.takeFault e) := by
  have hpass := listChecks_pass s hl
  obtain ⟨hslot, -⟩ := hl
  rw [exec_listForm hi]
  exact descriptor_raised_behind_slot hd hslot ((Act.bind_ok hpass).trans (Act.bind_error h))

/-- STRING and BYTES whose slots are inside DOC (R226) and whose length raises. -/
theorem exec_charsForm_raised_at_length {m : LenMode} {off cap : Half} {chw : Byte} {e : Raise}
    (hi : charsForm i m off cap chw) (hd : s.run = some d)
    (hslot : s.base.toNat + off.toNat + cap.toNat < s.params.docSlots)
    (h : countField m cap.toNat (s.base.toNat + off.toNat) d s = .error e t) :
    exec i s = .next (t.takeFault e) := by
  rw [exec_charsForm hi]
  exact descriptor_raised_behind_slot hd hslot (Act.bind_error h)

/-- STRING and BYTES whose slots are inside DOC (R226) and whose characters raise. -/
theorem exec_charsForm_raised_at_chars {m : LenMode} {off cap : Half} {chw : Byte} {n : Nat} {e : Raise}
    (hi : charsForm i m off cap chw) (hd : s.run = some d)
    (hslot : s.base.toNat + off.toNat + cap.toNat < s.params.docSlots)
    (hn : countField m cap.toNat (s.base.toNat + off.toNat) d s = .ok n u)
    (h : charsField chw.toNat (s.base.toNat + off.toNat + 1) n d u = .error e t) :
    exec i s = .next (t.takeFault e) := by
  rw [exec_charsForm hi]
  exact descriptor_raised_behind_slot hd hslot ((Act.bind_ok hn).trans (Act.bind_error h))

/-- A descriptor whose first access has no room raises, with nothing else changed (R186). -/
theorem exec_firstAccess_noRoom {w : Nat} (hd : s.run = some d) (ha : s.firstAccess d i w)
    (h : s.accessBound d < s.pos.toNat + w) : exec i s = .next (s.takeFault (noRoom d)) := by
  obtain ⟨off, skip, rfl, hslot, rfl, hv⟩ | ⟨nalt, alts, rfl, hn, hat, rfl, hv⟩ | ⟨off, n, rfl, hslot, rfl, hv⟩ |
    ⟨off, min, max, rfl, hslot, rfl, hv⟩ | ⟨off, vb, rfl, hslot, rfl, hv⟩ | ⟨m, off, cap, chw, hi, hslot, rfl, hv⟩ |
    ⟨m, off, max, body, elem, stride, hi, hl, rfl, hv⟩ := ha
  · rw [exec, execGwPres]
    exact descriptor_raised_behind_slot hd hslot (Act.bind_error (presBit_noRoom h hv))
  · refine exec_gwChoice_raised hd hn hat (selectAlt_noRoom h fun he => ?_)
    obtain ⟨k, hk, hflags⟩ := hv he
    refine ⟨k, by rwa [List.length_map], fun j hj => ?_⟩
    rw [List.getElem_map]
    exact hflags j (by rwa [List.length_map] at hj)
  · rw [exec, execGwEnum]
    exact descriptor_raised_behind_slot hd hslot (Act.bind_error (enumField_noRoom h hv))
  · rw [exec, execGwNbit]
    exact descriptor_raised_behind_slot hd hslot (Act.bind_error (nbitField_noRoom h hv))
  · rw [exec, execGwVaruint]
    exact descriptor_raised_behind_slot hd hslot (Act.bind_error (varuintField_noRoom h hv))
  · exact exec_charsForm_raised_at_length hi hd hslot (countField_noRoom h hv)
  · exact exec_listForm_raised hi hd hl (countField_noRoom h hv)

/-- A descriptor that moves a varuint ends with the raise of the field or of the count that holds it (R224, R225). -/
theorem exec_movesVaruint_raised {off : Half} {vb top : Nat} {e : Raise} (hm : s.movesVaruint i off vb top)
    (hd : s.run = some d)
    (hfield : top = 2 ^ vb - 1 → varuintField vb (s.base.toNat + off.toNat) d s = .error e t)
    (hcount : vb = 32 → countField .varuint top (s.base.toNat + off.toNat) d s = .error e t) :
    exec i s = .next (t.takeFault e) := by
  obtain ⟨bits, rfl, hslot, rfl, rfl⟩ | ⟨cap, chw, hi, hslot, rfl, rfl⟩ |
    ⟨max, body, elem, stride, hi, hl, rfl, rfl⟩ := hm
  · rw [exec, execGwVaruint]
    exact descriptor_raised_behind_slot hd hslot (Act.bind_error (hfield rfl))
  · exact exec_charsForm_raised_at_length hi hd hslot (hcount rfl)
  · exact exec_listForm_raised hi hd hl (hcount rfl)

/-- A varuint that `WriteVar` cannot finish: its descriptor ends there (R189). -/
theorem exec_movesVaruint_encode {off : Half} {vb top : Nat} {e : Raise} (hm : s.movesVaruint i off vb top)
    (hd : s.run = some .encode) (hv : (s.docSlot (s.base.toNat + off.toNat)).toNat ≤ top)
    (h : writeVar (s.docSlot (s.base.toNat + off.toNat)).toNat s = .error e t) :
    exec i s = .next (t.takeFault e) := by
  refine exec_movesVaruint_raised hm hd (fun htop => ?_) fun _ => countField_encode_error hv h
  have hpow : 0 < 2 ^ vb := Nat.two_pow_pos vb
  exact varuintField_encode_error (by omega) h

/-- A varuint that `ReadVar` cannot finish: its descriptor ends there (R189). -/
theorem exec_movesVaruint_decode {off : Half} {vb top : Nat} {e : Raise} (hm : s.movesVaruint i off vb top)
    (hd : s.run = some .decode) (h : readVar vb s = .error e t) : exec i s = .next (t.takeFault e) := by
  refine exec_movesVaruint_raised hm hd (fun _ => varuintField_decode_error h) fun h32 => ?_
  subst h32
  exact countField_decode_error h

/-- STRING and BYTES on encode with room for the length and `j` of the `n` characters (R226, R189). -/
theorem exec_charsForm_encode_full {m : LenMode} {off cap : Half} {chw : Byte} {n k j : Nat}
    (hi : charsForm i m off cap chw) (hs : s.registersOk)
    (hslot : s.base.toNat + off.toNat + cap.toNat < s.params.docSlots) (hn : n ≤ cap.toNat) (hj : j < n)
    (hd : s.run = some .encode) (hdoc : (s.docSlot (s.base.toNat + off.toNat)).toNat = n)
    (hk : lenBits m cap.toNat n k)
    (hv : ∀ l ≤ j, (s.docSlot (s.base.toNat + off.toNat + 1 + l)).toNat < 2 ^ chw.toNat)
    (hr : s.pos.toNat + k + j * chw.toNat ≤ s.cap.toNat * 8)
    (hf : s.cap.toNat * 8 < s.pos.toNat + k + (j + 1) * chw.toNat) :
    ∃ t, exec i s = .next (t.takeFault (noRoom .encode)) ∧ s.encoded t (k + j * chw.toNat) s.gpc.toNat ∧
      t.lenWritten m s.pos.toNat n k ∧
      ∀ l < j, t.fieldAt (s.pos.toNat + k + l * chw.toNat) chw.toNat
        (s.docSlot (s.base.toNat + off.toNat + 1 + l)).toNat := by
  have hk8 : s.pos.toNat + k ≤ s.cap.toNat * 8 := by omega
  obtain ⟨u, hcount, hsu, hlen⟩ := countField_wrote s m cap.toNat _ n k hdoc hn hk hs.capOk hk8
  have hup := hsu.pos hs.capOk hk8
  obtain ⟨t, hchars, hut, hfields⟩ := writeChars_full chw.toNat j u (s.base.toNat + off.toNat + 1) n hj
    (fun l hl => by rw [hsu.docSlot]; exact hv l hl) (hsu.capOk hs.capOk) (by rwa [hup, hsu.cap])
    (by rwa [hup, hsu.cap])
  refine ⟨t, exec_charsForm_raised_at_chars hi hd hslot hcount hchars, (hsu.trans hut hs.capOk hk8).encoded,
    hut.lenWritten (le_of_eq hup.symm) hlen, fun l hl => ?_⟩
  rw [← hup, ← hsu.docSlot]
  exact hfields l hl

/-- STRING and BYTES on decode with room for the length and `j` of the `n` characters (R226, R189). -/
theorem exec_charsForm_decode_full {m : LenMode} {off cap : Half} {chw : Byte} {n k j : Nat}
    (hi : charsForm i m off cap chw) (hs : s.registersOk)
    (hslot : s.base.toNat + off.toNat + cap.toNat < s.params.docSlots) (hn : n ≤ cap.toNat) (hj : j < n)
    (hd : s.run = some .decode) (hchw : chw.toNat ≤ 8) (hk : s.lenReadable m cap.toNat s.pos.toNat n k)
    (hr : s.pos.toNat + k + j * chw.toNat ≤ s.readBound)
    (hf : s.readBound < s.pos.toNat + k + (j + 1) * chw.toNat) :
    ∃ t, exec i s = .next (t.takeFault (noRoom .decode)) ∧
      s.decoded t (k + j * chw.toNat) (s.base.toNat + off.toNat) (j + 1) s.gpc.toNat ∧
      (t.docSlot (s.base.toNat + off.toNat)).toNat = n ∧
      ∀ l < j, s.fieldAt (s.pos.toNat + k + l * chw.toNat) chw.toNat
          (t.docSlot (s.base.toNat + off.toNat + 1 + l)).toNat ∧
        (t.docSlot (s.base.toNat + off.toNat + 1 + l)).toNat < 2 ^ chw.toNat := by
  have hb := hs.readBound_lt
  have hk8 : s.pos.toNat + k ≤ s.readBound := by omega
  obtain ⟨u, hcount, hsu, hlen⟩ := countField_took s m cap.toNat (s.base.toNat + off.toNat) n k hk hn
    (cap.isLt.trans (by decide)) (by omega) hb hk8
  have hup := hsu.pos hb hk8
  obtain ⟨t, hchars, hut, hfields⟩ := readChars_full chw.toNat j u (s.base.toNat + off.toNat + 1) n hj hchw
    (by rw [hsu.params]; omega) (by rwa [hsu.readBound]) (by rwa [hup, hsu.readBound])
    (by rwa [hup, hsu.readBound])
  refine ⟨t, exec_charsForm_raised_at_chars hi hd hslot hcount hchars, ?_, ?_, fun l hl => ?_⟩
  · rw [Nat.add_comm j 1]
    exact (hsu.trans hut hb hk8).decoded
  · obtain ⟨-, hkept⟩ := hut
    rw [hkept _ (.inl (Nat.lt_succ_self _)), hlen]
  · obtain ⟨hfield, hlt⟩ := hfields l hl
    rw [hup] at hfield
    exact ⟨fun q hq => (hsu.bufBit _).symm.trans (hfield q hq), hlt⟩

end Sys2Proof.Machine

namespace Sys2Proof

open Machine

/-- Settles O22: every access checks its whole width before it moves a bit, so the rule stops in the state that the
accesses before it left. -/
theorem bitAccessOverflow : Obligations.BitAccessOverflow := by
  refine ⟨fun value width s h => ⟨fun hr => exec_bsWriteBits_noRoom h hr, fun hr => exec_bsReadBits_noRoom h hr⟩,
    fun i w s => ⟨fun hd ha hr => exec_firstAccess_noRoom hd ha hr, fun hd ha hr => exec_firstAccess_noRoom hd ha hr⟩,
    fun i off vb top s hs hm => ⟨?writeVar, ?readVar⟩,
    fun i m off cap chw s n k j hi hs hslot hn hj =>
      ⟨exec_charsForm_encode_full hi hs hslot hn hj, exec_charsForm_decode_full hi hs hslot hn hj⟩, ?stepBound⟩
  case writeVar =>
    rintro v k j hd rfl hv hk hj hr hf
    obtain ⟨t, ht, hst, hgroups⟩ :=
      writeVarGroups_full j 10 s _ k hk hj (groups_le_ten hk (BitVec.isLt _)) hs.capOk hr hf
    exact ⟨t, exec_movesVaruint_encode hm hd hv ht, hst.encoded, hgroups⟩
  case readVar =>
    intro os hd ho hmore hlen hv hr hf
    exact exec_movesVaruint_decode hm hd
      (readVarGroups_full vb os s 10 0 0 ho hmore hlen (by simpa using hv) hs.readBound_lt hr hf)
  case stepBound =>
    intro s t hd hn hs h
    rw [step_eq_stepRun hd hn] at h
    obtain ⟨u, hu, hpos, -⟩ := stepRun_effects hd h
    rw [hpos]
    exact hu.pos hs

end Sys2Proof
end

section
/-! Proofs for 41_v2gtp_framer.md: the two framer commands (O27, O28) and the header that is written and read back
(O29). The header is four numbers in the byte view of BUF (R62): the version, its complement, the tag, the length. -/

namespace Sys2Proof.Machine

variable {s t : State}

/-! Numbers in the byte view (R62) -/

theorem State.memRead_one (s : State) (a : Nat) : s.memRead a 1 = (s.bufByte a).toNat := by
  simp only [State.memRead, Nat.pow_zero, Nat.mul_one, Nat.add_zero]

theorem State.memRead_two (s : State) (a : Nat) :
    s.memRead a 2 = (s.bufByte a).toNat * 256 + (s.bufByte (a + 1)).toNat := by
  rw [State.memRead, State.memRead_one, Nat.pow_one]

theorem State.memRead_four (s : State) (a : Nat) :
    s.memRead a 4 = (s.bufByte a).toNat * 256 ^ 3 + (s.bufByte (a + 1)).toNat * 256 ^ 2 +
      (s.bufByte (a + 2)).toNat * 256 + (s.bufByte (a + 3)).toNat := by
  rw [State.memRead, State.memRead, State.memRead_two]
  simp only [Nat.add_assoc]

/-- `MemRead` looks at its own bytes only. -/
theorem State.memRead_congr {a n : Nat} (h : ∀ b, a ≤ b → b < a + n → t.bufByte b = s.bufByte b) :
    t.memRead a n = s.memRead a n := by
  induction n generalizing a with
  | zero => rfl
  | succ n ih =>
    rw [State.memRead, State.memRead, h a le_rfl (by omega), ih fun b hb hn => h b (by omega) (by omega)]

/-- `MemRead` after `MemWrite` of the same bytes: the value written, as far as it fits them. -/
theorem State.memRead_memWrite (s : State) (a v n : Nat) (h : a + n ≤ s.params.bufBytes) :
    (s.memWrite a v n).memRead a n = v % 256 ^ n := by
  induction n generalizing s a with
  | zero => exact (Nat.mod_one v).symm
  | succ n ih =>
    have first : ((s.memWrite a v (n + 1)).bufByte a).toNat = v / 256 ^ n % 256 := by
      rw [s.bufByte_memWrite a v (n + 1) a h, if_pos (by omega), show a + (n + 1) - 1 - a = n by omega,
        BitVec.toNat_ofNat, Nat.mod_mod]
    have rest : (s.memWrite a v (n + 1)).memRead (a + 1) n = v % 256 ^ n :=
      ih (s.setBufByte a _) (a + 1) (by rw [State.setBufByte_params]; omega)
    rw [State.memRead, first, rest, Nat.mod_pow_succ, Nat.mul_comm, Nat.add_comm]

/-- `MemRead` after a `MemWrite` of other bytes. -/
theorem State.memRead_memWrite_ne (s : State) {a n b m : Nat} (v : Nat) (h : b + m ≤ a ∨ a + n ≤ b) :
    (s.memWrite a v n).memRead b m = s.memRead b m :=
  State.memRead_congr fun c _ _ => s.bufByte_memWrite_ne a v n c (by omega)

/-! The header in BUF (R160 to R162) -/

/-- The header is written to BUF and to nothing else. -/
theorem State.putHeader_eq (s : State) (length : Word) (tag : Half) :
    s.putHeader length tag = { s with buf := (s.putHeader length tag).buf } := by
  rw [State.putHeader, State.memWrite_eq, State.memWrite_eq (s := State.memWrite _ 1 _ _),
    State.memWrite_eq (s := State.memWrite _ 0 _ _), State.memWrite_eq (s := s)]

/-- The header is eight bytes long. -/
theorem State.bufByte_putHeader_of_ge (s : State) (length : Word) (tag : Half) {a : Nat} (h : 8 ≤ a) :
    (s.putHeader length tag).bufByte a = s.bufByte a := by
  rw [State.putHeader, State.bufByte_memWrite_ne _ _ _ _ _ (by omega), State.bufByte_memWrite_ne _ _ _ _ _ (by omega),
    State.bufByte_memWrite_ne _ _ _ _ _ (by omega), State.bufByte_memWrite_ne _ _ _ _ _ (by omega)]

/-- The four numbers of a header (R160): the version, its complement, the tag and the length. -/
structure State.hasHeader (s : State) (length : Word) (tag : Half) : Prop where
  version : s.memRead 0 1 = headerVersion
  inverse : s.memRead 1 1 = headerInverse
  tag : s.memRead 2 2 = tag.toNat
  length : s.memRead 4 4 = length.toNat

/-- Each number of the header is read back as it was written; the later writes do not touch its bytes. -/
theorem State.putHeader_hasHeader (s : State) (length : Word) (tag : Half) (h : 8 ≤ s.params.bufBytes) :
    (s.putHeader length tag).hasHeader length tag where
  version := by
    rw [State.putHeader, State.memRead_memWrite_ne _ _ (by omega), State.memRead_memWrite_ne _ _ (by omega),
      State.memRead_memWrite_ne _ _ (by omega), State.memRead_memWrite _ _ _ _ (by omega)]
    rfl
  inverse := by
    rw [State.putHeader, State.memRead_memWrite_ne _ _ (by omega), State.memRead_memWrite_ne _ _ (by omega),
      State.memRead_memWrite _ _ _ _ (by rw [State.memWrite_params]; omega)]
    rfl
  tag := by
    rw [State.putHeader, State.memRead_memWrite_ne _ _ (by omega),
      State.memRead_memWrite _ _ _ _ (by simp only [State.memWrite_params]; omega)]
    exact Nat.mod_eq_of_lt tag.isLt
  length := by
    rw [State.putHeader, State.memRead_memWrite _ _ _ _ (by simp only [State.memWrite_params]; omega)]
    exact Nat.mod_eq_of_lt length.isLt

/-- A header is a matter of the bytes 0 to 7. -/
theorem State.hasHeader.congr {length : Word} {tag : Half} (hs : s.hasHeader length tag)
    (h : ∀ a < 8, t.bufByte a = s.bufByte a) : t.hasHeader length tag := by
  have same : ∀ a n, a + n ≤ 8 → t.memRead a n = s.memRead a n := fun a n hn =>
    State.memRead_congr fun b _ hb => h b (by omega)
  obtain ⟨version, inverse, tag, length⟩ := hs
  exact ⟨(same 0 1 (by omega)).trans version, (same 1 1 (by omega)).trans inverse,
    (same 2 2 (by omega)).trans tag, (same 4 4 (by omega)).trans length⟩

/-! The two commands from a block with no fault latched; neither needs a BS_INIT -/

/-- FR_WRITE_HEADER (R162). -/
theorem exec_frWriteHeader (hf : s.status.fault = false) (length : Word) (tag : Half) :
    exec (.frWriteHeader length tag) s = .next (s.putHeader length tag).done := by
  rw [exec, execFrWriteHeader, command_run s false _ hf nofun]
  rfl

/-- FR_READ_HEADER (R163): the version pair, then the tag, then the length. -/
theorem exec_frReadHeader (hf : s.status.fault = false) (tag : Half) :
    exec (.frReadHeader tag) s = .next (
      if s.memRead 1 1 ≠ 255 - s.memRead 0 1 then s.takeFault ⟨.malformedHeader, 1⟩
      else if s.memRead 2 2 ≠ tag.toNat then s.takeFault ⟨.malformedHeader, 2⟩
      else s.doneWith (s.memRead 4 4)) := by
  rw [exec, execFrReadHeader, command_run s false _ hf nofun, bind_current, bind_raiseIf, bind_raiseIf]
  simp only [bne_iff_ne]
  split
  · rfl
  · split <;> rfl

end Sys2Proof.Machine

namespace Sys2Proof

open Machine

/-- Settles O27: what the four numbers of the header say about its bytes, with BUF alone changed by their writes. -/
theorem writeHeaderCommand : Obligations.WriteHeaderCommand := by
  intro length tag s hr hf hb
  obtain ⟨version, inverse, tag_eq, length_eq⟩ := s.putHeader_hasHeader length tag hb
  rw [State.memRead_one] at version inverse
  rw [State.memRead_two] at tag_eq
  rw [State.memRead_four] at length_eq
  refine ⟨_, exec_frWriteHeader hf length tag, ?frame, ?bytes⟩
  case frame =>
    exact (congrArg State.done (s.putHeader_eq length tag)).trans (State.done_of_no_run (s := { s with buf := _ }) hr)
  case bytes =>
    simp only [State.done_bufByte]
    exact ⟨BitVec.eq_of_toNat_eq version, BitVec.eq_of_toNat_eq inverse, tag_eq, length_eq,
      fun a ha => s.bufByte_putHeader_of_ge length tag ha⟩

/-- Settles O28: the three ends of R163 with no run in progress; the four bytes of the length fit RES. -/
theorem readHeaderCommand : Obligations.ReadHeaderCommand := by
  intro tag s hr hf
  rw [exec_frReadHeader hf, State.memRead_one, State.memRead_one, State.memRead_two]
  refine ⟨fun hversion => ?version, fun hversion htag => ?tag, fun hversion htag => ?length⟩
  case version =>
    rw [if_pos hversion, State.takeFault_of_no_run hr]
    rfl
  case tag =>
    rw [if_neg (not_not_intro hversion), if_pos htag, State.takeFault_of_no_run hr]
    rfl
  case length =>
    rw [if_neg (not_not_intro hversion), if_neg (not_not_intro htag)]
    refine ⟨BitVec.ofNat 32 (s.memRead 4 4), by rw [State.doneWith_of_no_run hr], ?_⟩
    rw [BitVec.toNat_ofNat, State.memRead_four, Nat.mod_eq_of_lt (by omega)]

/-- Settles O29: the later state still has the header that was written, whose version pair matches. -/
theorem headerRoundTrip : Obligations.HeaderRoundTrip := by
  intro n tag other s t r hr hf hb ht hrr hrf hbytes
  obtain rfl := Host.Outcome.next.inj ((exec_frWriteHeader hf n tag).symm.trans ht)
  simp only [State.done_bufByte] at hbytes
  obtain ⟨version, inverse, tag_eq, length_eq⟩ := (s.putHeader_hasHeader n tag hb).congr hbytes
  have pair : ¬ r.memRead 1 1 ≠ 255 - r.memRead 0 1 := by rw [version, inverse]; decide
  rw [exec_frReadHeader hrf, exec_frReadHeader hrf, if_neg pair, if_neg pair, tag_eq, length_eq]
  constructor
  · rw [if_neg (not_not_intro rfl), State.doneWith_of_no_run hrr, BitVec.ofNat_toNat, BitVec.setWidth_eq]
  · intro hne
    rw [if_pos fun h => hne (BitVec.eq_of_toNat_eq h).symm, State.takeFault_of_no_run hrr]
    rfl

end Sys2Proof
end

section
/-! Proofs for 42_codec_engine.md, the run: its start, the fetch, and the descriptors that touch neither the stream
nor DOC (O8, O9, O13, O14, O30 to O33, O38, O39), and what a step of a run can change (O54). -/

namespace Sys2Proof.Machine

variable {s t u : State} {d : Dir} {i : Instr}

/-! The fetch, and a step for every state (R182, R195) -/

/-- The fetch of a legal word inside the table (R182). -/
theorem fetch_of_decoded (hg : s.gpc.toNat < s.params.gtSteps)
    (hw : decodeDescriptor (s.gtWord s.gpc.toNat) = .ok i) : s.fetch = .ok i := by
  rw [State.fetch, if_neg (Nat.not_le.2 hg), hw]

/-- A fetch at or beyond the end of the table (R182). -/
theorem fetch_off_table (hg : s.params.gtSteps ≤ s.gpc.toNat) : s.fetch = .error ⟨.illegalGrammar, 2⟩ := by
  rw [State.fetch, if_pos hg]

/-- A word that is not legal decodes to nothing (R103). -/
theorem decodeDescriptor_of_not_legal {w : Wide} (h : legalGW w = false) : ∃ why, decodeDescriptor w = .error why := by
  cases hw : decodeDescriptor w with
  | error why => exact ⟨why, rfl⟩
  | ok i => exact absurd (h.symm.trans (decodeDescriptor_accepts_iff.1 ⟨i, hw⟩)) Bool.false_ne_true

/-- The fetch of an illegal word inside the table (R182, R103). -/
theorem fetch_illegal (hg : s.gpc.toNat < s.params.gtSteps) (hw : legalGW (s.gtWord s.gpc.toNat) = false) :
    s.fetch = .error ⟨.illegalGrammar, 1⟩ := by
  obtain ⟨why, hwhy⟩ := decodeDescriptor_of_not_legal hw
  rw [State.fetch, if_neg (Nat.not_le.2 hg), hwhy]

theorem stepRun_of_fetch (h : s.fetch = .ok i) : stepRun s = exec i s := by
  rw [stepRun, h]

theorem stepRun_of_fetch_error {e : Raise} (h : s.fetch = .error e) : stepRun s = .next (s.takeFault e) := by
  rw [stepRun, h]

/-- Every descriptor is a rule that runs at GPC in the direction of the run (R182). -/
theorem exec_eq_descriptor (hi : i.isCommand = false) : ∃ body, ∀ s, exec i s = descriptor body s := by
  cases i
  case gwEnd => exact ⟨_, fun s => by rw [exec, execGwEnd]⟩
  case gwFail => exact ⟨_, fun s => by rw [exec, execGwFail]⟩
  case gwPres => exact ⟨_, fun s => by rw [exec, execGwPres]⟩
  case gwChoice => exact ⟨_, fun s => by rw [exec, execGwChoice]⟩
  case gwAlt => exact ⟨_, fun s => by rw [exec, execGwAlt]⟩
  case gwLend => exact ⟨_, fun s => by rw [exec, execGwLend]⟩
  case gwEnum => exact ⟨_, fun s => by rw [exec, execGwEnum]⟩
  case gwNbit => exact ⟨_, fun s => by rw [exec, execGwNbit]⟩
  case gwVaruint => exact ⟨_, fun s => by rw [exec, execGwVaruint]⟩
  case gwListN | gwListV | gwStringN | gwStringV | gwBytesN | gwBytesV => exact ⟨_, fun _ => rfl⟩
  all_goals cases hi

/-- In a run every descriptor is answered with a next state. -/
theorem exec_descriptor_answers (hi : i.isCommand = false) (hd : s.run = some d) : ∃ t, exec i s = .next t := by
  obtain ⟨body, hbody⟩ := exec_eq_descriptor hi
  exact ⟨_, (hbody s).trans (descriptor_run s body d hd)⟩

/-- A step of a run is answered with a next state, whatever GT holds (R182). -/
theorem stepRun_answers (hd : s.run = some d) : ∃ t, stepRun s = .next t := by
  cases hf : s.fetch with
  | error e => exact ⟨_, stepRun_of_fetch_error hf⟩
  | ok i =>
    rw [stepRun_of_fetch hf]
    exact exec_descriptor_answers (decodeDescriptor_isCommand (fetch_eq_ok hf).2) hd

/-- No state makes the block stop. -/
theorem step_answers (s : State) : ∃ t, step s = .next t := by
  by_cases hn : s.noReset
  · cases hr : s.run with
    | some d => rw [step_eq_stepRun hr hn]; exact stepRun_answers hr
    | none =>
      cases hi : s.inbox with
      | nil => exact ⟨s, step_eq_self hr hi⟩
      | cons op rest =>
        by_cases hw : ∃ w, op = .command w
        · obtain ⟨w, rfl⟩ := hw
          rw [step_eq_stepCommand hr hi]
          exact stepCommand_answers w _
        · exact ⟨_, step_eq_portOp hr hi fun w h => hw ⟨w, h⟩⟩
  · obtain ⟨rest, hi⟩ := List.head?_eq_some_iff.1 (not_not.1 hn)
    exact ⟨_, step_eq_resetEvent hi⟩

/-! The descriptors without a field: END, FAIL, ALT, LEND -/

/-- END (R187). -/
theorem exec_gwEnd (hd : s.run = some d) :
    exec .gwEnd s = .next (if s.ls = [] then s.done else s.takeFault ⟨.illegalGrammar, 7⟩) := by
  rw [exec, execGwEnd, descriptor_run s _ d hd, bind_current, bind_raiseIf]
  cases s.ls <;> rfl

/-- FAIL (R188). -/
theorem exec_gwFail (hd : s.run = some d) (k : FaultKind) : exec (.gwFail k) s = .next (s.takeFault ⟨k, 0⟩) := by
  rw [exec, execGwFail]
  exact descriptor_raised hd rfl

/-- ALT (R192). -/
theorem exec_gwAlt (hd : s.run = some d) (off target : Half) :
    exec (.gwAlt off target) s = .next (s.takeFault ⟨.illegalGrammar, 8⟩) := by
  rw [exec, execGwAlt]
  exact descriptor_raised hd rfl

/-- LEND that closes no open list, or not the innermost (R194). -/
theorem exec_gwLend_stray (hd : s.run = some d) (h : ∀ f outer, s.ls = f :: outer → f.stop ≠ s.gpc) :
    exec .gwLend s = .next (s.takeFault ⟨.illegalGrammar, 6⟩) := by
  rw [exec, execGwLend]
  refine descriptor_raised hd ?_
  rw [bind_current]
  cases hl : s.ls with
  | nil => rfl
  | cons f outer =>
    have hne : f.stop.toNat ≠ s.gpc.toNat := fun he => h f outer hl (BitVec.eq_of_toNat_eq he)
    exact (bind_raiseIf s _ _ _ _).trans (if_pos (bne_iff_ne.2 hne))

/-- LEND of the innermost list (R194): the next element, or the word behind the list. -/
theorem exec_gwLend (hd : s.run = some d) {f : Frame} {outer : List Frame} (hl : s.ls = f :: outer)
    (hs : f.stop = s.gpc) :
    exec .gwLend s = .next (
      if 0 < f.rem.toNat - 1 then s.nextElement f (f.rem.toNat - 1) outer
      else if s.params.gtSteps ≤ s.gpc.toNat + 1 then (s.leaveList f outer).takeFault ⟨.illegalGrammar, 2⟩
      else (s.leaveList f outer).withGpc (s.gpc.toNat + 1)) := by
  rw [exec, execGwLend, descriptor_run s _ d hd, bind_current, hl]
  simp only [bind_raiseIf, hs, bne_self_eq_false, Bool.false_eq_true, if_false]
  split
  · rfl
  · rw [bind_effect, goNext_run, State.leaveList_params]
    split <;> rfl

/-! What a step of a run can change (R180, R181, R76) -/

/-- A state of a run, `t`, that differs from `s` at most in what descriptors write: the contents of BUF and DOC, POS,
the walk, and how the run ended. -/
def RunFrame (s t : State) : Prop :=
  t = { s with buf := t.buf, doc := t.doc, pos := t.pos, gpc := t.gpc, base := t.base, ls := t.ls, rc := t.rc,
               run := t.run, status := { s.status with fault := t.status.fault, code := t.status.code,
                                                       sub := t.status.sub } }

theorem Effects.runFrame (h : Effects d s t) : RunFrame s t := by
  rw [h.frame]
  rfl

/-- The last move of a descriptor is in the frame that its accesses are in. -/
theorem Move.runFrame (h : Move i s u t) (hu : RunFrame s u) : RunFrame s t := by
  cases h <;> (rw [hu]; rfl)

/-- The last move of a descriptor writes neither BUF nor DOC. -/
theorem Move.memories (h : Move i s u t) : t.buf = u.buf ∧ t.doc = u.doc := by cases h <;> exact ⟨rfl, rfl⟩

/-- The last move of a descriptor ends the run or leaves it as it is. -/
theorem Move.run (h : Move i s u t) : t.run = none ∨ t.run = u.run := by
  cases h
  case fault | done | leaveFault => exact .inl rfl
  case next | jump | enter | element | leave => exact .inr rfl

/-- An encode writes no slot of DOC. -/
theorem Effects.doc_of_encode (h : Effects .encode s t) : t.doc = s.doc := by
  induction h with
  | refl => rfl
  | tail _ h ih =>
    cases h with
    | write v w => rw [State.withPos_doc, State.putBits_doc, ih]
    | read _ hd => cases hd
    | doc _ _ hd => cases hd

/-- A decode writes no byte of BUF. -/
theorem Effects.buf_of_decode (h : Effects .decode s t) : t.buf = s.buf := by
  induction h with
  | refl => rfl
  | tail _ h ih =>
    cases h with
    | write _ _ hd => cases hd
    | read => exact ih
    | doc => exact ih

/-- A step of a run keeps to its frame. -/
theorem stepRun_runFrame (hd : s.run = some d) (h : stepRun s = .next t) : RunFrame s t := by
  obtain ⟨e, rfl⟩ | ⟨i, -, u, hu, hm⟩ := stepRun_did hd h
  · exact rfl
  · exact hm.runFrame hu.runFrame

theorem RunFrame.params (h : RunFrame s t) : t.params = s.params := by rw [h]

end Sys2Proof.Machine

namespace Sys2Proof

open Machine

/-- Settles O8: with no reset waiting, a step in a run is the fetch and the rule of the word it finds. -/
theorem stepRunsTheDescriptor : Obligations.StepRunsTheDescriptor := fun _ _ _ hd hn hg hw =>
  (step_eq_stepRun hd hn).trans (stepRun_of_fetch (fetch_of_decoded hg hw))

/-- Settles O9: the fetch raises before any rule runs. -/
theorem fetchFaults : Obligations.FetchFaults := fun _ _ hd hn =>
  ⟨fun hg => (step_eq_stepRun hd hn).trans (stepRun_of_fetch_error (fetch_off_table hg)),
    fun hg hw => (step_eq_stepRun hd hn).trans (stepRun_of_fetch_error (fetch_illegal hg hw))⟩

/-- Settles O13: a run answers each descriptor, and the host is answered on each of its ports. -/
theorem everyStepAnswers : Obligations.EveryStepAnswers := step_answers

/-- Settles O14: every descriptor is a rule in the direction of the run, and there is none. -/
theorem descriptorNeedsARun : Obligations.DescriptorNeedsARun := fun _ _ hi hr => exec_of_no_run hi hr

/-- Settles O30: a ready block accepts the command, whose rule is the first line of `Run`. -/
theorem codecCommandsStart : Obligations.CodecCommandsStart := by
  intro entry s h
  constructor
  · rw [exec, execCdEncode, h.command_run]; rfl
  · rw [exec, execCdDecode, h.command_run]; rfl

/-- Settles O31: END looks at the loop stack and at nothing else. -/
theorem endDescriptor : Obligations.EndDescriptor := fun _ _ hd => exec_gwEnd hd

/-- Settles O32: the code of the fault is the one that the word's field A holds (R102, R250). -/
theorem failDescriptor : Obligations.FailDescriptor := by
  intro k s d hd
  obtain ⟨h1, h6⟩ := faultCode_range k
  refine ⟨faultCode k, ?_, h1, h6, exec_gwFail hd k⟩
  cases k <;> decide

/-- Settles O33: the rule of ALT is the raise. -/
theorem altDescriptor : Obligations.AltDescriptor := fun off target _ _ hd => exec_gwAlt hd off target

/-- Settles O38: every number of the frame is below 2^16, and BASE + elem at most DOC_SLOTS, because the checks of
R193 bound them. -/
theorem listFrame : Obligations.ListFrame := by
  intro s off max body elem stride n hs hl hb h1 hn
  obtain ⟨hp, -⟩ := hs
  obtain ⟨-, hg, -, -, hroom, -⟩ := hl
  have hroom := hroom (by omega)
  refine ⟨⟨BitVec.ofNat 16 (s.gpc.toNat + 1), BitVec.ofNat 16 (s.gpc.toNat + body.toNat), BitVec.ofNat 16 n,
    BitVec.ofNat 32 (s.base.toNat + elem.toNat), s.base, stride⟩, rfl, ?start, ?stop, ?rem, ?cur, rfl, rfl⟩
  case start | stop | rem => exact toNat_ofNat_half (by omega)
  case cur => exact toNat_ofNat_word (by omega)

/-- Settles O39: an element's number and its BASE fit their fields because they are bounded by the frame and by
DOC_SLOTS. -/
theorem lendDescriptor : Obligations.LendDescriptor := by
  intro s d hd hp
  refine ⟨fun f outer hl hs hr hroom => ?element, fun f outer hl hs hr hg => ?leave,
    fun f outer hl hs hr hg => ?last, fun h => ?stray⟩
  case element =>
    rw [exec_gwLend hd hl hs, if_pos (by omega)]
    refine ⟨{ f with rem := BitVec.ofNat 16 (f.rem.toNat - 1), cur := BitVec.ofNat 32 (f.cur.toNat + f.stride.toNat) },
      rfl, rfl, ?rem, ?cur⟩
    case rem => exact toNat_ofNat_half (by omega)
    case cur => exact toNat_ofNat_word (by omega)
  case leave =>
    rw [exec_gwLend hd hl hs, if_neg (by omega), if_neg (by omega)]
    refine congrArg (fun g => Host.Outcome.next { s.leaveList f outer with gpc := g }) (BitVec.eq_of_toNat_eq ?_)
    rw [toNat_ofNat_half (by omega), BitVec.toNat_add]
    exact (Nat.mod_eq_of_lt (by omega)).symm
  case last =>
    rw [exec_gwLend hd hl hs, if_neg (by omega), if_pos hg]
    rfl
  case stray =>
    refine exec_gwLend_stray hd fun f outer hl => ?_
    obtain hnil | ⟨f', outer', hl', hne⟩ := h
    · rw [hnil] at hl; cases hl
    · rw [hl] at hl'; cases hl'; exact hne

/-- Settles O54: the accesses of a descriptor go one way, and its last move touches no memory. -/
theorem runWritesOnly : Obligations.RunWritesOnly := by
  intro s t d hd hn h
  rw [step_eq_stepRun hd hn] at h
  refine ⟨stepRun_runFrame hd h, ?_⟩
  obtain ⟨e, rfl⟩ | ⟨i, -, u, hu, hm⟩ := stepRun_did hd h
  · exact ⟨fun _ => rfl, fun _ => rfl, .inl rfl⟩
  · obtain ⟨hbuf, hdoc⟩ := hm.memories
    refine ⟨?_, ?_, ?_⟩
    · rintro rfl; rw [hdoc, hu.doc_of_encode]
    · rintro rfl; rw [hbuf, hu.buf_of_decode]
    · rw [← hd, show s.run = u.run by rw [hu.frame]]
      exact hm.run

end Sys2Proof
end

section
/-! Proofs for 42_codec_engine.md, the structural checks and CHOICE: the slots of every descriptor (O47), the ALT words
of a CHOICE and the alternative it selects or rejects (O35, O36). -/

namespace Sys2Proof.Machine

variable {s t u : State} {d : Dir} {i : Instr}

/-! `Slot` (R185) -/

/-- `Slot` outside DOC raises before any effect. -/
theorem slot_outside {off : Half} {extra : Nat} (h : s.params.docSlots ≤ s.base.toNat + off.toNat + extra) :
    slot off extra s = .error ⟨.illegalGrammar, 3⟩ s := by
  rw [slot_run, if_pos h]

/-- A descriptor that begins with `Slot` inside DOC goes on with the slot's index. -/
theorem descriptor_behind_slot {off : Half} {extra : Nat} {f : Dir → Nat → Nat → Act Unit} (hd : s.run = some d)
    (hslot : s.base.toNat + off.toNat + extra < s.params.docSlots) :
    descriptor (fun d g => slot off extra >>= f d g) s =
      .next (settled (f d s.gpc.toNat (s.base.toNat + off.toNat) s)) := by
  rw [descriptor_run s _ d hd, Act.bind_ok (slot_inside hslot)]

/-- The descriptors that begin with `Slot` (R185), by their offset and the further slots of their field. -/
def slotForm (i : Instr) (off : Half) (extra : Nat) : Prop :=
  ∃ f : Dir → Nat → Nat → Act Unit, ∀ s, exec i s = descriptor (fun d g => slot off extra >>= f d g) s

theorem slotForm_gwPres (off skip : Half) : slotForm (.gwPres off skip) off 0 :=
  ⟨_, fun s => by rw [exec, execGwPres]⟩

theorem slotForm_gwEnum (off n : Half) : slotForm (.gwEnum off n) off 0 := ⟨_, fun s => by rw [exec, execGwEnum]⟩

theorem slotForm_gwNbit (off min max : Half) : slotForm (.gwNbit off min max) off 0 :=
  ⟨_, fun s => by rw [exec, execGwNbit]⟩

theorem slotForm_gwVaruint (off vb : Half) : slotForm (.gwVaruint off vb) off 0 :=
  ⟨_, fun s => by rw [exec, execGwVaruint]⟩

theorem listForm.slotForm {m : LenMode} {off max body elem stride : Half} (h : listForm i m off max body elem stride) :
    slotForm i off 0 := ⟨_, exec_listForm h⟩

theorem charsForm.slotForm {m : LenMode} {off cap : Half} {chw : Byte} (h : charsForm i m off cap chw) :
    slotForm i off cap.toNat := ⟨_, exec_charsForm h⟩

/-- A slot range that leaves DOC raises IllegalGrammar(3) before any effect. -/
theorem exec_slot_outside {off : Half} {extra : Nat} (hi : slotForm i off extra) (hd : s.run = some d)
    (h : s.params.docSlots ≤ s.base.toNat + off.toNat + extra) :
    exec i s = .next (s.takeFault ⟨.illegalGrammar, 3⟩) := by
  obtain ⟨f, hf⟩ := hi
  rw [hf]
  exact descriptor_raised hd (Act.bind_error (slot_outside h))

/-! The structural checks of a LIST (R193) -/

/-- A body ends before the LEND of the innermost open list, as R193's check asks. -/
theorem nests_iff {ls : List Frame} {e : Nat} :
    (ls.head?.any fun f => decide (f.stop.toNat ≤ e)) = false ↔ ∀ f, ls.head? = some f → e < f.stop.toNat := by
  cases ls <;> simp

/-- The structural checks of a LIST in their order (R193): everything they can do. -/
theorem listChecks_eq (s : State) (g : Nat) (max body elem stride : Half) :
    listChecks g max body elem stride s =
      if s.params.gtSteps ≤ g + body.toNat then .error ⟨.illegalGrammar, 2⟩ s
      else if Decode.topByte (s.gtWord (g + body.toNat)) ≠ 0x07#8 then .error ⟨.illegalGrammar, 6⟩ s
      else if (s.ls.head?.any fun f => decide (f.stop.toNat ≤ g + body.toNat)) = true then
        .error ⟨.illegalGrammar, 4⟩ s
      else if 0 < max.toNat ∧ s.params.docSlots < s.base.toNat + elem.toNat + max.toNat * stride.toNat then
        .error ⟨.illegalGrammar, 3⟩ s
      else if s.ls.length = s.params.loopDepth then .error ⟨.illegalGrammar, 5⟩ s
      else .ok () s := by
  simp only [listChecks, bind_current, bind_raiseIf, raiseIf_run, decide_eq_true_eq, bne_iff_ne, Bool.and_eq_true]
  rfl

/-- A LIST that one of its structural checks refuses ends there, with no effect (R251). -/
theorem exec_listForm_refused {m : LenMode} {off max body elem stride : Half} {e : Raise}
    (hi : listForm i m off max body elem stride) (hd : s.run = some d)
    (hslot : s.base.toNat + off.toNat < s.params.docSlots)
    (h : listChecks s.gpc.toNat max body elem stride s = .error e s) : exec i s = .next (s.takeFault e) := by
  rw [exec_listForm hi]
  exact descriptor_raised_behind_slot hd hslot (Act.bind_error h)

/-! The ALT words of a CHOICE (R191) -/

theorem readAlts_off_table {g n : Nat} (hg : s.params.gtSteps ≤ g) :
    readAlts g (n + 1) s = .error ⟨.illegalGrammar, 2⟩ s := by
  rw [readAlts, bind_current, bind_raiseIf, if_pos (decide_eq_true hg)]
  rfl

theorem readAlts_illegal {g n : Nat} (hg : g < s.params.gtSteps) (hw : legalGW (s.gtWord g) = false) :
    readAlts g (n + 1) s = .error ⟨.illegalGrammar, 1⟩ s := by
  obtain ⟨why, hwhy⟩ := decodeDescriptor_of_not_legal hw
  rw [readAlts, bind_current, bind_raiseIf, if_neg (by simpa using hg), hwhy]
  rfl

theorem readAlts_other {g n : Nat} (hg : g < s.params.gtSteps) (hw : decodeDescriptor (s.gtWord g) = .ok i)
    (hi : ∀ off target, i ≠ .gwAlt off target) : readAlts g (n + 1) s = .error ⟨.illegalGrammar, 8⟩ s := by
  rw [readAlts, bind_current, bind_raiseIf, if_neg (by simpa using hg), hw]
  cases i
  case gwAlt off target => exact absurd rfl (hi off target)
  all_goals rfl

theorem readAlts_outside {g n : Nat} {off target : Half} (hg : g < s.params.gtSteps)
    (hw : decodeDescriptor (s.gtWord g) = .ok (.gwAlt off target))
    (hslot : s.params.docSlots ≤ s.base.toNat + off.toNat) :
    readAlts g (n + 1) s = .error ⟨.illegalGrammar, 3⟩ s := by
  rw [readAlts, bind_current, bind_raiseIf, if_neg (by simpa using hg), hw]
  exact Act.bind_error (slot_outside hslot)

/-- A CHOICE ends at the first word behind it that is not an ALT word with its slot inside DOC. -/
theorem exec_gwChoice_refused {nalt : Half} {k : Nat} {e : Raise} (hd : s.run = some d) (hk : k < nalt.toNat)
    (ha : s.altWords s.gpc.toNat k) (h : ∀ n, readAlts (s.gpc.toNat + 1 + k) (n + 1) s = .error e s) :
    exec (.gwChoice nalt) s = .next (s.takeFault e) := by
  obtain ⟨hg, hwords⟩ := ha
  have hn : nalt.toNat - k = nalt.toNat - k - 1 + 1 := by omega
  have hread := readAlts_error s e k (s.gpc.toNat + 1) nalt.toNat hk.le (by omega) hwords (by rw [hn]; exact h _)
  rw [exec, execGwChoice]
  exact descriptor_raised hd (Act.bind_error hread)

/-- The alternatives that ALT words stand for (R191): `a_i` and `T_i`. -/
def State.resolved (s : State) (alts : List (Half × Half)) : List Alt :=
  alts.map fun x => ⟨s.base.toNat + x.1.toNat, x.2⟩

/-- The words behind a CHOICE at `g` are the ALT words `alts`, whose flag slots exist; their targets may be any. -/
def State.altWordsAt (s : State) (g : Nat) (alts : List (Half × Half)) : Prop :=
  g + alts.length < s.params.gtSteps ∧
    ∀ j (h : j < alts.length), decodeDescriptor (s.gtWord (g + 1 + j)) = .ok (.gwAlt alts[j].1 alts[j].2) ∧
      s.base.toNat + alts[j].1.toNat < s.params.docSlots

theorem State.altsAt.altWordsAt {g : Nat} {alts : List (Half × Half)} (h : s.altsAt g alts) : s.altWordsAt g alts := by
  obtain ⟨hg, hwords⟩ := h
  refine ⟨hg, fun j hj => ?_⟩
  obtain ⟨hword, hslot, -⟩ := hwords j hj
  exact ⟨hword, hslot⟩

/-- ALT words that exist can be listed. -/
theorem State.altWords.exists_list {g k : Nat} (h : s.altWords g k) :
    ∃ alts : List (Half × Half), alts.length = k ∧ s.altWordsAt g alts := by
  obtain ⟨hg, hwords⟩ := h
  choose! off target hwords using hwords
  have hlen : ((List.range k).map fun j => (off j, target j)).length = k := by
    rw [List.length_map, List.length_range]
  refine ⟨_, hlen, by rwa [hlen], fun j hj => ?_⟩
  rw [List.getElem_map, List.getElem_range]
  exact hwords j (by rwa [hlen] at hj)

/-- A CHOICE over its ALT words (R191): all targets are checked before the selection. -/
theorem exec_gwChoice {nalt : Half} {alts : List (Half × Half)} (hd : s.run = some d)
    (hn : alts.length = nalt.toNat) (ha : s.altWordsAt s.gpc.toNat alts) :
    exec (.gwChoice nalt) s = .next (
      if (alts.any fun x => !s.jumpOk (s.gpc.toNat + nalt.toNat) x.2.toNat) = true then
        s.takeFault ⟨.illegalGrammar, 4⟩
      else settled ((selectAlt (s.resolved alts) (cl2 nalt.toNat) d >>= fun x => setGpc x.target.toNat) s)) := by
  obtain ⟨hg, hwords⟩ := ha
  have hread := readAlts_run s alts (s.gpc.toNat + 1) (by omega) hwords
  rw [hn] at hread
  rw [exec, execGwChoice, descriptor_run s _ d hd, Act.bind_ok hread, bind_current, bind_raiseIf, List.any_map]
  split
  next h => rw [if_pos (by exact h)]; rfl
  next h => rw [if_neg (by exact h)]; rfl

/-- A CHOICE all of whose targets are legal goes on with the selection (R191). -/
theorem exec_gwChoice_selects {nalt : Half} {alts : List (Half × Half)} (hd : s.run = some d)
    (hn : alts.length = nalt.toNat) (ha : s.altsAt s.gpc.toNat alts) :
    exec (.gwChoice nalt) s = .next
      (settled ((selectAlt (s.resolved alts) (cl2 nalt.toNat) d >>= fun x => setGpc x.target.toNat) s)) := by
  rw [exec_gwChoice hd hn ha.altWordsAt, if_neg]
  rw [Bool.not_eq_true, List.any_eq_false]
  intro x hx
  obtain ⟨j, hj, rfl⟩ := List.getElem_of_mem hx
  obtain ⟨-, hwords⟩ := ha
  obtain ⟨-, -, hok⟩ := hwords j hj
  rw [← hn, hok]
  decide

/-! The selection (R191) -/

/-- A property of the flags of all alternatives, by their ALT words. -/
theorem State.forall_resolved {alts : List (Half × Half)} {P : Nat → Nat → Prop}
    (h : ∀ j (hj : j < alts.length), P j (s.docSlot (s.base.toNat + alts[j].1.toNat)).toNat) :
    ∀ j (hj : j < (s.resolved alts).length), P j (s.docSlot (s.resolved alts)[j].slot).toNat := by
  intro j hj
  have hj' : j < alts.length := by rwa [State.resolved, List.length_map] at hj
  have := h j hj'
  simpa only [State.resolved, List.getElem_map] using this

theorem State.resolved_length (s : State) (alts : List (Half × Half)) : (s.resolved alts).length = alts.length :=
  List.length_map ..

theorem State.resolved_getElem? {alts : List (Half × Half)} {k : Nat} (hk : k < alts.length) :
    (s.resolved alts)[k]? = some ⟨s.base.toNat + alts[k].1.toNat, alts[k].2⟩ := by
  rw [State.resolved, List.getElem?_map, List.getElem?_eq_getElem hk]
  rfl

/-- No flag is above 1, as R191's first check on encode asks. -/
theorem flags_le_one {alts : List Alt} (h : ∀ j (hj : j < alts.length), (s.docSlot alts[j].slot).toNat ≤ 1) :
    (alts.any fun x => decide (1 < (s.docSlot x.slot).toNat)) = false := by
  rw [List.any_eq_false]
  intro x hx
  obtain ⟨j, hj, rfl⟩ := List.getElem_of_mem hx
  simpa using h j hj

/-- The members of the set `S` of R191. -/
theorem State.mem_flagged {alts : List Alt} {x : Alt} {j : Nat} :
    (x, j) ∈ s.flagged alts ↔ alts[j]? = some x ∧ (s.docSlot x.slot).toNat = 1 := by
  rw [State.flagged, List.mem_filter, List.mk_mem_zipIdx_iff_getElem?, decide_eq_true_eq]

theorem State.getElem_mem_flagged {alts : List Alt} {j : Nat} (hj : j < alts.length)
    (h : (s.docSlot alts[j].slot).toNat = 1) : (alts[j], j) ∈ s.flagged alts :=
  State.mem_flagged.2 ⟨List.getElem?_eq_getElem hj, h⟩

/-- On encode with one flag set and room, its index is written. -/
theorem selectAlt_wrote {alts : List Alt} {w k : Nat} (hk : k < alts.length) (hc : s.capOk)
    (hr : s.pos.toNat + w ≤ s.cap.toNat * 8)
    (h : ∀ j (hj : j < alts.length), (s.docSlot alts[j].slot).toNat = if j = k then 1 else 0) :
    ∃ t, selectAlt alts w .encode s = .ok alts[k] t ∧ Wrote s t w ∧ t.fieldAt s.pos.toNat w k := by
  obtain ⟨t, ht, wt, ft⟩ := writeBits_wrote s k w hc hr
  have hle := flags_le_one fun j hj => by rw [h j hj]; split <;> omega
  refine ⟨t, ?_, wt, ft⟩
  rw [selectAlt, bind_current, bind_raiseIf, hle, s.flagged_one k alts hk h]
  exact Act.bind_ok ht

/-- On decode the flag of the alternative whose index stands on the stream is set. -/
theorem selectAlt_took {alts : List Alt} {w k : Nat} {x : Alt} (hx : alts[k]? = some x) (hk : k < 2 ^ w)
    (hf : s.fieldAt s.pos.toNat w k) (hr : s.pos.toNat + w ≤ s.readBound) (ha : x.slot < s.params.docSlots) :
    ∃ t, selectAlt alts w .decode s = .ok x t ∧ Took s t w x.slot 1 ∧ (t.docSlot x.slot).toNat = 1 := by
  obtain ⟨ht, hv⟩ := Took.slot s w x.slot 1 (by decide) ha
  refine ⟨_, ?_, ht, hv⟩
  rw [selectAlt, Act.bind_ok (readBits_found s w k hk hf hr)]
  simp only [hx]
  rfl

theorem selectAlt_none {alts : List Alt} {w : Nat}
    (h : ∀ j (hj : j < alts.length), (s.docSlot alts[j].slot).toNat = 0) :
    selectAlt alts w .encode s = .error ⟨.invalidVariant, 1⟩ s := by
  have hnil : s.flagged alts = [] := by
    refine List.eq_nil_iff_forall_not_mem.2 fun x hx => ?_
    obtain ⟨hget, hone⟩ := State.mem_flagged.1 hx
    obtain ⟨hj, hjx⟩ := List.getElem?_eq_some_iff.1 hget
    rw [← hjx, h _ hj] at hone
    cases hone
  rw [selectAlt, bind_current, bind_raiseIf, flags_le_one fun j hj => by rw [h j hj]; omega, hnil]
  rfl

theorem selectAlt_two {alts : List Alt} {w j k : Nat} (hj : j < alts.length) (hk : k < alts.length) (hne : j ≠ k)
    (hle : ∀ j (hj : j < alts.length), (s.docSlot alts[j].slot).toNat ≤ 1)
    (h1 : (s.docSlot alts[j].slot).toNat = 1) (h2 : (s.docSlot alts[k].slot).toNat = 1) :
    selectAlt alts w .encode s = .error ⟨.invalidVariant, 2⟩ s := by
  have hmj := State.getElem_mem_flagged hj h1
  have hmk := State.getElem_mem_flagged hk h2
  rw [selectAlt, bind_current, bind_raiseIf, flags_le_one hle]
  cases hf : s.flagged alts with
  | nil => rw [hf] at hmj; cases hmj
  | cons x rest =>
    cases rest with
    | nil =>
      rw [hf, List.mem_singleton] at hmj hmk
      exact absurd (congrArg Prod.snd (hmj.trans hmk.symm)) hne
    | cons y rest => rfl

theorem selectAlt_above {alts : List Alt} {w j : Nat} (hj : j < alts.length)
    (h : 1 < (s.docSlot alts[j].slot).toNat) :
    selectAlt alts w .encode s = .error ⟨.boundsViolation, 1⟩ s := by
  have hany : (alts.any fun x => decide (1 < (s.docSlot x.slot).toNat)) = true :=
    List.any_eq_true.2 ⟨_, List.getElem_mem hj, decide_eq_true h⟩
  rw [selectAlt, bind_current, bind_raiseIf, hany]
  rfl

theorem selectAlt_unknown {alts : List Alt} {w : Nat} (hr : s.pos.toNat + w ≤ s.readBound)
    (h : alts.length ≤ s.bitsValue s.pos.toNat w) :
    selectAlt alts w .decode s = .error ⟨.invalidVariant, 3⟩ (s.consumed w) := by
  rw [selectAlt, bind_readBits, if_neg (Nat.not_lt.2 hr), List.getElem?_eq_none h]
  rfl

end Sys2Proof.Machine

namespace Sys2Proof

open Machine

/-- Settles O47: `Slot` is the first thing that nine of the descriptors do, and a CHOICE does it word by word. -/
theorem slotRange : Obligations.SlotRange := by
  refine ⟨fun i off a b c d chw s dir extra hd hi h => ?slot, fun nalt off target s dir k hd hk ha hg hw h => ?choice,
    fun i m off max body elem stride s dir hi hd hslot hg hkind hnest hmax h => ?list⟩
  case slot =>
    have hform : slotForm i off extra := by
      obtain ⟨rfl, rfl | rfl | rfl | rfl | rfl | rfl⟩ | ⟨rfl, rfl | rfl | rfl | rfl⟩ := hi
      · exact slotForm_gwPres off a
      · exact slotForm_gwEnum off a
      · exact slotForm_gwNbit off a b
      · exact slotForm_gwVaruint off a
      · exact listForm.slotForm (.inl ⟨rfl, rfl⟩)
      · exact listForm.slotForm (.inr ⟨rfl, rfl⟩)
      · exact charsForm.slotForm (.inl ⟨rfl, rfl⟩)
      · exact charsForm.slotForm (.inr (.inl ⟨rfl, rfl⟩))
      · exact charsForm.slotForm (.inr (.inr (.inl ⟨rfl, rfl, rfl⟩)))
      · exact charsForm.slotForm (.inr (.inr (.inr ⟨rfl, rfl, rfl⟩)))
    exact exec_slot_outside hform hd h
  case choice => exact exec_gwChoice_refused hd hk ha fun _ => readAlts_outside hg hw h
  case list =>
    refine exec_listForm_refused (e := ⟨.illegalGrammar, 3⟩) hi hd hslot ?_
    rw [listChecks_eq, if_neg (Nat.not_le.2 hg), if_neg (not_not_intro hkind), nests_iff.2 hnest,
      if_neg Bool.false_ne_true, if_pos ⟨hmax, h⟩]

/-- Settles O35: the index is written or read in its bits, and the checked target of that alternative is where the
walk goes on. -/
theorem choiceSelects : Obligations.ChoiceSelects := by
  intro nalt s alts k hk hs hn ha
  have hx := s.resolved_getElem? hk
  refine ⟨fun hd hr hflags => ?encode, fun hd hr hf => ?decode⟩
  case encode =>
    obtain ⟨hk', hxk⟩ := List.getElem?_eq_some_iff.1 hx
    obtain ⟨t, ht, wt, ft⟩ := selectAlt_wrote hk' hs.capOk hr
      (State.forall_resolved (P := fun j v => v = if j = k then 1 else 0) hflags)
    rw [hxk] at ht
    refine ⟨_, ?_, wt.encoded_withGpc alts[k].2.toNat, ft⟩
    rw [exec_gwChoice_selects hd hn ha, Act.bind_ok ht]
    rfl
  case decode =>
    have hlt : k < 2 ^ cl2 nalt.toNat := (hn ▸ hk).trans_le (le_two_pow_cl2 _)
    obtain ⟨-, hwords⟩ := ha.altWordsAt
    obtain ⟨-, hslot⟩ := hwords k hk
    obtain ⟨t, ht, wt, hv⟩ := selectAlt_took hx hlt hf hr hslot
    refine ⟨_, ?_, wt.decoded_withGpc alts[k].2.toNat, hv⟩
    rw [exec_gwChoice_selects hd hn ha, Act.bind_ok ht]
    rfl

/-- Settles O36: the words are read before the targets are checked, and those before the flags or the index. -/
theorem choiceRejects : Obligations.ChoiceRejects := by
  constructor
  · intro nalt s alts hs hn ha
    have raised : ∀ {e : Raise} {t : State} {d : Dir}, s.run = some d →
        selectAlt (s.resolved alts) (cl2 nalt.toNat) d s = .error e t →
        exec (.gwChoice nalt) s = .next (t.takeFault e) := fun hd h => by
      rw [exec_gwChoice_selects hd hn ha, Act.bind_error h]
      rfl
    refine ⟨fun hd h => ?none, fun hd hle h => ?two, fun hd h => ?above, fun hd hr h => ?unknown⟩
    case none => exact raised hd (selectAlt_none (State.forall_resolved (P := fun _ v => v = 0) h))
    case two =>
      obtain ⟨j, k, hj, hk, hne, h1, h2⟩ := h
      refine raised hd (selectAlt_two (j := j) (k := k) ?_ ?_ hne
        (State.forall_resolved (P := fun _ v => v ≤ 1) hle) ?_ ?_)
      · rwa [State.resolved_length]
      · rwa [State.resolved_length]
      · simpa only [State.resolved, List.getElem_map] using h1
      · simpa only [State.resolved, List.getElem_map] using h2
    case above =>
      obtain ⟨j, hj, h1⟩ := h
      refine raised hd (selectAlt_above (j := j) ?_ ?_)
      · rwa [State.resolved_length]
      · simpa only [State.resolved, List.getElem_map] using h1
    case unknown => exact raised hd (selectAlt_unknown hr (by rwa [State.resolved_length, hn]))
  · intro nalt s d k hd ha
    refine ⟨fun hk hg => ?off, fun hk hg hw => ?illegal, fun i hk hg hw hi => ?other, fun hk h => ?target⟩
    case off => exact exec_gwChoice_refused hd hk ha fun _ => readAlts_off_table hg
    case illegal => exact exec_gwChoice_refused hd hk ha fun _ => readAlts_illegal hg hw
    case other => exact exec_gwChoice_refused hd hk ha fun _ => readAlts_other hg hw hi
    case target =>
      obtain ⟨alts, hlen, hat⟩ := ha.exists_list
      obtain ⟨j, hj, off, target, hw, hbad⟩ := h
      subst hlen
      have hat' := hat
      obtain ⟨-, hwords⟩ := hat'
      obtain ⟨hword, -⟩ := hwords j hj
      cases hw.symm.trans hword
      rw [exec_gwChoice hd hk hat, if_pos (List.any_eq_true.2 ⟨_, List.getElem_mem hj, by rw [hbad]; rfl⟩)]

end Sys2Proof
end

section
/-! Proofs for 42_codec_engine.md, the descriptors up to their last check: PRES and LIST (O34, O37), a value outside
its range (O45), and the check of `Next` or `Jump`, which comes last (O48). -/

namespace Sys2Proof.Machine

variable {s t u : State} {d : Dir} {i : Instr}

/-! `Next` and `Jump` at the end of a rule (R183, R184) -/

theorem settled_goNext_inside {g : Nat} (h : g + 1 < s.params.gtSteps) :
    settled (goNext g s) = s.withGpc (g + 1) := by
  rw [goNext_run, if_neg (Nat.not_le.2 h)]
  rfl

theorem settled_goNext_last {g : Nat} (h : s.params.gtSteps ≤ g + 1) :
    settled (goNext g s) = s.takeFault ⟨.illegalGrammar, 2⟩ := by
  rw [goNext_run, if_pos h]
  rfl

theorem settled_goJump_legal {g k : Nat} (h : s.jumpOk g k = true) : settled (goJump g k s) = s.withGpc k := by
  rw [goJump_run, if_pos h]
  rfl

theorem settled_goJump_illegal {g k : Nat} (h : s.jumpOk g k = false) :
    settled (goJump g k s) = s.takeFault ⟨.illegalGrammar, 4⟩ := by
  rw [goJump_run, h]
  rfl

/-! PRES up to its last check (R190) -/

/-- A flag stands on the stream as one bit. -/
theorem fieldAt_flag {p f : Nat} (hf : f ≤ 1) : s.fieldAt p 1 f ↔ s.bufBit p = decide (f = 1) := by
  have hbit : f.testBit 0 = decide (f = 1) := by
    obtain rfl | rfl := Nat.le_one_iff_eq_zero_or_eq_one.1 hf <;> rfl
  constructor
  · intro h
    exact (h 0 Nat.one_pos).trans hbit
  · intro h i hi
    obtain rfl : i = 0 := by omega
    exact h.trans hbit.symm

theorem presBit_wrote {a f : Nat} (hv : (s.docSlot a).toNat = f) (hf : f ≤ 1) (hc : s.capOk)
    (hr : s.pos.toNat + 1 ≤ s.cap.toNat * 8) :
    ∃ t, presBit a .encode s = .ok f t ∧ Wrote s t 1 ∧ t.bufBit s.pos.toNat = decide (f = 1) := by
  subst hv
  obtain ⟨t, ht, wt, ft⟩ := writeBits_wrote s (s.docSlot a).toNat 1 hc hr
  exact ⟨t, (readDoc_checked (decide_eq_false (Nat.not_lt.2 hf))).trans (Act.bind_ok ht), wt, (fieldAt_flag hf).1 ft⟩

theorem presBit_took {a f : Nat} (hb : s.bufBit s.pos.toNat = decide (f = 1)) (hf : f ≤ 1)
    (ha : a < s.params.docSlots) (hr : s.pos.toNat + 1 ≤ s.readBound) :
    ∃ t, presBit a .decode s = .ok f t ∧ Took s t 1 a 1 ∧ (t.docSlot a).toNat = f := by
  obtain ⟨ht, hv⟩ := Took.slot s 1 a f (by omega) ha
  exact ⟨_, Act.bind_ok (readBits_found s 1 f (by omega) ((fieldAt_flag hf).2 hb) hr), ht, hv⟩

/-- PRES whose bit was moved goes on by its flag. -/
theorem exec_gwPres {off skip : Half} {f : Nat} (hd : s.run = some d)
    (hslot : s.base.toNat + off.toNat < s.params.docSlots)
    (h : presBit (s.base.toNat + off.toNat) d s = .ok f t) :
    exec (.gwPres off skip) s = .next (settled
      ((if f = 1 then goNext s.gpc.toNat else goJump s.gpc.toNat (s.gpc.toNat + 1 + skip.toNat)) t)) := by
  rw [exec, execGwPres, descriptor_behind_slot hd hslot, Act.bind_ok h]

/-- The flag of a PRES and where the walk goes on: the next word for 1, a legal jump for 0. -/
def State.presGoesTo (s : State) (skip : Half) (f g : Nat) : Prop :=
  f = 1 ∧ g = s.gpc.toNat + 1 ∧ g < s.params.gtSteps ∨
    f = 0 ∧ g = s.gpc.toNat + 1 + skip.toNat ∧ s.jumpOk s.gpc.toNat g = true

/-- The flag of a PRES and the sub-cause with which its last check raises. -/
def State.presStopsWith (s : State) (skip : Half) (f sub : Nat) : Prop :=
  f = 1 ∧ s.params.gtSteps ≤ s.gpc.toNat + 1 ∧ sub = 2 ∨
    f = 0 ∧ s.jumpOk s.gpc.toNat (s.gpc.toNat + 1 + skip.toNat) = false ∧ sub = 4

theorem State.presGoesTo.flag {skip : Half} {f g : Nat} (h : s.presGoesTo skip f g) : f ≤ 1 := by
  obtain ⟨rfl, -⟩ | ⟨rfl, -⟩ := h <;> decide

theorem State.presStopsWith.flag {skip : Half} {f sub : Nat} (h : s.presStopsWith skip f sub) : f ≤ 1 := by
  obtain ⟨rfl, -⟩ | ⟨rfl, -⟩ := h <;> decide

theorem State.presGoesTo.settled {skip : Half} {f g : Nat} (h : s.presGoesTo skip f g) (hp : t.params = s.params)
    (hj : ∀ a b, t.jumpOk a b = s.jumpOk a b) :
    settled ((if f = 1 then goNext s.gpc.toNat else goJump s.gpc.toNat (s.gpc.toNat + 1 + skip.toNat)) t) =
      t.withGpc g := by
  obtain ⟨rfl, rfl, hg⟩ | ⟨rfl, rfl, hg⟩ := h
  · exact settled_goNext_inside (by rwa [hp])
  · exact settled_goJump_legal (by rwa [hj])

theorem State.presStopsWith.settled {skip : Half} {f sub : Nat} (h : s.presStopsWith skip f sub)
    (hp : t.params = s.params) (hj : ∀ a b, t.jumpOk a b = s.jumpOk a b) :
    settled ((if f = 1 then goNext s.gpc.toNat else goJump s.gpc.toNat (s.gpc.toNat + 1 + skip.toNat)) t) =
      t.takeFault ⟨.illegalGrammar, BitVec.ofNat 4 sub⟩ := by
  obtain ⟨rfl, hg, rfl⟩ | ⟨rfl, hg, rfl⟩ := h
  · exact settled_goNext_last (by rwa [hp])
  · exact settled_goJump_illegal (by rwa [hj])

/-! The field descriptors up to `Next` (R221, R222, R224, R226) -/

/-- ENUM and NBIT are one rule over the number that stands for the value on the stream. -/
theorem carries.rule {off : Half} {v x w : Nat} (h : carries i off v x w) :
    x < 2 ^ w ∧ v < 2 ^ 64 ∧ ∃ field : Nat → Dir → Act Unit,
      (∀ s, exec i s = descriptor (fun d g => do let a ← slot off 0; field a d; goNext g) s) ∧
      (∀ s a, (s.docSlot a).toNat = v → field a .encode s = writeBits x w s) ∧
      ∀ s t a, readBits w s = .ok x t → field a .decode s = writeDoc a v t := by
  obtain ⟨n, rfl, hv, rfl, rfl⟩ | ⟨min, max, rfl, hmin, hmax, rfl, rfl⟩ := h
  · refine ⟨hv.trans_le (le_two_pow_cl2 _), by omega, enumField n.toNat, fun s => by rw [exec, execGwEnum],
      fun s a ha => ?_, fun s t a hr => ?_⟩
    · rw [enumField, readDoc_checked (decide_eq_false (by rw [ha]; omega)), ha]
    · rw [enumField, Act.bind_ok hr, bind_raiseIf, if_neg (by simpa using hv)]
  · refine ⟨(show _ < max.toNat - min.toNat + 1 by omega).trans_le (le_two_pow_cl2 _), by omega,
      nbitField min.toNat max.toNat, fun s => by rw [exec, execGwNbit], fun s a ha => ?_, fun s t a hr => ?_⟩
    · rw [nbitField, readDoc_checked (c := fun v => decide (v < min.toNat) || decide (max.toNat < v))
        (by rw [ha]; simp; omega), ha]
    · rw [nbitField, Act.bind_ok hr, bind_raiseIf, if_neg (by simp; omega), Nat.add_sub_cancel' hmin]

/-- ENUM and NBIT on encode, with room: the number stands in its bits, and `Next` is left. -/
theorem exec_carries_encode {off : Half} {v x w : Nat} (hi : carries i off v x w) (hd : s.run = some .encode)
    (hslot : s.base.toNat + off.toNat < s.params.docSlots) (hv : (s.docSlot (s.base.toNat + off.toNat)).toNat = v)
    (hc : s.capOk) (hr : s.pos.toNat + w ≤ s.cap.toNat * 8) :
    ∃ t, exec i s = .next (settled (goNext s.gpc.toNat t)) ∧ Wrote s t w ∧ t.fieldAt s.pos.toNat w x := by
  obtain ⟨-, -, field, hrule, henc, -⟩ := hi.rule
  obtain ⟨t, ht, wt, ft⟩ := writeBits_wrote s x w hc hr
  refine ⟨t, ?_, wt, ft⟩
  rw [hrule, descriptor_behind_slot hd hslot, Act.bind_ok ((henc s _ hv).trans ht)]

/-- ENUM and NBIT on decode, with the number in its bits: the value is in its slot, and `Next` is left. -/
theorem exec_carries_decode {off : Half} {v x w : Nat} (hi : carries i off v x w) (hd : s.run = some .decode)
    (hslot : s.base.toNat + off.toNat < s.params.docSlots) (hf : s.fieldAt s.pos.toNat w x)
    (hr : s.pos.toNat + w ≤ s.readBound) :
    ∃ t, exec i s = .next (settled (goNext s.gpc.toNat t)) ∧ Took s t w (s.base.toNat + off.toNat) 1 ∧
      (t.docSlot (s.base.toNat + off.toNat)).toNat = v := by
  obtain ⟨hx, h64, field, hrule, -, hdec⟩ := hi.rule
  obtain ⟨ht, hv⟩ := Took.slot s w (s.base.toNat + off.toNat) v h64 hslot
  refine ⟨_, ?_, ht, hv⟩
  rw [hrule, descriptor_behind_slot hd hslot,
    Act.bind_ok ((hdec s _ _ (readBits_found s w x hx hf hr)).trans (writeDoc_run _ _ _))]

/-- VARUINT on encode, with room for the shortest form. -/
theorem exec_gwVaruint_encode {off vb : Half} {v k : Nat} (hd : s.run = some .encode)
    (hslot : s.base.toNat + off.toNat < s.params.docSlots) (hv : (s.docSlot (s.base.toNat + off.toNat)).toNat = v)
    (hvb : v < 2 ^ vb.toNat) (hk : varuintGroups v k) (hc : s.capOk) (hr : s.pos.toNat + 8 * k ≤ s.cap.toNat * 8) :
    ∃ t, exec (.gwVaruint off vb) s = .next (settled (goNext s.gpc.toNat t)) ∧ Wrote s t (8 * k) ∧
      t.varuintAt s.pos.toNat v k := by
  subst hv
  obtain ⟨t, ht, wt, vt⟩ := writeVarGroups_wrote 10 s _ k hk (groups_le_ten hk (BitVec.isLt _)) hc hr
  have hfield : varuintField vb.toNat (s.base.toNat + off.toNat) .encode s = .ok () t :=
    (readDoc_checked (decide_eq_false (Nat.not_le.2 hvb))).trans ht
  refine ⟨t, ?_, wt, vt⟩
  rw [exec, execGwVaruint, descriptor_behind_slot hd hslot, Act.bind_ok hfield]

/-- VARUINT on decode of one to ten groups. -/
theorem exec_gwVaruint_decode {off vb : Half} {os : List Nat} (hd : s.run = some .decode) (hvb : vb.toNat ≤ 64)
    (hslot : s.base.toNat + off.toNat < s.params.docSlots) (ho : s.varuintGroupsAt s.pos.toNat os)
    (hv : varuintValue os < 2 ^ vb.toNat) (hb : s.readBound < 2 ^ 32)
    (hr : s.pos.toNat + 8 * os.length ≤ s.readBound) :
    ∃ t, exec (.gwVaruint off vb) s = .next (settled (goNext s.gpc.toNat t)) ∧
      Took s t (8 * os.length) (s.base.toNat + off.toNat) 1 ∧
      (t.docSlot (s.base.toNat + off.toNat)).toNat = varuintValue os := by
  obtain ⟨ht, hslotv⟩ := Took.slot s (8 * os.length) (s.base.toNat + off.toNat) (varuintValue os)
    (hv.trans_le (Nat.pow_le_pow_right (by decide) hvb)) hslot
  have hfield : varuintField vb.toNat (s.base.toNat + off.toNat) .decode s = .ok () _ :=
    (Act.bind_ok (readVar_found s vb.toNat os ho hv hb hr)).trans (writeDoc_run _ _ _)
  refine ⟨_, ?_, ht, hslotv⟩
  rw [exec, execGwVaruint, descriptor_behind_slot hd hslot, Act.bind_ok hfield]

/-- A length of `k` bits and then `j` characters, both as writes: what stands on the stream behind them. -/
theorem Wrote.chars {m : LenMode} {a n k j chw : Nat} (hsu : Wrote s u k) (hut : Wrote u t (j * chw)) (hc : s.capOk)
    (hr : s.pos.toNat + k ≤ s.cap.toNat * 8) (hlen : u.lenWritten m s.pos.toNat n k)
    (hchars : ∀ l < j, t.fieldAt (u.pos.toNat + l * chw) chw (u.docSlot (a + l)).toNat) :
    Wrote s t (k + j * chw) ∧ t.lenWritten m s.pos.toNat n k ∧
      ∀ l < j, t.fieldAt (s.pos.toNat + k + l * chw) chw (s.docSlot (a + l)).toNat := by
  have hup := hsu.pos hc hr
  refine ⟨hsu.trans hut hc hr, hut.lenWritten hup.ge hlen, fun l hl => ?_⟩
  rw [← hup, ← hsu.docSlot]
  exact hchars l hl

/-- STRING and BYTES on encode, with room for the length and the characters. -/
theorem exec_charsForm_encode {m : LenMode} {off cap : Half} {chw : Byte} {n k : Nat}
    (hi : charsForm i m off cap chw) (hd : s.run = some .encode) (hc : s.capOk)
    (hslot : s.base.toNat + off.toNat + cap.toNat < s.params.docSlots)
    (hv : (s.docSlot (s.base.toNat + off.toNat)).toNat = n) (hn : n ≤ cap.toNat)
    (hchw : ∀ j < n, (s.docSlot (s.base.toNat + off.toNat + 1 + j)).toNat < 2 ^ chw.toNat)
    (hk : lenBits m cap.toNat n k) (hr : s.pos.toNat + k + n * chw.toNat ≤ s.cap.toNat * 8) :
    ∃ t, exec i s = .next (settled (goNext s.gpc.toNat t)) ∧ Wrote s t (k + n * chw.toNat) ∧
      t.lenWritten m s.pos.toNat n k ∧
      ∀ j < n, t.fieldAt (s.pos.toNat + k + j * chw.toNat) chw.toNat
        (s.docSlot (s.base.toNat + off.toNat + 1 + j)).toNat := by
  have hrk : s.pos.toNat + k ≤ s.cap.toNat * 8 := by omega
  obtain ⟨u, hcount, hsu, hlen⟩ := countField_wrote s m cap.toNat _ n k hv hn hk hc hrk
  obtain ⟨t, hchars, hut, hfields⟩ := writeChars_wrote chw.toNat n u (s.base.toNat + off.toNat + 1)
    (fun j hj => by rw [hsu.docSlot]; exact hchw j hj) (hsu.capOk hc) (by rw [hsu.pos hc hrk, hsu.cap]; exact hr)
  refine ⟨t, ?_, hsu.chars hut hc hrk hlen hfields⟩
  rw [exec_charsForm hi]
  exact (descriptor_behind_slot hd hslot).trans (by rw [Act.bind_ok hcount, charsField, Act.bind_ok hchars])

/-- STRING and BYTES on decode, with the length and the characters inside the read bound. -/
theorem exec_charsForm_decode {m : LenMode} {off cap : Half} {chw : Byte} {n k : Nat}
    (hi : charsForm i m off cap chw) (hd : s.run = some .decode) (hb : s.readBound < 2 ^ 32) (hchw : chw.toNat ≤ 8)
    (hslot : s.base.toNat + off.toNat + cap.toNat < s.params.docSlots) (hn : n ≤ cap.toNat)
    (hk : s.lenReadable m cap.toNat s.pos.toNat n k) (hr : s.pos.toNat + k + n * chw.toNat ≤ s.readBound) :
    ∃ t, exec i s = .next (settled (goNext s.gpc.toNat t)) ∧
      Took s t (k + n * chw.toNat) (s.base.toNat + off.toNat) (n + 1) ∧
      (t.docSlot (s.base.toNat + off.toNat)).toNat = n ∧
      ∀ j < n, s.fieldAt (s.pos.toNat + k + j * chw.toNat) chw.toNat
          (t.docSlot (s.base.toNat + off.toNat + 1 + j)).toNat ∧
        (t.docSlot (s.base.toNat + off.toNat + 1 + j)).toNat < 2 ^ chw.toNat := by
  have hrk : s.pos.toNat + k ≤ s.readBound := by omega
  obtain ⟨u, hcount, hsu, hlen⟩ := countField_took s m cap.toNat (s.base.toNat + off.toNat) n k hk hn
    (cap.isLt.trans (by decide)) (by omega) hb hrk
  have hup := hsu.pos hb hrk
  obtain ⟨t, hchars, hut, hfields⟩ := readChars_took chw.toNat n u (s.base.toNat + off.toNat + 1) hchw
    (by rw [hsu.params]; omega) (by rwa [hsu.readBound]) (by rw [hup, hsu.readBound]; exact hr)
  refine ⟨t, ?run, ?took, ?length, fun j hj => ?char⟩
  case run =>
    rw [exec_charsForm hi]
    exact (descriptor_behind_slot hd hslot).trans (by rw [Act.bind_ok hcount, charsField, Act.bind_ok hchars])
  case took =>
    rw [Nat.add_comm n 1]
    exact hsu.trans hut hb hrk
  case length =>
    obtain ⟨-, hkept⟩ := hut
    rw [hkept _ (.inl (Nat.lt_succ_self _)), hlen]
  case char =>
    obtain ⟨hfield, hlt⟩ := hfields j hj
    rw [hup] at hfield
    exact ⟨fun q hq => (hsu.bufBit _).symm.trans (hfield q hq), hlt⟩

/-! LIST up to its jump or its entry (R193) -/

/-- LIST whose structural checks passed and whose count was moved. -/
theorem exec_listForm_counted {m : LenMode} {off max body elem stride : Half} {n : Nat}
    (hi : listForm i m off max body elem stride) (hd : s.run = some d) (hl : s.listAt off max body elem stride)
    (h : countField m max.toNat (s.base.toNat + off.toNat) d s = .ok n t) :
    exec i s = .next (settled ((if n = 0 then goJump s.gpc.toNat (s.gpc.toNat + 1 + body.toNat)
      else effect fun u => u.enterList s.gpc.toNat n body elem stride) t)) := by
  have hpass := listChecks_pass s hl
  obtain ⟨hslot, -⟩ := hl
  rw [exec_listForm hi]
  exact (descriptor_behind_slot hd hslot).trans (by rw [Act.bind_ok hpass, Act.bind_ok h])

/-- LIST goes past its body when the count is 0, and into it otherwise; entering it sets GPC anew. -/
theorem settled_list_goes {g n : Nat} {body elem stride : Half} (h : n = 0 → t.jumpOk g (g + 1 + body.toNat) = true) :
    settled ((if n = 0 then goJump g (g + 1 + body.toNat)
      else effect fun u => u.enterList g n body elem stride) t) =
      if n = 0 then t.withGpc (g + 1 + body.toNat)
      else (t.withGpc (g + 1 + body.toNat)).enterList g n body elem stride := by
  split
  next h0 => exact settled_goJump_legal (h h0)
  next => rfl

/-! A value outside its range (R186) -/

/-- A check on a value read from DOC that does not pass: the raise, with nothing written. -/
theorem readDoc_rejected {α : Type} {a : Nat} {c : Nat → Bool} {k : FaultKind} {n : Nat} {f : Nat → Act α}
    (h : c (s.docSlot a).toNat = true) :
    (readDoc a >>= fun v => raiseIf (c v) k n >>= fun _ => f v) s = .error ⟨k, BitVec.ofNat 4 n⟩ s := by
  rw [bind_readDoc, bind_raiseIf, h]
  rfl

/-- A check on a value read from the stream that does not pass: the raise, with its bits consumed. -/
theorem readBits_rejected {α : Type} {w : Nat} {c : Nat → Bool} {k : FaultKind} {n : Nat} {f : Nat → Act α}
    (hr : s.pos.toNat + w ≤ s.readBound) (h : c (s.bitsValue s.pos.toNat w) = true) :
    (readBits w >>= fun v => raiseIf (c v) k n >>= fun _ => f v) s =
      .error ⟨k, BitVec.ofNat 4 n⟩ (s.consumed w) := by
  rw [bind_readBits, if_neg (Nat.not_lt.2 hr), bind_raiseIf, h]
  rfl

/-- STRING and BYTES on encode up to a character that does not fit: the length and the characters before it are
written. -/
theorem exec_charsForm_encode_above {m : LenMode} {off cap : Half} {chw : Byte} {n k j : Nat}
    (hi : charsForm i m off cap chw) (hd : s.run = some .encode) (hc : s.capOk)
    (hslot : s.base.toNat + off.toNat + cap.toNat < s.params.docSlots)
    (hv : (s.docSlot (s.base.toNat + off.toNat)).toNat = n) (hn : n ≤ cap.toNat) (hk : lenBits m cap.toNat n k)
    (hj : j < n) (hfit : ∀ l < j, (s.docSlot (s.base.toNat + off.toNat + 1 + l)).toNat < 2 ^ chw.toNat)
    (habove : 2 ^ chw.toNat ≤ (s.docSlot (s.base.toNat + off.toNat + 1 + j)).toNat)
    (hr : s.pos.toNat + k + j * chw.toNat ≤ s.cap.toNat * 8) :
    ∃ t, exec i s = .next (t.takeFault ⟨.boundsViolation, 6⟩) ∧ Wrote s t (k + j * chw.toNat) ∧
      t.lenWritten m s.pos.toNat n k ∧
      ∀ l < j, t.fieldAt (s.pos.toNat + k + l * chw.toNat) chw.toNat
        (s.docSlot (s.base.toNat + off.toNat + 1 + l)).toNat := by
  have hrk : s.pos.toNat + k ≤ s.cap.toNat * 8 := by omega
  obtain ⟨u, hcount, hsu, hlen⟩ := countField_wrote s m cap.toNat _ n k hv hn hk hc hrk
  obtain ⟨t, hchars, hut, hfields⟩ := writeChars_above chw.toNat j u (s.base.toNat + off.toNat + 1) n hj
    (fun l hl => by rw [hsu.docSlot]; exact hfit l hl) (by rwa [hsu.docSlot]) (hsu.capOk hc)
    (by rw [hsu.pos hc hrk, hsu.cap]; exact hr)
  exact ⟨t, exec_charsForm_raised_at_chars hi hd hslot hcount hchars, hsu.chars hut hc hrk hlen hfields⟩

end Sys2Proof.Machine

namespace Sys2Proof

open Machine

/-- Settles O34: the flag is moved before the walk goes on by it. -/
theorem presDescriptor : Obligations.PresDescriptor := by
  intro off skip s f g hs hslot hgo
  have hgo : s.presGoesTo skip f g := hgo
  constructor
  · intro hd hv hr
    obtain ⟨t, ht, wt, hbit⟩ := presBit_wrote hv hgo.flag hs.capOk hr
    exact ⟨t.withGpc g, by rw [exec_gwPres hd hslot ht, hgo.settled wt.params wt.jumpOk], wt.encoded_withGpc g, hbit⟩
  · intro hd hb hr
    obtain ⟨t, ht, wt, hv⟩ := presBit_took hb hgo.flag hslot hr
    exact ⟨t.withGpc g, by rw [exec_gwPres hd hslot ht, hgo.settled wt.params wt.jumpOk], wt.decoded_withGpc g, hv⟩

/-- Settles O37: the count is moved behind the structural checks, and the first check that fails is the one that
raises. -/
theorem listDescriptor : Obligations.ListDescriptor := by
  constructor
  · intro i m off max body elem stride s n k hi hs hl hn hjump
    constructor
    · intro hd hv hk hr
      obtain ⟨t, ht, wt, hlen⟩ := countField_wrote s m max.toNat _ n k hv hn hk hs.capOk hr
      refine ⟨_, wt.encoded_withGpc _, hlen, ?_⟩
      rw [exec_listForm_counted hi hd hl ht, settled_list_goes fun h0 => by rw [wt.jumpOk]; exact hjump h0]
    · intro hd hk hr
      have hl' := hl
      obtain ⟨hslot, -⟩ := hl'
      obtain ⟨t, ht, wt, hv⟩ := countField_took s m max.toNat _ n k hk hn (max.isLt.trans (by decide)) hslot
        hs.readBound_lt hr
      refine ⟨_, wt.decoded_withGpc _, hv, ?_⟩
      rw [exec_listForm_counted hi hd hl ht, settled_list_goes fun h0 => by rw [wt.jumpOk]; exact hjump h0]
  · intro i m off max body elem stride s d hi hd hslot
    refine ⟨fun hg => ?leaves, fun hg => ⟨fun hkind => ?kind, fun hkind => ⟨fun f hf hstop => ?nest,
      fun hnest hroom hfull => ?full⟩⟩⟩ <;> refine exec_listForm_refused hi hd hslot ?_ <;> rw [listChecks_eq]
    case leaves => rw [if_pos hg]
    case kind => rw [if_neg (Nat.not_le.2 hg), if_pos hkind]
    case nest =>
      rw [if_neg (Nat.not_le.2 hg), if_neg (not_not_intro hkind), if_pos]
      rw [hf, Option.any_some]
      exact decide_eq_true hstop
    case full =>
      rw [if_neg (Nat.not_le.2 hg), if_neg (not_not_intro hkind), nests_iff.2 hnest, if_neg Bool.false_ne_true,
        if_neg fun ⟨h0, h⟩ => absurd (hroom h0) (Nat.not_le.2 h), if_pos hfull]

/-- Settles O48: each rule has moved its field when it comes to `Next` or `Jump`, whose raise leaves the state it is
in. -/
theorem sequencingCheckComesLast : Obligations.SequencingCheckComesLast := by
  intro s hs
  refine ⟨fun i off v x w hi hslot hg => ⟨fun hd hv hr => ?carriesE, fun hd hf hr => ?carriesD⟩,
    fun off vb hvb hslot hg => ⟨fun v k hd hv hlt hk hr => ?varuintE, fun os hd ho hlt hr => ?varuintD⟩,
    fun i m off cap chw n k hi hslot hg hn =>
      ⟨fun hd hv hchw hk hr => ?charsE, fun hd hchw hk hr => ?charsD⟩,
    fun off skip f sub hslot hstop => ?pres,
    fun i m off max body elem stride k hi hl hjump => ⟨fun hd hv hk hr => ?listE, fun hd hk hr => ?listD⟩⟩
  case carriesE =>
    obtain ⟨t, ht, wt, ft⟩ := exec_carries_encode hi hd hslot hv hs.capOk hr
    exact ⟨t, by rw [ht, settled_goNext_last (by rwa [wt.params])], wt.encoded, ft⟩
  case carriesD =>
    obtain ⟨t, ht, wt, hv⟩ := exec_carries_decode hi hd hslot hf hr
    exact ⟨t, by rw [ht, settled_goNext_last (by rwa [wt.params])], wt.decoded, hv⟩
  case varuintE =>
    obtain ⟨t, ht, wt, ft⟩ := exec_gwVaruint_encode hd hslot hv hlt hk hs.capOk hr
    exact ⟨t, by rw [ht, settled_goNext_last (by rwa [wt.params])], wt.encoded, ft⟩
  case varuintD =>
    obtain ⟨t, ht, wt, hv⟩ := exec_gwVaruint_decode hd hvb hslot ho hlt hs.readBound_lt hr
    exact ⟨t, by rw [ht, settled_goNext_last (by rwa [wt.params])], wt.decoded, hv⟩
  case charsE =>
    obtain ⟨t, ht, wt, hlen, ft⟩ := exec_charsForm_encode hi hd hs.capOk hslot hv hn hchw hk hr
    exact ⟨t, by rw [ht, settled_goNext_last (by rwa [wt.params])], wt.encoded, hlen, ft⟩
  case charsD =>
    obtain ⟨t, ht, wt, hlen, ft⟩ := exec_charsForm_decode hi hd hs.readBound_lt hchw hslot hn hk hr
    exact ⟨t, by rw [ht, settled_goNext_last (by rwa [wt.params])], wt.decoded, hlen, ft⟩
  case pres =>
    have hstop : s.presStopsWith skip f sub := hstop
    constructor
    · intro hd hv hr
      obtain ⟨t, ht, wt, hbit⟩ := presBit_wrote hv hstop.flag hs.capOk hr
      exact ⟨t, by rw [exec_gwPres hd hslot ht, hstop.settled wt.params wt.jumpOk], wt.encoded, hbit⟩
    · intro hd hb hr
      obtain ⟨t, ht, wt, hv⟩ := presBit_took hb hstop.flag hslot hr
      exact ⟨t, by rw [exec_gwPres hd hslot ht, hstop.settled wt.params wt.jumpOk], wt.decoded, hv⟩
  case listE =>
    obtain ⟨t, ht, wt, hlen⟩ := countField_wrote s m max.toNat _ 0 k hv (Nat.zero_le _) hk hs.capOk hr
    refine ⟨t, ?_, wt.encoded, hlen⟩
    rw [exec_listForm_counted hi hd hl ht, if_pos rfl, settled_goJump_illegal (by rwa [wt.jumpOk])]
  case listD =>
    have hl' := hl
    obtain ⟨hslot, -⟩ := hl'
    obtain ⟨t, ht, wt, hv⟩ := countField_took s m max.toNat _ 0 k hk (Nat.zero_le _) (max.isLt.trans (by decide)) hslot
      hs.readBound_lt hr
    refine ⟨t, ?_, wt.decoded, hv⟩
    rw [exec_listForm_counted hi hd hl ht, if_pos rfl, settled_goJump_illegal (by rwa [wt.jumpOk])]

/-- Settles O45: on encode a value is checked before it is written, on decode after its bits were read. -/
theorem valueBounds : Obligations.ValueBounds := by
  refine ⟨fun off a b s v hs hslot => ⟨fun hd hv => ?encode, fun hd hr h => ?enumD, fun hd hr h => ?nbitD⟩,
    fun i off a body elem stride chw s extra vb os hi hd hs hslot ho hmore hr h => ?varuintD,
    fun i m off cap chw s n k j hi hd hs hslot hv hn hk hj hfit habove hr => ?chars⟩
  case encode =>
    subst hv
    refine ⟨fun h => ?enum, fun h => ?nbit, fun h => ?varuint, fun h => ?pres⟩
    case enum =>
      rw [exec, execGwEnum]
      exact descriptor_raised_behind_slot hd hslot (Act.bind_error (readDoc_rejected (decide_eq_true h)))
    case nbit =>
      rw [exec, execGwNbit]
      exact descriptor_raised_behind_slot hd hslot (Act.bind_error (readDoc_rejected
        (c := fun v => decide (v < a.toNat) || decide (b.toNat < v)) (by simpa using h)))
    case varuint =>
      rw [exec, execGwVaruint]
      exact descriptor_raised_behind_slot hd hslot (Act.bind_error (readDoc_rejected (decide_eq_true h)))
    case pres =>
      rw [exec, execGwPres]
      exact descriptor_raised_behind_slot hd hslot (Act.bind_error (readDoc_rejected (decide_eq_true h)))
  case enumD =>
    rw [exec, execGwEnum]
    exact descriptor_raised_behind_slot hd hslot (Act.bind_error (readBits_rejected hr (decide_eq_true h)))
  case nbitD =>
    rw [exec, execGwNbit]
    exact descriptor_raised_behind_slot hd hslot (Act.bind_error (readBits_rejected hr (decide_eq_true h)))
  case varuintD =>
    have hmoves : ∃ top, s.movesVaruint i off vb top := by
      obtain ⟨rfl, rfl, rfl⟩ | ⟨hi, rfl, rfl⟩ | ⟨hi, hl, rfl, rfl⟩ := hi
      · exact ⟨_, .inl ⟨a, rfl, hslot, rfl, rfl⟩⟩
      · exact ⟨_, .inr (.inl ⟨a, chw, hi, hslot, rfl, rfl⟩)⟩
      · exact ⟨_, .inr (.inr ⟨a, body, elem, stride, hi, hl, rfl, rfl⟩)⟩
    obtain ⟨top, hmoves⟩ := hmoves
    refine exec_movesVaruint_decode hmoves hd (readVarGroups_above vb os s 10 0 0 ho hmore hs.readBound_lt hr ?_)
    simp only [Nat.zero_add, Nat.pow_zero, Nat.one_mul]
    refine h.imp_left fun ⟨hlen, hbelow, habove⟩ => ⟨?_, hlen, hbelow, habove⟩
    rintro rfl
    exact absurd hbelow (Nat.not_lt.2 habove)
  case chars =>
    obtain ⟨t, ht, wt, hlen, ft⟩ := exec_charsForm_encode_above hi hd hs.capOk hslot hv hn hk hj hfit habove hr
    exact ⟨t, ht, wt.encoded, hlen, ft⟩

end Sys2Proof
end

section
/-! Proofs for 42_codec_engine.md, the whole run: it ends within R195's bound (O53), and its effect is a function of
its inputs (O57). -/

namespace Sys2Proof.Machine

variable {s t u : State} {d : Dir} {i : Instr}

/-! How long a walk can still be (R195) -/

/-- A bound on the steps that a walk at GT index `g` inside the lists `ls` can still take. A word inside `k` lists is
worth 65536^(LOOP_DEPTH - k) steps: a LIST there is worth more than 65535 passes over its body, whose words are inside
one list more. -/
def stepsLeft (p : Params) : Nat → List Frame → Nat
  | g, [] => (p.gtSteps - 1 - g) * 65536 ^ p.loopDepth + 1
  | g, f :: outer =>
    (f.stop.toNat + 1 - g + (f.rem.toNat - 1) * (f.stop.toNat + 1 - f.start.toNat)) *
        65536 ^ (p.loopDepth - (outer.length + 1)) +
      stepsLeft p (f.stop.toNat + 1) outer

section
variable {p : Params} {g g' : Nat} {ls : List Frame}

theorem stepsLeft_pos : 0 < stepsLeft p g ls := by
  induction ls generalizing g with
  | nil => exact Nat.succ_pos _
  | cons f outer ih => exact Nat.add_pos_right _ ih

/-- Each word that the walk goes forward over, up to the LEND of the innermost list, takes its worth off the bound. -/
theorem stepsLeft_forward (hg : g ≤ g') (hlt : g' < p.gtSteps) (hs : ∀ f, ls.head? = some f → g' ≤ f.stop.toNat) :
    stepsLeft p g' ls + (g' - g) * 65536 ^ (p.loopDepth - ls.length) ≤ stepsLeft p g ls := by
  cases ls with
  | nil =>
    have hsplit : p.gtSteps - 1 - g = p.gtSteps - 1 - g' + (g' - g) := by omega
    rw [stepsLeft, stepsLeft, hsplit, Nat.add_mul, List.length_nil, Nat.sub_zero]
    omega
  | cons f outer =>
    have := hs f rfl
    have hsplit : f.stop.toNat + 1 - g = f.stop.toNat + 1 - g' + (g' - g) := by omega
    rw [stepsLeft, stepsLeft, hsplit, List.length_cons]
    exact le_of_eq (by ring)

/-- Further on there are no more steps left. -/
theorem stepsLeft_antitone (hg : g ≤ g') : stepsLeft p g' ls ≤ stepsLeft p g ls := by
  cases ls with
  | nil => exact Nat.add_le_add_right (Nat.mul_le_mul_right _ (by omega)) _
  | cons f outer => exact Nat.add_le_add_right (Nat.mul_le_mul_right _ (by omega)) _

/-- A walk forward takes at least one step off the bound. -/
theorem stepsLeft_lt_of_forward (hg : g < g') (hlt : g' < p.gtSteps)
    (hs : ∀ f, ls.head? = some f → g' ≤ f.stop.toNat) : stepsLeft p g' ls < stepsLeft p g ls := by
  have hworth : 0 < (g' - g) * 65536 ^ (p.loopDepth - ls.length) :=
    Nat.mul_pos (by omega) (Nat.pow_pos (by decide))
  have := stepsLeft_forward hg.le hlt hs
  omega

/-- A LIST with at most 65535 elements is worth more than all the passes over its body of `b` words. -/
theorem stepsLeft_enter {f : Frame} {b : Nat} (hb : 1 ≤ b) (hstart : f.start.toNat = g + 1)
    (hstop : f.stop.toNat = g + b) (hrem : 1 ≤ f.rem.toNat) (hdepth : ls.length < p.loopDepth)
    (hlt : g + b < p.gtSteps) (hs : ∀ o, ls.head? = some o → g + b ≤ o.stop.toNat) :
    stepsLeft p (g + 1) (f :: ls) < stepsLeft p g ls := by
  obtain ⟨k, hk⟩ : ∃ k, p.loopDepth - ls.length = k + 1 := ⟨p.loopDepth - ls.length - 1, by omega⟩
  have hskip := stepsLeft_forward (Nat.le_add_right g b) hlt hs
  rw [hk, Nat.add_sub_cancel_left] at hskip
  have hbehind : stepsLeft p (g + b + 1) ls ≤ stepsLeft p (g + b) ls := stepsLeft_antitone (Nat.le_succ _)
  have hpasses : g + b + 1 - (g + 1) + (f.rem.toNat - 1) * (g + b + 1 - (g + 1)) = f.rem.toNat * b := by
    obtain ⟨r, hr⟩ : ∃ r, f.rem.toNat = r + 1 := ⟨f.rem.toNat - 1, by omega⟩
    rw [show g + b + 1 - (g + 1) = b by omega, hr, Nat.add_sub_cancel]
    ring
  have hworth : f.rem.toNat * b * 65536 ^ k < b * 65536 ^ (k + 1) := by
    calc f.rem.toNat * b * 65536 ^ k < 65536 * b * 65536 ^ k :=
          Nat.mul_lt_mul_of_pos_right (Nat.mul_lt_mul_of_pos_right f.rem.isLt hb) (Nat.pow_pos (by decide))
      _ = b * 65536 ^ (k + 1) := by ring
  rw [stepsLeft, hstart, hstop, hpasses, show p.loopDepth - (ls.length + 1) = k by omega]
  omega

/-- The next element of a list begins with one pass less to go. -/
theorem stepsLeft_element {f f' : Frame} {outer : List Frame} (hstart : f'.start = f.start) (hstop : f'.stop = f.stop)
    (hrem : f'.rem.toNat = f.rem.toNat - 1) (hr : 2 ≤ f.rem.toNat) :
    stepsLeft p f.start.toNat (f' :: outer) < stepsLeft p f.stop.toNat (f :: outer) := by
  obtain ⟨r, hrr⟩ : ∃ r, f.rem.toNat = r + 2 := ⟨f.rem.toNat - 2, by omega⟩
  rw [stepsLeft, stepsLeft, hstart, hstop, hrem, hrr]
  refine Nat.add_lt_add_right (Nat.mul_lt_mul_of_pos_right ?_ (Nat.pow_pos (by decide))) _
  simp only [Nat.add_sub_cancel, Nat.add_mul, show r + 2 - 1 = r + 1 from rfl, Nat.one_mul]
  omega

/-- Behind the LEND of a list that is left there are the steps left around it. -/
theorem stepsLeft_leave {f : Frame} {outer : List Frame} :
    stepsLeft p (f.stop.toNat + 1) outer < stepsLeft p f.stop.toNat (f :: outer) := by
  have hworth : 0 < (f.stop.toNat + 1 - f.stop.toNat + (f.rem.toNat - 1) * (f.stop.toNat + 1 - f.start.toNat)) *
      65536 ^ (p.loopDepth - (outer.length + 1)) := Nat.mul_pos (by omega) (Nat.pow_pos (by decide))
  rw [stepsLeft]
  omega

/-- R195's bound is the bound at the entry of a run. -/
theorem stepsLeft_le_runBound (hp : Config.legal p) : stepsLeft p g [] ≤ runBound p := by
  obtain ⟨-, -, ⟨h1, -⟩, -⟩ := hp
  have hpow : 1 ≤ 65536 ^ p.loopDepth := Nat.pow_pos (by decide)
  calc (p.gtSteps - 1 - g) * 65536 ^ p.loopDepth + 1
      ≤ (p.gtSteps - 1) * 65536 ^ p.loopDepth + 65536 ^ p.loopDepth :=
        Nat.add_le_add (Nat.mul_le_mul_right _ (Nat.sub_le _ _)) hpow
    _ = (p.gtSteps - 1 + 1) * 65536 ^ p.loopDepth := by ring
    _ = runBound p := by rw [Nat.sub_add_cancel h1]; rfl

end

/-! Every run ends (R195) -/

/-- The bound for the run in progress. -/
def State.stepsLeft (s : State) : Nat := Machine.stepsLeft s.params s.gpc.toNat s.ls

theorem State.stepsLeft_withGpc (s : State) {g : Nat} (hg : g < 65536) :
    (s.withGpc g).stepsLeft = Machine.stepsLeft s.params g s.ls := by
  rw [State.stepsLeft, State.withGpc_gpc, toNat_ofNat_half hg]
  rfl

/-- What a descriptor does ends the run or takes a step off the bound. -/
theorem Did.stepsLeft_lt (h : Did d i s t) (hi : s.fetch = .ok i) (hp : Config.legal s.params) (hd : s.run = some d)
    (hs : s.loopsOk) : t.run = none ∨ t.stepsLeft < s.stepsLeft := by
  obtain ⟨hlen, -⟩ := hs.frames hd
  obtain ⟨u, hu, hm⟩ := h
  obtain ⟨b, x, p, rfl⟩ : ∃ b x p, u = { s with buf := b, doc := x, pos := p } := ⟨_, _, _, hu.frame⟩
  cases hm
  case fault | done | leaveFault => exact .inl rfl
  case next hg hn =>
    refine .inr ?_
    rw [State.stepsLeft_withGpc _ (by omega)]
    exact stepsLeft_lt_of_forward (Nat.lt_succ_self _) hg fun f hf => hs.gpc_lt_stop hd hi hn hf
  case jump k hk hg hl =>
    refine .inr ?_
    rw [State.stepsLeft_withGpc _ (by omega)]
    exact stepsLeft_lt_of_forward hk hg hl
  case enter off max body elem stride n hform hl h1 hn =>
    obtain ⟨-, hg, -, hnest, -, hdep⟩ := hl
    have hb := fetch_list_body hi hform
    refine .inr ?_
    rw [State.stepsLeft, State.enterList_gpc, toNat_ofNat_half (by omega)]
    refine stepsLeft_enter hb (toNat_ofNat_half (by omega)) (toNat_ofNat_half (by omega)) ?_
      (Nat.lt_of_le_of_ne hlen hdep) hg fun f hf => (hnest f hf).le
    rw [toNat_ofNat_half (by omega)]
    exact h1
  case element f outer hl hst hr =>
    refine .inr ?_
    rw [State.stepsLeft, State.stepsLeft, hl, ← hst]
    exact stepsLeft_element rfl rfl (toNat_ofNat_half (by omega)) hr
  case leave f outer hl hst _ hg =>
    refine .inr ?_
    rw [State.stepsLeft_withGpc _ (by omega), State.stepsLeft, hl, ← hst]
    exact stepsLeft_leave

theorem stepRun_stepsLeft_lt (hd : s.run = some d) (h : stepRun s = .next t) (hp : Config.legal s.params)
    (hs : s.loopsOk) : t.run = none ∨ t.stepsLeft < s.stepsLeft := by
  obtain ⟨e, rfl⟩ | ⟨i, hi, hdid⟩ := stepRun_did hd h
  · exact .inl rfl
  · exact hdid.stepsLeft_lt hi hp hd hs

/-- A step of a run keeps the lists well nested. -/
theorem stepRun_loopsOk (hd : s.run = some d) (h : stepRun s = .next t) (hp : Config.legal s.params)
    (hs : s.loopsOk) : t.loopsOk := by
  obtain ⟨e, rfl⟩ | ⟨i, hi, hdid⟩ := stepRun_did hd h
  · exact State.loopsOk_of_run_none rfl
  · exact hdid.loopsOk hi hp hd hs

/-- With no run in progress there is nothing to finish. -/
theorem finishRun_of_no_run (hr : s.run = none) (n : Nat) : s.finishRun n = s := by
  cases n with
  | zero => rfl
  | succ n => rw [State.finishRun, hr]

/-- A run in progress is finished one step after the other. -/
theorem finishRun_succ (hd : s.run = some d) (h : stepRun s = .next t) (n : Nat) :
    s.finishRun (n + 1) = t.finishRun n := by
  rw [State.finishRun, hd, h]

/-- A run ends within the bound on the steps it has left. -/
theorem finishRun_ends (n : Nat) :
    ∀ s : State, Config.legal s.params → s.loopsOk → s.stepsLeft ≤ n → (s.finishRun n).run = none := by
  induction n with
  | zero => exact fun s _ _ hn => absurd hn (Nat.not_le.2 stepsLeft_pos)
  | succ n ih =>
    intro s hp hs hn
    cases hr : s.run with
    | none => rw [finishRun_of_no_run hr]; exact hr
    | some d =>
      obtain ⟨t, ht⟩ := stepRun_answers hr
      rw [finishRun_succ hr ht]
      obtain hend | hlt := stepRun_stepsLeft_lt hr ht hp hs
      · rw [finishRun_of_no_run hend]; exact hend
      · exact ih t (by rw [(stepRun_runFrame hr ht).params]; exact hp) (stepRun_loopsOk hr ht hp hs) (by omega)

/-- A command leaves no run in progress, or one at its start. -/
theorem Answer.ended_or_started (h : Answer s t) (hr : s.run = none) :
    t.run = none ∨ ∃ entry d, t = s.startRun entry d := by
  cases h
  case reject | bound | fault => exact .inl rfl
  case refuse => exact .inl hr
  case effect he =>
    cases he
    case start entry d _ => exact .inr ⟨entry, d, rfl⟩
    case write | read | length | limit | header | payload => exact .inl rfl

/-- A run at its start has no list open. -/
theorem State.startRun_loopsOk (s : State) (entry : Half) (d : Dir) : (s.startRun entry d).loopsOk :=
  fun _ => ⟨Nat.zero_le _, framesOk_nil.2 rfl⟩

end Sys2Proof.Machine

namespace Sys2Proof

open Machine

/-- Settles O53: R195's bound is what a run may take from its entry, and each of its steps takes one off. -/
theorem commandsEnd : Obligations.CommandsEnd := by
  intro s w hp hr
  obtain ⟨t, ht⟩ := stepCommand_answers w s
  rw [commandWhole_eq_finishRun ht]
  obtain hend | ⟨entry, d, rfl⟩ := (stepCommand_answer ht).ended_or_started hr
  · rw [finishRun_of_no_run hend]; exact hend
  · exact finishRun_ends _ _ hp (State.startRun_loopsOk _ _ _) (stepsLeft_le_runBound hp)

end Sys2Proof
end

section
/-! Proofs for 42_codec_engine.md, the codec command as one transition: its effect is a function of its inputs
(O57). -/

namespace Sys2Proof.Machine

variable {s t u : State} {d : Dir} {i : Instr}

/-! A codec command from a block that is ready (R180, R181) -/

/-- The word of a codec command starts a run in the command's direction. -/
theorem stepCommand_codec {entry : Half} (hi : i = .cdEncode entry ∨ i = .cdDecode entry) :
    ∃ d, ∀ s : State, s.ready → stepCommand (encode i) s = .next ((s.present (encode i)).startRun entry d) := by
  have run : ∀ d : Dir, decodeCommand (encode i) = .ok i →
      (∀ s, exec i s = .next (command true (effect fun s => s.startRun entry d) s)) →
      ∀ s : State, s.ready → stepCommand (encode i) s = .next ((s.present (encode i)).startRun entry d) := by
    intro d hdec hexec s h
    have hp : (s.present (encode i)).ready := h
    rw [stepCommand, hdec]
    simp only [hexec, hp.command_run]
    rfl
  obtain rfl | rfl := hi
  · exact ⟨.encode, run _ (commandDecodeEncode _ rfl rfl) fun _ => rfl⟩
  · exact ⟨.decode, run _ (commandDecodeEncode _ rfl rfl) fun _ => rfl⟩

/-! Two states that agree on the inputs of a codec run (R197) -/

/-- Two states that agree, during a run, on all that it reads and, after it, on all that it leaves: the contents of the
memories, the cursor and the walk; whether there is a fault, and then which; RC once the run has ended. -/
structure RunTwins (s t : State) : Prop where
  params : t.params = s.params
  gtWord : t.gtWord = s.gtWord
  docSlot : t.docSlot = s.docSlot
  bufByte : ∀ a, t.bufByte a = s.bufByte a
  pos : t.pos = s.pos
  cap : t.cap = s.cap
  limit : t.limit = s.limit
  limitEn : t.status.limitEn = s.status.limitEn
  gpc : t.gpc = s.gpc
  base : t.base = s.base
  ls : t.ls = s.ls
  run : t.run = s.run
  fault : t.status.fault = s.status.fault
  ended : s.run = none → t.rc = s.rc
  latched : s.status.fault = true → t.status.code = s.status.code ∧ t.status.sub = s.status.sub

theorem RunTwins.setBufByte (h : RunTwins s t) (a : Nat) (v : Byte) :
    RunTwins (s.setBufByte a v) (t.setBufByte a v) :=
  { h with
    bufByte := fun b => by
      rw [State.bufByte_setBufByte_ite, State.bufByte_setBufByte_ite, h.params, h.bufByte] }

theorem RunTwins.setDocSlot (h : RunTwins s t) (a : Nat) (v : Cell64) :
    RunTwins (s.setDocSlot a v) (t.setDocSlot a v) :=
  { h with
    docSlot := funext fun b => by
      rw [State.docSlot_setDocSlot_ite, State.docSlot_setDocSlot_ite, h.params, h.docSlot] }

/-- A run goes alike from two such states. -/
theorem codecTwins_runTwins : CodecTwins RunTwins where
  params h := h.params
  pos h := h.pos
  cap h := h.cap
  readBound h := by rw [State.readBound, State.readBound, h.limitEn, h.limit, h.cap]
  gpc h := h.gpc
  base h := h.base
  ls h := h.ls
  run h := h.run
  bufByte h := h.bufByte
  docSlot h := h.docSlot
  gtWord h := h.gtWord
  setBufByte h := h.setBufByte
  setDocSlot h := h.setDocSlot
  withPos h _ := { h with pos := rfl }
  withGpc h _ := { h with gpc := rfl }
  enterList h g n body elem stride :=
    { h with
      gpc := rfl
      base := by rw [State.enterList_base, State.enterList_base, h.base]
      ls := by rw [State.enterList_ls, State.enterList_ls, h.base, h.ls] }
  nextElement h _ _ _ := { h with gpc := rfl, base := rfl, ls := rfl }
  leaveList h _ _ := { h with base := rfl, ls := rfl }
  done h := { h with run := rfl, ended := fun _ => rfl }
  takeFault h _ := { h with run := rfl, fault := rfl, ended := fun _ => rfl, latched := fun _ => ⟨rfl, rfl⟩ }

/-- The start of a run from two ready states with the same inputs. -/
theorem RunTwins.of_codecAgree (h : s.codecAgree t) (hs : s.ready) (ht : t.ready) (entry : Half) (d : Dir) :
    RunTwins (s.startRun entry d) (t.startRun entry d) := by
  obtain ⟨hparams, hgt, hdoc, hbuf, hpos, hcap, hlimit, hen⟩ := h
  obtain ⟨-, hsf, -⟩ := hs
  obtain ⟨-, htf, -⟩ := ht
  exact
    { params := hparams.symm, gtWord := funext fun g => (hgt g).symm, docSlot := funext fun a => (hdoc a).symm,
      bufByte := fun a => (hbuf a).symm, pos := hpos.symm, cap := hcap.symm, limit := hlimit.symm,
      limitEn := hen.symm, gpc := rfl, base := rfl, ls := rfl, run := rfl, fault := htf.trans hsf.symm,
      ended := nofun, latched := fun hf => absurd (hsf.symm.trans hf) Bool.false_ne_true }

theorem RunTwins.codecAgree (h : RunTwins s t) : s.codecAgree t :=
  ⟨h.params.symm, fun g => (congrFun h.gtWord g).symm, fun a => (congrFun h.docSlot a).symm,
    fun a => (h.bufByte a).symm, h.pos.symm, h.cap.symm, h.limit.symm, h.limitEn.symm⟩

/-- Related states have related states at the end of their runs. -/
theorem CodecTwins.finishRun {R : State → State → Prop} (H : CodecTwins R) (n : Nat) :
    ∀ {s t : State}, R s t → R (s.finishRun n) (t.finishRun n) := by
  induction n with
  | zero => exact id
  | succ n ih =>
    intro s t h
    cases hr : s.run with
    | none => rwa [finishRun_of_no_run hr, finishRun_of_no_run ((H.run h).trans hr)]
    | some d =>
      obtain ⟨s', hs⟩ := stepRun_answers hr
      obtain ⟨t', ht, h'⟩ := H.stepRun h hs
      rw [finishRun_succ hr hs, finishRun_succ ((H.run h).trans hr) ht]
      exact ih h'

end Sys2Proof.Machine

namespace Sys2Proof

open Machine

/-- Settles O57: the runs of both commands start from states that agree, and stay so to their ends. -/
theorem codecIsDeterministic : Obligations.CodecIsDeterministic := by
  intro s t i entry hi hs ht hst
  obtain ⟨d, hstart⟩ := stepCommand_codec hi
  have h0 : RunTwins ((s.present (encode i)).startRun entry d) ((t.present (encode i)).startRun entry d) :=
    .of_codecAgree (s := s.present (encode i)) (t := t.present (encode i)) hst hs ht entry d
  have hparams : t.params = s.params := h0.params
  have h := codecTwins_runTwins.finishRun (runBound s.params) h0
  rw [commandWhole_eq_finishRun (hstart s hs), commandWhole_eq_finishRun (hstart t ht), hparams]
  exact ⟨h.codecAgree, h.gpc.symm, h.base.symm, h.ls.symm, h.run.symm, h.fault.symm, fun hr => (h.ended hr).symm,
    fun hf => (h.latched hf).imp Eq.symm Eq.symm⟩

end Sys2Proof
end

section
/-! Proofs for 42_codec_engine.md, R198's check: a program that passes it raises no IllegalGrammar but that of a FAIL of
its own (O59). The check walks over the program once; a run may walk over a body many times, and each time with BASE at
most what the check has assumed there. -/

namespace Sys2Proof.Machine

variable {s t u v : State} {d : Dir} {i : Instr}

/-! What R198's check says of one step -/

/-- R198's check passes for the steps from GT index `g` on, inside the bodies that end at `loops`, with BASE at most
`base`. -/
def Passes (p : Params) (word : Nat → Wide) (g base : Nat) (loops : List Nat) : Prop :=
  ∃ fuel b, base ≤ b ∧ programOk p word fuel g b loops = true

/-- What R198 asks of a LIST at `g` and of the steps inside and behind it, with BASE at most `base` (R193). -/
structure ListPasses (p : Params) (word : Nat → Wide) (g base : Nat) (loops : List Nat)
    (off max body elem stride : Half) : Prop where
  slot : base + off.toNat < p.docSlots
  inside : g + body.toNat < p.gtSteps
  closed : decodeDescriptor (word (g + body.toNat)) = .ok .gwLend
  nested : ∀ e, loops.head? = some e → g + body.toNat < e
  room : 0 < max.toNat → base + elem.toNat + max.toNat * stride.toNat ≤ p.docSlots
  depth : loops.length < p.loopDepth
  elements : 0 < max.toNat →
    Passes p word (g + 1) (base + elem.toNat + (max.toNat - 1) * stride.toNat) ((g + body.toNat) :: loops)
  jump : insideBody loops (g + 1 + body.toNat) = true
  behind : Passes p word (g + 1 + body.toNat) base loops

/-- What R198 asks of the descriptor at `g` and of the steps it can go on to, with BASE at most `base`. -/
inductive Asked (p : Params) (word : Nat → Wide) (g base : Nat) (loops : List Nat) : Instr → Prop where
  | gwEnd (h : loops = []) : Asked p word g base loops .gwEnd
  | gwFail (k : FaultKind) : Asked p word g base loops (.gwFail k)
  | gwPres (off skip : Half) (hslot : base + off.toNat < p.docSlots) (hnext : Passes p word (g + 1) base loops)
      (hin : insideBody loops (g + 1 + skip.toNat) = true) (hjump : Passes p word (g + 1 + skip.toNat) base loops) :
      Asked p word g base loops (.gwPres off skip)
  | gwChoice (nalt : Half) (alts : List (Half × Half)) (hn : alts.length = nalt.toNat)
      (hg : g + nalt.toNat < p.gtSteps)
      (hwords : ∀ j (h : j < alts.length), decodeDescriptor (word (g + 1 + j)) = .ok (.gwAlt alts[j].1 alts[j].2))
      (halts : ∀ x ∈ alts, base + x.1.toNat < p.docSlots ∧ g + nalt.toNat < x.2.toNat ∧
        insideBody loops x.2.toNat = true ∧ Passes p word x.2.toNat base loops) :
      Asked p word g base loops (.gwChoice nalt)
  | list (m : LenMode) (off max body elem stride : Half) {i : Instr} (hi : listForm i m off max body elem stride)
      (h : ListPasses p word g base loops off max body elem stride) : Asked p word g base loops i
  | gwLend (h : loops.head? = some g) : Asked p word g base loops .gwLend
  | gwEnum (off n : Half) (hslot : base + off.toNat < p.docSlots) (hnext : Passes p word (g + 1) base loops) :
      Asked p word g base loops (.gwEnum off n)
  | gwNbit (off min max : Half) (hslot : base + off.toNat < p.docSlots)
      (hnext : Passes p word (g + 1) base loops) : Asked p word g base loops (.gwNbit off min max)
  | gwVaruint (off vb : Half) (hslot : base + off.toNat < p.docSlots) (hnext : Passes p word (g + 1) base loops) :
      Asked p word g base loops (.gwVaruint off vb)
  | chars (m : LenMode) (off cap : Half) (chw : Byte) {i : Instr} (hi : charsForm i m off cap chw)
      (hslot : base + off.toNat + cap.toNat < p.docSlots) (hnext : Passes p word (g + 1) base loops) :
      Asked p word g base loops i

section
variable {p : Params} {word : Nat → Wide} {g base b fuel : Nat} {loops : List Nat}

/-- A step that passes with BASE at most `base` passes with a BASE that is lower. -/
theorem Passes.mono {base' : Nat} (h : Passes p word g base loops) (hb : base' ≤ base) :
    Passes p word g base' loops := by
  obtain ⟨fuel, b, hle, h⟩ := h
  exact ⟨fuel, b, hb.trans hle, h⟩

theorem slotFits_of_le {off : Half} {extra : Nat} (hb : base ≤ b) (h : slotFits p b off extra = true) :
    base + off.toNat + extra < p.docSlots := by
  have := of_decide_eq_true h
  omega

/-- The ALT words that R198's check has read (R191). -/
theorem altWords_spec {n : Nat} {alts : List (Half × Half)} (h : altWords word g n = some alts) :
    alts.length = n ∧
      ∀ j (h : j < alts.length), decodeDescriptor (word (g + j)) = .ok (.gwAlt alts[j].1 alts[j].2) := by
  induction n generalizing g alts with
  | zero => cases h; exact ⟨rfl, nofun⟩
  | succ n ih =>
    rw [altWords] at h
    split at h
    next off target hw =>
      obtain ⟨rest, hrest, rfl⟩ := Option.map_eq_some_iff.1 h
      obtain ⟨hlen, hwords⟩ := ih hrest
      refine ⟨congrArg Nat.succ hlen, fun j hj => ?_⟩
      cases j with
      | zero => exact hw
      | succ j =>
        have := hwords j (Nat.lt_of_succ_lt_succ hj)
        rwa [show g + 1 + j = g + (j + 1) by omega] at this
    next => cases h

/-- R198's check of a LIST (R193), for every BASE up to the one it assumed. -/
theorem listPasses_of_checked {off max body elem stride : Half} (hb : base ≤ b)
    (h : listFits p word g b loops off max body elem stride = true)
    (helements : max.toNat = 0 ∨ programOk p word fuel (g + 1) (b + elem.toNat + (max.toNat - 1) * stride.toNat)
      ((g + body.toNat) :: loops) = true)
    (hjump : insideBody loops (g + 1 + body.toNat) = true)
    (hbehind : programOk p word fuel (g + 1 + body.toNat) b loops = true) :
    ListPasses p word g base loops off max body elem stride := by
  simp only [listFits, Bool.and_eq_true, Bool.or_eq_true, decide_eq_true_eq] at h
  obtain ⟨⟨⟨⟨⟨hslot, hinside⟩, hclosed⟩, hnested⟩, hroom⟩, hdepth⟩ := h
  refine ⟨slotFits_of_le hb hslot, hinside, ?closed, ?nested, fun h0 => ?room, hdepth, fun h0 => ?elements, hjump,
    ⟨fuel, b, hb, hbehind⟩⟩
  case closed =>
    split at hclosed
    next h => exact h
    next => cases hclosed
  case nested =>
    intro e he
    obtain ⟨rest, rfl⟩ := List.head?_eq_some_iff.1 he
    exact of_decide_eq_true hnested
  case room =>
    have := hroom.resolve_left (by omega)
    omega
  case elements => exact ⟨fuel, _, by omega, helements.resolve_left (by omega)⟩

/-- R198's check passes at an index of GT whose word is a legal descriptor, with what it asks of that descriptor. -/
theorem Passes.asked (h : Passes p word g base loops) :
    g < p.gtSteps ∧ ∃ i, decodeDescriptor (word g) = .ok i ∧ Asked p word g base loops i := by
  obtain ⟨fuel, b, hb, h⟩ := h
  cases fuel with
  | zero => cases h
  | succ fuel =>
    rw [programOk, Bool.and_eq_true, decide_eq_true_eq] at h
    obtain ⟨hg, h⟩ := h
    refine ⟨hg, ?_⟩
    cases hw : decodeDescriptor (word g) with
    | error e => rw [hw] at h; cases h
    | ok i =>
      rw [hw] at h
      refine ⟨i, rfl, ?_⟩
      cases i <;> simp only [Bool.and_eq_true, Bool.or_eq_true, decide_eq_true_eq, Bool.false_eq_true] at h
      case gwEnd => exact .gwEnd (List.isEmpty_iff.1 h)
      case gwFail k => exact .gwFail k
      case gwPres off skip =>
        obtain ⟨⟨⟨hslot, hnext⟩, hin⟩, hjump⟩ := h
        exact .gwPres off skip (slotFits_of_le hb hslot) ⟨fuel, b, hb, hnext⟩ hin ⟨fuel, b, hb, hjump⟩
      case gwChoice nalt =>
        obtain ⟨hin, h⟩ := h
        split at h
        next => cases h
        next alts ha =>
          obtain ⟨hlen, hwords⟩ := altWords_spec ha
          refine .gwChoice nalt alts hlen hin hwords fun x hx => ?_
          have hx := List.all_eq_true.1 h x hx
          simp only [Bool.and_eq_true, decide_eq_true_eq] at hx
          obtain ⟨⟨⟨hslot, hforward⟩, hbody⟩, hpass⟩ := hx
          exact ⟨slotFits_of_le hb hslot, hforward, hbody, fuel, b, hb, hpass⟩
      case gwListN off max body elem stride =>
        obtain ⟨⟨⟨hfits, helements⟩, hjump⟩, hbehind⟩ := h
        exact .list .bounded off max body elem stride (.inl ⟨rfl, rfl⟩)
          (listPasses_of_checked hb hfits helements hjump hbehind)
      case gwListV off max body elem stride =>
        obtain ⟨⟨⟨hfits, helements⟩, hjump⟩, hbehind⟩ := h
        exact .list .varuint off max body elem stride (.inr ⟨rfl, rfl⟩)
          (listPasses_of_checked hb hfits helements hjump hbehind)
      case gwLend => exact .gwLend h
      case gwEnum off n =>
        obtain ⟨hslot, hnext⟩ := h
        exact .gwEnum off n (slotFits_of_le hb hslot) ⟨fuel, b, hb, hnext⟩
      case gwNbit off min max =>
        obtain ⟨hslot, hnext⟩ := h
        exact .gwNbit off min max (slotFits_of_le hb hslot) ⟨fuel, b, hb, hnext⟩
      case gwVaruint off vb =>
        obtain ⟨hslot, hnext⟩ := h
        exact .gwVaruint off vb (slotFits_of_le hb hslot) ⟨fuel, b, hb, hnext⟩
      case gwStringN off cap chw =>
        obtain ⟨hslot, hnext⟩ := h
        exact .chars .bounded off cap chw (.inl ⟨rfl, rfl⟩) (slotFits_of_le hb hslot) ⟨fuel, b, hb, hnext⟩
      case gwStringV off cap chw =>
        obtain ⟨hslot, hnext⟩ := h
        exact .chars .varuint off cap chw (.inr (.inl ⟨rfl, rfl⟩)) (slotFits_of_le hb hslot) ⟨fuel, b, hb, hnext⟩
      case gwBytesN off cap =>
        obtain ⟨hslot, hnext⟩ := h
        exact .chars .bounded off cap 8 (.inr (.inr (.inl ⟨rfl, rfl, rfl⟩))) (slotFits_of_le hb hslot)
          ⟨fuel, b, hb, hnext⟩
      case gwBytesV off cap =>
        obtain ⟨hslot, hnext⟩ := h
        exact .chars .varuint off cap 8 (.inr (.inr (.inr ⟨rfl, rfl, rfl⟩))) (slotFits_of_le hb hslot)
          ⟨fuel, b, hb, hnext⟩

end

/-! The accesses raise no IllegalGrammar (R250) -/

/-- A piece of pseudocode that raises no IllegalGrammar. -/
def Act.spares {α : Type} (m : Act α) : Prop := ∀ s e t, m s = .error e t → e.kind ≠ .illegalGrammar

section
variable {α β : Type}

theorem Act.spares_bind {m : Act α} {f : α → Act β} (hm : Act.spares m) (hf : ∀ a, Act.spares (f a)) :
    Act.spares (m >>= f) := by
  intro s e t h
  obtain h | ⟨a, u, -, h⟩ := Act.bind_eq_error h
  · exact hm s e t h
  · exact hf a u e t h

/-- A piece of pseudocode that goes on from every state raises nothing. -/
theorem Act.spares_of_ok {m : Act α} (h : ∀ s, ∃ a t, m s = .ok a t) : Act.spares m := by
  intro s e t he
  obtain ⟨a, u, hu⟩ := h s
  cases hu.symm.trans he

theorem Act.spares_pure (a : α) : Act.spares (pure a : Act α) := Act.spares_of_ok fun _ => ⟨_, _, rfl⟩
theorem Act.spares_current : Act.spares current := Act.spares_of_ok fun _ => ⟨_, _, rfl⟩
theorem Act.spares_readDoc (a : Nat) : Act.spares (readDoc a) := Act.spares_of_ok fun _ => ⟨_, _, rfl⟩
theorem Act.spares_writeDoc (a v : Nat) : Act.spares (writeDoc a v) := Act.spares_of_ok fun _ => ⟨_, _, rfl⟩

theorem Act.spares_raise {k : FaultKind} (hk : k ≠ .illegalGrammar) (n : Nat) : Act.spares (raise k n : Act α) := by
  intro s e t h
  cases h
  exact hk

theorem Act.spares_raiseIf {k : FaultKind} (hk : k ≠ .illegalGrammar) (c : Bool) (n : Nat) :
    Act.spares (raiseIf c k n) := by
  intro s e t h
  rw [raiseIf_run] at h
  split at h <;> cases h
  exact hk

theorem Act.spares_ite {c : Prop} [Decidable c] {m n : Act α} (hm : Act.spares m) (hn : Act.spares n) :
    Act.spares (if c then m else n) := by split <;> assumption

theorem Act.spares_writeBits (v w : Nat) : Act.spares (writeBits v w) := by
  intro s e t h
  rw [writeBits_run] at h
  split at h <;> cases h
  decide

theorem Act.spares_readBits (w : Nat) : Act.spares (readBits w) := by
  intro s e t h
  rw [readBits_run] at h
  split at h <;> cases h
  decide

theorem Act.spares_writeVarGroups (n v : Nat) : Act.spares (writeVarGroups n v) := by
  induction n generalizing v with
  | zero => exact Act.spares_pure ()
  | succ n ih =>
    exact Act.spares_ite (Act.spares_bind (Act.spares_writeBits _ _) fun _ => ih _) (Act.spares_writeBits _ _)

theorem Act.spares_readVarGroups (vb n k acc : Nat) : Act.spares (readVarGroups vb n k acc) := by
  induction n generalizing k acc with
  | zero => exact Act.spares_raise (by decide) _
  | succ n ih =>
    exact Act.spares_bind (Act.spares_readBits _) fun _ =>
      Act.spares_bind (Act.spares_raiseIf (by decide) _ _) fun _ => Act.spares_ite (Act.spares_pure _) (ih _ _)

theorem Act.spares_writeLen (m : LenMode) (cap n : Nat) : Act.spares (writeLen m cap n) := by
  cases m
  · exact Act.spares_writeBits _ _
  · exact Act.spares_writeVarGroups _ _

theorem Act.spares_readLen (m : LenMode) (cap : Nat) : Act.spares (readLen m cap) := by
  cases m
  · exact Act.spares_readBits _
  · exact Act.spares_readVarGroups _ _ _ _

theorem Act.spares_writeChars (chw a n : Nat) : Act.spares (writeChars chw a n) := by
  induction n generalizing a with
  | zero => exact Act.spares_pure ()
  | succ n ih =>
    exact Act.spares_bind (Act.spares_readDoc _) fun _ =>
      Act.spares_bind (Act.spares_raiseIf (by decide) _ _) fun _ =>
        Act.spares_bind (Act.spares_writeBits _ _) fun _ => ih _

theorem Act.spares_readChars (chw a n : Nat) : Act.spares (readChars chw a n) := by
  induction n generalizing a with
  | zero => exact Act.spares_pure ()
  | succ n ih =>
    exact Act.spares_bind (Act.spares_readBits _) fun _ => Act.spares_bind (Act.spares_writeDoc _ _) fun _ => ih _

/-- A value from DOC that is checked and then written to the stream. -/
theorem Act.spares_checkedDoc {a n : Nat} {c : Nat → Bool} {k : FaultKind} {f : Nat → Act α}
    (hk : k ≠ .illegalGrammar) (hf : ∀ v, Act.spares (f v)) :
    Act.spares (readDoc a >>= fun v => raiseIf (c v) k n >>= fun _ => f v) :=
  Act.spares_bind (Act.spares_readDoc _) fun _ => Act.spares_bind (Act.spares_raiseIf hk _ _) fun _ => hf _

/-- A value from the stream that is checked and then written to DOC. -/
theorem Act.spares_checkedRead {m : Act Nat} {n : Nat} {c : Nat → Bool} {k : FaultKind} {f : Nat → Act α}
    (hm : Act.spares m) (hk : k ≠ .illegalGrammar) (hf : ∀ v, Act.spares (f v)) :
    Act.spares (m >>= fun v => raiseIf (c v) k n >>= fun _ => f v) :=
  Act.spares_bind hm fun _ => Act.spares_bind (Act.spares_raiseIf hk _ _) fun _ => hf _

theorem Act.spares_presBit (a : Nat) (d : Dir) : Act.spares (presBit a d) := by
  cases d
  · exact Act.spares_checkedDoc (by decide) fun _ => Act.spares_bind (Act.spares_writeBits _ _) fun _ =>
      Act.spares_pure _
  · exact Act.spares_bind (Act.spares_readBits _) fun _ => Act.spares_bind (Act.spares_writeDoc _ _) fun _ =>
      Act.spares_pure _

theorem Act.spares_enumField (n a : Nat) (d : Dir) : Act.spares (enumField n a d) := by
  cases d
  · exact Act.spares_checkedDoc (by decide) fun _ => Act.spares_writeBits _ _
  · exact Act.spares_checkedRead (Act.spares_readBits _) (by decide) fun _ => Act.spares_writeDoc _ _

theorem Act.spares_nbitField (min max a : Nat) (d : Dir) : Act.spares (nbitField min max a d) := by
  cases d
  · exact Act.spares_checkedDoc (c := fun v => decide (v < min) || decide (max < v)) (by decide) fun _ =>
      Act.spares_writeBits _ _
  · exact Act.spares_checkedRead (Act.spares_readBits _) (by decide) fun _ => Act.spares_writeDoc _ _

theorem Act.spares_varuintField (vb a : Nat) (d : Dir) : Act.spares (varuintField vb a d) := by
  cases d
  · exact Act.spares_checkedDoc (by decide) fun _ => Act.spares_writeVarGroups _ _
  · exact Act.spares_bind (Act.spares_readVarGroups _ _ _ _) fun _ => Act.spares_writeDoc _ _

theorem Act.spares_countField (m : LenMode) (max a : Nat) (d : Dir) : Act.spares (countField m max a d) := by
  cases d
  · exact Act.spares_checkedDoc (by decide) fun _ => Act.spares_bind (Act.spares_writeLen _ _ _) fun _ =>
      Act.spares_pure _
  · exact Act.spares_checkedRead (Act.spares_readLen _ _) (by decide) fun _ =>
      Act.spares_bind (Act.spares_writeDoc _ _) fun _ => Act.spares_pure _

theorem Act.spares_charsField (chw a n : Nat) (d : Dir) : Act.spares (charsField chw a n d) := by
  cases d
  · exact Act.spares_writeChars _ _ _
  · exact Act.spares_readChars _ _ _

theorem Act.spares_selectAlt (alts : List Alt) (w : Nat) (d : Dir) : Act.spares (selectAlt alts w d) := by
  cases d
  · refine Act.spares_bind Act.spares_current fun s =>
      Act.spares_bind (Act.spares_raiseIf (by decide) _ _) fun _ => ?_
    split
    · exact Act.spares_raise (by decide) _
    · exact Act.spares_bind (Act.spares_writeBits _ _) fun _ => Act.spares_pure _
    · exact Act.spares_raise (by decide) _
  · refine Act.spares_bind (Act.spares_readBits _) fun k => ?_
    split
    · exact Act.spares_raise (by decide) _
    · exact Act.spares_bind (Act.spares_writeDoc _ _) fun _ => Act.spares_pure _

end

/-! A run of a program that passes (R198, R254) -/

/-- The ends of the bodies of the open lists, innermost first. -/
def stops (ls : List Frame) : List Nat := ls.map fun f => f.stop.toNat

/-- The check passes for all that the open lists still have to do: the body of each with BASE at its last element, and
the steps behind it. -/
def framesPass (p : Params) (word : Nat → Wide) : List Frame → Prop
  | [] => True
  | f :: outer =>
    Passes p word f.start.toNat (f.cur.toNat + (f.rem.toNat - 1) * f.stride.toNat) (stops (f :: outer)) ∧
      Passes p word (f.stop.toNat + 1) f.saved.toNat (stops outer) ∧ framesPass p word outer

/-- A run in progress for which the check passes, from GPC on and for the open lists. -/
def State.onCourse (s : State) : Prop :=
  Passes s.params s.gtWord s.gpc.toNat s.base.toNat (stops s.ls) ∧ framesPass s.params s.gtWord s.ls

/-- No IllegalGrammar but with sub-cause 0, and the run, if there is one, is on course. -/
def State.sound (s : State) : Prop := (s.status.code = 5 → s.status.sub = 0) ∧ (s.run ≠ none → s.onCourse)

/-- A run whose open lists pass, wherever GPC is: what a descriptor's rule starts from. -/
structure State.walking (s : State) (d : Dir) : Prop where
  run : s.run = some d
  legal : Config.legal s.params
  code : s.status.code = 0
  frames : framesPass s.params s.gtWord s.ls

/-- IllegalGrammar is the one kind with code 5 (R250). -/
theorem faultCode_ne_five {k : FaultKind} (h : k ≠ .illegalGrammar) : faultCode k ≠ 5 := by
  cases k
  case illegalGrammar => exact absurd rfl h
  all_goals decide

theorem State.sound_takeFault {e : Raise} (h : e.kind ≠ .illegalGrammar) : (s.takeFault e).sound :=
  ⟨fun hc => absurd hc (faultCode_ne_five h), fun hr => absurd rfl hr⟩

theorem State.walking.code_ne_five (h : s.walking d) : s.status.code ≠ 5 := by
  rw [h.code]
  decide

/-- The accesses of a rule leave it sound if the rest of the rule does. -/
theorem sound_bind {α : Type} {m : Act α} {f : α → Act Unit} (hv : Effects d s v)
    (hdoes : Act.does d m) (hspares : Act.spares m)
    (hf : ∀ a u, m v = .ok a u → Effects d s u → (settled (f a u)).sound) : (settled ((m >>= f) v)).sound := by
  have hreached := hdoes v
  cases hr : m v with
  | error e u =>
    rw [Act.bind_error hr]
    exact State.sound_takeFault (hspares v e u hr)
  | ok a u =>
    rw [hr] at hreached
    rw [Act.bind_ok hr]
    exact hf a u hr (hv.trans hreached)

/-- A move of GPC to a step for which the check passes. -/
theorem State.walking.sound_withGpc (h : s.walking d) (hu : Effects d s u) {g : Nat}
    (hg : Passes s.params s.gtWord g s.base.toNat (stops s.ls)) : (u.withGpc g).sound := by
  obtain ⟨b, x, p, rfl⟩ : ∃ b x p, u = { s with buf := b, doc := x, pos := p } := ⟨_, _, _, hu.frame⟩
  obtain ⟨hlt, -⟩ := hg.asked
  have hlegal := h.legal
  refine ⟨fun hc => absurd hc h.code_ne_five, fun _ => ⟨?_, h.frames⟩⟩
  rw [State.withGpc_gpc, toNat_ofNat_half (by omega)]
  exact hg

theorem State.walking.sound_goNext (h : s.walking d) (hu : Effects d s u) {g : Nat}
    (hg : Passes s.params s.gtWord (g + 1) s.base.toNat (stops s.ls)) : (settled (goNext g u)).sound := by
  obtain ⟨hlt, -⟩ := hg.asked
  rw [settled_goNext_inside (by rw [hu.frame]; exact hlt)]
  exact h.sound_withGpc hu hg

/-- A jump inside the innermost body is legal (R184, R198). -/
theorem jumpOk_of_insideBody {g k : Nat} (hg : g < k) (hk : k < s.params.gtSteps)
    (hin : insideBody (stops s.ls) k = true) : s.jumpOk g k = true := by
  rw [State.jumpOk, decide_eq_true hg, decide_eq_true hk]
  cases hl : s.ls with
  | nil => rfl
  | cons f outer => rw [hl] at hin; exact hin

theorem State.walking.sound_goJump (h : s.walking d) (hu : Effects d s u) {g k : Nat} (hk : g < k)
    (hin : insideBody (stops s.ls) k = true) (hpass : Passes s.params s.gtWord k s.base.toNat (stops s.ls)) :
    (settled (goJump g k u)).sound := by
  obtain ⟨hlt, -⟩ := hpass.asked
  have hok : u.jumpOk g k = s.jumpOk g k := by rw [hu.frame]; rfl
  rw [settled_goJump_legal (hok.trans (jumpOk_of_insideBody hk hlt hin))]
  exact h.sound_withGpc hu hpass

/-- A word that is LEND has its kind (R101). -/
theorem topByte_of_lend {w : Wide} (h : decodeDescriptor w = .ok .gwLend) : Decode.topByte w = 0x07#8 := by
  rw [← encode_of_decodeDescriptor h]
  decide

/-- The structural checks of a LIST that R198 has checked pass (R193). -/
theorem ListPasses.listAt {off max body elem stride : Half}
    (h : ListPasses s.params s.gtWord s.gpc.toNat s.base.toNat (stops s.ls) off max body elem stride) :
    s.listAt off max body elem stride := by
  refine ⟨h.slot, h.inside, topByte_of_lend h.closed, fun f hf => h.nested _ ?_, h.room, ?_⟩
  · rw [stops, List.head?_map, hf]
    rfl
  · have := h.depth
    rw [stops, List.length_map] at this
    exact this.ne

/-- Every element of a LIST has its BASE at most at the last one that R198 has checked. -/
theorem elements_le {base elem n max stride : Nat} (hn : n ≤ max) :
    (BitVec.ofNat 32 (base + elem)).toNat + ((BitVec.ofNat 16 n).toNat - 1) * stride ≤
      base + elem + (max - 1) * stride := by
  have hcur : (BitVec.ofNat 32 (base + elem)).toNat ≤ base + elem := by
    rw [BitVec.toNat_ofNat]; exact Nat.mod_le _ _
  have hrem : (BitVec.ofNat 16 n).toNat ≤ n := by rw [BitVec.toNat_ofNat]; exact Nat.mod_le _ _
  exact Nat.add_le_add hcur (Nat.mul_le_mul_right _ (by omega))

/-- LIST enters a body that passes for every one of its elements (R193). -/
theorem State.walking.sound_enterList (h : s.walking d) (hu : Effects d s u) {off max body elem stride : Half} {n : Nat}
    (hl : ListPasses s.params s.gtWord s.gpc.toNat s.base.toNat (stops s.ls) off max body elem stride)
    (h1 : 1 ≤ n) (hn : n ≤ max.toNat) : (u.enterList s.gpc.toNat n body elem stride).sound := by
  obtain ⟨b, x, p, rfl⟩ : ∃ b x p, u = { s with buf := b, doc := x, pos := p } := ⟨_, _, _, hu.frame⟩
  have helements := hl.elements (by omega)
  obtain ⟨hlt, -⟩ := helements.asked
  have hinside := hl.inside
  have hlegal := h.legal
  have hstart : (BitVec.ofNat 16 (s.gpc.toNat + 1)).toNat = s.gpc.toNat + 1 := toNat_ofNat_half (by omega)
  have hstop : (BitVec.ofNat 16 (s.gpc.toNat + body.toNat)).toNat = s.gpc.toNat + body.toNat :=
    toNat_ofNat_half (by omega)
  have hbehind := hl.behind
  rw [show s.gpc.toNat + 1 + body.toNat = s.gpc.toNat + body.toNat + 1 by omega] at hbehind
  refine ⟨fun hc => absurd hc h.code_ne_five, fun _ => ⟨?here, ?body, ?behind, h.frames⟩⟩
  case here =>
    simp only [State.enterList_gpc, State.enterList_base, State.enterList_ls, stops, List.map_cons, hstart, hstop]
    exact helements.mono ((Nat.le_add_right _ _).trans (elements_le hn))
  case body =>
    simp only [stops, List.map_cons, hstart, hstop]
    exact helements.mono (elements_le hn)
  case behind =>
    simp only [hstop]
    exact hbehind

/-- LEND starts the next element of a body that passes for it (R194). -/
theorem State.walking.sound_nextElement (h : s.walking d) {f : Frame} {outer : List Frame} (hl : s.ls = f :: outer)
    (hr : 0 < f.rem.toNat - 1) : (s.nextElement f (f.rem.toNat - 1) outer).sound := by
  have hframes := h.frames
  rw [hl] at hframes
  obtain ⟨hbody, hbehind, houter⟩ := hframes
  obtain ⟨r, hrem⟩ : ∃ r, f.rem.toNat = r + 2 := ⟨f.rem.toNat - 2, by omega⟩
  have hcur : (BitVec.ofNat 32 (f.cur.toNat + f.stride.toNat)).toNat ≤ f.cur.toNat + f.stride.toNat := by
    rw [BitVec.toNat_ofNat]; exact Nat.mod_le _ _
  have hleft : (BitVec.ofNat 16 (f.rem.toNat - 1)).toNat - 1 = r := by
    rw [toNat_ofNat_half (by omega)]; omega
  have hlast : (BitVec.ofNat 32 (f.cur.toNat + f.stride.toNat)).toNat + r * f.stride.toNat ≤
      f.cur.toNat + (f.rem.toNat - 1) * f.stride.toNat := by
    calc _ ≤ f.cur.toNat + f.stride.toNat + r * f.stride.toNat := Nat.add_le_add_right hcur _
      _ = f.cur.toNat + (f.rem.toNat - 1) * f.stride.toNat := by
        rw [hrem, show r + 2 - 1 = r + 1 from rfl]; ring
  refine ⟨fun hc => absurd hc h.code_ne_five, fun _ => ⟨?here, ?body, hbehind, houter⟩⟩
  case here => exact hbody.mono ((Nat.le_add_right _ _).trans hlast)
  case body =>
    refine Passes.mono hbody ?_
    simp only [hleft]
    exact hlast

/-- LEND leaves a list for the steps behind it, which pass (R194). -/
theorem State.walking.sound_leaveList (h : s.walking d) {f : Frame} {outer : List Frame} (hl : s.ls = f :: outer)
    (hs : f.stop.toNat = s.gpc.toNat) :
    s.gpc.toNat + 1 < s.params.gtSteps ∧ ((s.leaveList f outer).withGpc (s.gpc.toNat + 1)).sound := by
  have hframes := h.frames
  rw [hl] at hframes
  obtain ⟨-, hbehind, houter⟩ := hframes
  rw [hs] at hbehind
  obtain ⟨hlt, -⟩ := hbehind.asked
  have hleft : (s.leaveList f outer).walking d := ⟨h.run, h.legal, h.code, houter⟩
  exact ⟨hlt, hleft.sound_withGpc .refl hbehind⟩

/-- The rule of a descriptor that passes leaves a sound state. -/
theorem State.walking.sound_exec (h : s.walking d)
    (ha : Asked s.params s.gtWord s.gpc.toNat s.base.toNat (stops s.ls) i) (he : exec i s = .next t) : t.sound := by
  suffices hsound : ∃ t, exec i s = .next t ∧ t.sound by
    obtain ⟨t', ht', hsound⟩ := hsound
    obtain rfl := Host.Outcome.next.inj (he.symm.trans ht')
    exact hsound
  cases ha
  case gwEnd hl =>
    refine ⟨_, exec_gwEnd h.run, ?_⟩
    rw [if_pos (List.map_eq_nil_iff.1 hl)]
    exact ⟨fun hc => absurd hc h.code_ne_five, fun hr => absurd rfl hr⟩
  case gwFail k => exact ⟨_, exec_gwFail h.run k, fun _ => rfl, fun hr => absurd rfl hr⟩
  case gwPres off skip hslot hnext hin hjump =>
    refine ⟨_, by rw [exec, execGwPres]; exact descriptor_behind_slot h.run hslot, ?_⟩
    refine sound_bind .refl (Act.does_presBit _) (Act.spares_presBit _ _) fun f u _ hu => ?_
    split
    · exact h.sound_goNext hu hnext
    · exact h.sound_goJump hu (by omega) hin hjump
  case gwChoice nalt alts hn hg hwords halts =>
    have hat : s.altsAt s.gpc.toNat alts := by
      refine ⟨by rwa [hn], fun j hj => ?_⟩
      obtain ⟨hslot, hforward, hin, hpass⟩ := halts _ (List.getElem_mem hj)
      obtain ⟨hlt, -⟩ := hpass.asked
      exact ⟨hwords j hj, hslot, jumpOk_of_insideBody (by rwa [hn]) hlt hin⟩
    refine ⟨_, exec_gwChoice_selects h.run hn hat, ?_⟩
    refine sound_bind .refl (Act.does_selectAlt _ _) (Act.spares_selectAlt _ _ _) fun x u hx hu => ?_
    obtain ⟨y, hy, rfl⟩ := List.mem_map.1 (selectAlt_mem hx)
    obtain ⟨-, -, -, hpass⟩ := halts y hy
    exact h.sound_withGpc hu hpass
  case list m off max body elem stride hl hi =>
    have hpass := listChecks_pass s hl.listAt
    refine ⟨_, by rw [exec_listForm hi]; exact descriptor_behind_slot h.run hl.slot, ?_⟩
    rw [Act.bind_ok hpass]
    refine sound_bind .refl (Act.does_countField _ _ _) (Act.spares_countField _ _ _ _)
      fun n u hcount hu => ?_
    split
    next => exact h.sound_goJump hu (by omega) hl.jump hl.behind
    next h0 => exact h.sound_enterList hu hl (Nat.one_le_iff_ne_zero.2 h0) (countField_le hcount)
  case gwLend hhead =>
    obtain ⟨f, outer, hl⟩ : ∃ f outer, s.ls = f :: outer := by
      cases hl : s.ls with
      | nil => rw [hl] at hhead; cases hhead
      | cons f outer => exact ⟨f, outer, rfl⟩
    have hs : f.stop.toNat = s.gpc.toNat := by rw [hl] at hhead; exact Option.some.inj hhead
    refine ⟨_, exec_gwLend h.run hl (BitVec.eq_of_toNat_eq hs), ?_⟩
    obtain ⟨hlt, hleave⟩ := h.sound_leaveList hl hs
    split
    next hr => exact h.sound_nextElement hl hr
    next => rwa [if_neg (Nat.not_le.2 hlt)]
  case gwEnum off n hslot hnext =>
    refine ⟨_, by rw [exec, execGwEnum]; exact descriptor_behind_slot h.run hslot, ?_⟩
    exact sound_bind .refl (Act.does_enumField _ _) (Act.spares_enumField _ _ _) fun _ u _ hu =>
      h.sound_goNext hu hnext
  case gwNbit off min max hslot hnext =>
    refine ⟨_, by rw [exec, execGwNbit]; exact descriptor_behind_slot h.run hslot, ?_⟩
    exact sound_bind .refl (Act.does_nbitField _ _ _) (Act.spares_nbitField _ _ _ _) fun _ u _ hu =>
      h.sound_goNext hu hnext
  case gwVaruint off vb hslot hnext =>
    refine ⟨_, by rw [exec, execGwVaruint]; exact descriptor_behind_slot h.run hslot, ?_⟩
    exact sound_bind .refl (Act.does_varuintField _ _) (Act.spares_varuintField _ _ _) fun _ u _ hu =>
      h.sound_goNext hu hnext
  case chars m off cap chw hslot hnext hi =>
    refine ⟨_, by rw [exec_charsForm hi]; exact descriptor_behind_slot h.run hslot, ?_⟩
    refine sound_bind .refl (Act.does_countField _ _ _) (Act.spares_countField _ _ _ _)
      fun n v _ hv => ?_
    exact sound_bind hv (Act.does_charsField _ _ _) (Act.spares_charsField _ _ _ _) fun _ u _ hu =>
      h.sound_goNext hu hnext

/-- In a run no fault is latched (R22, R250). -/
theorem State.registersOk.code_of_run (h : s.registersOk) (hd : s.run = some d) : s.status.code = 0 := by
  obtain ⟨-, -, -, -, hclear, hfault, -⟩ := h
  cases hf : s.status.fault with
  | false =>
    obtain ⟨hcode, -⟩ := hclear hf
    exact hcode
  | true =>
    obtain ⟨-, hr⟩ := hfault hf
    exact nomatch hd.symm.trans hr

/-- A run that is on course goes on so, or ends soundly. -/
theorem stepRun_sound (hd : s.run = some d) (hr : s.registersOk) (hs : s.sound) (h : stepRun s = .next t) :
    t.sound := by
  obtain ⟨-, hcourse⟩ := hs
  obtain ⟨hhere, hframes⟩ := hcourse (by rw [hd]; exact nofun)
  obtain ⟨hg, i, hw, hasked⟩ := hhere.asked
  have hcode := hr.code_of_run hd
  obtain ⟨hp, -⟩ := hr
  rw [stepRun_of_fetch (fetch_of_decoded hg hw)] at h
  exact State.walking.sound_exec ⟨hd, hp, hcode, hframes⟩ hasked h

/-- A run that is on course ends soundly. -/
theorem finishRun_sound (n : Nat) : ∀ s : State, s.registersOk → s.sound → (s.finishRun n).sound := by
  induction n with
  | zero => exact fun _ _ hs => hs
  | succ n ih =>
    intro s hr hs
    cases hd : s.run with
    | none => rwa [finishRun_of_no_run hd]
    | some d =>
      obtain ⟨t, ht⟩ := stepRun_answers hd
      rw [finishRun_succ hd ht]
      exact ih t (stepRun_registersOk hd ht hr) (stepRun_sound hd hr hs ht)

end Sys2Proof.Machine

namespace Sys2Proof

open Machine

/-- Settles O59: at the entry of a program that passes the check the run is on course. -/
theorem wellFormedProgramsRun : Obligations.WellFormedProgramsRun := by
  intro s i entry hi hs hr hok
  obtain ⟨d, hstart⟩ := stepCommand_codec hi
  rw [commandWhole_eq_finishRun (hstart s hs)]
  obtain ⟨hrun, hf, hinit⟩ := hs
  have hregs : ((s.present (encode i)).startRun entry d).registersOk :=
    State.registersOk.startRun (s := s.present (encode i)) hr hf hinit entry d
  have hsound : ((s.present (encode i)).startRun entry d).sound := by
    refine ⟨fun hc => ?_, fun _ => ⟨⟨_, 0, le_rfl, hok⟩, trivial⟩⟩
    have hcode := hregs.code_of_run rfl
    rw [hcode] at hc
    exact absurd hc (by decide)
  obtain ⟨hsub, -⟩ := finishRun_sound _ _ hregs hsound
  exact hsub

end Sys2Proof
end

section
/-! Proofs for 43_codec_fields.md: the field descriptors with room and a next word (O40 to O44), and a length or count
above its maximum (O46). -/

namespace Sys2Proof.Machine

variable {s t u : State} {d : Dir} {i : Instr}

/-! ENUM and NBIT by the number that stands for the value (R221, R222) -/

theorem carries_gwEnum {off n : Half} {v : Nat} (h : v < n.toNat) : carries (.gwEnum off n) off v v (cl2 n.toNat) :=
  .inl ⟨n, rfl, h, rfl, rfl⟩

theorem carries_gwNbit {off min max : Half} {v : Nat} (hmin : min.toNat ≤ v) (hmax : v ≤ max.toNat) :
    carries (.gwNbit off min max) off v (v - min.toNat) (cl2 (max.toNat - min.toNat + 1)) :=
  .inr ⟨min, max, rfl, hmin, hmax, rfl, rfl⟩

/-- A descriptor that has written its field goes on at the next word. -/
theorem Wrote.encoded_goNext {w : Nat} (h : Wrote s t w) (hg : s.gpc.toNat + 1 < s.params.gtSteps)
    (hi : exec i s = .next (settled (goNext s.gpc.toNat t))) :
    exec i s = .next (t.withGpc (s.gpc.toNat + 1)) ∧ s.encoded (t.withGpc (s.gpc.toNat + 1)) w (s.gpc.toNat + 1) :=
  ⟨by rw [hi, settled_goNext_inside (by rwa [h.params])], h.encoded_withGpc _⟩

/-- A descriptor that has read its field goes on at the next word. -/
theorem Took.decoded_goNext {w a n : Nat} (h : Took s t w a n) (hg : s.gpc.toNat + 1 < s.params.gtSteps)
    (hi : exec i s = .next (settled (goNext s.gpc.toNat t))) :
    exec i s = .next (t.withGpc (s.gpc.toNat + 1)) ∧
      s.decoded (t.withGpc (s.gpc.toNat + 1)) w a n (s.gpc.toNat + 1) :=
  ⟨by rw [hi, settled_goNext_inside (by rwa [h.params])], h.decoded_withGpc _⟩

/-- ENUM and NBIT with room and a next word: the number that stands for the value is moved, and `Next` goes on. -/
theorem exec_carries {off : Half} {v x w : Nat} (hi : carries i off v x w) (hs : s.registersOk)
    (hslot : s.base.toNat + off.toNat < s.params.docSlots) (hg : s.gpc.toNat + 1 < s.params.gtSteps) :
    (s.run = some .encode → (s.docSlot (s.base.toNat + off.toNat)).toNat = v → s.pos.toNat + w ≤ s.cap.toNat * 8 →
      ∃ t, exec i s = .next t ∧ s.encoded t w (s.gpc.toNat + 1) ∧ t.fieldAt s.pos.toNat w x) ∧
    (s.run = some .decode → s.fieldAt s.pos.toNat w x → s.pos.toNat + w ≤ s.readBound →
      ∃ t, exec i s = .next t ∧ s.decoded t w (s.base.toNat + off.toNat) 1 (s.gpc.toNat + 1) ∧
        (t.docSlot (s.base.toNat + off.toNat)).toNat = v) := by
  refine ⟨fun hd hdoc hr => ?_, fun hd hf hr => ?_⟩
  · obtain ⟨t, ht, wt, ft⟩ := exec_carries_encode hi hd hslot hdoc hs.capOk hr
    obtain ⟨hexec, henc⟩ := wt.encoded_goNext hg ht
    exact ⟨_, hexec, henc, ft⟩
  · obtain ⟨t, ht, wt, hval⟩ := exec_carries_decode hi hd hslot hf hr
    obtain ⟨hexec, hdec⟩ := wt.decoded_goNext hg ht
    exact ⟨_, hexec, hdec, hval⟩

/-! Which slots a piece of pseudocode can write -/

/-- A piece of pseudocode writes at most the `n` slots from `a` on, whether it goes on or raises. -/
def Act.keepsSlots {α : Type} (a n : Nat) (m : Act α) : Prop :=
  ∀ s : State, s.changedSlots (Act.reached (m s)) a n

section
variable {α β : Type} {a b n k : Nat}

theorem changedSlots_trans (h : s.changedSlots t a n) (h' : t.changedSlots u a n) : s.changedSlots u a n :=
  fun j hj => (h' j hj).trans (h j hj)

theorem Act.keepsSlots_of_docSlot {m : Act α} (h : ∀ s j, (Act.reached (m s)).docSlot j = s.docSlot j) :
    Act.keepsSlots a n m := fun s j _ => h s j

/-- Slots inside a wider range. -/
theorem Act.keepsSlots.mono {m : Act α} (h : Act.keepsSlots a n m) (hb : b ≤ a) (hk : a + n ≤ b + k) :
    Act.keepsSlots b k m := fun s j hj => h s j (by omega)

/-- What comes behind a piece need keep the slots only for the values with which that piece can go on. -/
theorem Act.keepsSlots_bind {m : Act α} {f : α → Act β} (hm : Act.keepsSlots a n m)
    (hf : ∀ s x t, m s = .ok x t → Act.keepsSlots a n (f x)) : Act.keepsSlots a n (m >>= f) := by
  intro s
  have h1 := hm s
  cases h : m s with
  | ok x t => rw [Act.bind_ok h]; rw [h] at h1; exact changedSlots_trans h1 (hf s x t h t)
  | error e t => rw [Act.bind_error h]; rw [h] at h1; exact h1

theorem Act.keepsSlots_pure (x : α) : Act.keepsSlots a n (pure x : Act α) := Act.keepsSlots_of_docSlot fun _ _ => rfl

theorem Act.keepsSlots_raise (e : FaultKind) (c : Nat) : Act.keepsSlots a n (raise e c : Act α) :=
  Act.keepsSlots_of_docSlot fun _ _ => rfl

theorem Act.keepsSlots_raiseIf (c : Bool) (e : FaultKind) (sub : Nat) : Act.keepsSlots a n (raiseIf c e sub) :=
  Act.keepsSlots_of_docSlot fun s j => by rw [raiseIf_run]; split <;> rfl

theorem Act.keepsSlots_readBits (w : Nat) : Act.keepsSlots a n (readBits w) :=
  Act.keepsSlots_of_docSlot fun s j => by rw [readBits_run]; split <;> rfl

theorem Act.keepsSlots_goNext (g : Nat) : Act.keepsSlots a n (goNext g) :=
  Act.keepsSlots_of_docSlot fun s j => by rw [goNext_run]; split <;> rfl

theorem Act.keepsSlots_goJump (g x : Nat) : Act.keepsSlots a n (goJump g x) :=
  Act.keepsSlots_of_docSlot fun s j => by rw [goJump_run]; split <;> rfl

theorem Act.keepsSlots_listChecks (g : Nat) (max body elem stride : Half) :
    Act.keepsSlots a n (listChecks g max body elem stride) :=
  Act.keepsSlots_of_docSlot fun s j => by
    obtain ⟨e, he⟩ | ⟨hc, -⟩ := listChecks_run s g max body elem stride
    · rw [he]; rfl
    · rw [hc]; rfl

/-- A write of DOC inside the range. -/
theorem Act.keepsSlots_writeDoc {v : Nat} (ha : a ≤ b) (hb : b < a + n) : Act.keepsSlots a n (writeDoc b v) :=
  fun s j hj => s.docSlot_setDocSlot_ne b j _ (by omega)

theorem Act.keepsSlots_readVarGroups (vb left x acc : Nat) : Act.keepsSlots a n (readVarGroups vb left x acc) := by
  induction left generalizing x acc with
  | zero => exact Act.keepsSlots_raise _ _
  | succ left ih =>
    refine Act.keepsSlots_bind (Act.keepsSlots_readBits 8) fun _ o _ _ =>
      Act.keepsSlots_bind (Act.keepsSlots_raiseIf _ _ _) fun _ _ _ _ => ?_
    split
    · exact Act.keepsSlots_pure _
    · exact ih _ _

theorem Act.keepsSlots_readLen (m : LenMode) (cap : Nat) : Act.keepsSlots a n (readLen m cap) := by
  cases m with
  | bounded => exact Act.keepsSlots_readBits _
  | varuint => exact Act.keepsSlots_readVarGroups _ _ _ _

/-- The count of a decode goes to its own slot. -/
theorem Act.keepsSlots_countField (m : LenMode) (max a : Nat) : Act.keepsSlots a 1 (countField m max a .decode) :=
  Act.keepsSlots_bind (Act.keepsSlots_readLen _ _) fun _ _ _ _ =>
    Act.keepsSlots_bind (Act.keepsSlots_raiseIf _ _ _) fun _ _ _ _ =>
      Act.keepsSlots_bind (Act.keepsSlots_writeDoc le_rfl (Nat.lt_succ_self a)) fun _ _ _ _ => Act.keepsSlots_pure _

/-- The characters of a decode go to their own slots. -/
theorem Act.keepsSlots_readChars (chw a n : Nat) : Act.keepsSlots a n (readChars chw a n) := by
  induction n generalizing a with
  | zero => exact Act.keepsSlots_pure ()
  | succ n ih =>
    exact Act.keepsSlots_bind (Act.keepsSlots_readBits _) fun _ _ _ _ =>
      Act.keepsSlots_bind (Act.keepsSlots_writeDoc le_rfl (by omega)) fun _ _ _ _ =>
        (ih (a + 1)).mono (Nat.le_succ a) (by omega)

end

/-- A descriptor that begins with `Slot` changes at most the slots that the rest of its rule keeps to. -/
theorem exec_changedSlots {off : Half} {extra n : Nat} {f : Dir → Nat → Nat → Act Unit} (hd : s.run = some d)
    (hi : exec i s = descriptor (fun d g => slot off extra >>= f d g) s)
    (hslot : s.base.toNat + off.toNat + extra < s.params.docSlots)
    (hf : Act.keepsSlots (s.base.toNat + off.toNat) n (f d s.gpc.toNat (s.base.toNat + off.toNat))) :
    ∃ t, exec i s = .next t ∧ s.changedSlots t (s.base.toNat + off.toNat) n := by
  refine ⟨_, hi.trans (descriptor_behind_slot hd hslot), fun j hj => ?_⟩
  rw [← hf s j hj]
  cases f d s.gpc.toNat (s.base.toNat + off.toNat) s <;> rfl

/-- A decode of STRING or BYTES writes no slot but the length and the `cap` behind it: the length is compared before
(R230). -/
theorem exec_charsForm_changedSlots {m : LenMode} {off cap : Half} {chw : Byte} (hi : charsForm i m off cap chw)
    (hd : s.run = some .decode) (hslot : s.base.toNat + off.toNat + cap.toNat < s.params.docSlots) :
    ∃ t, exec i s = .next t ∧ s.changedSlots t (s.base.toNat + off.toNat) (cap.toNat + 1) := by
  refine exec_changedSlots hd (exec_charsForm hi s) hslot ?_
  refine Act.keepsSlots_bind ((Act.keepsSlots_countField _ _ _).mono le_rfl (by omega)) fun _ n _ hn => ?_
  have hle := countField_le hn
  exact Act.keepsSlots_bind ((Act.keepsSlots_readChars _ _ _).mono (Nat.le_succ _) (by omega)) fun _ _ _ _ =>
    Act.keepsSlots_goNext _

/-- A decode of LIST writes no slot but the count (R230). -/
theorem exec_listForm_changedSlots {m : LenMode} {off max body elem stride : Half}
    (hi : listForm i m off max body elem stride) (hd : s.run = some .decode)
    (hslot : s.base.toNat + off.toNat < s.params.docSlots) :
    ∃ t, exec i s = .next t ∧ s.changedSlots t (s.base.toNat + off.toNat) 1 := by
  refine exec_changedSlots hd (exec_listForm hi s) hslot ?_
  refine Act.keepsSlots_bind (Act.keepsSlots_listChecks _ _ _ _ _) fun _ _ _ _ =>
    Act.keepsSlots_bind (Act.keepsSlots_countField _ _ _) fun _ n _ _ => ?_
  split
  · exact Act.keepsSlots_goJump _ _
  · exact Act.keepsSlots_of_docSlot fun _ _ => rfl

/-- The forms of R230: STRING and BYTES with `extra` character slots, or a LIST whose structural checks pass. -/
theorem charsForm_or_listForm {m : LenMode} {off cap body elem stride : Half} {chw : Byte} {extra : Nat}
    (h : extra = cap.toNat ∧
        (i = .gwStringN off cap chw ∧ m = .bounded ∨ i = .gwStringV off cap chw ∧ m = .varuint ∨
          i = .gwBytesN off cap ∧ m = .bounded ∨ i = .gwBytesV off cap ∧ m = .varuint) ∨
      extra = 0 ∧ s.listAt off cap body elem stride ∧
        (i = .gwListN off cap body elem stride ∧ m = .bounded ∨
          i = .gwListV off cap body elem stride ∧ m = .varuint)) :
    (extra = cap.toNat ∧ ∃ chw, charsForm i m off cap chw) ∨
      extra = 0 ∧ s.listAt off cap body elem stride ∧ listForm i m off cap body elem stride := by
  obtain ⟨rfl, hi⟩ | hl := h
  · refine .inl ⟨rfl, ?_⟩
    obtain hi | hi | ⟨hi, hm⟩ | ⟨hi, hm⟩ := hi
    · exact ⟨chw, .inl hi⟩
    · exact ⟨chw, .inr (.inl hi)⟩
    · exact ⟨8, .inr (.inr (.inl ⟨hi, hm, rfl⟩))⟩
    · exact ⟨8, .inr (.inr (.inr ⟨hi, hm, rfl⟩))⟩
  · exact .inr hl

end Sys2Proof.Machine

namespace Sys2Proof

open Machine

/-- Settles O40: the index is the number that ENUM carries. -/
theorem enumDescriptor : Obligations.EnumDescriptor := fun _ _ _ _ hs hv hslot hg =>
  exec_carries (carries_gwEnum hv) hs hslot hg

/-- Settles O41: the distance from `min` is the number that NBIT carries. -/
theorem nbitDescriptor : Obligations.NbitDescriptor := by
  rintro off min max s v w hs hmin hmax rfl hslot hg
  exact exec_carries (carries_gwNbit hmin hmax) hs hslot hg

/-- Settles O42: `WriteVar` has at most ten groups to write for a slot, and `ReadVar` reads up to ten. -/
theorem varuintDescriptor : Obligations.VaruintDescriptor := by
  intro off vb s hs hvb hslot hg
  refine ⟨fun v k hd hdoc hv hk hr => ?_, fun os hd ho hv hr => ?_⟩
  · obtain ⟨t, ht, wt, ft⟩ := exec_gwVaruint_encode hd hslot hdoc hv hk hs.capOk hr
    obtain ⟨hexec, henc⟩ := wt.encoded_goNext hg ht
    exact ⟨_, hexec, henc, ft⟩
  · obtain ⟨t, ht, wt, hval⟩ := exec_gwVaruint_decode hd hvb hslot ho hv hs.readBound_lt hr
    obtain ⟨hexec, hdec⟩ := wt.decoded_goNext hg ht
    exact ⟨_, hexec, hdec, hval⟩

/-- Settles O43: the length and then each character is one write behind the other. -/
theorem stringEncodes : Obligations.StringEncodes := by
  intro i m off cap chw s n k hi hd hs hslot hg hdoc hn hchw hk hr
  obtain ⟨t, ht, wt, hlen, hchars⟩ := exec_charsForm_encode hi hd hs.capOk hslot hdoc hn hchw hk hr
  obtain ⟨hexec, henc⟩ := wt.encoded_goNext hg ht
  exact ⟨_, hexec, henc, hlen, hchars⟩

/-- Settles O44: the length and then each character is one read into the slot behind the last. -/
theorem stringDecodes : Obligations.StringDecodes := by
  intro i m off cap chw s n k hi hd hs hchw hslot hg hk hn hr
  obtain ⟨t, ht, wt, hlen, hchars⟩ := exec_charsForm_decode hi hd hs.readBound_lt hchw hslot hn hk hr
  obtain ⟨hexec, hdec⟩ := wt.decoded_goNext hg ht
  exact ⟨_, hexec, hdec, hlen, hchars⟩

/-- Settles O46: the comparison with the maximum comes before the first write of DOC, and `Slot` has checked the slots
for a count up to it. -/
theorem countBounds : Obligations.CountBounds := by
  intro i m off cap body elem stride chw s extra n k hi hs hslot
  obtain ⟨rfl, chw, hi⟩ | ⟨rfl, hl, hi⟩ := charsForm_or_listForm hi
  · refine ⟨fun hd hn => ?_, fun hd hk hr hn => ?_, fun hd => exec_charsForm_changedSlots hi hd hslot⟩
    · exact exec_charsForm_raised_at_length hi hd hslot (countField_above_encode s m _ _ hn)
    · exact exec_charsForm_raised_at_length hi hd hslot
        (countField_above_decode s m _ _ n k hk hn hs.readBound_lt hr)
  · refine ⟨fun hd hn => ?_, fun hd hk hr hn => ?_, fun hd => exec_listForm_changedSlots hi hd hslot⟩
    · exact exec_listForm_raised hi hd hl (countField_above_encode s m _ _ hn)
    · exact exec_listForm_raised hi hd hl (countField_above_decode s m _ _ n k hk hn hs.readBound_lt hr)

end Sys2Proof
end

section
/-! Proofs for 43_codec_fields.md, the round trip of a whole message (O60). A run that follows an encode run, a decode
of its bits or an encode of the slots that it read, goes step by step where the encode goes: each field of a descriptor
moves one number, and the follower finds the same number on the stream or in DOC. First the numbers on the stream. -/

namespace Sys2Proof.Machine

variable {s t : State}

/-! A number on the stream (R131, R132, R223, R225) -/

/-- The `w` bits `b` stand at stream index `p`. -/
def State.bitsAt (s : State) (p w : Nat) (b : Nat → Bool) : Prop := ∀ i < w, s.bufBit (p + i) = b i

/-- `write` puts the number `v` on the stream as the `w` bits `b`, or raises where there is no room for them, and `read`
finds it in them. -/
structure Coding (write : Act Unit) (read : Act Nat) (v w : Nat) (b : Nat → Bool) : Prop where
  wrote : ∀ s : State, s.capOk → s.pos.toNat + w ≤ s.cap.toNat * 8 →
    ∃ t, write s = .ok () t ∧ Wrote s t w ∧ t.bitsAt s.pos.toNat w b
  full : ∀ s : State, s.capOk → s.pos.toNat ≤ s.cap.toNat * 8 → s.cap.toNat * 8 < s.pos.toNat + w →
    ∃ e t, write s = .error e t
  found : ∀ s : State, s.readBound < 2 ^ 32 → s.bitsAt s.pos.toNat w b → s.pos.toNat + w ≤ s.readBound →
    read s = .ok v (s.consumed w)

/-- A number in `w` bits. -/
theorem coding_bits {v w : Nat} (hv : v < 2 ^ w) :
    Coding (writeBits v w) (readBits w) v w fun i => v.testBit (w - 1 - i) where
  wrote s := writeBits_wrote s v w
  full s _ _ hf := ⟨_, s, by rw [writeBits_run, if_pos hf]⟩
  found s _ hb hr := readBits_found s w v hv hb hr

/-- Group `j` of the shortest varuint of `v`, which has `k` groups (R223). -/
def varGroup (v k j : Nat) : Nat := v / 128 ^ j % 128 + if j + 1 < k then 128 else 0

theorem varGroup_lt {v k j : Nat} : varGroup v k j < 256 := by
  have := Nat.mod_lt (v / 128 ^ j) (show 0 < 128 by decide)
  unfold varGroup
  split <;> omega

/-- A group announces another but for the last. -/
theorem le_varGroup_iff {v k j : Nat} : 128 ≤ varGroup v k j ↔ j + 1 < k := by
  have := Nat.mod_lt (v / 128 ^ j) (show 0 < 128 by decide)
  unfold varGroup
  split <;> omega

theorem varGroup_succ {v k j : Nat} : varGroup v (k + 1) (j + 1) = varGroup (v / 128) k j := by
  unfold varGroup
  rw [Nat.div_div_eq_div_mul, ← pow_succ']
  simp only [Nat.add_lt_add_iff_right]

/-- The groups of the shortest form have the value (R223). -/
theorem varuintValue_groups {v k : Nat} (h : v < 128 ^ k) :
    varuintValue ((List.range k).map (varGroup v k)) = v := by
  induction k generalizing v with
  | zero => rw [pow_zero, Nat.lt_one_iff] at h; exact h.symm
  | succ k ih =>
    have hfirst : varGroup v (k + 1) 0 % 128 = v % 128 := by
      unfold varGroup
      split <;> omega
    have hrest : (List.range k).map (varGroup v (k + 1) ∘ Nat.succ) = (List.range k).map (varGroup (v / 128) k) :=
      List.map_congr_left fun j _ => varGroup_succ
    rw [List.range_succ_eq_map, List.map_cons, List.map_map, varuintValue, hfirst, hrest,
      ih (Nat.div_lt_of_lt_mul (by rwa [← pow_succ'])), Nat.mod_add_div]

/-- The shortest form exists. -/
theorem exists_varuintGroups (v : Nat) : ∃ k, varuintGroups v k := by
  refine ⟨Nat.log 128 v + 1, Nat.le_add_left _ _, Nat.lt_pow_succ_log_self (by decide) v, ?_⟩
  rw [Nat.add_sub_cancel]
  by_cases h0 : v = 0
  · subst h0
    exact .inl (by rw [Nat.log_zero_right])
  · exact .inr (Nat.pow_log_le_self 128 h0)

/-- The stream bits of the shortest form. -/
def varBits (v k i : Nat) : Bool := (varGroup v k (i / 8)).testBit (7 - i % 8)

theorem State.bitsAt_varBits {p v k : Nat} : s.bitsAt p (8 * k) (varBits v k) ↔ s.varuintAt p v k := by
  constructor
  · intro h j hj i hi
    have := h (8 * j + i) (by omega)
    rw [varBits, show (8 * j + i) / 8 = j by omega, show (8 * j + i) % 8 = i by omega, ← Nat.add_assoc] at this
    exact this
  · intro h i hi
    have := h (i / 8) (by omega) (i % 8) (by omega)
    rwa [Nat.add_assoc, Nat.div_add_mod] at this

/-- What an encode wrote as a varuint is a varuint that a decode may read. -/
theorem State.varuintAt.groupsAt {p v k : Nat} (h : s.varuintAt p v k) (h1 : 1 ≤ k) (h10 : k ≤ 10) :
    s.varuintGroupsAt p ((List.range k).map (varGroup v k)) := by
  have hlen : ((List.range k).map (varGroup v k)).length = k := by rw [List.length_map, List.length_range]
  refine ⟨by rwa [hlen], by rwa [hlen], fun j hj => ?_⟩
  rw [List.getElem_map, List.getElem_range, hlen]
  exact ⟨varGroup_lt, le_varGroup_iff, h j (by rwa [hlen] at hj)⟩

/-- A varuint in its shortest form, for a value below the bound of the reader. -/
theorem coding_varuint {v vb k : Nat} (hv : v < 2 ^ vb) (h64 : v < 2 ^ 64) (hk : varuintGroups v k) :
    Coding (writeVar v) (readVar vb) v (8 * k) (varBits v k) where
  wrote s hc hr := by
    obtain ⟨t, ht, wt, ft⟩ := writeVarGroups_wrote 10 s v k hk (groups_le_ten hk h64) hc hr
    exact ⟨t, ht, wt, State.bitsAt_varBits.2 ft⟩
  full s hc hp hf := by
    obtain ⟨t, ht, -, -⟩ := writeVarGroups_full ((s.cap.toNat * 8 - s.pos.toNat) / 8) 10 s v k hk (by omega)
      (groups_le_ten hk h64) hc (by omega) (by omega)
    exact ⟨_, t, ht⟩
  found s hb hf hr := by
    obtain ⟨h1, hlt, -⟩ := id hk
    have hval := varuintValue_groups hlt
    have hread := readVar_found s vb _ ((State.bitsAt_varBits.1 hf).groupsAt h1 (groups_le_ten hk h64))
      (by rwa [hval]) hb (by rwa [List.length_map, List.length_range])
    rwa [hval, List.length_map, List.length_range] at hread

/-- A count or length in either mode (R225). -/
theorem coding_len (m : LenMode) {max n : Nat} (hn : n ≤ max) (hm : max < 2 ^ 32) :
    ∃ w b, Coding (writeLen m max n) (readLen m max) n w b := by
  cases m with
  | bounded => exact ⟨_, _, coding_bits ((Nat.lt_succ_of_le hn).trans_le (le_two_pow_cl2 _))⟩
  | varuint =>
    obtain ⟨k, hk⟩ := exists_varuintGroups n
    exact ⟨_, _, coding_varuint (hn.trans_lt hm) (by omega) hk⟩

end Sys2Proof.Machine
end

section
/-! Proofs for 43_codec_fields.md, the round trip (O60): a follower of an encode run at one field of a descriptor. -/

namespace Sys2Proof.Machine

variable {s t u v x y z : State} {d : Dir} {L L' : List Nat}

/-! How a run goes on -/

/-- A run in direction `d` went on from `s` to `t`: an encode keeps DOC and the bits before its POS, a decode keeps the
stream. -/
structure Onward (d : Dir) (s t : State) : Prop where
  bound : t.accessBound d = s.accessBound d
  pos : s.pos.toNat ≤ t.pos.toNat
  encode : d = .encode → t.docSlot = s.docSlot ∧ ∀ q < s.pos.toNat, t.bufBit q = s.bufBit q
  decode : d = .decode → t.bufBit = s.bufBit

theorem Onward.refl (d : Dir) (s : State) : Onward d s s := ⟨rfl, le_rfl, fun _ => ⟨rfl, fun _ _ => rfl⟩, fun _ => rfl⟩

theorem Onward.trans (h : Onward d s t) (k : Onward d t u) : Onward d s u where
  bound := k.bound.trans h.bound
  pos := h.pos.trans k.pos
  encode hd := by
    obtain ⟨hdoc, hbits⟩ := h.encode hd
    obtain ⟨kdoc, kbits⟩ := k.encode hd
    exact ⟨kdoc.trans hdoc, fun q hq => (kbits q (hq.trans_le h.pos)).trans (hbits q hq)⟩
  decode hd := (k.decode hd).trans (h.decode hd)

/-- The accesses of a descriptor. -/
theorem Effects.onward (h : Effects d s t) (hs : s.registersOk) : Onward d s t where
  bound := h.accessBound d
  pos := by
    obtain hp | ⟨hp, -⟩ := h.pos hs
    · rw [hp]
    · exact hp
  encode hd := by
    subst hd
    obtain ⟨w, -, hw⟩ := h.wrote hs
    obtain ⟨hbits, -⟩ := hw.2
    exact ⟨funext hw.docSlot, fun q hq => hbits q (.inl hq)⟩
  decode hd := by
    subst hd
    rw [h.frame, h.buf_of_decode]
    rfl

/-! What a follower needs, and what it comes to -/

/-- What `y` must have, in direction `d`, to follow an encode that went from `x` to `t` and read the slots `L`: room;
the bits that the encode wrote, or the slots that it read. A slot that the encode did not count on may also be 0. -/
structure Supplied (d : Dir) (L : List Nat) (x t y : State) : Prop where
  room : t.pos.toNat ≤ y.accessBound d
  slots : d = .encode → (∀ a ∈ L, y.docSlot a = x.docSlot a) ∧ ∀ a, y.docSlot a = 0 ∨ y.docSlot a = x.docSlot a
  bits : d = .decode → ∀ q, x.pos.toNat ≤ q → q < t.pos.toNat → y.bufBit q = t.bufBit q

/-- What the follower has done from `y` to `v`: the same bits on encode, and the slots of the encode on decode. -/
structure Followed (d : Dir) (L : List Nat) (x t y v : State) : Prop where
  bits : d = .encode → ∀ q, x.pos.toNat ≤ q → q < t.pos.toNat → v.bufBit q = t.bufBit q
  slots : d = .decode → ∀ a, v.docSlot a = if a ∈ L then x.docSlot a else y.docSlot a

/-- What serves to follow two parts of an encode serves for the first. -/
theorem Supplied.first (h : Supplied d (L ++ L') x t y) (hut : Onward .encode u t) : Supplied d L x u y where
  room := hut.pos.trans h.room
  slots hd := by
    obtain ⟨hin, hany⟩ := h.slots hd
    exact ⟨fun a ha => hin a (List.mem_append_left _ ha), hany⟩
  bits hd q hx hq := by
    obtain ⟨-, hbits⟩ := hut.encode rfl
    exact (h.bits hd q hx (hq.trans_le hut.pos)).trans (hbits q hq)

/-- And, behind the first, for the second. -/
theorem Supplied.rest (h : Supplied d (L ++ L') x t y) (hxu : Onward .encode x u) (hyv : Onward d y v) :
    Supplied d L' u t v where
  room := by rw [hyv.bound]; exact h.room
  slots hd := by
    obtain ⟨hin, hany⟩ := h.slots hd
    subst hd
    obtain ⟨hxdoc, -⟩ := hxu.encode rfl
    obtain ⟨hydoc, -⟩ := hyv.encode rfl
    rw [hxdoc, hydoc]
    exact ⟨fun a ha => hin a (List.mem_append_right _ ha), hany⟩
  bits hd q hu hq := by
    rw [hyv.decode hd]
    exact h.bits hd q (hxu.pos.trans hu) hq

/-- The two parts followed one after the other. -/
theorem Followed.trans {w : State} (h : Followed d L x u y v) (k : Followed d L' u t v w) (hxu : Onward .encode x u)
    (hut : Onward .encode u t) (hvw : Onward d v w) (hp : v.pos = u.pos) : Followed d (L ++ L') x t y w where
  bits hd q hx hq := by
    obtain hlt | hge := Nat.lt_or_ge q u.pos.toNat
    · obtain ⟨-, hkept⟩ := hut.encode rfl
      obtain ⟨-, hkept'⟩ := hvw.encode hd
      rw [hkept' q (by rwa [hp]), h.bits hd q hx hlt, hkept q hlt]
    · exact k.bits hd q hge hq
  slots hd a := by
    obtain ⟨hxdoc, -⟩ := hxu.encode rfl
    rw [k.slots hd a, h.slots hd a, hxdoc]
    by_cases hL : a ∈ L <;> by_cases hL' : a ∈ L' <;> simp [hL, hL']

theorem Followed.nil (d : Dir) (x y : State) : Followed d [] x x y y :=
  ⟨fun _ q hx hq => absurd hq (Nat.not_lt.2 hx), fun _ a => by rw [if_neg List.not_mem_nil]⟩

/-! A field in both directions -/

/-- The field `m` of a descriptor, that answered `r` to an encode on its way from `x` to `t`, answers every follower the
same; the slots it reads are `L`. -/
structure Mirrors {α : Type} (m : Dir → Act α) (L : List Nat) (x : State) (r : α) (t : State) : Prop where
  effects : Effects .encode x t
  follows : ∀ (d : Dir) (y : State), y.registersOk → y.params = x.params → y.pos = x.pos → Supplied d L x t y →
    ∃ v, m d y = .ok r v ∧ Effects d y v ∧ v.pos = t.pos ∧ Followed d L x t y v

section
variable {α β : Type} {m : Dir → Act α} {r : α}

theorem Act.does.effects {m : Act α} (h : Act.does d m) (hm : m s = .ok r t) : Effects d s t := by
  have := h s
  rwa [hm] at this

theorem Mirrors.pure (r : α) (x : State) : Mirrors (fun _ => Pure.pure r) [] x r x :=
  ⟨.refl, fun d y _ _ hp _ => ⟨y, rfl, .refl, hp, .nil d x y⟩⟩

theorem Mirrors.bind {f : α → Dir → Act β} {r' : β} (hx : x.registersOk) (h : Mirrors m L x r u)
    (k : Mirrors (f r) L' u r' t) : Mirrors (fun d => m d >>= fun a => f a d) (L ++ L') x r' t := by
  have hxu := h.effects.onward hx
  have hut := k.effects.onward (h.effects.registersOk hx)
  refine ⟨h.effects.trans k.effects, fun d y hy hparams hpos hs => ?_⟩
  obtain ⟨v, hv, heff, hvp, hvf⟩ := h.follows d y hy hparams hpos (hs.first hut)
  have hyv := heff.onward hy
  have hv' := heff.registersOk hy
  have hparams' : v.params = u.params := by rw [heff.frame, h.effects.frame]; exact hparams
  obtain ⟨w, hw, heff', hwp, hwf⟩ := k.follows d v hv' hparams' hvp (hs.rest hxu hyv)
  exact ⟨w, by rw [Act.bind_ok hv, hw], heff.trans heff', hwp, hvf.trans hwf hxu hut (heff'.onward hv') hvp⟩

/-- Only which slots are in the list matters. -/
theorem Mirrors.congr_slots (h : Mirrors m L x r t) (hL : ∀ a, a ∈ L' ↔ a ∈ L) : Mirrors m L' x r t := by
  refine ⟨h.effects, fun d y hy hparams hpos ⟨hroom, hslots, hbits⟩ => ?_⟩
  obtain ⟨v, hv, heff, hvp, ⟨hvbits, hvslots⟩⟩ := h.follows d y hy hparams hpos
    ⟨hroom, fun hd => by simpa only [hL] using hslots hd, hbits⟩
  exact ⟨v, hv, heff, hvp, hvbits, fun hd => by simpa only [hL] using hvslots hd⟩

theorem Wrote.pos_eq {w : Nat} (h : Wrote s t w) : t.pos = BitVec.ofNat 32 (s.pos.toNat + w) := by rw [h.1]

/-- A field that moves one number between slot `a` and the stream: its encode writes the number that stands for the
slot's value, as far as it looks at slots that a follower shares, and its decode reads the number and sets the slot. -/
theorem Mirrors.of_coding {write : Act Unit} {read : Act Nat} {n w a : Nat} {b : Nat → Bool}
    (hc : Coding write read n w b) (hx : x.registersOk) (ha : a < x.params.docSlots)
    (hdoes : ∀ d, Act.does d (m d)) (hw : write x = .ok () t)
    (henc : ∀ z v : State, z.docSlot a = x.docSlot a → (∀ c, z.docSlot c = 0 ∨ z.docSlot c = x.docSlot c) →
      write z = .ok () v → m .encode z = .ok r v)
    (hdec : ∀ y v : State, read y = .ok n v → m .decode y = .ok r (v.setDocSlot a (x.docSlot a))) :
    Mirrors m [a] x r t := by
  have hroom : x.pos.toNat + w ≤ x.cap.toNat * 8 := by
    by_contra hf
    obtain ⟨-, -, hpos, -⟩ := id hx
    obtain ⟨e, t', he⟩ := hc.full x hx.capOk hpos (Nat.lt_of_not_le hf)
    cases hw.symm.trans he
  obtain ⟨t', ht', hxt, hbits⟩ := hc.wrote x hx.capOk hroom
  cases hw.symm.trans ht'
  have htp := hxt.pos hx.capOk hroom
  refine ⟨(hdoes .encode).effects (henc x t rfl (fun _ => .inr rfl) hw), fun d y hy hparams hpos hs => ?_⟩
  obtain ⟨hyroom, hyslots, hybits⟩ := hs
  rw [htp, ← hpos] at hyroom
  cases d with
  | encode =>
    obtain ⟨hin, hany⟩ := hyslots rfl
    obtain ⟨v, hv, hyv, hvbits⟩ := hc.wrote y hy.capOk hyroom
    have hm := henc y v (hin a (List.mem_singleton_self a)) hany hv
    refine ⟨v, hm, (hdoes _).effects hm, by rw [hyv.pos_eq, hxt.pos_eq, hpos], fun _ q hq hqt => ?_, nofun⟩
    obtain ⟨i, rfl⟩ := Nat.exists_eq_add_of_le hq
    have hi : i < w := by omega
    rw [hbits i hi, ← hvbits i hi, hpos]
  | decode =>
    have hfound := hc.found y hy.readBound_lt (fun i hi => by
      rw [hpos, hybits rfl _ (Nat.le_add_right _ _) (by omega), hbits i hi]) hyroom
    have hm := hdec y _ hfound
    refine ⟨_, hm, (hdoes _).effects hm, ?_, nofun, fun _ c => ?_⟩
    · rw [hxt.pos_eq, ← hpos]; rfl
    · rw [State.docSlot_setDocSlot _ _ _ _ (by rw [← hparams] at ha; exact ha)]
      by_cases hca : c = a
      · subst hca; rw [if_pos rfl, if_pos (List.mem_singleton_self c)]
      · rw [if_neg hca, if_neg fun hmem => hca (List.mem_singleton.1 hmem)]; rfl

end

/-! The fields of the descriptors -/

section
variable {α : Type} {a : Nat}

/-- A check on a value read from DOC that did not raise has passed. -/
theorem readDoc_checked_ok {c : Nat → Bool} {k : FaultKind} {n : Nat} {f : Nat → Act α} {r : α}
    (h : (readDoc a >>= fun v => raiseIf (c v) k n >>= fun _ => f v) s = .ok r t) :
    c (s.docSlot a).toNat = false ∧ f (s.docSlot a).toNat s = .ok r t := by
  cases hc : c (s.docSlot a).toNat with
  | false => rw [readDoc_checked hc] at h; exact ⟨rfl, h⟩
  | true => rw [readDoc_rejected hc] at h; cases h

/-- A check on a number read from the stream that passes. -/
theorem read_checked {m : Act Nat} {c : Nat → Bool} {k : FaultKind} {n v : Nat} {f : Nat → Act α}
    (hm : m s = .ok v t) (h : c v = false) : (m >>= fun v => raiseIf (c v) k n >>= fun _ => f v) s = f v t := by
  rw [Act.bind_ok hm, bind_raiseIf, h]
  rfl

/-- A slot is written with the value that it has elsewhere. -/
theorem writeDoc_toNat {c : Cell64} {n : Nat} (h : n = c.toNat) : writeDoc a n s = .ok () (s.setDocSlot a c) := by
  rw [h, writeDoc_run, BitVec.ofNat_toNat, BitVec.setWidth_eq]

theorem mirrors_presBit {f : Nat} (hx : x.registersOk) (ha : a < x.params.docSlots)
    (h : presBit a .encode x = .ok f t) : Mirrors (presBit a) [a] x f t := by
  obtain ⟨hle, h⟩ := readDoc_checked_ok (c := fun v => decide (1 < v)) h
  obtain ⟨_, _, hw, h⟩ := Act.bind_eq_ok h
  cases h
  refine .of_coding (coding_bits (w := 1) (by have := of_decide_eq_false hle; omega)) hx ha
    (fun _ => Act.does_presBit a) hw (fun z v hz _ hv => ?_) fun y v hr => ?_
  · rw [← hz] at hle hv ⊢
    exact (readDoc_checked hle).trans (Act.bind_ok hv)
  · exact (Act.bind_ok hr).trans (Act.bind_ok (writeDoc_toNat rfl))

theorem mirrors_enumField {n : Nat} (hx : x.registersOk) (ha : a < x.params.docSlots)
    (h : enumField n a .encode x = .ok () t) : Mirrors (enumField n a) [a] x () t := by
  obtain ⟨hlt, hw⟩ := readDoc_checked_ok (c := fun v => decide (n ≤ v)) h
  refine .of_coding (coding_bits ((Nat.lt_of_not_le (of_decide_eq_false hlt)).trans_le (le_two_pow_cl2 n))) hx ha
    (fun _ => Act.does_enumField n a) hw (fun z v hz _ hv => ?_) fun y v hr => ?_
  · rw [← hz] at hlt hv
    exact (readDoc_checked hlt).trans hv
  · exact (read_checked hr hlt).trans (writeDoc_toNat rfl)

theorem mirrors_nbitField {min max : Nat} (hx : x.registersOk) (ha : a < x.params.docSlots)
    (h : nbitField min max a .encode x = .ok () t) : Mirrors (nbitField min max a) [a] x () t := by
  obtain ⟨hin, hw⟩ := readDoc_checked_ok (c := fun v => decide (v < min) || decide (max < v)) h
  have hrange : min ≤ (x.docSlot a).toNat ∧ (x.docSlot a).toNat ≤ max := by simpa using hin
  refine .of_coding (coding_bits ((show _ < max - min + 1 by omega).trans_le (le_two_pow_cl2 _))) hx ha
    (fun _ => Act.does_nbitField min max a) hw (fun z v hz _ hv => ?_) fun y v hr => ?_
  · rw [← hz] at hin hv
    exact (readDoc_checked (c := fun v => decide (v < min) || decide (max < v)) hin).trans hv
  · exact (read_checked (c := fun u => decide (max < min + u)) hr (decide_eq_false (by omega))).trans
      (writeDoc_toNat (by omega))

theorem mirrors_varuintField {vb : Nat} (hx : x.registersOk) (ha : a < x.params.docSlots)
    (h : varuintField vb a .encode x = .ok () t) : Mirrors (varuintField vb a) [a] x () t := by
  obtain ⟨hlt, hw⟩ := readDoc_checked_ok (c := fun v => decide (2 ^ vb ≤ v)) h
  obtain ⟨k, hk⟩ := exists_varuintGroups (x.docSlot a).toNat
  refine .of_coding (coding_varuint (Nat.lt_of_not_le (of_decide_eq_false hlt)) (BitVec.isLt _) hk) hx ha
    (fun _ => Act.does_varuintField vb a) hw (fun z v hz _ hv => ?_) fun y v hr => ?_
  · rw [← hz] at hlt hv
    exact (readDoc_checked hlt).trans hv
  · exact (Act.bind_ok hr).trans (writeDoc_toNat rfl)

/-- The count is the value of its slot. -/
theorem mirrors_countField {m : LenMode} {max n : Nat} (hx : x.registersOk) (ha : a < x.params.docSlots)
    (hmax : max < 2 ^ 32) (h : countField m max a .encode x = .ok n t) :
    n = (x.docSlot a).toNat ∧ Mirrors (countField m max a) [a] x n t := by
  obtain ⟨hle, h⟩ := readDoc_checked_ok (c := fun v => decide (max < v)) h
  obtain ⟨_, _, hw, h⟩ := Act.bind_eq_ok h
  cases h
  obtain ⟨w, b, hc⟩ := coding_len m (Nat.le_of_not_lt (of_decide_eq_false hle)) hmax
  refine ⟨rfl, .of_coding hc hx ha (fun _ => Act.does_countField m max a) hw (fun z v hz _ hv => ?_) fun y v hr => ?_⟩
  · rw [← hz] at hle hv ⊢
    exact (readDoc_checked hle).trans (Act.bind_ok hv)
  · exact (read_checked hr hle).trans (Act.bind_ok (writeDoc_toNat rfl))

/-- One character of R226 in either direction. -/
def charField (chw a : Nat) : Dir → Act Unit
  | .encode => readDoc a >>= fun c => raiseIf (2 ^ chw ≤ c) .boundsViolation 6 >>= fun _ => writeBits c chw
  | .decode => readBits chw >>= fun c => writeDoc a c

theorem charsField_succ (chw a n : Nat) (d : Dir) :
    charsField chw a (n + 1) d = charField chw a d >>= fun _ => charsField chw (a + 1) n d := by
  cases d with
  | encode => simp only [charsField, writeChars, charField, bind_assoc]
  | decode => simp only [charsField, readChars, charField, bind_assoc]

theorem Act.does_charField (chw a : Nat) : Act.does d (charField chw a d) := by
  cases d with
  | encode =>
    exact Act.does_bind (Act.does_readDoc _) fun _ => Act.does_bind (Act.does_raiseIf _ _ _) fun _ =>
      Act.does_writeBits _ _
  | decode => exact Act.does_bind (Act.does_readBits _) fun _ => Act.does_writeDoc _ _

theorem mirrors_charField {chw : Nat} (hx : x.registersOk) (ha : a < x.params.docSlots)
    (h : charField chw a .encode x = .ok () t) : Mirrors (charField chw a) [a] x () t := by
  obtain ⟨hlt, hw⟩ := readDoc_checked_ok (c := fun v => decide (2 ^ chw ≤ v)) h
  refine .of_coding (coding_bits (Nat.lt_of_not_le (of_decide_eq_false hlt))) hx ha
    (fun _ => Act.does_charField chw a) hw (fun z v hz _ hv => ?_) fun y v hr => ?_
  · rw [← hz] at hlt hv
    exact (readDoc_checked hlt).trans hv
  · exact (Act.bind_ok hr).trans (writeDoc_toNat rfl)

theorem mirrors_charsField {chw n : Nat} (hx : x.registersOk) (ha : a + n ≤ x.params.docSlots)
    (h : charsField chw a n .encode x = .ok () t) : Mirrors (charsField chw a n) (List.range' a n) x () t := by
  induction n generalizing a x with
  | zero =>
    cases h
    rw [show charsField chw a 0 = fun _ => Pure.pure () by funext d; cases d <;> rfl]
    exact .pure () _
  | succ n ih =>
    rw [charsField_succ] at h
    obtain ⟨_, u, hu, h⟩ := Act.bind_eq_ok h
    have hfirst := mirrors_charField hx (by omega) hu
    have hparams : u.params = x.params := by rw [hfirst.effects.frame]
    have hrest := ih (hfirst.effects.registersOk hx) (by rw [hparams]; omega) h
    rw [show charsField chw a (n + 1) = _ from funext (charsField_succ chw a n), List.range'_succ]
    exact hfirst.bind (f := fun _ => charsField chw (a + 1) n) hx hrest

/-- What a CHOICE on encode has seen when it did not raise: one flag is 1, the others are 0 (R191). -/
theorem selectAlt_encode_ok {alts : List Alt} {w : Nat} {c : Alt} (h : selectAlt alts w .encode x = .ok c t) :
    ∃ (k : Nat) (hk : k < alts.length), alts[k] = c ∧ writeBits k w x = .ok () t ∧
      ∀ j (hj : j < alts.length), (x.docSlot alts[j].slot).toNat = if j = k then 1 else 0 := by
  rw [selectAlt, bind_current, bind_raiseIf] at h
  split at h
  · cases h
  next hany =>
    rcases hf : x.flagged alts with _ | ⟨⟨c', k⟩, _ | ⟨c'', rest⟩⟩ <;> rw [hf] at h
    · cases h
    · obtain ⟨_, _, hw, h⟩ := Act.bind_eq_ok h
      cases h
      have hmem : (c, k) ∈ x.flagged alts := by rw [hf]; exact List.mem_singleton_self _
      obtain ⟨hget, hone⟩ := State.mem_flagged.1 hmem
      obtain ⟨hk, rfl⟩ := List.getElem?_eq_some_iff.1 hget
      refine ⟨k, hk, rfl, hw, fun j hj => ?_⟩
      split
      next hjk => subst hjk; exact hone
      next hjk =>
        have hle : (x.docSlot alts[j].slot).toNat ≤ 1 := by
          rw [Bool.not_eq_true, List.any_eq_false] at hany
          simpa using hany _ (List.getElem_mem hj)
        have hne : (x.docSlot alts[j].slot).toNat ≠ 1 := fun h1 => by
          have hj' := State.getElem_mem_flagged hj h1
          rw [hf, List.mem_singleton] at hj'
          exact hjk (congrArg Prod.snd hj')
        omega
    · cases h

/-- The flag that a CHOICE counts on is the selected one: the others may be 0 as they are. -/
theorem mirrors_selectAlt {alts : List Alt} {w : Nat} {c : Alt} (hx : x.registersOk)
    (hslots : ∀ c ∈ alts, c.slot < x.params.docSlots) (hn : alts.length ≤ 2 ^ w)
    (h : selectAlt alts w .encode x = .ok c t) : Mirrors (selectAlt alts w) [c.slot] x c t := by
  obtain ⟨k, hk, rfl, hw, hflags⟩ := selectAlt_encode_ok h
  refine .of_coding (coding_bits (hk.trans_le hn)) hx (hslots _ (List.getElem_mem hk))
    (fun _ => Act.does_selectAlt alts w) hw (fun z v hz hany hv => ?_) fun y v hr => ?_
  · have hzflags : ∀ j (hj : j < alts.length), (z.docSlot alts[j].slot).toNat = if j = k then 1 else 0 := by
      intro j hj
      have hxj := hflags j hj
      split
      next hjk => subst hjk; rw [hz, hxj, if_pos rfl]
      next hjk =>
        rw [if_neg hjk] at hxj
        obtain h0 | h0 := hany alts[j].slot
        · rw [h0]; rfl
        · rw [h0, hxj]
    rw [selectAlt, bind_current, bind_raiseIf,
      flags_le_one fun j hj => by rw [hzflags j hj]; split <;> omega, z.flagged_one k alts hk hzflags]
    exact Act.bind_ok hv
  · have hone : 1 = (x.docSlot alts[k].slot).toNat := by rw [hflags k hk, if_pos rfl]
    refine (Act.bind_ok hr).trans ?_
    rw [List.getElem?_eq_getElem hk]
    exact Act.bind_ok (writeDoc_toNat hone)

end

end Sys2Proof.Machine
end

section
/-! Proofs for 43_codec_fields.md, the round trip (O60): a follower of an encode run at one descriptor. Around its field
a descriptor reads GT, BASE and the loop stack, and moves the walk, the same in both runs. -/

namespace Sys2Proof.Machine

variable {s t u v x y x1 : State} {d : Dir} {i : Instr}

/-! Two runs side by side -/

/-- The encode run of `x` and the run of `y` in direction `d` are at the same place of the walk and of the stream, or
have ended alike. -/
structure Abreast (d : Dir) (x y : State) : Prop where
  params : y.params = x.params
  gtWord : y.gtWord = x.gtWord
  pos : y.pos = x.pos
  gpc : y.gpc = x.gpc
  base : y.base = x.base
  ls : y.ls = x.ls
  run : x.run = some .encode ∧ y.run = some d ∨ x.run = none ∧ y.run = none
  fault : y.status.fault = x.status.fault
  ended : x.run = none → y.rc = x.rc

theorem Abreast.refl (h : x.run = some .encode) : Abreast .encode x x :=
  ⟨rfl, rfl, rfl, rfl, rfl, rfl, .inl ⟨h, h⟩, rfl, fun _ => rfl⟩

theorem Abreast.run_eq (h : Abreast d x y) (hx : x.run = some .encode) : y.run = some d := by
  obtain ⟨-, hy⟩ | ⟨hn, -⟩ := h.run
  · exact hy
  · cases hx.symm.trans hn

theorem Abreast.run_none (h : Abreast d x y) (hx : x.run = none) : y.run = none := by
  obtain ⟨hs, -⟩ | ⟨-, hy⟩ := h.run
  · cases hx.symm.trans hs
  · exact hy

/-- The accesses of a descriptor do not move the walk. -/
theorem Abreast.effects (h : Abreast d x y) (hxu : Effects .encode x u) (hyv : Effects d y v) (hp : v.pos = u.pos) :
    Abreast d u v := by
  obtain ⟨b, m, p, rfl⟩ : ∃ b m p, u = { x with buf := b, doc := m, pos := p } := ⟨_, _, _, hxu.frame⟩
  obtain ⟨b', m', p', rfl⟩ : ∃ b m p, v = { y with buf := b, doc := m, pos := p } := ⟨_, _, _, hyv.frame⟩
  exact { h with pos := hp }

/-- The walk went on from `s` to `t` and touched neither the memories nor the cursor. -/
def State.sameContents (s t : State) : Prop :=
  t.docSlot = s.docSlot ∧ t.bufBit = s.bufBit ∧ t.pos = s.pos ∧ t.accessBound = s.accessBound

theorem State.sameContents_refl (s : State) : s.sameContents s := ⟨rfl, rfl, rfl, rfl⟩

theorem State.sameContents.onward (h : s.sameContents t) (d : Dir) : Onward d s t := by
  obtain ⟨hdoc, hbits, hpos, hbound⟩ := h
  exact ⟨congrFun hbound d, by rw [hpos], fun _ => ⟨hdoc, fun q _ => congrFun hbits q⟩, fun _ => hbits⟩

/-- The follower needs the same for an encode that ends in `t` with the contents that it had in `u`. -/
theorem Supplied.of_sameContents {L : List Nat} (h : Supplied d L x t y) (hc : u.sameContents t) :
    Supplied d L x u y := by
  obtain ⟨-, hbits, hpos, -⟩ := hc
  exact ⟨by rw [← hpos]; exact h.room, h.slots, by rw [← hbits, ← hpos]; exact h.bits⟩

theorem Followed.of_sameContents {L : List Nat} {w : State} (h : Followed d L x u y v) (hc : u.sameContents t)
    (hc' : v.sameContents w) : Followed d L x t y w := by
  obtain ⟨-, hbits, hpos, -⟩ := hc
  obtain ⟨hdoc', hbits', -, -⟩ := hc'
  exact ⟨by rw [hbits, hbits', hpos]; exact h.bits, by rw [hdoc']; exact h.slots⟩

/-! What two runs side by side do the same (R183 to R185, R191, R193, R194) -/

/-- Two runs side by side whose walks have come from `u` and `v` with the contents untouched. -/
def Walked (d : Dir) (u v x y : State) : Prop := Abreast d x y ∧ u.sameContents x ∧ v.sameContents y

section
variable {α : Type}

/-- A piece of pseudocode that runs alike goes on in both runs. -/
theorem Act.same.ok {R : State → State → Prop} {m : Act α} (hm : Act.same R m) (h : R x y) {r : α}
    (hx : m x = .ok r x1) : ∃ y1, m y = .ok r y1 ∧ R x1 y1 := by
  have hxy := hm x y h
  rw [hx] at hxy
  generalize m y = res at hxy
  cases hxy with
  | ok _ h => exact ⟨_, rfl, h⟩

theorem Walked.withGpc (h : Walked d u v x y) (g : Nat) : Walked d u v (x.withGpc g) (y.withGpc g) := by
  obtain ⟨h, hx, hy⟩ := h
  exact ⟨{ h with gpc := rfl }, hx, hy⟩

theorem Walked.enterList (h : Walked d u v x y) (g n : Nat) (body elem stride : Half) :
    Walked d u v (x.enterList g n body elem stride) (y.enterList g n body elem stride) := by
  obtain ⟨h, hx, hy⟩ := h
  exact ⟨{ h with
    gpc := rfl
    base := by rw [State.enterList_base, State.enterList_base, h.base]
    ls := by rw [State.enterList_ls, State.enterList_ls, h.base, h.ls] }, hx, hy⟩

theorem Walked.nextElement (h : Walked d u v x y) (f : Frame) (rem : Nat) (outer : List Frame) :
    Walked d u v (x.nextElement f rem outer) (y.nextElement f rem outer) := by
  obtain ⟨h, hx, hy⟩ := h
  exact ⟨{ h with gpc := rfl, base := rfl, ls := rfl }, hx, hy⟩

theorem Walked.leaveList (h : Walked d u v x y) (f : Frame) (outer : List Frame) :
    Walked d u v (x.leaveList f outer) (y.leaveList f outer) := by
  obtain ⟨h, hx, hy⟩ := h
  exact ⟨{ h with base := rfl, ls := rfl }, hx, hy⟩

theorem Walked.done (h : Walked d u v x y) : Walked d u v x.done y.done := by
  obtain ⟨h, hx, hy⟩ := h
  exact ⟨{ h with run := .inr ⟨rfl, rfl⟩, ended := fun _ => rfl }, hx, hy⟩

theorem Walked.jumpOk (h : Walked d u v x y) (g k : Nat) : y.jumpOk g k = x.jumpOk g k := by
  obtain ⟨h, -, -⟩ := h
  rw [State.jumpOk, State.jumpOk, h.params, h.ls]

theorem walked_slot (off : Half) (extra : Nat) : Act.same (Walked d u v) (slot off extra) :=
  Act.same_current (fun s t ⟨h, _⟩ => by rw [h.params, h.base]) fun _ =>
    Act.same_bind (Act.same_raiseIf _ _ _) fun _ => Act.same_pure _

theorem walked_setGpc (k : Nat) : Act.same (Walked d u v) (setGpc k) := Act.same_effect fun _ _ h => h.withGpc k

theorem walked_goNext (g : Nat) : Act.same (Walked d u v) (goNext g) :=
  Act.same_current (fun s t ⟨h, _⟩ => by rw [h.params]) fun _ =>
    Act.same_bind (Act.same_raiseIf _ _ _) fun _ => walked_setGpc _

theorem walked_goJump (g k : Nat) : Act.same (Walked d u v) (goJump g k) :=
  Act.same_current (fun s t h => by rw [h.jumpOk]) fun _ =>
    Act.same_bind (Act.same_raiseIf _ _ _) fun _ => walked_setGpc _

theorem walked_readAlts (g n : Nat) : Act.same (Walked d u v) (readAlts g n) := by
  induction n generalizing g with
  | zero => exact Act.same_pure _
  | succ n ih =>
    refine Act.same_current (fun s t ⟨h, _⟩ => by rw [h.params, h.gtWord]) fun s =>
      Act.same_bind (Act.same_raiseIf _ _ _) fun _ => ?_
    split
    · exact Act.same_raise _ _
    · exact Act.same_bind (walked_slot _ _) fun _ => Act.same_bind (ih _) fun _ => Act.same_pure _
    · exact Act.same_raise _ _

theorem walked_listChecks (g : Nat) (max body elem stride : Half) :
    Act.same (Walked d u v) (listChecks g max body elem stride) :=
  Act.same_current (fun s t ⟨h, _⟩ => by rw [h.params, h.gtWord, h.ls, h.base]) fun _ =>
    Act.same_bind (Act.same_raiseIf _ _ _) fun _ => Act.same_bind (Act.same_raiseIf _ _ _) fun _ =>
      Act.same_bind (Act.same_raiseIf _ _ _) fun _ => Act.same_bind (Act.same_raiseIf _ _ _) fun _ =>
        Act.same_raiseIf _ _ _

end

/-! Checks, which change nothing -/

/-- A piece of pseudocode that goes on in the state where it began. -/
def Act.stays {α : Type} (m : Act α) : Prop := ∀ (s : State) (r : α) (t : State), m s = .ok r t → t = s

section
variable {α β γ : Type}

theorem Act.stays_bind {m : Act α} {f : α → Act β} (hm : Act.stays m) (hf : ∀ r, Act.stays (f r)) :
    Act.stays (m >>= f) := by
  intro s r t h
  obtain ⟨r', u, hu, h⟩ := Act.bind_eq_ok h
  exact (hf r' u r t h).trans (hm s r' u hu)

theorem Act.stays_pure (r : α) : Act.stays (pure r : Act α) := fun s _ t h => by cases h; rfl

theorem Act.stays_current : Act.stays current := fun s _ t h => by cases h; rfl

theorem Act.stays_raiseIf (c : Bool) (k : FaultKind) (n : Nat) : Act.stays (raiseIf c k n) := fun s _ t h => by
  rw [raiseIf_run] at h
  split at h
  · cases h
  · cases h; rfl

theorem Act.stays_slot (off : Half) (extra : Nat) : Act.stays (slot off extra) :=
  Act.stays_bind Act.stays_current fun _ => Act.stays_bind (Act.stays_raiseIf _ _ _) fun _ => Act.stays_pure _

theorem Act.stays_listChecks (g : Nat) (max body elem stride : Half) :
    Act.stays (listChecks g max body elem stride) := fun s r t h => by
  obtain ⟨e, he⟩ | ⟨hc, -⟩ := listChecks_run s g max body elem stride
  · cases he.symm.trans h
  · cases hc.symm.trans h; rfl

theorem slot_eq_ok {off : Half} {extra a : Nat} (h : slot off extra s = .ok a t) :
    a = s.base.toNat + off.toNat ∧ a + extra < s.params.docSlots := by
  rw [slot_run] at h
  split at h
  · cases h
  next hlt => cases h; exact ⟨rfl, Nat.lt_of_not_le hlt⟩

/-! A descriptor: checks, a field, and a move of the walk -/

/-- Wherever an encode of `i` does not raise, a follower that is supplied takes the same step. -/
def Mirrored (i : Instr) : Prop :=
  ∀ (d : Dir) (x y x1 : State), x.registersOk → y.registersOk → Abreast d x y → x.run = some .encode →
    exec i x = .next x1 → x1.status.fault = false → Supplied d (x.fieldSlots i) x x1 y →
    ∃ y1, exec i y = .next y1 ∧ Abreast d x1 y1 ∧ Followed d (x.fieldSlots i) x x1 y y1

/-- A rule that left no fault did not raise. -/
theorem settled_of_no_fault {r : EStateM.Result Raise State Unit} (h : (settled r).status.fault = false) :
    r = .ok () (settled r) := by
  cases r with
  | ok => rfl
  | error => cases h

/-- A descriptor is mirrored when its rule is `pre`, which checks and changes nothing, then a field that is mirrored,
then `post`, which moves the walk. -/
theorem mirrored_of_rule {pre : Nat → Act α} {field : α → Dir → Act β} {post : Nat → β → Act Unit}
    (hrule : ∀ s, exec i s = descriptor (fun d g => pre g >>= fun a => field a d >>= post g) s)
    (hstays : ∀ g, Act.stays (pre g)) (hpre : ∀ d u v g, Act.same (Walked d u v) (pre g))
    (hpost : ∀ d u v g r, Act.same (Walked d u v) (post g r))
    (hfield : ∀ x a r u, x.registersOk → pre x.gpc.toNat x = .ok a x → field a .encode x = .ok r u →
      Mirrors (field a) (x.fieldSlots i) x r u) : Mirrored i := by
  intro d x y x1 hx hy hxy hd h hf hs
  rw [hrule, descriptor_run x _ _ hd] at h
  have hx1 := Host.Outcome.next.inj h
  have hok := settled_of_no_fault (by rw [hx1]; exact hf)
  rw [hx1] at hok
  obtain ⟨a, x', hpa, hok⟩ := Act.bind_eq_ok hok
  obtain rfl := hstays _ _ _ _ hpa
  obtain ⟨r, u, hfa, hpo⟩ := Act.bind_eq_ok hok
  obtain ⟨y', hpy, -⟩ := (hpre d _ y _).ok ⟨hxy, State.sameContents_refl _, State.sameContents_refl y⟩ hpa
  obtain rfl := hstays _ _ _ _ hpy
  obtain ⟨hxu, hfollows⟩ := hfield _ a r u hx hpa hfa
  have hu : u.run = some .encode := by rw [hxu.frame]; exact hd
  obtain ⟨-, -, -, hux, -⟩ := (hpost .encode u u _ r).ok
    ⟨.refl hu, State.sameContents_refl u, State.sameContents_refl u⟩ hpo
  obtain ⟨v, hv, hyv, hvp, hfollowed⟩ := hfollows d _ hy hxy.params hxy.pos (hs.of_sameContents hux)
  obtain ⟨y1, hy1, hxy1, -, hvy⟩ := (hpost d u v _ r).ok
    ⟨hxy.effects hxu hyv hvp, State.sameContents_refl u, State.sameContents_refl v⟩ hpo
  refine ⟨y1, ?_, hxy1, hfollowed.of_sameContents hux hvy⟩
  rw [hrule, descriptor_run _ _ d (hxy.run_eq hd), hxy.gpc, Act.bind_ok hpy, Act.bind_ok hv, hy1]
  rfl

/-- A descriptor without a field. -/
theorem mirrored_of_walk {m : Nat → Act Unit} (hrule : ∀ s, exec i s = descriptor (fun _ g => m g) s)
    (hm : ∀ d u v g, Act.same (Walked d u v) (m g)) (hslots : ∀ x : State, x.fieldSlots i = []) : Mirrored i :=
  mirrored_of_rule (pre := fun _ => pure ()) (field := fun _ _ => pure ()) (post := fun g _ => m g)
    (fun s => by simp only [hrule, pure_bind]) (fun _ => Act.stays_pure ()) (fun _ _ _ _ => Act.same_pure ())
    (fun d u v g _ => hm d u v g)
    fun x _ _ _ _ _ h => by cases h; rw [hslots]; exact .pure () _

/-- A descriptor whose field is one slot. -/
theorem mirrored_of_slot {off : Half} {field : Nat → Dir → Act β} {post : Nat → β → Act Unit}
    (hrule : ∀ s, exec i s = descriptor (fun d g => slot off 0 >>= fun a => field a d >>= post g) s)
    (hpost : ∀ d u v g r, Act.same (Walked d u v) (post g r))
    (hslots : ∀ x : State, x.fieldSlots i = [x.base.toNat + off.toNat])
    (hfield : ∀ x a r u, x.registersOk → a < x.params.docSlots → field a .encode x = .ok r u →
      Mirrors (field a) [a] x r u) : Mirrored i :=
  mirrored_of_rule hrule (fun _ => Act.stays_slot _ _) (fun _ _ _ _ => walked_slot _ _) hpost
    fun x a r u hx ha h => by
      obtain ⟨rfl, hlt⟩ := slot_eq_ok ha
      rw [hslots]
      exact hfield x _ r u hx hlt h

end

/-! Each descriptor -/

theorem mirrored_gwEnd : Mirrored .gwEnd :=
  mirrored_of_walk (fun s => by rw [exec, execGwEnd])
    (fun _ _ _ _ => Act.same_current (fun s t ⟨h, _⟩ => by rw [h.ls]) fun _ =>
      Act.same_bind (Act.same_raiseIf _ _ _) fun _ => Act.same_effect fun _ _ h => h.done)
    fun _ => rfl

theorem mirrored_gwFail (k : FaultKind) : Mirrored (.gwFail k) :=
  mirrored_of_walk (fun s => by rw [exec, execGwFail]) (fun _ _ _ _ => Act.same_raise _ _) fun _ => rfl

theorem mirrored_gwAlt (off target : Half) : Mirrored (.gwAlt off target) :=
  mirrored_of_walk (fun s => by rw [exec, execGwAlt]) (fun _ _ _ _ => Act.same_raise _ _) fun _ => rfl

theorem mirrored_gwLend : Mirrored .gwLend := by
  refine mirrored_of_walk (fun s => by rw [exec, execGwLend]) (fun d u v g => ?_) fun _ => rfl
  refine Act.same_current (fun s t ⟨h, _⟩ => by rw [h.ls]) fun s => ?_
  split
  · exact Act.same_raise _ _
  · refine Act.same_bind (Act.same_raiseIf _ _ _) fun _ => Act.same_ite ?_ ?_
    · exact Act.same_effect fun _ _ h => h.nextElement _ _ _
    · exact Act.same_bind (Act.same_effect fun _ _ h => h.leaveList _ _) fun _ => walked_goNext _

theorem mirrored_gwPres (off skip : Half) : Mirrored (.gwPres off skip) :=
  mirrored_of_slot (fun s => by rw [exec, execGwPres])
    (fun _ _ _ _ _ => Act.same_ite (walked_goNext _) (walked_goJump _ _)) (fun _ => rfl)
    fun _ _ _ _ hx ha h => mirrors_presBit hx ha h

theorem mirrored_gwEnum (off n : Half) : Mirrored (.gwEnum off n) :=
  mirrored_of_slot (fun s => by rw [exec, execGwEnum]) (fun _ _ _ _ _ => walked_goNext _) (fun _ => rfl)
    fun _ _ _ _ hx ha h => mirrors_enumField hx ha h

theorem mirrored_gwNbit (off min max : Half) : Mirrored (.gwNbit off min max) :=
  mirrored_of_slot (fun s => by rw [exec, execGwNbit]) (fun _ _ _ _ _ => walked_goNext _) (fun _ => rfl)
    fun _ _ _ _ hx ha h => mirrors_nbitField hx ha h

theorem mirrored_gwVaruint (off vb : Half) : Mirrored (.gwVaruint off vb) :=
  mirrored_of_slot (fun s => by rw [exec, execGwVaruint]) (fun _ _ _ _ _ => walked_goNext _) (fun _ => rfl)
    fun _ _ _ _ hx ha h => mirrors_varuintField hx ha h

theorem mirrored_listForm {m : LenMode} {off max body elem stride : Half} (hi : listForm i m off max body elem stride)
    (hslots : ∀ x : State, x.fieldSlots i = [x.base.toNat + off.toNat]) : Mirrored i := by
  refine mirrored_of_rule
    (pre := fun g => slot off 0 >>= fun a => listChecks g max body elem stride >>= fun _ => pure a)
    (field := fun a d => countField m max.toNat a d)
    (post := fun g n => if n = 0 then goJump g (g + 1 + body.toNat)
      else effect fun s => s.enterList g n body elem stride)
    (fun s => by simp only [exec_listForm hi, bind_assoc, pure_bind]; rfl)
    (fun _ => Act.stays_bind (Act.stays_slot _ _) fun _ =>
      Act.stays_bind (Act.stays_listChecks _ _ _ _ _) fun _ => Act.stays_pure _)
    (fun _ _ _ _ => Act.same_bind (walked_slot _ _) fun _ =>
      Act.same_bind (walked_listChecks _ _ _ _ _) fun _ => Act.same_pure _)
    (fun _ _ _ _ _ => Act.same_ite (walked_goJump _ _) (Act.same_effect fun _ _ h => h.enterList _ _ _ _ _))
    fun x a n u hx ha h => ?_
  obtain ⟨_, _, hslot, ha⟩ := Act.bind_eq_ok ha
  obtain ⟨_, _, -, ha⟩ := Act.bind_eq_ok ha
  cases ha
  obtain ⟨rfl, hlt⟩ := slot_eq_ok hslot
  obtain ⟨-, hm⟩ := mirrors_countField hx hlt (max.isLt.trans (by decide)) h
  rw [hslots]
  exact hm

theorem mirrored_charsForm {m : LenMode} {off cap : Half} {chw : Byte} (hi : charsForm i m off cap chw)
    (hslots : ∀ x : State, x.fieldSlots i =
      List.range' (x.base.toNat + off.toNat) ((x.docSlot (x.base.toNat + off.toNat)).toNat + 1)) : Mirrored i := by
  refine mirrored_of_rule (pre := fun _ => slot off cap.toNat)
    (field := fun a d => countField m cap.toNat a d >>= fun n => charsField chw.toNat (a + 1) n d)
    (post := fun g _ => goNext g) (fun s => by simp only [exec_charsForm hi, bind_assoc]; rfl)
    (fun _ => Act.stays_slot _ _) (fun _ _ _ _ => walked_slot _ _) (fun _ _ _ _ _ => walked_goNext _)
    fun x a r u hx ha h => ?_
  obtain ⟨rfl, hlt⟩ := slot_eq_ok ha
  obtain ⟨n, t, hcount, hchars⟩ := Act.bind_eq_ok h
  have hle := countField_le hcount
  obtain ⟨hn, hm⟩ := mirrors_countField hx (by omega) (cap.isLt.trans (by decide)) hcount
  have hparams : t.params = x.params := by rw [hm.effects.frame]
  have hm' := mirrors_charsField (hm.effects.registersOk hx) (by rw [hparams]; omega) hchars
  rw [hslots, ← hn, List.range'_succ]
  exact hm.bind (f := fun n => charsField chw.toNat (x.base.toNat + off.toNat + 1) n) hx hm'

/-! CHOICE (R191) -/

theorem decodeDescriptor_alt_off {w : Wide} {off target : Half}
    (h : decodeDescriptor w = .ok (.gwAlt off target)) : Decode.off w = off := by
  rw [← encode_of_decodeDescriptor h]
  exact Decode.off_gwWord _ _ _ _ _ _ _ _

/-- The alternatives that a CHOICE read, by their words. -/
theorem readAlts_spec {g n : Nat} {alts : List Alt} (h : readAlts g n s = .ok alts t) :
    alts.length = n ∧ ∀ j (hj : j < alts.length),
      alts[j].slot = s.base.toNat + (Decode.off (s.gtWord (g + j))).toNat ∧ alts[j].slot < s.params.docSlots := by
  induction n generalizing g alts with
  | zero => cases h; exact ⟨rfl, nofun⟩
  | succ n ih =>
    obtain ⟨off, target, rest, -, hw, hslot, hrest, rfl⟩ := readAlts_succ h
    obtain ⟨hlen, hwords⟩ := ih hrest
    refine ⟨congrArg Nat.succ hlen, fun j hj => ?_⟩
    cases j with
    | zero => exact ⟨by rw [Nat.add_zero, decodeDescriptor_alt_off hw]; rfl, hslot⟩
    | succ j =>
      have := hwords j (Nat.lt_of_succ_lt_succ hj)
      rwa [show g + 1 + j = g + (j + 1) by omega] at this

/-- The slots that a CHOICE reads as meaningful: those of its alternatives whose flag is 1. -/
theorem mem_fieldSlots_gwChoice {nalt : Half} {alts : List Alt}
    (h : readAlts (x.gpc.toNat + 1) nalt.toNat x = .ok alts t) (a : Nat) :
    a ∈ x.fieldSlots (.gwChoice nalt) ↔
      ∃ (j : Nat) (hj : j < alts.length), (x.docSlot alts[j].slot).toNat = 1 ∧ alts[j].slot = a := by
  obtain ⟨hlen, hwords⟩ := readAlts_spec h
  simp only [State.fieldSlots, List.mem_filterMap, List.mem_range, Option.ite_none_right_eq_some, Option.some.injEq]
  constructor
  · rintro ⟨j, hj, hflag⟩
    rw [← hlen] at hj
    obtain ⟨hslot, -⟩ := hwords j hj
    exact ⟨j, hj, by rwa [hslot]⟩
  · rintro ⟨j, hj, hflag⟩
    obtain ⟨hslot, -⟩ := hwords j hj
    exact ⟨j, by rwa [← hlen], by rwa [← hslot]⟩

theorem mirrored_gwChoice (nalt : Half) : Mirrored (.gwChoice nalt) := by
  refine mirrored_of_rule
    (pre := fun g => readAlts (g + 1) nalt.toNat >>= fun alts => current >>= fun s =>
      raiseIf (alts.any fun c => !s.jumpOk (g + nalt.toNat) c.target.toNat) .illegalGrammar 4 >>= fun _ => pure alts)
    (field := fun alts d => selectAlt alts (cl2 nalt.toNat) d) (post := fun _ c => setGpc c.target.toNat)
    (fun s => by simp only [exec, execGwChoice, bind_assoc, pure_bind])
    (fun _ => Act.stays_bind (fun _ _ _ h => readAlts_state h) fun _ => Act.stays_bind Act.stays_current fun _ =>
      Act.stays_bind (Act.stays_raiseIf _ _ _) fun _ => Act.stays_pure _)
    (fun _ _ _ _ => Act.same_bind (walked_readAlts _ _) fun _ =>
      Act.same_current (fun s t h => by simp only [h.jumpOk]) fun _ =>
        Act.same_bind (Act.same_raiseIf _ _ _) fun _ => Act.same_pure _)
    (fun _ _ _ _ _ => walked_setGpc _) fun x alts c u hx ha h => ?_
  obtain ⟨_, _, hread, ha⟩ := Act.bind_eq_ok ha
  obtain ⟨_, _, -, ha⟩ := Act.bind_eq_ok ha
  obtain ⟨_, _, -, ha⟩ := Act.bind_eq_ok ha
  cases ha
  obtain ⟨hlen, hwords⟩ := readAlts_spec hread
  have hslots : ∀ c ∈ alts, c.slot < x.params.docSlots := fun c hc => by
    obtain ⟨j, hj, rfl⟩ := List.getElem_of_mem hc
    obtain ⟨-, hlt⟩ := hwords j hj
    exact hlt
  obtain ⟨k, hk, rfl, -, hflags⟩ := selectAlt_encode_ok h
  refine (mirrors_selectAlt hx hslots (by rw [hlen]; exact le_two_pow_cl2 _) h).congr_slots fun a => ?_
  rw [mem_fieldSlots_gwChoice hread, List.mem_singleton]
  constructor
  · rintro ⟨j, hj, hone, rfl⟩
    have hjk : j = k := by
      by_contra hne
      rw [hflags j hj, if_neg hne] at hone
      cases hone
    subst hjk
    rfl
  · rintro rfl
    exact ⟨k, hk, by rw [hflags k hk, if_pos rfl], rfl⟩

/-- Every descriptor is mirrored. -/
theorem exec_mirrored (hi : i.isCommand = false) : Mirrored i := by
  cases i
  case gwEnd => exact mirrored_gwEnd
  case gwFail => exact mirrored_gwFail _
  case gwPres => exact mirrored_gwPres _ _
  case gwChoice => exact mirrored_gwChoice _
  case gwAlt => exact mirrored_gwAlt _ _
  case gwListN => exact mirrored_listForm (.inl ⟨rfl, rfl⟩) fun _ => rfl
  case gwListV => exact mirrored_listForm (.inr ⟨rfl, rfl⟩) fun _ => rfl
  case gwLend => exact mirrored_gwLend
  case gwEnum => exact mirrored_gwEnum _ _
  case gwNbit => exact mirrored_gwNbit _ _ _
  case gwVaruint => exact mirrored_gwVaruint _ _
  case gwStringN => exact mirrored_charsForm (.inl ⟨rfl, rfl⟩) fun _ => rfl
  case gwStringV => exact mirrored_charsForm (.inr (.inl ⟨rfl, rfl⟩)) fun _ => rfl
  case gwBytesN => exact mirrored_charsForm (.inr (.inr (.inl ⟨rfl, rfl, rfl⟩))) fun _ => rfl
  case gwBytesV => exact mirrored_charsForm (.inr (.inr (.inr ⟨rfl, rfl, rfl⟩))) fun _ => rfl
  all_goals cases hi

end Sys2Proof.Machine
end

section
/-! Proofs for 43_codec_fields.md, the round trip (O60): a follower of a whole encode run. -/

namespace Sys2Proof.Machine

variable {s t x y : State} {d : Dir} {i : Instr}

/-! A run goes on (R131, R132) -/

/-- The last move of a descriptor touches neither the memories nor the cursor. -/
theorem Move.sameContents {u : State} (h : Move i s u t) : u.sameContents t := by
  cases h <;> exact ⟨rfl, rfl, rfl, rfl⟩

theorem stepRun_onward (hs : s.registersOk) (hd : s.run = some d) (h : stepRun s = .next t) : Onward d s t := by
  obtain ⟨e, rfl⟩ | ⟨i, -, u, hu, hm⟩ := stepRun_did hd h
  · exact State.sameContents.onward (s := s) (t := s.takeFault e) ⟨rfl, rfl, rfl, rfl⟩ d
  · exact (hu.onward hs).trans (hm.sameContents.onward d)

/-- A step of a run ends it or leaves it in its direction. -/
theorem stepRun_run (hd : s.run = some d) (h : stepRun s = .next t) : t.run = none ∨ t.run = some d := by
  obtain ⟨e, rfl⟩ | ⟨i, -, u, hu, hm⟩ := stepRun_did hd h
  · exact .inl rfl
  · rw [← hd, show s.run = u.run by rw [hu.frame]]
    exact hm.run

theorem finishRun_registersOk (n : Nat) : ∀ s : State, s.registersOk → (s.finishRun n).registersOk := by
  induction n with
  | zero => exact fun _ hs => hs
  | succ n ih =>
    intro s hs
    cases hd : s.run with
    | none => rwa [finishRun_of_no_run hd]
    | some d =>
      obtain ⟨t, ht⟩ := stepRun_answers hd
      rw [finishRun_succ hd ht]
      exact ih t (stepRun_registersOk hd ht hs)

/-- A run goes on in its direction to its end. -/
theorem finishRun_onward (n : Nat) :
    ∀ s : State, s.registersOk → (s.run = none ∨ s.run = some d) → Onward d s (s.finishRun n) := by
  induction n with
  | zero => exact fun s _ _ => .refl d s
  | succ n ih =>
    rintro s hs (hr | hd)
    · rw [finishRun_of_no_run hr]
      exact .refl d s
    · obtain ⟨t, ht⟩ := stepRun_answers hd
      rw [finishRun_succ hd ht]
      exact (stepRun_onward hs hd ht).trans (ih t (stepRun_registersOk hd ht hs) (stepRun_run hd ht))

/-! The follower of a run (R229) -/

theorem runSlots_of_no_run (hr : s.run = none) (n : Nat) : s.runSlots n = [] := by
  cases n with
  | zero => rfl
  | succ n => rw [State.runSlots, hr]

/-- The slots of a run are those of its next step and those of the steps behind it. -/
theorem runSlots_succ (hd : s.run = some d) (hi : s.fetch = .ok i) (h : exec i s = .next t) (n : Nat) :
    s.runSlots (n + 1) = s.fieldSlots i ++ t.runSlots n := by
  rw [State.runSlots, hd, hi]
  simp only [h]

theorem Abreast.fetch (h : Abreast d x y) : y.fetch = x.fetch := by
  rw [State.fetch, State.fetch, h.params, h.gpc, h.gtWord]

/-- A run that ends without a fault has not faulted before: a fault ends it. -/
theorem no_fault_of_finishRun {n : Nat} (hs : s.registersOk) (hf : (s.finishRun n).status.fault = false) :
    s.status.fault = false := by
  obtain ⟨-, -, -, -, -, hfault, -⟩ := hs
  cases hc : s.status.fault with
  | false => rfl
  | true =>
    obtain ⟨-, hr⟩ := hfault hc
    rw [finishRun_of_no_run hr, hc] at hf
    cases hf

/-- Where an encode run ends without a fault, a follower that is supplied for the whole of it ends alike and has
followed the whole of it. -/
theorem finishRun_followed (n : Nat) :
    ∀ x y : State, x.registersOk → y.registersOk → Abreast d x y → (x.finishRun n).run = none →
      (x.finishRun n).status.fault = false → Supplied d (x.runSlots n) x (x.finishRun n) y →
      Abreast d (x.finishRun n) (y.finishRun n) ∧
        Followed d (x.runSlots n) x (x.finishRun n) y (y.finishRun n) := by
  induction n with
  | zero => exact fun x y _ _ hxy _ _ _ => ⟨hxy, .nil d x y⟩
  | succ n ih =>
    intro x y hx hy hxy hend hf hs
    obtain ⟨hdx, hdy⟩ | ⟨hrx, hry⟩ := hxy.run
    case inr =>
      rw [finishRun_of_no_run hrx, finishRun_of_no_run hry, runSlots_of_no_run hrx]
      exact ⟨hxy, .nil d x y⟩
    obtain ⟨x1, hx1⟩ := stepRun_answers hdx
    have hx1ok := stepRun_registersOk hdx hx1 hx
    rw [finishRun_succ hdx hx1] at hend hf hs ⊢
    have hf1 := no_fault_of_finishRun hx1ok hf
    obtain ⟨e, -, rfl⟩ | ⟨i, hi, hexec⟩ := stepRun_cases hx1
    · cases hf1
    rw [runSlots_succ hdx hi hexec] at hs ⊢
    have hxx1 := stepRun_onward hx hdx hx1
    have hx1end := finishRun_onward n x1 hx1ok (stepRun_run hdx hx1)
    obtain ⟨y1, hy1, hxy1, hfollowed⟩ := exec_mirrored (decodeDescriptor_isCommand (fetch_eq_ok hi).2) d x y x1 hx hy
      hxy hdx hexec hf1 (hs.first hx1end)
    rw [← stepRun_of_fetch (hxy.fetch.trans hi)] at hy1
    have hy1ok := stepRun_registersOk hdy hy1 hy
    have hyy1 := stepRun_onward hy hdy hy1
    obtain ⟨hxy', hfollowed'⟩ := ih x1 y1 hx1ok hy1ok hxy1 hend hf (hs.rest hxx1 hyy1)
    rw [finishRun_succ hdy hy1]
    exact ⟨hxy', hfollowed.trans hfollowed' hxx1 hx1end (finishRun_onward n y1 hy1ok (stepRun_run hdy hy1)) hxy1.pos⟩

/-! The codec commands from a ready block (R180, R181) -/

/-- The instruction of a codec command. -/
def codecCommand (entry : Half) : Dir → Instr
  | .encode => .cdEncode entry
  | .decode => .cdDecode entry

/-- The run that a codec command starts in `s`, at its end (R195). -/
def State.codecRun (s : State) (entry : Half) (d : Dir) : State := (s.startRun entry d).finishRun (runBound s.params)

/-- A codec command as one transition leaves what its run leaves (R197): that its word stands in CMD changes nothing. -/
theorem commandWhole_twins (hs : s.ready) (entry : Half) (d : Dir) :
    RunTwins (s.codecRun entry d) (s.commandWhole (encode (codecCommand entry d))) := by
  have hstep : stepCommand (encode (codecCommand entry d)) s =
      .next ((s.present (encode (codecCommand entry d))).startRun entry d) := by
    have hp : (s.present (encode (codecCommand entry d))).ready := hs
    cases d with
    | encode =>
      rw [codecCommand, stepCommand, commandDecodeEncode _ rfl rfl]
      exact congrArg _ (hp.command_run true _)
    | decode =>
      rw [codecCommand, stepCommand, commandDecodeEncode _ rfl rfl]
      exact congrArg _ (hp.command_run true _)
  have hagree : s.codecAgree (s.present (encode (codecCommand entry d))) :=
    ⟨rfl, fun _ => rfl, fun _ => rfl, fun _ => rfl, rfl, rfl, rfl, rfl⟩
  rw [commandWhole_eq_finishRun hstep]
  exact codecTwins_runTwins.finishRun _ (.of_codecAgree hagree hs hs entry d)

theorem RunTwins.bufBit (h : RunTwins s t) (q : Nat) : t.bufBit q = s.bufBit q := codecTwins_runTwins.bufBit h q

theorem State.registersOk.codecRun_ended (hs : s.registersOk) (entry : Half) (d : Dir) :
    (s.codecRun entry d).run = none := by
  obtain ⟨hp, -⟩ := hs
  exact finishRun_ends _ _ hp (s.startRun_loopsOk entry d) (stepsLeft_le_runBound hp)

theorem State.registersOk.startRun_of_ready (hs : s.registersOk) (h : s.ready) (entry : Half) (d : Dir) :
    (s.startRun entry d).registersOk := by
  obtain ⟨-, hf, hi⟩ := h
  exact hs.startRun hf hi entry d

/-- Two ready blocks with the same table at the same POS start abreast. -/
theorem Abreast.of_startRun (hx : x.ready) (hy : y.ready) (hp : y.params = x.params) (hg : ∀ g, y.gtWord g = x.gtWord g)
    (hpos : y.pos = x.pos) (entry : Half) (d : Dir) : Abreast d (x.startRun entry .encode) (y.startRun entry d) := by
  obtain ⟨-, hxf, -⟩ := hx
  obtain ⟨-, hyf, -⟩ := hy
  exact ⟨hp, funext hg, hpos, rfl, rfl, rfl, .inl ⟨rfl, rfl⟩, hyf.trans hxf.symm, nofun⟩

/-- The command that follows an encode without a fault, on a ready block that is supplied. -/
theorem codecRun_followed {entry : Half} (hx : x.ready) (hxs : x.registersOk) (hy : y.ready) (hys : y.registersOk)
    (hp : y.params = x.params) (hg : ∀ g, y.gtWord g = x.gtWord g) (hpos : y.pos = x.pos)
    (hf : (x.codecRun entry .encode).status.fault = false)
    (hs : Supplied d ((x.startRun entry .encode).runSlots (runBound x.params)) x (x.codecRun entry .encode) y) :
    Abreast d (x.codecRun entry .encode) (y.codecRun entry d) ∧
      Followed d ((x.startRun entry .encode).runSlots (runBound x.params)) x (x.codecRun entry .encode) y
        (y.codecRun entry d) := by
  obtain ⟨hroom, hslots, hbits⟩ := hs
  obtain ⟨hends, hfollowed⟩ := finishRun_followed (runBound x.params) _ _ (hxs.startRun_of_ready hx entry .encode)
    (hys.startRun_of_ready hy entry d) (.of_startRun hx hy hp hg hpos entry d) (hxs.codecRun_ended entry .encode) hf
    ⟨hroom, hslots, hbits⟩
  rw [State.codecRun, State.codecRun, hp]
  exact ⟨hends, hfollowed.bits, hfollowed.slots⟩

end Sys2Proof.Machine

namespace Sys2Proof

open Machine

/-- Settles O60: the decode finds on the stream what the encode wrote there, and the encode of what it left finds in DOC
what the first encode read there, or 0 where that did not count on what it read. -/
theorem messageRoundTrip : Obligations.MessageRoundTrip := by
  intro x y entry hx hxs hrc hfault hy hys hyp hyg hypos hbound hbits hzero
  have hX : RunTwins _ (x.commandWhole (encode (.cdEncode entry))) := commandWhole_twins hx entry .encode
  have hY : RunTwins _ (y.commandWhole (encode (.cdDecode entry))) := commandWhole_twins hy entry .decode
  have hended := hxs.codecRun_ended entry .encode
  rw [hX.ended hended] at hrc
  rw [hX.fault] at hfault
  simp only [hX.pos, hX.bufBit] at hbound hbits ⊢
  obtain ⟨hXY, hdec⟩ := codecRun_followed (d := .decode) hx hxs hy hys hyp hyg hypos hfault
    ⟨hbound, nofun, fun _ => hbits⟩
  have hdoc : ∀ a, (y.commandWhole (encode (.cdDecode entry))).docSlot a =
      if a ∈ (x.startRun entry .encode).runSlots (runBound x.params) then x.docSlot a else 0 := fun a => by
    rw [hY.docSlot, hdec.slots rfl a, hzero]
  refine ⟨?_, ?_, ?_, hdoc, fun z hz hzs hzp hzg hzpos hcap hzdoc => ?_⟩
  · rw [hY.ended (hXY.run_none hended), hXY.ended hended, hrc]
  · rw [hY.fault, hXY.fault, hfault]
  · rw [hY.pos, hXY.pos]
  · have hZ : RunTwins _ (z.commandWhole (encode (.cdEncode entry))) := commandWhole_twins hz entry .encode
    have hroom : (x.codecRun entry .encode).pos.toNat ≤ z.accessBound .encode := by
      have hstart := hxs.startRun_of_ready hx entry .encode
      obtain ⟨-, -, hpos, -⟩ := finishRun_registersOk (runBound x.params) _ hstart
      have hcap' := (finishRun_onward (d := .encode) (runBound x.params) _ hstart (.inr rfl)).bound
      calc (x.codecRun entry .encode).pos.toNat ≤ x.accessBound .encode := hpos.trans_eq hcap'
        _ ≤ z.accessBound .encode := Nat.mul_le_mul_right 8 hcap
    have hany : ∀ a, z.docSlot a = 0 ∨ z.docSlot a = x.docSlot a := fun a => by
      rw [hzdoc, hdoc]
      exact (ite_eq_or_eq _ _ _).symm
    obtain ⟨hXZ, henc⟩ := codecRun_followed (d := .encode) hx hxs hz hzs hzp hzg hzpos hfault
      ⟨hroom, fun _ => ⟨fun a ha => by rw [hzdoc, hdoc, if_pos ha], hany⟩, nofun⟩
    refine ⟨?_, ?_, fun q hq hqX => ?_⟩
    · rw [hZ.ended (hXZ.run_none hended), hXZ.ended hended, hrc]
    · rw [hZ.pos, hXZ.pos]
    · rw [hZ.bufBit, henc.bits rfl q hq hqX]

end Sys2Proof
end

section
/-! Proofs for 60_exceptions.md: the acceptance of a command word (O7, O10, O11) and the way out of the fault state
(O12). -/

namespace Sys2Proof.Machine

variable {s t u : State} {d : Dir} {i : Instr}

/-! The acceptance of a command word (R252) -/

/-- A word that decodes to a command is executed in the state where it stands in CMD (R252 test 4). -/
theorem stepCommand_of_decoded {w : Wide} (hw : decodeCommand w = .ok i) :
    stepCommand w s = exec i (s.present w) := by
  rw [stepCommand, hw]

/-- In the fault state every command but BS_INIT is refused (R257, R252 test 1). -/
theorem exec_refused (hc : i.isCommand = true) (hi : ∀ cap start ext, i ≠ .bsInit cap start ext)
    (hf : s.status.fault = true) : exec i s = .next s.refuse := by
  obtain ⟨t, ht⟩ := exec_command_answers hc s
  obtain ⟨cap, start, ext, rfl, -⟩ | ⟨-, rfl⟩ | ⟨hn, -⟩ := exec_command hc ht
  · exact absurd rfl (hi cap start ext)
  · exact ht
  · cases hf.symm.trans hn

/-- In the fault state every word, legal or not, that is not a legal BS_INIT is refused (R257). -/
theorem stepCommand_refused {w : Wide} (hf : s.status.fault = true)
    (hw : ∀ cap start ext, decodeCommand w ≠ .ok (.bsInit cap start ext)) :
    stepCommand w s = .next (s.present w).refuse := by
  cases hd : decodeCommand w with
  | ok i =>
    rw [stepCommand_of_decoded hd]
    exact exec_refused (decodeCommand_isCommand hd) (fun cap start ext hi => hw cap start ext (hi ▸ hd)) hf
  | error why => rw [stepCommand, hd, illegalCommand, State.present_status, if_pos hf]

/-! What keeps a latched fault (R258) -/

/-- No move of the walk clears FAULT. -/
theorem Move.fault_latched (h : Move i s u t) (hu : u.status.fault = true) : t.status.fault = true := by
  cases h
  case fault | leaveFault => exact rfl
  case done | next | jump | enter | element | leave => exact hu

/-- No step of a codec run clears FAULT. -/
theorem stepRun_fault_latched (hd : s.run = some d) (h : stepRun s = .next t) (hf : s.status.fault = true) :
    t.status.fault = true := by
  obtain ⟨e, rfl⟩ | ⟨i, -, u, hu, hm⟩ := stepRun_did hd h
  · exact rfl
  · exact hm.fault_latched (by rw [hu.frame]; exact hf)

/-- No port operation but reset touches STATUS (R42, R77). -/
theorem portOp_status {op : HostOp} (ho : op ≠ .reset) : (s.portOp op).status = s.status := by
  obtain ⟨b, x, g, v, h⟩ := portOp_frame (s := s) ho
  rw [h]

/-- A BS_INIT that leaves no fault latched was in range: its rejections raise (R130). -/
theorem bsInit_in_range {cap start ext : Word} (h : exec (.bsInit cap start ext) s = .next t)
    (ht : t.status.fault = false) : cap.toNat ≤ s.params.bufBytes ∧ start.toNat ≤ cap.toNat * 8 := by
  obtain rfl := Host.Outcome.next.inj ((exec_bsInit s cap start ext).symm.trans h)
  split at ht
  · cases ht
  · next hcap =>
    split at ht
    · cases ht
    · next hstart => exact ⟨Nat.not_lt.1 hcap, Nat.not_lt.1 hstart⟩

/-- A command word that leaves the fault state is a BS_INIT in range (R258). -/
theorem stepCommand_leaves_fault {w : Wide} (h : stepCommand w s = .next t) (hf : s.status.fault = true)
    (ht : t.status.fault = false) : ∃ cap start ext, decodeCommand w = .ok (.bsInit cap start ext) ∧
      cap.toNat ≤ s.params.bufBytes ∧ start.toNat ≤ cap.toNat * 8 := by
  by_cases hw : ∃ cap start ext, decodeCommand w = .ok (.bsInit cap start ext)
  · obtain ⟨cap, start, ext, hw⟩ := hw
    rw [stepCommand_of_decoded hw] at h
    exact ⟨cap, start, ext, hw, bsInit_in_range (s := s.present w) h ht⟩
  · have hr := stepCommand_refused hf fun cap start ext hi => hw ⟨cap, start, ext, hi⟩
    obtain rfl := Host.Outcome.next.inj (hr.symm.trans h)
    cases hf.symm.trans ht

end Sys2Proof.Machine

namespace Sys2Proof

open Machine

/-- Settles O7: the host's queue is served, and the word that stood at its head is accepted. -/
theorem stepRunsTheCommand : Obligations.StepRunsTheCommand := fun _ _ _ _ hr hi hw =>
  (step_eq_stepCommand hr hi).trans (stepCommand_of_decoded hw)

/-- Settles O10: each of the six rules is behind the acceptance that asks for INITED. -/
theorem needsInitialisation : Obligations.NeedsInitialisation := by
  intro i s hi hr hf hn
  have uninited : ∀ body, command true body s =
      { s with rc := 6, status := { s.status with fault := true, code := 6, sub := 2 } } := fun body =>
    (command_uninited s body hf hn).trans (State.takeFault_of_no_run hr _)
  obtain ⟨v, w, rfl⟩ | ⟨w, rfl⟩ | rfl | ⟨b, rfl⟩ | ⟨e, rfl⟩ | ⟨e, rfl⟩ := hi
  all_goals exact congrArg Host.Outcome.next (uninited _)

/-- Settles O11: a word that is no BS_INIT is refused, whether the decoder accepts it or not. -/
theorem faultStateRefuses : Obligations.FaultStateRefuses := fun _ _ hf hw => stepCommand_refused hf hw

/-- Settles O12: of all that a step can be, a reset and a BS_INIT in range alone clear FAULT. -/
theorem faultStateLeftOnlyByInit : Obligations.FaultStateLeftOnlyByInit := by
  intro s t h hf ht
  have hlatched : ¬ t.status.fault = true := ne_true_of_eq_false ht
  obtain ⟨rest, hi, -⟩ | ⟨-, ⟨d, hd⟩, hrun⟩ | ⟨-, -, hhost⟩ := step_cases h
  · exact .inl ⟨rest, hi⟩
  · exact absurd (stepRun_fault_latched hd hrun hf) hlatched
  · obtain ⟨-, rfl⟩ | ⟨w, rest, hi, hc⟩ | ⟨op, rest, -, -, ho, rfl⟩ := hhost
    · exact absurd hf hlatched
    · obtain ⟨cap, start, ext, hw, hrange⟩ := stepCommand_leaves_fault hc hf ht
      exact .inr ⟨w, rest, cap, start, ext, hi, hw, hrange⟩
    · rw [portOp_status ho] at hlatched
      exact absurd hf hlatched

end Sys2Proof
end

section
/-! Proofs for 70_reset_and_hazards.md: the reset event and the idle step (O16). -/

namespace Sys2Proof.Machine

/-- The reset event leaves every numbered register at 0, whatever the state was (R290, R43): the register port
reads nothing of what the event keeps. -/
@[simp] theorem hostRegRead_resetEvent (s : State) (n : Nat) : s.resetEvent.hostRegRead n = 0 :=
  hostRegRead_resetWith s.params n

end Sys2Proof.Machine

namespace Sys2Proof

open Machine

/-- Settles O16: a reset at the head of the queue is served whether a run is in progress or not, and a step with no
run and an empty queue is the identity. -/
theorem resetEvent : Obligations.ResetEvent := by
  refine ⟨fun s rest hi => ?reset, fun s hi hr => ?idle⟩
  case reset =>
    exact ⟨(s.served rest).resetEvent, step_eq_resetEvent hi, hostRegRead_resetEvent _, rfl, rfl, rfl, rfl, rfl⟩
  case idle => exact step_eq_self hr hi

end Sys2Proof
end
